-- ==== Sys2Proof/Word.lean ====
section
/-! DEFINITION. The word of the Selhan 4820 and the numbering of its things (spec 00, sections 6.1 and 6.3). -/

namespace Sys2Proof

/-- A word is 16 bits, bit 15 the most significant (00 section 6.1 b). -/
abbrev Word := BitVec 16

/-- A byte of a cluster-line message, a character or key code, a width. -/
abbrev Byte := BitVec 8

/-- A memory word address, 0 to 4,194,303 (00 section 6.1 c). -/
abbrev Address := BitVec 22

/-- Processors 0 to 3. -/
abbrev Processor := Fin 4

/-- Cluster lines 0 to 7. -/
abbrev LineNo := Fin 8

/-- Terminals 0 to 63; terminal = line × 8 + address. -/
abbrev TerminalNo := Fin 64

/-- Desks 0 to 15. -/
abbrev DeskNo := Fin 16

/-- Stories 0 to 1023. -/
abbrev StoryNo := Fin 1024

/-- Blocks 0 to 8191. -/
abbrev BlockNo := Fin 8192

/-- Pages 1 to 96; page p stands as the index p - 1. -/
abbrev PageNo := Fin 96

/-- The number the host and the typesetter know the page by, 1 to 96. -/
def PageNo.number (p : PageNo) : Nat := p.val + 1

/-- Command cells 0 to 7. -/
abbrev CellNo := Fin 8

end Sys2Proof
end

