-- ==== Sys2Proof/Syntax.lean ====
section
/-! DEFINITION. The commands of the part: one constructor for each row of spec/opcode_table.json, with the row's
operands. A row that a command cell gives (TERMINAL_ON and the like) has no operands: its arguments are the words
the command unit has read from the cell (R24). A host write carries the processor, the word address and the value
on the bus; a line row carries the cluster line and the byte that arrives. -/

namespace Sys2Proof

inductive Instr where
  -- the reset line (R20, R1)
  | reset
  | resetRelease (straps : BitVec 4)
  -- host writes (R6)
  | hostWrite (p : Processor) (a : Address) (v : Word)
  | storyWrite (p : Processor) (a : Address) (v : Word)
  | screenRowWrite (p : Processor) (a : Address) (v : Word)
  | takeWordWrite (p : Processor) (a : Address) (v : Word)
  | contextWordWrite (p : Processor) (a : Address) (v : Word)
  | attentionMaskWrite (p : Processor) (a : Address) (v : Word)
  | attentionClearWrite (p : Processor) (a : Address) (v : Word)
  | refusalCountClear (p : Processor) (a : Address) (v : Word)
  | goWordWrite (p : Processor) (a : Address) (v : Word)
  | fontsPresentWrite (p : Processor) (a : Address) (v : Word)
  | deskTableWrite (p : Processor) (a : Address) (v : Word)
  | widthTableWrite (p : Processor) (a : Address) (v : Word)
  -- the command unit (R24, R28, R30)
  | cellTake
  | cellWordRead
  | cellResultWrite
  | start
  | startConfigRead
  -- commands on lines and terminals (R54 to R56)
  | terminalOn
  | terminalOff
  | lineReset
  -- sessions and notices (R84, R85, R70, R71)
  | signOn
  | signOff
  | ackNotice
  | postNotice
  -- custody commands (R100 to R108)
  | create
  | attach
  | detach
  | submit
  | openStory
  | send
  | returnStory
  | kill
  | setStyle
  | refit
  -- clock commands (R116, R117, R119)
  | clockRun
  | clockPause
  | setClock
  | setEditions
  -- page commands (R154 to R166)
  | pageOpen
  | setClose
  | place
  | unplace
  | pageClear
  | release
  | replate
  -- link commands (R180 to R182)
  | linkOn
  | linkOff
  | linkResume
  -- the mirror writer (R33)
  | mirrorWriteOutBegin
  | mirrorWordWrite
  -- line engines (R40 to R50)
  | rowWordRead (l : LineNo)
  | messageSent (l : LineNo)
  | takenAnswer (l : LineNo) (b : Byte)
  | busyAnswer (l : LineNo) (b : Byte)
  | keysAnswer (l : LineNo) (b : Byte)
  | quietAnswer (l : LineNo) (b : Byte)
  | answerBadKindOrCount (l : LineNo) (b : Byte)
  | answerWindowExpiry (l : LineNo)
  | quietWindowExpiry (l : LineNo)
  -- key intake (R78 to R80)
  | keyIntakeWriteBegin
  | keyWordWrite
  | putWordWrite
  | statusWordWrite
  -- the notice writer (R67)
  | noticeRowWriteBegin
  | noticeRowWordWrite
  -- custody's reports (R109)
  | writeReport
  -- the clock (R115, R120 to R124, R159)
  | pulse
  | editionClose
  | pageLate
  | leaseFirstExpiry
  | leaseSecondExpiry
  -- the fit engine (R137)
  | fitWordRead
  -- the setting link (R173 to R177)
  | pageTake
  | textWordRead
  | frameSent
  | linkPulse
  | frameTimeout
  | holdWaitEnd
  | holdLimitExceeded
  | accept
  | hold
  | reject (answer : Word)
  | lineByteReceived (l : LineNo) (b : Byte)
  deriving DecidableEq, Repr

end Sys2Proof
end

