-- ==== Sys2Proof/Decode.lean ====
section
/-! DEFINITION. The commands a word spells by the table's bits. spec/opcode_table.json gives no row any bits (no
row has "fixed" or fields with places), so no word spells a command. -/

namespace Sys2Proof

/-- The command an instruction word of `nbits` bits spells: none, since the table gives no row bits. -/
def decodeTableWord (nbits w : Nat) : Option Instr :=
  match nbits, w with
  | _, _ => none

end Sys2Proof
end

