-- ==== Sys2Proof/Config.lean ====
section
/-! DEFINITION. What is fixed for the part: the sizes of the array and of the areas (R1), and what a word of
memory that nothing has written reads as (DESIGN CHOICE, log 4). One value the spec leaves open is free (log 5). -/

namespace Sys2Proof.Config

/-- Words of the story memory array (00 section 6.1 c). -/
def memoryWords : Nat := 4194304

/-- Words of the control page, which the strap value times `strapStep` places (R1). -/
def controlPageWords : Nat := 4096

/-- The step between two control page positions (R1). -/
def strapStep : Nat := 262144

/-- Words of the screen area: 64 windows of `windowWords` (R1). -/
def screenAreaWords : Nat := 131072

/-- Words of one screen window (R1). -/
def windowWords : Nat := 2048

/-- Words of the story area: 8,192 blocks of `blockWords` (R1). -/
def storyAreaWords : Nat := 1048576

/-- Words of one block (R1). -/
def blockWords : Nat := 128

/-- Words of the directory area (R1). -/
def directoryAreaWords : Nat := 12160

/-- The alignment of the directory area's base (R1). -/
def directoryAlignment : Nat := 1024

/-- DESIGN CHOICE (log 4), unsafe: the spec gives memory no contents at power-on; a word that nothing has written
reads as 0. -/
def powerOnWord : Word := 0#16

/-- R20, a free value (log 5): the word of the `n`-th host write that RESET abandons holds the value being written,
or else its old value. The spec leaves open which, and nothing here says it. -/
opaque abandonedStores : Nat → Bool

end Sys2Proof.Config
end

