-- ==== Sys2Proof/Machine/State.lean ====
section
/-! DEFINITION. The state of the part as plain data: one structure for each of the ten blocks (00 section 3),
memory beside them, and the queue of commands waiting. `Chip` is what the part itself holds and reset clears;
memory stands outside the part and reset leaves it untouched (00 section 4). -/

namespace Sys2Proof.Machine

/-! ## The reasons a step can stop -/

/-- Why the machine stops. Both reasons arise only in states no run from reset reaches (log 16). -/
inductive Fault where
  /-- Raised by an own access to an area that the area map does not place: there is no address to give the port.
  Safe: every such item is made pending by START or later, when the areas are placed (R1, R31). -/
  | areaNotPlaced
  /-- Raised by an own access whose address lies at or above 4,194,304. Safe: START refuses such bases (R30). -/
  | addressOutside
  deriving DecidableEq, Repr

/-- Why a command has no meaning. -/
inductive Refusal where
  /-- Raised by exec's arm of a command that is not modelled. Safe: the machine stops. No arm raises it. -/
  | notModelled (mnemonic : String)
  deriving DecidableEq, Repr

/-! ## The path checker (chapter 1) -/

/-- The party for whom a processor works (R4). -/
inductive Context where
  | terminal (t : TerminalNo)
  | system
  | none
  deriving DecidableEq, Repr

/-- The refusal reasons of R15, codes 1 to 8 in this order. -/
inductive RefusalReason where
  | writeProtected
  | freeBlock
  | badContext
  | notHolder
  | atRest
  | frozen
  | badIndex
  | cellBusy
  deriving DecidableEq, Repr

/-- The four values of the refusal record (R15 b). -/
structure RefusalRecord where
  processor : Processor
  address : Address
  reason : RefusalReason
  context : Context
  deriving DecidableEq, Repr

/-- The own requesters of the memory port (R17 c). -/
inductive Requester where
  | line (l : LineNo)
  | keyIntake
  | noticeWriter
  | fitEngine
  | linkEngine
  | mirrorWriter
  | commandUnit
  deriving DecidableEq, Repr

/-- What the path checker holds (chapter 1, R20). An area is absent or stands at its base. -/
structure PathChecker where
  controlPage : Option Nat
  screenArea : Option Nat
  storyArea : Option Nat
  directoryArea : Option Nat
  contexts : Vector Context 4
  refusalCount : Word
  refusalRecord : Option RefusalRecord
  /-- A refusal stands in the record that no begun write-out carries (R16). -/
  refusalUncarried : Bool
  /-- The round-robin position: the own requester last granted (R17). -/
  lastGranted : Requester
  /-- The refusal indication of the last host write that completed on the bus (R6; log 9). -/
  refusalIndication : Bool
  deriving DecidableEq, Repr

/-! ## The command unit and the mirror writer (chapter 2) -/

/-- The service states (R29). -/
inductive Service where
  | stopped
  | starting
  | running
  deriving DecidableEq, Repr

/-- The states of a command cell (R21). -/
inductive CellState where
  | empty
  | go
  | busy
  | done
  deriving DecidableEq, Repr

/-- A command cell: its state and its captured context (R21, R22). -/
structure Cell where
  state : CellState
  context : Option Context
  deriving DecidableEq, Repr

/-- The five states of the command unit. -/
inductive CommandPhase where
  | idle
  | reading
  | acting
  | waiting
  | reporting
  deriving DecidableEq, Repr

/-- The result codes of R28, 0 to 17 in this order. -/
inductive ResultCode where
  | ok
  | unknownCommand
  | badArgument
  | notRunning
  | noClearance
  | wrongState
  | notSignedOn
  | noFreeStory
  | blockTaken
  | listFull
  | basketFull
  | alreadyPlaced
  | pageFull
  | emptyPage
  | storyOpen
  | notFit
  | queueFull
  | configBad
  deriving DecidableEq, Repr

/-- Where START stands (R30, R32): not begun, reading its configuration words, or clearing the directory. -/
inductive StartStage where
  | notBegun
  | reading
  | clearing
  deriving DecidableEq, Repr

/-- The items of the mirror writer (section 2.4): records, desk entries and groups of status words. -/
inductive MirrorItem where
  | story (s : StoryNo)
  | page (p : PageNo)
  | desk (d : DeskNo)
  | attentionRaw
  | serviceState
  | clockCount
  | currentEdition
  | linkState
  | outputCount
  | fitCount
  | refusal
  | freeStories
  | freeBlocks
  deriving DecidableEq, Repr

/-- An item of a wait set; `begun` once a write-out that began after the marking is in progress (R28 b). -/
structure WaitEntry where
  item : MirrorItem
  begun : Bool
  deriving DecidableEq, Repr

/-- What the command unit holds: service state, cells, the command it serves, and the attention words. -/
structure CommandUnit where
  service : Service
  cells : Vector Cell 8
  phase : CommandPhase
  serving : Option CellNo
  lastServed : CellNo
  /-- Words 0 to 6 of the cell as far as they have been read (R24). -/
  wordsRead : List Word
  context : Context
  result : ResultCode
  resultWords : List Word
  /-- How many result words have been written (R28 c). -/
  reported : Nat
  waitSet : List WaitEntry
  /-- The model's own: true only inside an event that is the action of a command, so that a marking made in it
  enters the wait set (R28 a; log 22). -/
  collecting : Bool
  startStage : StartStage
  /-- Configuration words 96 onward as far as START has read them (R30). -/
  configRead : List Word
  attentionRaw : Byte
  attentionMask : Byte
  attentionLine : Bool
  deriving DecidableEq, Repr

/-- A write-out in progress: the item, the copied words still to write, the offset in the item of the next one, and
whether it carries a refusal not carried before (R16, R33). -/
structure WriteOut where
  item : MirrorItem
  words : List Word
  offset : Nat
  carriesRefusal : Bool
  deriving DecidableEq, Repr

/-- The mirror writer (R33). -/
structure MirrorWriter where
  pending : List MirrorItem
  writing : Option WriteOut
  deriving DecidableEq, Repr

/-! ## Line engines and terminals (chapter 3) -/

inductive LinePhase where
  | idle
  | reading
  | sending
  | awaiting
  | quieting
  deriving DecidableEq, Repr

/-- The two kinds of visit (R45). -/
inductive VisitKind where
  | full
  | probe
  deriving DecidableEq, Repr

/-- The two messages of a line engine (R40). -/
inductive MessageKind where
  | poll
  | row
  deriving DecidableEq, Repr

/-- A message on the line: a POLL, or a ROW with its row number and words (R40). -/
inductive LineMessage where
  | poll
  | row (r : Fin 24) (words : List Word)
  deriving DecidableEq, Repr

/-- The visit record (R38). -/
structure Visit where
  terminal : TerminalNo
  kind : VisitKind
  rowsSent : Nat
  rowInHand : Option (Fin 24)
  awaited : MessageKind
  deriving DecidableEq, Repr

/-- What follows the quiet wait (R44, R55, R56). -/
inductive AfterQuiet where
  | nextAddress
  | testLine
  | newSweep
  deriving DecidableEq, Repr

/-- What a line engine holds (R38). -/
structure LineEngine where
  speed : BitVec 2
  rowBudget : Nat
  answerWindow : Nat
  phase : LinePhase
  sweepCounter : Word
  position : Fin 8
  visit : Option Visit
  /-- Words of the row in hand read so far (R47). -/
  rowWords : List Word
  /-- The message being sent, or awaited upon (R40). -/
  message : Option LineMessage
  /-- Answer bytes received so far (R41). -/
  received : List Byte
  afterQuiet : AfterQuiet
  deriving DecidableEq, Repr

/-- The link states of a terminal (R39), codes 0 to 3 in this order. -/
inductive TerminalState where
  | off
  | up
  | suspect
  | down
  deriving DecidableEq, Repr

/-- Link state and miss count of one terminal (R39). -/
structure TerminalLink where
  state : TerminalState
  misses : Fin 4
  deriving DecidableEq, Repr

/-! ## The screen and notice unit (chapter 4) -/

/-- The kinds of notice (R60). -/
inductive NoticeKind where
  | arrived
  | recalled
  | idle
  | overset
  | killed
  | released
  | pageSet
  | late
  | linkFault
  | termDown
  | editionClosed
  | message
  deriving DecidableEq, Repr

/-- A notice record (R60). -/
structure Notice where
  kind : NoticeKind
  subject : Nat
  second : Option Nat
  count : Nat
  deriving DecidableEq, Repr

/-- What the unit holds for one terminal (R57, R62). The dirty-row set marks rows 0 to 23. -/
structure Screen where
  dirty : Vector Bool 24
  queue : List Notice
  more : Bool
  deriving DecidableEq, Repr

/-- A notice-row write in progress: the terminal, the composed words still to write, the next column (R67). -/
structure RowWrite where
  terminal : TerminalNo
  words : List Word
  column : Nat
  deriving DecidableEq, Repr

/-- The notice writer (R67). -/
structure NoticeWriter where
  pending : List TerminalNo
  writing : Option RowWrite
  deriving DecidableEq, Repr

/-! ## Key intake (chapter 5) -/

/-- The clearances, codes 0 to 2 in this order (R83). -/
inductive Clearance where
  | read
  | edit
  | slot
  deriving DecidableEq, Repr

structure Session where
  desk : DeskNo
  clearance : Clearance
  deriving DecidableEq, Repr

/-- What key intake holds for one terminal (R72). -/
structure KeyRing where
  take : Fin 64
  put : Fin 64
  waiting : List Byte
  overrun : Bool
  functionPending : Option (Fin 64)
  textMark : Bool
  functionMark : Bool
  session : Option Session
  deriving DecidableEq, Repr

/-- The six kinds of item of key intake's write list (R78). -/
inductive KeyItem where
  | keyWords (t : TerminalNo)
  | putWord (t : TerminalNo)
  | keyState (t : TerminalNo)
  | sessionWord (t : TerminalNo)
  | linkWord (t : TerminalNo)
  | takeWord (t : TerminalNo)
  deriving DecidableEq, Repr

/-- Key intake's write list and the item in progress (R78). -/
structure KeyWriter where
  pending : List KeyItem
  writing : Option KeyItem
  deriving DecidableEq, Repr

/-! ## Custody (chapter 6) and the fit fields of a story (chapter 8) -/

inductive StoryState where
  | free
  | intake
  | basket
  | open_
  | set
  deriving DecidableEq, Repr

/-- A story's style (R87): half-points, sixteenths, points, set units. -/
structure Style where
  font : Fin 8
  size : Nat
  leading : Nat
  measure : Nat
  track : Int
  deriving DecidableEq, Repr

inductive FitState where
  | current
  | stale
  | running
  deriving DecidableEq, Repr

/-- The statuses of a run (R147). -/
inductive FitStatus where
  | noFont
  | unterminated
  | overset
  | fits
  | unplaced
  deriving DecidableEq, Repr

/-- A recorded fit result (R147); its fonts-used set stands in the story record. -/
structure FitResult where
  status : FitStatus
  lines : Nat
  depth : Nat
  deep : Bool
  overset : Nat
  cut : Option Nat
  forced : Nat
  spaceLeft : Option Nat
  deriving DecidableEq, Repr

/-- An idle lease (R97, R121). -/
structure Lease where
  remaining : Nat
  warned : Bool
  deriving DecidableEq, Repr

/-- A story record (R87). `next in basket` is computed from the baskets (log 17). -/
structure Story where
  state : StoryState
  desk : DeskNo
  urgent : Bool
  holder : Option TerminalNo
  blocks : List BlockNo
  style : Style
  hole : Nat
  page : Option PageNo
  fit : FitState
  rerun : Bool
  result : Option FitResult
  fontsUsed : Byte
  version : Byte
  stamp : Word
  lease : Option Lease
  deriving DecidableEq, Repr

inductive IdleAction where
  | notify
  | recall
  deriving DecidableEq, Repr

/-- A desk: its settings (R98), its basket (R91) and its open count (R95). -/
structure Desk where
  name : Vector Byte 8
  basketLimit : Nat
  idleLimit : Nat
  idleAction : IdleAction
  basket : List StoryNo
  openCount : Nat
  deriving DecidableEq, Repr

/-- What custody holds beside the story table and the desks. -/
structure Custody where
  owners : Vector (Option StoryNo) 8192
  held : Vector (List StoryNo) 64
  freeStories : Nat
  freeBlocks : Nat
  /-- Custody's report list (R8). -/
  reports : List StoryNo
  deriving DecidableEq, Repr

/-! ## The night clock (chapter 7) -/

/-- The clock and the edition schedule (R114, R118); the length of `closes` is n. -/
structure NightClock where
  count : Word
  running : Bool
  closes : List (Option Word)
  current : Nat
  deriving DecidableEq, Repr

/-! ## The fit engine (chapter 8) -/

/-- A break record (R136): the width the line has if it ends there, the width the next line leaves behind, the
start index of the next line. -/
structure Break where
  endWidth : Nat
  leftBehind : Nat
  start : Nat
  deriving DecidableEq, Repr

/-- The running fit: the story, the copied block list, the index of the next word, and the working state of R136. -/
structure FitRun where
  story : StoryNo
  blocks : List BlockNo
  index : Nat
  font : Fin 8
  size : Nat
  leading : Nat
  measure8 : Nat
  track : Int
  hole : Nat
  width : Nat
  break_ : Option Break
  content : Bool
  lineStart : Nat
  lines : Nat
  depth : Nat
  deep : Bool
  overset : Nat
  cut : Option Nat
  forced : Nat
  fonts : Byte
  deriving DecidableEq, Repr

/-- A word of a block, as the fit engine requests it at the port (R137). -/
structure CopyPlace where
  block : BlockNo
  word : Fin 128
  deriving DecidableEq, Repr

/-- What the fit engine holds; the engine is RUNNING while `run` is present (R136). -/
structure FitEngine where
  widths : Vector (Vector Byte 256) 8
  mask : Byte
  queue : List StoryNo
  run : Option FitRun
  /-- Words that killed runs had requested and the port has yet to serve; none is processed (R149; log 27). -/
  abandoned : List CopyPlace
  deriving DecidableEq, Repr

/-! ## The page controller (chapter 9) -/

inductive PageState where
  | empty
  | makeup
  | queued
  | setting
  | set
  deriving DecidableEq, Repr

structure Placement where
  story : StoryNo
  hole : Nat
  deriving DecidableEq, Repr

/-- A page record (R151). -/
structure Page where
  state : PageState
  desk : DeskNo
  close : Option Word
  late : Bool
  placements : List Placement
  stamp : Option Word
  edition : Option Nat
  plates : Byte
  deriving DecidableEq, Repr

/-! ## The setting link engine (chapter 10) -/

inductive LinkState where
  | off
  | idle
  | sending
  | holding
  | fault
  deriving DecidableEq, Repr

inductive LinkStage where
  | reading
  | transmitting
  | awaiting
  deriving DecidableEq, Repr

/-- The kinds of frame (R171), codes 1 to 5 in this order. -/
inductive FrameKind where
  | pageOpen
  | storyOpen
  | text
  | pageClose
  | abandon
  deriving DecidableEq, Repr

/-- A frame: its kind and payload; the length and check words follow from them (R171). -/
structure Frame where
  kind : FrameKind
  payload : List Word
  deriving DecidableEq, Repr

/-- The next frame of the page's order (R172), by placement index, and for text by the index of its first word. -/
inductive FramePosition where
  | storyOpen (placement : Nat)
  | text (placement : Nat) (index : Nat)
  | pageClose
  deriving DecidableEq, Repr

/-- What the setting link engine holds (R170). -/
structure SettingLink where
  state : LinkState
  stage : Option LinkStage
  page : Option PageNo
  abandoning : Option PageNo
  offMark : Bool
  position : Option FramePosition
  /-- The block list of the story being sent, copied at its STORY OPEN (R172). -/
  blocks : List BlockNo
  frame : Option Frame
  tries : Nat
  holds : Nat
  answerWait : Nat
  wordsSent : Nat
  holdLimit : Nat
  deriving DecidableEq, Repr

/-! ## The part, and the machine -/

/-- Everything the part holds. -/
structure Chip where
  resetAsserted : Bool
  path : PathChecker
  cu : CommandUnit
  mirror : MirrorWriter
  lines : Vector LineEngine 8
  links : Vector TerminalLink 64
  screens : Vector Screen 64
  noticeWriter : NoticeWriter
  keys : Vector KeyRing 64
  keyWriter : KeyWriter
  stories : Vector Story 1024
  desks : Vector Desk 16
  custody : Custody
  clock : NightClock
  fit : FitEngine
  pages : Vector Page 96
  outputQueue : List PageNo
  link : SettingLink
  deriving DecidableEq, Repr

/-- Story memory: the listed words, addresses strictly rising, none equal to `Config.powerOnWord` (log 4). -/
abbrev Memory := List (Nat × Word)

/-- A host write on the bus. -/
structure HostAccess where
  processor : Processor
  address : Address
  value : Word
  deriving DecidableEq, Repr

/-- An accepted host write at the memory port: where it stores, and the word that stood there (R20). -/
structure PortWrite where
  address : Address
  old : Word
  deriving DecidableEq, Repr

/-- The machine: the part, the memory behind it, the host writes that wait on the bus while the reset line is
asserted (R20; log 8), and the queue of commands waiting, first in first out. -/
structure State where
  chip : Chip
  memory : Memory
  busWaiting : List HostAccess
  /-- The host write last granted the port, until another host write or an own access is granted, host reads apart: the
  access in progress that RESET abandons (R20; log 5). -/
  inProgress : Option PortWrite
  /-- The model's own: how many host writes RESET has abandoned, which picks the free value of the next (log 5). -/
  abandonedCount : Nat
  pending : List Instr
  deriving DecidableEq, Repr

/-! ## Reset -/

/-- R20. The control page is placed when the line is released. -/
def PathChecker.reset : PathChecker :=
  { controlPage := none, screenArea := none, storyArea := none, directoryArea := none,
    contexts := Vector.replicate 4 Context.none, refusalCount := 0, refusalRecord := none,
    refusalUncarried := false, lastGranted := .commandUnit, refusalIndication := false }

/-- R22, R29, R37 and section 2.2; the fields the spec gives no value are empty (DESIGN CHOICE, log 25). -/
def CommandUnit.reset : CommandUnit :=
  { service := .stopped, cells := Vector.replicate 8 { state := .empty, context := none }, phase := .idle,
    serving := none, lastServed := 7, wordsRead := [], context := .none, result := .ok, resultWords := [],
    reported := 0, waitSet := [], collecting := false, startStage := .notBegun, configRead := [],
    attentionRaw := 0, attentionMask := 0, attentionLine := false }

/-- R34. -/
def MirrorWriter.reset : MirrorWriter :=
  { pending := [.attentionRaw, .serviceState], writing := none }

/-- R38; the row words, the message, the answer bytes and what follows a quiet wait, to which the spec gives no value, are
empty or the first (DESIGN CHOICE, log 25). -/
def LineEngine.reset : LineEngine :=
  { speed := 2, rowBudget := 1, answerWindow := 64, phase := .idle, sweepCounter := 0, position := 0,
    visit := none, rowWords := [], message := none, received := [], afterQuiet := .nextAddress }

/-- R39. -/
def TerminalLink.reset : TerminalLink := { state := .off, misses := 0 }

/-- R57, R64. -/
def Screen.reset : Screen := { dirty := Vector.replicate 24 false, queue := [], more := false }

/-- R72. -/
def KeyRing.reset : KeyRing :=
  { take := 0, put := 0, waiting := [], overrun := false, functionPending := none, textMark := false,
    functionMark := false, session := none }

/-- The default style of R87. -/
def Style.default : Style := { font := 0, size := 18, leading := 0, measure := 132, track := 0 }

/-- The FREE values of R88. -/
def Story.free : Story :=
  { state := .free, desk := 0, urgent := false, holder := none, blocks := [], style := Style.default, hole := 0,
    page := none, fit := .current, rerun := false, result := none, fontsUsed := 0, version := 0, stamp := 0,
    lease := none }

/-- R98, R113. -/
def Desk.reset : Desk :=
  { name := Vector.replicate 8 0x20, basketLimit := 255, idleLimit := 0, idleAction := .notify, basket := [],
    openCount := 0 }

/-- R113. -/
def Custody.reset : Custody :=
  { owners := Vector.replicate 8192 none, held := Vector.replicate 64 [], freeStories := 1024,
    freeBlocks := 8192, reports := [] }

/-- R118, R127. -/
def NightClock.reset : NightClock := { count := 0, running := false, closes := [none], current := 1 }

/-- R150. -/
def FitEngine.reset : FitEngine :=
  { widths := Vector.replicate 8 (Vector.replicate 256 0), mask := 0, queue := [], run := none, abandoned := [] }

/-- The EMPTY values of R151. -/
def Page.empty : Page :=
  { state := .empty, desk := 0, close := none, late := false, placements := [], stamp := none, edition := none,
    plates := 0 }

/-- R185; the copy of a story's block list (R172), to which the spec gives no value, is empty (DESIGN CHOICE, log 25). -/
def SettingLink.reset : SettingLink :=
  { state := .off, stage := none, page := none, abandoning := none, offMark := false, position := none,
    blocks := [], frame := none, tries := 0, holds := 0, answerWait := 0, wordsSent := 0, holdLimit := 255 }

/-- Every block at its start values, the reset line still asserted (R20). -/
def Chip.reset : Chip :=
  { resetAsserted := true, path := PathChecker.reset, cu := CommandUnit.reset, mirror := MirrorWriter.reset,
    lines := Vector.replicate 8 LineEngine.reset, links := Vector.replicate 64 TerminalLink.reset,
    screens := Vector.replicate 64 Screen.reset, noticeWriter := { pending := [], writing := none },
    keys := Vector.replicate 64 KeyRing.reset, keyWriter := { pending := [], writing := none },
    stories := Vector.replicate 1024 Story.free, desks := Vector.replicate 16 Desk.reset,
    custody := Custody.reset, clock := NightClock.reset, fit := FitEngine.reset,
    pages := Vector.replicate 96 Page.empty, outputQueue := [], link := SettingLink.reset }

/-- The machine right after the assertion of the reset line: RESET_RELEASE then places the control page (R1, R20;
log 3). Memory lists nothing and nothing waits. -/
def State.reset : State :=
  { chip := Chip.reset, memory := [], busWaiting := [], inProgress := none, abandonedCount := 0, pending := [] }

end Sys2Proof.Machine
end

