-- ==== Sys2Proof/Machine/Ops.lean ====
section
/-! DEFINITION. The named operations the meanings share: memory, the updates of the part's tables, the area map
(R1, R2), the memory-port arbiter and own accesses (R17), marking for write-out (R33), and how a command of the
queue becomes an outcome. -/

namespace Sys2Proof.Machine

/-! ## Memory -/

/-- The word memory holds at an address (R3). -/
def Memory.read : Memory → Nat → Word
  | [], _ => Config.powerOnWord
  | (k, w) :: m, a => if k = a then w else Memory.read m a

/-- Memory with one word stored, in canonical form: rising addresses, no word equal to the unlisted one. -/
def Memory.write : Memory → Nat → Word → Memory
  | [], a, w => if w = Config.powerOnWord then [] else [(a, w)]
  | (k, x) :: m, a, w =>
    if a < k then (if w = Config.powerOnWord then (k, x) :: m else (a, w) :: (k, x) :: m)
    else if a = k then (if w = Config.powerOnWord then m else (a, w) :: m)
    else (k, x) :: Memory.write m a w

/-- The canonical form: addresses strictly rising, each inside the array, no word equal to the unlisted one. -/
def Memory.wf (m : Memory) : Bool :=
  decide (m.Pairwise (fun x y => x.1 < y.1)) &&
    m.all (fun x => decide (x.1 < Config.memoryWords) && decide (x.2 ≠ Config.powerOnWord))

/-! ## Tables -/

/-- A table with one entry changed. -/
def update {α : Type} {n : Nat} (v : Vector α n) (i : Fin n) (f : α → α) : Vector α n := v.set i (f v[i])

def Chip.onPath (f : PathChecker → PathChecker) (c : Chip) : Chip := { c with path := f c.path }
def Chip.onUnit (f : CommandUnit → CommandUnit) (c : Chip) : Chip := { c with cu := f c.cu }
def Chip.onMirror (f : MirrorWriter → MirrorWriter) (c : Chip) : Chip := { c with mirror := f c.mirror }
def Chip.onLine (l : LineNo) (f : LineEngine → LineEngine) (c : Chip) : Chip :=
  { c with lines := update c.lines l f }
def Chip.onTerminal (t : TerminalNo) (f : TerminalLink → TerminalLink) (c : Chip) : Chip :=
  { c with links := update c.links t f }
def Chip.onScreen (t : TerminalNo) (f : Screen → Screen) (c : Chip) : Chip :=
  { c with screens := update c.screens t f }
def Chip.onNoticeWriter (f : NoticeWriter → NoticeWriter) (c : Chip) : Chip :=
  { c with noticeWriter := f c.noticeWriter }
def Chip.onKeys (t : TerminalNo) (f : KeyRing → KeyRing) (c : Chip) : Chip := { c with keys := update c.keys t f }
def Chip.onKeyWriter (f : KeyWriter → KeyWriter) (c : Chip) : Chip := { c with keyWriter := f c.keyWriter }
def Chip.onStory (s : StoryNo) (f : Story → Story) (c : Chip) : Chip := { c with stories := update c.stories s f }
def Chip.onDesk (d : DeskNo) (f : Desk → Desk) (c : Chip) : Chip := { c with desks := update c.desks d f }
def Chip.onCustody (f : Custody → Custody) (c : Chip) : Chip := { c with custody := f c.custody }
def Chip.onClock (f : NightClock → NightClock) (c : Chip) : Chip := { c with clock := f c.clock }
def Chip.onFit (f : FitEngine → FitEngine) (c : Chip) : Chip := { c with fit := f c.fit }
def Chip.onPage (p : PageNo) (f : Page → Page) (c : Chip) : Chip := { c with pages := update c.pages p f }
def Chip.onLink (f : SettingLink → SettingLink) (c : Chip) : Chip := { c with link := f c.link }

/-- A cell of the command unit changed. -/
def Chip.onCell (k : CellNo) (f : Cell → Cell) (c : Chip) : Chip :=
  c.onUnit fun u => { u with cells := update u.cells k f }

/-- An ordered set of at most one entry each: an entry already there adds nothing, another joins the tail (the
pending lists of R33, R67 and R78, and the report list of R8). -/
def joinOnce {α : Type} [DecidableEq α] (l : List α) (x : α) : List α := if x ∈ l then l else l ++ [x]

/-- Terminal = line × 8 + address (00 section 6.3). -/
def terminalOf (l : LineNo) (a : Fin 8) : TerminalNo := ⟨l.val * 8 + a.val, by omega⟩

/-- The line of a terminal. -/
def lineOf (t : TerminalNo) : LineNo := ⟨t.val / 8, by omega⟩

/-- The address of a terminal on its line. -/
def addressOf (t : TerminalNo) : Fin 8 := ⟨t.val % 8, by omega⟩

/-! ## Areas (R1, R2) -/

/-- Where a host access lands (R2). -/
inductive Place where
  | control (offset : Nat)
  | window (t : TerminalNo) (offset : Nat)
  | block (b : BlockNo) (word : Nat)
  | directory (offset : Nat)
  | unclassified
  deriving DecidableEq, Repr

/-- The offset of an address in an area, if the area is placed and holds it. -/
def offsetIn (area : Option Nat) (size a : Nat) : Option Nat :=
  match area with
  | some base => if base ≤ a ∧ a < base + size then some (a - base) else none
  | none => none

/-- R2: the area and the position of a word address. No two placed areas share an address (R1). -/
def PathChecker.classify (p : PathChecker) (a : Nat) : Place :=
  match offsetIn p.controlPage Config.controlPageWords a with
  | some o => .control o
  | none =>
    match offsetIn p.screenArea Config.screenAreaWords a with
    | some o => .window (Fin.ofNat 64 (o / Config.windowWords)) (o % Config.windowWords)
    | none =>
      match offsetIn p.storyArea Config.storyAreaWords a with
      | some o => .block (Fin.ofNat 8192 (o / Config.blockWords)) (o % Config.blockWords)
      | none =>
        match offsetIn p.directoryArea Config.directoryAreaWords a with
        | some o => .directory o
        | none => .unclassified

/-- The address of a control page word, if the page is placed. -/
def PathChecker.controlWord (p : PathChecker) (offset : Nat) : Option Nat := p.controlPage.map (· + offset)

/-- The address of a word of a terminal's screen window, if the screen area is placed. -/
def PathChecker.windowWord (p : PathChecker) (t : TerminalNo) (offset : Nat) : Option Nat :=
  p.screenArea.map (· + t.val * Config.windowWords + offset)

/-- The address of a word of a block, if the story area is placed. -/
def PathChecker.blockWord (p : PathChecker) (b : BlockNo) (word : Nat) : Option Nat :=
  p.storyArea.map (· + b.val * Config.blockWords + word)

/-- The address of a directory word, if the directory area is placed. -/
def PathChecker.directoryWord (p : PathChecker) (offset : Nat) : Option Nat := p.directoryArea.map (· + offset)

/-- The word a host read returns (R3): what memory holds, whatever the area and the service state. A read is no step of
this model and does not show an accepted host write complete: the write stays in `State.inProgress`, so RESET may restore
the old word after a read has returned the new one (DESIGN CHOICE, unsafe: R20 leaves open what shows a write complete;
logs 5 and 24). -/
def State.hostRead (s : State) (a : Address) : Word := s.memory.read a.toNat

/-! ## Own accesses at the memory port (R17) -/

/-- The fixed order of the own requesters (R17 c). -/
def Requester.order : List Requester :=
  [.line 0, .line 1, .line 2, .line 3, .line 4, .line 5, .line 6, .line 7, .keyIntake, .noticeWriter,
    .fitEngine, .linkEngine, .mirrorWriter, .commandUnit]

/-- A requester's place in the order. -/
def Requester.place : Requester → Nat
  | .line l => l.val
  | .keyIntake => 8
  | .noticeWriter => 9
  | .fitEngine => 10
  | .linkEngine => 11
  | .mirrorWriter => 12
  | .commandUnit => 13

/-- Whether a requester waits at the port: it has a word to read or write (R17). -/
def Chip.requests (c : Chip) : Requester → Bool
  | .line l => c.lines[l].phase = .reading
  | .keyIntake => c.keyWriter.writing.isSome
  | .noticeWriter => c.noticeWriter.writing.isSome
  | .fitEngine => c.fit.run.isSome || !c.fit.abandoned.isEmpty
  | .linkEngine => c.link.stage = some .reading
  | .mirrorWriter => c.mirror.writing.isSome
  | .commandUnit =>
    c.cu.phase = .reading || c.cu.phase = .reporting || (c.cu.phase = .acting && c.cu.startStage = .reading)

/-- R17 c: the first waiting requester after the one last granted, wrapping from the command unit to line engine 0.
A host access is granted in the step that brings it, so none waits between steps (log 5). -/
def Chip.nextGrant (c : Chip) : Option Requester :=
  let k := c.path.lastGranted.place + 1
  (Requester.order.drop k ++ Requester.order.take k).find? c.requests

/-- One own write: where, what, and the part once the write has been served. -/
structure OwnWrite where
  address : Option Nat
  value : Word
  after : Chip

/-- One own read: where, and the part once the word read has been taken. -/
structure OwnRead where
  address : Option Nat
  after : Word → Chip

/-- The outcome of a command that touches the part alone. While the reset line is asserted no block takes it
(R20). -/
def chipEvent (f : Chip → Chip) (s : State) : Host.Outcome State Fault Refusal :=
  .next (if s.chip.resetAsserted then s else { s with chip := f s.chip })

/-- The part with requester `r` as the one last granted. -/
def Chip.granted (r : Requester) (c : Chip) : Chip := c.onPath fun p => { p with lastGranted := r }

/-- One own write of requester `r`. It is due when the arbiter would grant `r` and the block has a word to write;
otherwise nothing happens (log 1). An area with no place, or an address outside the array, faults (log 16). -/
def ownWrite (r : Requester) (plan : Chip → Option OwnWrite) (s : State) : Host.Outcome State Fault Refusal :=
  if s.chip.resetAsserted then .next s
  else if s.chip.nextGrant = some r then
    match plan s.chip with
    | none => .next s
    | some w =>
      match w.address with
      | none => .fault .areaNotPlaced
      | some a =>
        if a < Config.memoryWords then
          .next { s with chip := w.after.granted r, memory := s.memory.write a w.value, inProgress := none }
        else .fault .addressOutside
  else .next s

/-- One own read of requester `r`, due as `ownWrite` is. -/
def ownRead (r : Requester) (plan : Chip → Option OwnRead) (s : State) : Host.Outcome State Fault Refusal :=
  if s.chip.resetAsserted then .next s
  else if s.chip.nextGrant = some r then
    match plan s.chip with
    | none => .next s
    | some q =>
      match q.address with
      | none => .fault .areaNotPlaced
      | some a =>
        if a < Config.memoryWords then .next { s with chip := (q.after (s.memory.read a)).granted r, inProgress := none }
        else .fault .addressOutside
  else .next s

/-! ## Marking for write-out (R33, R28) -/

/-- R33: a marked item joins the tail of the mirror writer's list unless it is pending there already. An item being
written is no longer in the list, so it joins again. -/
def MirrorWriter.mark (i : MirrorItem) (m : MirrorWriter) : MirrorWriter :=
  { m with pending := joinOnce m.pending i }

/-- An item enters a wait set once (R28 a). -/
def WaitEntry.add (l : List WaitEntry) (i : MirrorItem) : List WaitEntry :=
  if l.any (fun e => e.item = i) then l else l ++ [{ item := i, begun := false }]

/-- A block marks an item it owns; inside the action of a command the item enters the command's wait set. -/
def Chip.mark (i : MirrorItem) (c : Chip) : Chip :=
  let c := c.onMirror (·.mark i)
  if c.cu.collecting then c.onUnit fun u => { u with waitSet := WaitEntry.add u.waitSet i } else c

/-- Several items marked in order. -/
def Chip.markAll (l : List MirrorItem) (c : Chip) : Chip := l.foldl (fun c i => c.mark i) c

/-! ## Pending writes of key intake and of the notice writer (R67, R78) -/

/-- R78: an item joins the write list unless it is pending; a key words item being written does not join again. -/
def Chip.pendKey (i : KeyItem) (c : Chip) : Chip :=
  c.onKeyWriter fun w =>
    match i with
    | .keyWords _ => if w.writing = some i then w else { w with pending := joinOnce w.pending i }
    | _ => { w with pending := joinOnce w.pending i }

/-- R67: a terminal joins the notice writer's list unless it stands there. -/
def Chip.pendRow (t : TerminalNo) (c : Chip) : Chip :=
  c.onNoticeWriter fun w => { w with pending := joinOnce w.pending t }

/-! ## Dirty rows (R57, R58) -/

def Chip.markRow (t : TerminalNo) (r : Fin 24) (c : Chip) : Chip :=
  c.onScreen t fun s => { s with dirty := s.dirty.set r true }

def Chip.markAllRows (t : TerminalNo) (c : Chip) : Chip :=
  c.onScreen t fun s => { s with dirty := Vector.replicate 24 true }

def Chip.clearRow (t : TerminalNo) (r : Fin 24) (c : Chip) : Chip :=
  c.onScreen t fun s => { s with dirty := s.dirty.set r false }

/-- R57: the smallest row number the set holds. -/
def Screen.lowest (s : Screen) : Option (Fin 24) := (List.finRange 24).find? fun r => s.dirty[r]

/-! ## Sessions (R83) -/

/-- The session key intake holds for a terminal. -/
def Chip.session (c : Chip) (t : TerminalNo) : Option Session := c.keys[t].session

end Sys2Proof.Machine
end

