-- ==== Sys2Proof/Machine/Flags.lean ====
section
/-! DEFINITION. The part's flags: the attention causes, their mask and the attention line (R35 to R37). -/

namespace Sys2Proof.Machine

/-- The eight attention causes (R35). -/
inductive Cause where
  | commandDone
  | keys
  | function
  | refusal
  | link
  | terminal
  | clock
  | fit
  deriving DecidableEq, Repr

/-- The number of a cause, which is its bit in the raw word, the mask and a clear value (R35). -/
def Cause.number : Cause → Nat
  | .commandDone => 0
  | .keys => 1
  | .function => 2
  | .refusal => 3
  | .link => 4
  | .terminal => 5
  | .clock => 6
  | .fit => 7

/-- The bit of a cause. -/
def Cause.bit (n : Cause) : Byte := 1#8 <<< n.number

/-- R35: the line is asserted while a raised cause has its mask bit 1. -/
def lineOfAttention (raw mask : Byte) : Bool := (raw &&& mask) != 0

/-- The raw word and the mask taken, and the line recomputed in the same event (R35). -/
def CommandUnit.setAttention (raw mask : Byte) (u : CommandUnit) : CommandUnit :=
  { u with attentionRaw := raw, attentionMask := mask, attentionLine := lineOfAttention raw mask }

/-- R35: a cause is raised; a change of the raw word marks word 4. -/
def Chip.raise (n : Cause) (c : Chip) : Chip :=
  let raw := c.cu.attentionRaw ||| n.bit
  let c' := c.onUnit (·.setAttention raw c.cu.attentionMask)
  if raw = c.cu.attentionRaw then c' else c'.mark .attentionRaw

/-- R36: the mask takes bits 0 to 7 of the value written. -/
def Chip.takeMask (v : Word) (c : Chip) : Chip :=
  c.onUnit (·.setAttention c.cu.attentionRaw (v.setWidth 8))

/-- R36: the raw bits that are 1 in bits 0 to 7 of the value are cleared and word 4 is marked; a value with none of
them set changes nothing. -/
def Chip.clearCauses (v : Word) (c : Chip) : Chip :=
  if v.setWidth 8 = 0#8 then c
  else (c.onUnit (·.setAttention (c.cu.attentionRaw &&& ~~~(v.setWidth 8)) c.cu.attentionMask)).mark .attentionRaw

end Sys2Proof.Machine
end

