-- ==== Sys2Proof/Machine/Layouts.lean ====
section
/-! DEFINITION. The words and bytes of chapter 11: refusal record, directory records, status words of the screen
windows, line messages and link frames. Each word is written whole, unassigned bits 0 (R187). -/

namespace Sys2Proof.Machine

/-- A number as a word. -/
def wordOf (n : Nat) : Word := BitVec.ofNat 16 n

/-- A flag as one bit. -/
def bitOf (b : Bool) : BitVec 1 := BitVec.ofBool b

/-- A byte as the low byte of a word, high byte 0. -/
def wordOfByte (b : Byte) : Word := 0#8 ++ b

/-! ## The control page (section 11.1) -/

/-- A context as word 17 shows it (R15). -/
def Context.word : Context → Word
  | .terminal t => wordOf t.val
  | .system => 65535#16
  | .none => 65534#16

/-- The codes of R15's table. -/
def RefusalReason.code : RefusalReason → BitVec 8
  | .writeProtected => 1
  | .freeBlock => 2
  | .badContext => 3
  | .notHolder => 4
  | .atRest => 5
  | .frozen => 6
  | .badIndex => 7
  | .cellBusy => 8

/-- Words 14 to 17; an empty record is four words of 0. -/
def refusalWords : Option RefusalRecord → List Word
  | none => [0, 0, 0, 0]
  | some r =>
    [r.reason.code ++ 0#6 ++ BitVec.ofNat 2 r.processor.val,
      0#10 ++ r.address.extractLsb' 16 6,
      r.address.extractLsb' 0 16,
      r.context.word]

/-- R29: the service state as word 7 shows it. -/
def Service.word : Service → Word
  | .stopped => 0
  | .starting => 1
  | .running => 2

/-- R170: the link state as word 10 shows it. -/
def LinkState.word : LinkState → Word
  | .off => 0
  | .idle => 1
  | .sending => 2
  | .holding => 3
  | .fault => 4

/-- The result codes of R28. -/
def ResultCode.code : ResultCode → Nat
  | .ok => 0
  | .unknownCommand => 1
  | .badArgument => 2
  | .notRunning => 3
  | .noClearance => 4
  | .wrongState => 5
  | .notSignedOn => 6
  | .noFreeStory => 7
  | .blockTaken => 8
  | .listFull => 9
  | .basketFull => 10
  | .alreadyPlaced => 11
  | .pageFull => 12
  | .emptyPage => 13
  | .storyOpen => 14
  | .notFit => 15
  | .queueFull => 16
  | .configBad => 17

/-- The go word of a completed command: result code + 256 (R28 c). -/
def ResultCode.goWord (r : ResultCode) : Word := wordOf (r.code + 256)

/-! ## The screen window's status words (section 11.2) -/

def KeyRing.stateWord (k : KeyRing) : Word :=
  bitOf k.overrun ++ bitOf k.functionPending.isSome ++ 0#8 ++
    BitVec.ofNat 6 (match k.functionPending with | some p => p.val | none => 0)

def Clearance.code : Clearance → Nat
  | .read => 0
  | .edit => 1
  | .slot => 2

def Session.word : Option Session → Word
  | none => 0
  | some s => 1#1 ++ 0#5 ++ BitVec.ofNat 2 s.clearance.code ++ 0#4 ++ BitVec.ofNat 4 s.desk.val

def TerminalState.code : TerminalState → Nat
  | .off => 0
  | .up => 1
  | .suspect => 2
  | .down => 3

def TerminalLink.word (t : TerminalLink) : Word :=
  0#6 ++ BitVec.ofNat 2 t.state.code ++ 0#6 ++ BitVec.ofNat 2 t.misses.val

/-! ## The directory (section 11.3) -/

/-- The entry after `x` in an ordered list. -/
def entryAfter {α : Type} [DecidableEq α] (x : α) : List α → Option α
  | [] => none
  | [_] => none
  | a :: b :: l => if a = x then some b else entryAfter x (b :: l)

/-- The entry before `x` in an ordered list. -/
def entryBefore {α : Type} [DecidableEq α] (x : α) : List α → Option α
  | [] => none
  | [_] => none
  | a :: b :: l => if b = x then some a else entryBefore x (b :: l)

def StoryState.code : StoryState → Nat
  | .free => 0
  | .intake => 1
  | .basket => 2
  | .open_ => 3
  | .set => 4

/-- R95: the story after a story in its desk's basket. -/
def Chip.nextInBasket (c : Chip) (s : StoryNo) : Option StoryNo :=
  entryAfter s c.desks[c.stories[s].desk].basket

/-- Bits 9 to 0 of story record word 1: the holder, the next story in the basket or the story's own number. -/
def Chip.storyLink (c : Chip) (s : StoryNo) : Nat :=
  match c.stories[s].state with
  | .open_ => match c.stories[s].holder with | some t => t.val | none => 0
  | .basket => match c.nextInBasket s with | some n => n.val | none => s.val
  | _ => 0

def FitStatus.code : FitStatus → Nat
  | .noFont => 1
  | .unterminated => 2
  | .overset => 3
  | .fits => 4
  | .unplaced => 5

def FitState.code : FitState → Nat
  | .current => 0
  | .stale => 1
  | .running => 2

/-- A page field of a record: the page's number, 0 when unplaced. -/
def pageField : Option PageNo → Nat
  | some p => p.number
  | none => 0

/-- Bits 14 to 0 of story record word 5: cut index, or space left, or 0. -/
def FitResult.cutOrSpace (r : FitResult) : Nat :=
  match r.cut with
  | some i => i
  | none => match r.spaceLeft with | some n => n | none => 0

/-- Words 3 to 7 of a story record. -/
def fitWords (s : Story) : List Word :=
  match s.result with
  | none =>
    [0#3 ++ BitVec.ofNat 7 (pageField s.page) ++ 0#6, 0, 0, 0#8 ++ s.fontsUsed,
      BitVec.ofNat 2 s.fit.code ++ 0#14]
  | some r =>
    [BitVec.ofNat 3 r.status.code ++ BitVec.ofNat 7 (pageField s.page) ++ BitVec.ofNat 6 r.overset,
      wordOf r.depth,
      bitOf r.deep ++ BitVec.ofNat 15 r.cutOrSpace,
      BitVec.ofNat 8 r.forced ++ s.fontsUsed,
      BitVec.ofNat 2 s.fit.code ++ BitVec.ofNat 14 r.lines]

/-- The eight words of a story record. -/
def Chip.storyRecord (c : Chip) (n : StoryNo) : List Word :=
  let s := c.stories[n]
  [BitVec.ofNat 3 s.state.code ++ bitOf s.urgent ++ BitVec.ofNat 4 s.desk.val ++ s.version,
    BitVec.ofNat 6 s.blocks.length ++ BitVec.ofNat 10 (c.storyLink n),
    s.stamp] ++ fitWords s

def PageState.code : PageState → Nat
  | .empty => 0
  | .makeup => 1
  | .queued => 2
  | .setting => 3
  | .set => 4

/-- The two words of placement entry `i` of a page record. -/
def placementWords (l : List Placement) (i : Nat) : List Word :=
  match l[i]? with
  | some e => [wordOf e.story.val, wordOf e.hole]
  | none => [65535, 0]

/-- The forty words of a page record. -/
def Page.record (p : Page) : List Word :=
  [BitVec.ofNat 3 p.state.code ++ bitOf p.late ++ BitVec.ofNat 4 p.desk.val ++ 0#3 ++
      BitVec.ofNat 5 p.placements.length,
    p.close.getD 65535,
    p.stamp.getD 0,
    p.plates ++ 0#5 ++ BitVec.ofNat 3 (p.edition.getD 0),
    0, 0, 0, 0] ++ (List.range 16).flatMap (placementWords p.placements)

/-- The eight words of a desk mirror entry. -/
def Desk.record (d : Desk) : List Word :=
  [wordOf d.basket.length, match d.basket.head? with | some s => wordOf s.val | none => 65535,
    wordOf d.openCount, 0, 0, 0, 0, 0]

/-- The values an item shows as they stand (R33). -/
def Chip.itemWords (c : Chip) : MirrorItem → List Word
  | .story s => c.storyRecord s
  | .page p => c.pages[p].record
  | .desk d => c.desks[d].record
  | .attentionRaw => [wordOfByte c.cu.attentionRaw]
  | .serviceState => [c.cu.service.word]
  | .clockCount => [c.clock.count]
  | .currentEdition => [wordOf c.clock.current]
  | .linkState => [c.link.state.word]
  | .outputCount => [wordOf c.outputQueue.length]
  | .fitCount => [wordOf c.fit.queue.length]
  | .refusal => c.path.refusalCount :: refusalWords c.path.refusalRecord
  | .freeStories => [wordOf c.custody.freeStories]
  | .freeBlocks => [wordOf c.custody.freeBlocks]

/-- The address of word `k` of an item (sections 11.1 and 11.3). -/
def PathChecker.itemWord (p : PathChecker) (i : MirrorItem) (k : Nat) : Option Nat :=
  match i with
  | .story s => p.directoryWord (8 * s.val + k)
  | .page q => p.directoryWord (8192 + 40 * q.val + k)
  | .desk d => p.directoryWord (12032 + 8 * d.val + k)
  | .attentionRaw => p.controlWord (4 + k)
  | .serviceState => p.controlWord (7 + k)
  | .clockCount => p.controlWord (8 + k)
  | .currentEdition => p.controlWord (9 + k)
  | .linkState => p.controlWord (10 + k)
  | .outputCount => p.controlWord (11 + k)
  | .fitCount => p.controlWord (12 + k)
  | .refusal => p.controlWord (13 + k)
  | .freeStories => p.controlWord (18 + k)
  | .freeBlocks => p.controlWord (19 + k)

/-! ## Line messages (section 11.5, R40) -/

/-- The check byte: the sum, modulo 256, of the bytes before it. -/
def checkByte (l : List Byte) : Byte := l.foldl (· + ·) 0

/-- A word as two bytes, high byte first. -/
def wordBytes (w : Word) : List Byte := [w.extractLsb' 8 8, w.extractLsb' 0 8]

/-- The bytes of a message to the terminal at address `a` of the line. -/
def LineMessage.bytes (a : Fin 8) (m : LineMessage) : List Byte :=
  let body := match m with
    | .poll => [0x11#8, BitVec.ofNat 8 a.val]
    | .row r ws => [0x12#8, BitVec.ofNat 8 a.val, BitVec.ofNat 8 r.val] ++ ws.flatMap wordBytes
  body ++ [checkByte body]

/-! ## Link frames (section 11.6, R171) -/

def FrameKind.word : FrameKind → Word
  | .pageOpen => 1
  | .storyOpen => 2
  | .text => 3
  | .pageClose => 4
  | .abandon => 5

/-- The words of a frame: kind, length, payload, check word (the sum modulo 65,536 of the words before it). -/
def Frame.words (f : Frame) : List Word :=
  let body := f.kind.word :: wordOf f.payload.length :: f.payload
  body ++ [body.foldl (· + ·) 0]

end Sys2Proof.Machine
end

