-- ==== Sys2Proof/Machine/Operands.lean ====
section
/-! DEFINITION. The arguments of a command as its owning block takes them (R25, R26), the caller check (R27), and
how a command's action ends (R28). -/

namespace Sys2Proof.Machine

/-! ## Arguments -/

/-- Word `i` of the cell being served, 0 to 6, as the command unit read it (R24). -/
def CommandUnit.arg (u : CommandUnit) (i : Nat) : Word := u.wordsRead.getD i 0

/-- The command number is word 0 (R25). -/
def CommandUnit.number (u : CommandUnit) : Nat := (u.arg 0).toNat

/-- An argument of range 0 to n - 1 (BAD_ARGUMENT outside it). -/
def finArg (n : Nat) (w : Word) : Option (Fin n) := if h : w.toNat < n then some ⟨w.toNat, h⟩ else none

/-- A page argument, 1 to 96 (R153 a). -/
def pageArg (w : Word) : Option PageNo :=
  if h : 1 ≤ w.toNat ∧ w.toNat ≤ 96 then some ⟨w.toNat - 1, by omega⟩ else none

/-- An argument of range 0 or 1. -/
def flagArg (w : Word) : Option Bool := if w = 0 then some false else if w = 1 then some true else none

/-- An argument of range lo to hi. -/
def rangeArg (lo hi : Nat) (w : Word) : Option Nat :=
  if lo ≤ w.toNat ∧ w.toNat ≤ hi then some w.toNat else none

/-- A track argument: 0 to 7, or 65,528 to 65,535 for -8 to -1 (R108). -/
def trackArg (w : Word) : Option Int :=
  if w.toNat ≤ 7 then some w.toNat else if 65528 ≤ w.toNat then some ((w.toNat : Int) - 65536) else none

/-- A track as a word: -8 to -1 as 65,528 to 65,535 (section 11.6). -/
def trackWord (t : Int) : Word := BitVec.ofInt 16 t

/-- A clearance argument (R84). -/
def clearanceArg (w : Word) : Option Clearance :=
  if w = 0 then some .read else if w = 1 then some .edit else if w = 2 then some .slot else none

/-- A close time argument: 65,535 means none (R154). -/
def closeArg (w : Word) : Option Word := if w = 65535 then none else some w

/-! ## The caller check (R27) -/

/-- The callers a command admits: SYSTEM or not, and terminals from a lowest clearance up, or none. -/
structure Admits where
  system : Bool
  terminal : Option Clearance

/-- R27, with the lowest clearance of the owning rule; none when the caller passes. -/
def Chip.callerFault (c : Chip) (a : Admits) : Option ResultCode :=
  match c.cu.context with
  | .none => some .noClearance
  | .system => if a.system then none else some .noClearance
  | .terminal t =>
    match a.terminal with
    | none => some .noClearance
    | some low =>
      match c.session t with
      | none => some .notSignedOn
      | some s => if s.clearance.code < low.code then some .noClearance else none

/-- Commands that admit SYSTEM alone. -/
def Admits.systemOnly : Admits := { system := true, terminal := none }

/-- The caller is a terminal. -/
def Chip.callerTerminal (c : Chip) : Option TerminalNo :=
  match c.cu.context with
  | .terminal t => some t
  | _ => none

/-- The caller is the terminal `t`. -/
def Chip.callerIs (c : Chip) (t : Option TerminalNo) : Bool := c.callerTerminal.isSome && c.callerTerminal = t

/-- The caller is a terminal signed on to desk `d` with at least the clearance `low`. -/
def Chip.callerOnDesk (c : Chip) (d : DeskNo) (low : Clearance) : Bool :=
  match c.callerTerminal with
  | none => false
  | some t =>
    match c.session t with
    | none => false
    | some s => s.desk = d && low.code ≤ s.clearance.code

/-- The caller is SYSTEM. -/
def Chip.callerSystem (c : Chip) : Bool := c.cu.context = .system

/-! ## The end of a command's action (R28) -/

/-- What the owning block answers: the part after the command's effect with its result words, or a refusal, which
changes no state of any block (R26). -/
inductive Reply where
  | done (c : Chip) (words : List Word)
  | refused (r : ResultCode) (words : List Word)

/-- A refusal without a result word. -/
def Reply.refuse (r : ResultCode) : Reply := .refused r []

/-- The command unit goes straight to REPORTING with an empty wait set (R26). -/
def CommandUnit.report (r : ResultCode) (words : List Word) (u : CommandUnit) : CommandUnit :=
  { u with phase := .reporting, result := r, resultWords := words, reported := 0, waitSet := [], collecting := false,
           startStage := .notBegun }

/-- R28 a, b: the action ends; the command unit enters WAITING, and passes through it at once when the wait set is
empty. -/
def CommandUnit.endAction (r : ResultCode) (words : List Word) (u : CommandUnit) : CommandUnit :=
  { u with phase := if u.waitSet = [] then .reporting else .waiting, result := r, resultWords := words,
           reported := 0, collecting := false, startStage := .notBegun }

/-- The command unit has handed command `n` to its owning block, which has not taken it yet. -/
def Chip.commandDue (c : Chip) (n : Nat) : Bool :=
  c.cu.phase = .acting && c.cu.startStage = .notBegun && c.cu.number = n

/-- The part as the owning block finds it: markings made from here on enter the wait set (R28 a). -/
def Chip.collect (c : Chip) : Chip := c.onUnit fun u => { u with waitSet := [], collecting := true }

/-- The owning block takes the command and answers. -/
def Chip.answer (body : Chip → Reply) (c : Chip) : Chip :=
  match body c.collect with
  | .done c' words => c'.onUnit (·.endAction .ok words)
  | .refused r words => c.onUnit (·.report r words)

/-- The event in which the owning block takes command `n`; not due, nothing happens (log 1). -/
def takeCommand (n : Nat) (body : Chip → Reply) (s : State) : Host.Outcome State Fault Refusal :=
  chipEvent (fun c => if c.commandDue n then c.answer body else c) s

end Sys2Proof.Machine
end

