-- ==== Sys2Proof/Machine/Notices.lean ====
section
/-! DEFINITION. The screen and notice unit (chapter 4): posting, acknowledgement, the notice row and its writer,
and the commands ACK NOTICE and POST NOTICE. -/

namespace Sys2Proof.Machine

/-! ## Posting (R61, R62, R65) -/

/-- The recipients a posting block names (R61). -/
inductive Recipients where
  | terminal (t : TerminalNo)
  | desk (d : DeskNo)
  | slotOf (d : DeskNo)
  | everySlot
  deriving DecidableEq, Repr

/-- Whether a terminal is among the recipients, by the sessions as they stand in the event (R61). -/
def Chip.receives (c : Chip) (t : TerminalNo) : Recipients → Bool
  | .terminal u => t = u
  | .desk d => match c.session t with | some s => s.desk = d | none => false
  | .slotOf d => match c.session t with | some s => s.desk = d && s.clearance = .slot | none => false
  | .everySlot => match c.session t with | some s => s.clearance = .slot | none => false

/-- The recipient terminals, in terminal order. -/
def Chip.recipients (c : Chip) (r : Recipients) : List TerminalNo :=
  (List.finRange 64).filter fun t => c.receives t r

/-- Two notices merge when kind and subject agree (R62 a). -/
def Notice.matches (m n : Notice) : Bool := m.kind = n.kind && m.subject = n.subject

/-- R62 a: the held notice `m` takes the new notice `n`. -/
def Notice.merge (n m : Notice) : Notice :=
  { m with count := min 99 (m.count + 1), second := if n.second.isSome then n.second else m.second }

/-- R62: a notice entered into one queue. -/
def Screen.enter (n : Notice) (s : Screen) : Screen :=
  if s.queue.any (·.matches n) then { s with queue := s.queue.map fun m => if m.matches n then n.merge m else m }
  else if s.queue.length < 4 then { s with queue := s.queue ++ [n] }
  else { s with more := true }

/-- R65: what the row shows of a queue: the head and the more mark. -/
def Screen.shown (s : Screen) : Option Notice × Bool := (s.queue.head?, s.more)

/-- R62 and R65 for one recipient: the notice is entered, and a notice-row write is made pending when what the row
shows has changed. -/
def Chip.enterNotice (n : Notice) (t : TerminalNo) (c : Chip) : Chip :=
  let c' := c.onScreen t (·.enter n)
  if c'.screens[t].shown = c.screens[t].shown then c' else c'.pendRow t

/-- A posting block hands the unit a notice with its recipients (R61); each queue takes it separately. -/
def Chip.post (kind : NoticeKind) (subject : Nat) (second : Option Nat) (r : Recipients) (c : Chip) : Chip :=
  (c.recipients r).foldl (fun c t => c.enterNotice { kind := kind, subject := subject, second := second, count := 1 } t) c

/-! ## Removal (R63, R64) -/

/-- R63: an acknowledgement removes the head; on an empty queue it changes nothing. -/
def Chip.acknowledge (t : TerminalNo) (c : Chip) : Chip :=
  if c.screens[t].queue = [] then c
  else (c.onScreen t fun s => { s with queue := s.queue.tail, more := false }).pendRow t

/-- R64: SIGN OFF empties the queue. -/
def Chip.emptyQueue (t : TerminalNo) (c : Chip) : Chip :=
  if c.screens[t].queue = [] then c.onScreen t fun s => { s with more := false }
  else (c.onScreen t fun s => { s with queue := [], more := false }).pendRow t

/-! ## The notice row (R66) -/

/-- Characters as character codes (PRESUMED ASCII, log 14). -/
def chars (l : List Char) : List Byte := l.map fun x => BitVec.ofNat 8 x.toNat

/-- The decimal digits of a number in front of `rest`, with `fuel` digits at most. -/
def decimalDigits : Nat → Nat → List Byte → List Byte
  | 0, _, rest => rest
  | fuel + 1, n, rest =>
    if n < 10 then BitVec.ofNat 8 (48 + n) :: rest
    else decimalDigits fuel (n / 10) (BitVec.ofNat 8 (48 + n % 10) :: rest)

/-- A number in decimal without leading zeros (R66). -/
def decimal (n : Nat) : List Byte := decimalDigits (n + 1) n []

/-- A name with its trailing spaces dropped. -/
def dropTrailing (l : List Byte) : List Byte := (l.reverse.dropWhile (· = 0x20#8)).reverse

/-- The name of a desk as a row prints it; eight spaces print as DESK and two digits (R66 b). -/
def Chip.deskName (c : Chip) (d : DeskNo) : List Byte :=
  let name := dropTrailing c.desks[d].name.toList
  if name = [] then
    chars ['D', 'E', 'S', 'K', ' '] ++ [BitVec.ofNat 8 (48 + d.val / 10), BitVec.ofNat 8 (48 + d.val % 10)]
  else name

/-- The text of a notice (R66, table). -/
def Chip.noticeText (c : Chip) (n : Notice) : List Byte :=
  let s := decimal n.subject
  let v := decimal (n.second.getD 0)
  let story := chars ['S', 'T', 'O', 'R', 'Y', ' '] ++ s
  let page := chars ['P', 'A', 'G', 'E', ' '] ++ s
  match n.kind with
  | .arrived =>
    story ++ chars [' ', 'A', 'R', 'R', 'I', 'V', 'E', 'D', ' ', 'A', 'T', ' '] ++
      c.deskName (Fin.ofNat 16 (n.second.getD 0))
  | .recalled =>
    story ++ chars [' ', 'R', 'E', 'C', 'A', 'L', 'L', 'E', 'D', ' ', 'T', 'O', ' ', 'B', 'A', 'S', 'K', 'E', 'T']
  | .idle => story ++ chars [' ', 'I', 'D', 'L', 'E']
  | .overset =>
    story ++ chars [' ', 'O', 'V', 'E', 'R', 'S', 'E', 'T', ' '] ++ v ++ chars [' ', 'L', 'I', 'N', 'E', 'S']
  | .killed => story ++ chars [' ', 'K', 'I', 'L', 'L', 'E', 'D']
  | .released => page ++ chars [' ', 'R', 'E', 'L', 'E', 'A', 'S', 'E', 'D']
  | .pageSet => page ++ chars [' ', 'S', 'E', 'T']
  | .late => page ++ chars [' ', 'L', 'A', 'T', 'E']
  | .linkFault => chars ['L', 'I', 'N', 'K', ' ', 'F', 'A', 'U', 'L', 'T', ' ', 'P', 'A', 'G', 'E', ' '] ++ s
  | .termDown =>
    chars ['T', 'E', 'R', 'M', 'I', 'N', 'A', 'L', ' '] ++ s ++ chars [' ', 'D', 'O', 'W', 'N']
  | .editionClosed =>
    chars ['E', 'D', 'I', 'T', 'I', 'O', 'N', ' '] ++ s ++ chars [' ', 'C', 'L', 'O', 'S', 'E', 'D']
  | .message => chars ['M', 'E', 'S', 'S', 'A', 'G', 'E', ' '] ++ s

/-- The text with its repeat count (R66 b, c); an empty queue has none. -/
def Chip.rowText (c : Chip) (t : TerminalNo) : List Byte :=
  match c.screens[t].queue with
  | [] => []
  | n :: _ => c.noticeText n ++ (if 2 ≤ n.count then chars [' ', 'x'] ++ decimal n.count else [])

/-- The 80 words of a terminal's notice row (R66); +MORE stands in columns 75 to 79. -/
def Chip.noticeRow (c : Chip) (t : TerminalNo) : List Word :=
  let more := if c.screens[t].more then chars ['+', 'M', 'O', 'R', 'E'] else List.replicate 5 0x20#8
  ((c.rowText t ++ List.replicate 75 0x20#8).take 75 ++ more).map wordOfByte

/-! ## The notice writer (R67) -/

/-- The writer takes the head of its list and composes the row. -/
def Chip.beginRowWrite (c : Chip) : Chip :=
  match c.noticeWriter.writing, c.noticeWriter.pending with
  | none, t :: rest =>
    c.onNoticeWriter fun _ =>
      { pending := rest, writing := some { terminal := t, words := c.noticeRow t, column := 0 } }
  | _, _ => c

/-- One word of the row; the eightieth ends the write and marks row 23 dirty. -/
def Chip.rowWordWrite (c : Chip) : Option OwnWrite :=
  match c.noticeWriter.writing with
  | some w =>
    match w.words with
    | x :: rest =>
      some
        { address := c.path.windowWord w.terminal (1840 + w.column)
          value := x
          after :=
            if rest = [] then (c.onNoticeWriter fun n => { n with writing := none }).markRow w.terminal 23
            else c.onNoticeWriter fun n =>
              { n with writing := some { w with words := rest, column := w.column + 1 } } }
    | [] => none
  | none => none

/-- NOTICE_ROW_WRITE_BEGIN (R67). -/
def execNoticeRowWriteBegin (s : State) : Host.Outcome State Fault Refusal := chipEvent Chip.beginRowWrite s

/-- NOTICE_ROW_WORD_WRITE (R67). -/
def execNoticeRowWordWrite (s : State) : Host.Outcome State Fault Refusal :=
  ownWrite .noticeWriter Chip.rowWordWrite s

/-! ## ACK NOTICE and POST NOTICE (R70, R71) -/

/-- R70. -/
def Chip.ackNotice (c : Chip) : Reply :=
  match finArg 64 (c.cu.arg 1) with
  | none => .refuse .badArgument
  | some t =>
    match c.callerFault .systemOnly with
    | some r => .refuse r
    | none => if c.screens[t].queue = [] then .refuse .wrongState else .done (c.acknowledge t) []

/-- The target of POST NOTICE: kind 0 a terminal, kind 1 a desk (R71). -/
def Chip.postTarget (c : Chip) : Option Recipients :=
  match flagArg (c.cu.arg 2) with
  | none => none
  | some false => (finArg 64 (c.cu.arg 3)).map Recipients.terminal
  | some true => (finArg 16 (c.cu.arg 3)).map Recipients.desk

/-- R71. -/
def Chip.postNotice (c : Chip) : Reply :=
  match rangeArg 0 999 (c.cu.arg 1), c.postTarget with
  | some m, some r =>
    match c.callerFault .systemOnly with
    | some f => .refuse f
    | none => .done (c.post .message m none r) [wordOf (c.recipients r).length]
  | _, _ => .refuse .badArgument

/-- ACK_NOTICE (R70), command 7. -/
def execAckNotice (s : State) : Host.Outcome State Fault Refusal := takeCommand 7 Chip.ackNotice s

/-- POST_NOTICE (R71), command 8. -/
def execPostNotice (s : State) : Host.Outcome State Fault Refusal := takeCommand 8 Chip.postNotice s

end Sys2Proof.Machine
end

