-- ==== Sys2Proof/Machine/Fit.lean ====
section
/-! DEFINITION. The fit engine (chapter 8): copy words, width tables and mask, the fit queue, runs and their
arithmetic, and the command REFIT. -/

namespace Sys2Proof.Machine

/-! ## Copy words (R128, R129) -/

/-- A copy word taken apart (section 11.4). -/
inductive CopyWord where
  | character (code : Byte)
  | endOfText
  | font (a : Nat)
  | size (a : Nat)
  | leading (a : Nat)
  | endParagraph
  | measure (a : Nat)
  | fixedSpace (a : Nat)
  | hyphen
  deriving DecidableEq, Repr

/-- R128: bit 15 tells a character word from a command word; the fit does not read the attribute. -/
def copyWord (w : Word) : CopyWord :=
  let a := (w.extractLsb' 0 12).toNat
  if w.msb = false then .character (w.setWidth 8)
  else
    match (w.extractLsb' 12 3).toNat with
    | 0 => .endOfText
    | 1 => .font a
    | 2 => .size a
    | 3 => .leading a
    | 4 => .endParagraph
    | 5 => .measure a
    | 6 => .fixedSpace a
    | _ => .hyphen

/-- A value outside its range replaced by the nearest inside (00 section 6.4 c). -/
def clamp (lo hi n : Nat) : Nat := max lo (min hi n)

/-- The bit of a font in a set of fonts (section 11.3). -/
def fontBit (f : Fin 8) : Byte := 1#8 <<< f.val

/-! ## The arithmetic of a run (R138 to R147) -/

/-- R138: the advance of a character code, at the font, size and track of the run. -/
def FitEngine.advance (e : FitEngine) (r : FitRun) (code : Byte) : Nat :=
  let width := (e.widths[r.font][code.toFin]).toNat
  (max 0 ((width : Int) + r.track)).toNat * r.size

/-- R138: the leading of a line ending now. -/
def FitRun.lineDepth (r : FitRun) : Nat := if 0 < r.leading then r.leading else r.size * 8

/-- R139: the line ends. -/
def FitRun.endLine (r : FitRun) : FitRun :=
  let sum := r.depth + r.lineDepth
  let depth := min 65535 sum
  let past := decide (0 < r.hole ∧ r.hole < depth)
  { r with
    lines := min 65535 (r.lines + 1)
    depth := depth
    deep := r.deep || decide (65535 < sum)
    overset := if past then min 63 (r.overset + 1) else r.overset
    cut := if past && r.cut.isNone then some r.lineStart else r.cut
    width := 0
    content := false
    break_ := none }

/-- One pass of the fit loop of R141 while W is above M8; `a` is the advance of the word at `index`. -/
def FitRun.breakOnce (a index : Nat) (r : FitRun) : FitRun :=
  match r.break_ with
  | some b =>
    let w := r.width - b.leftBehind
    { r.endLine with width := w, lineStart := b.start, content := decide (0 < w) }
  | none =>
    if 0 < r.width - a then
      { r.endLine with width := a, lineStart := index, content := decide (0 < a), forced := min 255 (r.forced + 1) }
    else { r.endLine with lineStart := index + 1, forced := min 255 (r.forced + 1) }

/-- R141: the fit loop. Three passes always suffice: a break leaves no break record, a forced break before the word
leaves W at `a`, and the one after it leaves W at 0. -/
def FitRun.loop (a index : Nat) : Nat → FitRun → FitRun
  | 0, r => r
  | fuel + 1, r => if r.width ≤ r.measure8 then r else FitRun.loop a index fuel (r.breakOnce a index)

/-- The passes a fit loop is given. -/
def fitPasses : Nat := 3

/-- R140: a character word. -/
def FitEngine.character (e : FitEngine) (code : Byte) (r : FitRun) : FitRun :=
  let a := e.advance r code
  let w := r.width + a
  let r' :=
    if code = 0x20 then
      { r with width := w, content := true,
               break_ := some { endWidth := r.width, leftBehind := w, start := r.index + 1 } }
    else { r with width := w, content := true }
  r'.loop a r.index fitPasses

/-- R142: a discretionary hyphen. -/
def FitEngine.hyphen (e : FitEngine) (r : FitRun) : FitRun :=
  let h := e.advance r 0x2D
  if r.width + h ≤ r.measure8 then
    { r with break_ := some { endWidth := r.width + h, leftBehind := r.width, start := r.index + 1 } }
  else r

/-- R143: a fixed space. -/
def FitRun.fixedSpace (n : Nat) (r : FitRun) : FitRun :=
  let a := min 255 n * r.size
  FitRun.loop a r.index fitPasses { r with width := r.width + a, content := true }

/-- Why a run ends (R145, R146). -/
inductive FitStop where
  | noFont
  | exhausted
  | endOfText
  deriving DecidableEq, Repr

/-- R145: a font selected; an absent font, or a number above 7, stops the run. -/
def FitEngine.selectFont (e : FitEngine) (n : Nat) (r : FitRun) : FitRun × Option FitStop :=
  if h : n < 8 then
    let f : Fin 8 := ⟨n, h⟩
    let r' := { r with fonts := r.fonts ||| fontBit f }
    if e.mask &&& fontBit f ≠ 0 then ({ r' with font := f }, none) else (r', some .noFont)
  else (r, some .noFont)

/-- R137: one copy word processed. -/
def FitEngine.process (e : FitEngine) (w : Word) (r : FitRun) : FitRun × Option FitStop :=
  match copyWord w with
  | .character code => (e.character code r, none)
  | .endOfText => (r, some .endOfText)
  | .font n => e.selectFont n r
  | .size n => ({ r with size := clamp 10 144 n }, none)
  | .leading n => ({ r with leading := n }, none)
  | .endParagraph => ({ r.endLine with lineStart := r.index + 1 }, none)
  | .measure n => (FitRun.loop 0 r.index fitPasses { r with measure8 := clamp 6 300 n * 128 }, none)
  | .fixedSpace n => (r.fixedSpace n, none)
  | .hyphen => (e.hyphen r, none)

/-- R146: the final line, ended when the line in progress has content; NO_FONT ends no further line (R145). -/
def FitRun.finish (stop : FitStop) (r : FitRun) : FitRun :=
  match stop with
  | .noFont => r
  | _ => if r.content then r.endLine else r

/-- R147: the status, the first that applies. -/
def FitRun.status (stop : FitStop) (r : FitRun) : FitStatus :=
  match stop with
  | .noFont => .noFont
  | .exhausted => .unterminated
  | .endOfText => if 0 < r.overset then .overset else if 0 < r.hole then .fits else .unplaced

/-- R147: the result of a finished run. -/
def FitRun.result (stop : FitStop) (r : FitRun) : FitResult :=
  { status := r.status stop
    lines := r.lines
    depth := r.depth
    deep := r.deep
    overset := r.overset
    cut := r.cut
    forced := r.forced
    spaceLeft := if r.status stop = .fits then some (r.hole - r.depth) else none }

/-! ## The fit queue (R132 to R134) -/

/-- A story joins the tail of its class: placed stories stand before unplaced ones. -/
def Chip.joinFitQueue (s : StoryNo) (c : Chip) : Chip :=
  let q := c.fit.queue
  let placed := fun (x : StoryNo) => c.stories[x].page.isSome
  c.onFit fun e =>
    { e with queue := if c.stories[s].page.isSome then q.takeWhile placed ++ s :: q.dropWhile placed else q ++ [s] }

/-- R133: a story is staled. -/
def Chip.stale (s : StoryNo) (c : Chip) : Chip :=
  if c.stories[s].state = .free then c
  else
    match c.stories[s].fit with
    | .current =>
      (((c.onStory s fun x => { x with fit := .stale }).joinFitQueue s).mark (.story s)).mark .fitCount
    | .stale => c
    | .running => c.onStory s fun x => { x with rerun := true }

/-- R134: after its page changed, a STALE story moves to the tail of its new class; any other is staled. -/
def Chip.restale (s : StoryNo) (c : Chip) : Chip :=
  if c.stories[s].fit = .stale then
    (c.onFit fun e => { e with queue := e.queue.filter (· ≠ s) }).joinFitQueue s
  else c.stale s

/-- R130, R131: the fonts in `fonts` have changed; every story that used one of them is staled, in story order, and
the RUNNING story takes the re-run mark if its run has selected one. -/
def Chip.staleFonts (fonts : Byte) (c : Chip) : Chip :=
  (List.finRange 1024).foldl
    (fun c s =>
      let used :=
        match c.stories[s].fit with
        | .running => match c.fit.run with | some r => r.fonts | none => 0
        | _ => c.stories[s].fontsUsed
      if used &&& fonts ≠ 0 then c.stale s else c) c

/-! ## Runs (R136, R148) -/

/-- The working state at the start of a run (R136, table). -/
def FitRun.begin (n : StoryNo) (s : Story) : FitRun :=
  { story := n, blocks := s.blocks, index := 0, font := s.style.font, size := s.style.size,
    leading := s.style.leading, measure8 := s.style.measure * 128, track := s.style.track, hole := s.hole,
    width := 0, break_ := none, content := false, lineStart := 0, lines := 0, depth := 0, deep := false,
    overset := 0, cut := none, forced := 0, fonts := 0 }

/-- R148 b: the result is recorded. -/
def Chip.recordFit (stop : FitStop) (r : FitRun) (c : Chip) : Chip :=
  let c := (c.onStory r.story fun x =>
    { x with fit := .current, result := some (r.result stop), fontsUsed := r.fonts }).mark (.story r.story)
  let c := if c.stories[r.story].page.isSome then c.raise .fit else c
  match c.stories[r.story].state, c.stories[r.story].holder with
  | .open_, some t =>
    if 0 < r.overset then c.post .overset r.story.val (some r.overset) (.terminal t) else c
  | _, _ => c

/-- R148 a: the result is discarded and the story joins the tail of its class. -/
def Chip.discardFit (s : StoryNo) (c : Chip) : Chip :=
  (((c.onStory s fun x => { x with fit := .stale, rerun := false }).joinFitQueue s).mark (.story s)).mark .fitCount

/-- R148: the run ends, by the re-run mark. -/
def Chip.endRun (stop : FitStop) (r : FitRun) (c : Chip) : Chip :=
  let c := c.onFit fun e => { e with run := none }
  if c.stories[r.story].rerun then c.discardFit r.story else c.recordFit stop (r.finish stop)

/-- R136 a to e: the head of the queue is taken; an absent initial font, or an empty copy, ends the run at once. -/
def Chip.startRun (s : StoryNo) (rest : List StoryNo) (c : Chip) : Chip :=
  let c := ((c.onFit fun e => { e with queue := rest }).mark .fitCount)
  let c := (c.onStory s fun x => { x with fit := .running, rerun := false }).mark (.story s)
  match c.fit.selectFont c.stories[s].style.font.val (FitRun.begin s c.stories[s]) with
  | (r, some stop) => c.endRun stop r
  | (r, none) => if r.blocks = [] then c.endRun .exhausted r else c.onFit fun e => { e with run := some r }

/-- R136, R148: while the engine is IDLE and the queue holds a story, the head is taken. -/
def Chip.takeFits : Nat → Chip → Chip
  | 0, c => c
  | fuel + 1, c =>
    if c.cu.service = .running ∧ c.fit.run = none then
      match c.fit.queue with
      | [] => c
      | s :: rest => Chip.takeFits fuel (c.startRun s rest)
    else c

/-- R136: at the end of an event that may have brought a story into the queue or ended a run, the idle engine takes
the head (log 12). A run that ends in its taking event leaves the queue one shorter. -/
def Chip.fitTake (c : Chip) : Chip := c.takeFits c.fit.queue.length

/-- A story staled, and the idle engine served. -/
def Chip.staleStory (s : StoryNo) (c : Chip) : Chip := (c.stale s).fitTake

/-- R137: the word a run has requested at the port, that of its index. -/
def FitRun.requested (r : FitRun) : Option CopyPlace :=
  r.blocks[r.index / Config.blockWords]?.map fun b => { block := b, word := Fin.ofNat 128 r.index }

/-- R149: the run is abandoned; the word it had requested stays at the port. -/
def FitEngine.abandon (e : FitEngine) : FitEngine :=
  { e with run := none, abandoned := e.abandoned ++ (e.run.bind (·.requested)).toList }

/-- R107 d, R149: KILL withdraws a story from the fit. -/
def Chip.withdrawFit (s : StoryNo) (c : Chip) : Chip :=
  match c.stories[s].fit with
  | .current => c
  | .stale => (c.onFit fun e => { e with queue := e.queue.filter (· ≠ s) }).mark .fitCount
  | .running => (c.onFit (·.abandon)).fitTake

/-- R137: the copy word of the run is processed in the event that serves its read. -/
def Chip.processWord (r : FitRun) (w : Word) (c : Chip) : Chip :=
  match c.fit.process w r with
  | (r', some stop) => (c.endRun stop r').fitTake
  | (r', none) =>
    if r.index + 1 = r.blocks.length * Config.blockWords then (c.endRun .exhausted r').fitTake
    else c.onFit fun e => { e with run := some { r' with index := r.index + 1 } }

/-- The read the fit engine waits for at the port: first the words that killed runs had requested, which complete and
are not processed (R149), then the next copy word of the run (R137). -/
def Chip.fitWord (c : Chip) : Option OwnRead :=
  match c.fit.abandoned with
  | p :: rest =>
    some
      { address := c.path.blockWord p.block p.word
        after := fun _ => c.onFit fun e => { e with abandoned := rest } }
  | [] =>
    c.fit.run.bind fun r => r.requested.map fun p =>
      { address := c.path.blockWord p.block p.word, after := fun w => c.processWord r w }

/-- FIT_WORD_READ (R137). -/
def execFitWordRead (s : State) : Host.Outcome State Fault Refusal := ownRead .fitEngine Chip.fitWord s

/-! ## Writes of the tables (R130, R131) and REFIT (R135) -/

/-- R130: a write of width entry (f, code). -/
def Chip.takeWidth (f : Fin 8) (code : Fin 256) (v : Word) (c : Chip) : Chip :=
  ((c.onFit fun e => { e with widths := update e.widths f fun t => t.set code (v.setWidth 8) }).staleFonts
    (fontBit f)).fitTake

/-- R131: a write of the fonts-present mask. -/
def Chip.takeFontsPresent (v : Word) (c : Chip) : Chip :=
  ((c.onFit fun e => { e with mask := v.setWidth 8 }).staleFonts (c.fit.mask ^^^ v.setWidth 8)).fitTake

/-- R135. -/
def Chip.refit (c : Chip) : Reply :=
  match finArg 1024 (c.cu.arg 1) with
  | none => .refuse .badArgument
  | some s => if c.stories[s].state = .free then .refuse .wrongState else .done (c.staleStory s) []

/-- REFIT (R135), command 18. -/
def execRefit (s : State) : Host.Outcome State Fault Refusal := takeCommand 18 Chip.refit s

end Sys2Proof.Machine
end

