-- ==== Sys2Proof/Machine/Custody.lean ====
section
/-! DEFINITION. Story custody (chapter 6): baskets, holders and leases, desk settings, reports of accepted writes,
freezing and returning for the page controller, and the nine custody commands. -/

namespace Sys2Proof.Machine

/-! ## Baskets (R91 to R95) -/

/-- A basket changed, and the items of R95 marked: the story's record, the record before it, the desk's entry. -/
def Chip.setBasket (s : StoryNo) (before : Option StoryNo) (q : List StoryNo) (c : Chip) : Chip :=
  let d := c.stories[s].desk
  let c := (c.onDesk d fun x => { x with basket := q }).mark (.story s)
  let c := match before with | some p => c.mark (.story p) | none => c
  c.mark (.desk d)

/-- R92: a story joins the tail of its class in its desk's basket. -/
def Chip.joinTail (s : StoryNo) (c : Chip) : Chip :=
  let b := c.desks[c.stories[s].desk].basket
  let urgent := fun (x : StoryNo) => c.stories[x].urgent
  let q := if c.stories[s].urgent then b.takeWhile urgent ++ s :: b.dropWhile urgent else b ++ [s]
  c.setBasket s (entryBefore s q) q

/-- R93: a story joins the head of its class in its desk's basket, ignoring the limit. -/
def Chip.joinHead (s : StoryNo) (c : Chip) : Chip :=
  let b := c.desks[c.stories[s].desk].basket
  let urgent := fun (x : StoryNo) => c.stories[x].urgent
  let q := if c.stories[s].urgent then s :: b else b.takeWhile urgent ++ s :: b.dropWhile urgent
  c.setBasket s (entryBefore s q) q

/-- R94: a story leaves its basket; the others keep their order. -/
def Chip.leaveBasket (s : StoryNo) (c : Chip) : Chip :=
  let b := c.desks[c.stories[s].desk].basket
  c.setBasket s (entryBefore s b) (b.filter (· ≠ s))

/-- R92: the basket of `d` has no room for a SEND or SUBMIT of `s`, which is left out of the count. -/
def Chip.basketFull (c : Chip) (d : DeskNo) (s : StoryNo) : Bool :=
  c.desks[d].basketLimit ≤ (c.desks[d].basket.filter (· ≠ s)).length

/-! ## Holders and leases (R96, R97) -/

/-- R97: the lease a story of desk `d` is armed with. -/
def Chip.armedLease (c : Chip) (d : DeskNo) : Option Lease :=
  if c.desks[d].idleLimit = 0 then none else some { remaining := c.desks[d].idleLimit, warned := false }

/-- R97: a present lease is re-armed with the desk's idle limit as it stands. -/
def Chip.rearm (s : StoryNo) (c : Chip) : Chip :=
  let limit := c.desks[c.stories[s].desk].idleLimit
  c.onStory s fun x => { x with lease := x.lease.map fun _ => { remaining := limit, warned := false } }

/-- R77, R109: a KEYS answer re-arms the leases of the stories the terminal holds. -/
def Chip.rearmHeld (t : TerminalNo) (c : Chip) : Chip := c.custody.held[t].foldl (fun c s => c.rearm s) c

/-- A story becomes OPEN with holder `t` (R96, R97): held set, lease and open count. -/
def Chip.enterOpen (s : StoryNo) (t : TerminalNo) (c : Chip) : Chip :=
  let d := c.stories[s].desk
  let c := c.onStory s fun x => { x with state := .open_, holder := some t, lease := c.armedLease d }
  let c := c.onCustody fun k => { k with held := update k.held t fun l => l ++ [s] }
  ((c.onDesk d fun x => { x with openCount := x.openCount + 1 }).mark (.story s)).mark (.desk d)

/-- An OPEN story leaves its holder's held set, its holder and lease are cleared, the open count of its desk falls
by one; its state is set by the caller. -/
def Chip.leaveOpen (s : StoryNo) (c : Chip) : Chip :=
  let d := c.stories[s].desk
  let c := match c.stories[s].holder with
    | some t => c.onCustody fun k => { k with held := update k.held t fun l => l.filter (· ≠ s) }
    | none => c
  let c := c.onStory s fun x => { x with holder := none, lease := none }
  ((c.onDesk d fun x => { x with openCount := x.openCount - 1 }).mark (.story s)).mark (.desk d)

/-- R93: a story returns to the head of its class in its own desk's basket; an OPEN story first leaves its holder. -/
def Chip.returnToHead (s : StoryNo) (c : Chip) : Chip :=
  let c := if c.stories[s].state = .open_ then c.leaveOpen s else c
  (c.onStory s fun x => { x with state := .basket }).joinHead s

/-! ## For the page controller (R110) -/

/-- R110 a: a placed story is frozen; a BASKET story leaves its basket. -/
def Chip.freeze (s : StoryNo) (c : Chip) : Chip :=
  let c := if c.stories[s].state = .basket then c.leaveBasket s else c
  (c.onStory s fun x => { x with state := .set }).mark (.story s)

/-- R152: a story's entry leaves the placement list of page `p`; hole and page are cleared in the same event. -/
def Chip.removeFrom (p : PageNo) (s : StoryNo) (c : Chip) : Chip :=
  let c := (c.onPage p fun x => { x with placements := x.placements.filter (·.story ≠ s) }).mark (.page p)
  (c.onStory s fun x => { x with hole := 0, page := none }).mark (.story s)

/-- R107 c: a killed story is removed from the page it names, if any. -/
def Chip.removePlacement (s : StoryNo) (c : Chip) : Chip :=
  match c.stories[s].page with
  | none => c
  | some p => c.removeFrom p s

/-! ## Reports of accepted writes (R8, R109) -/

/-- R109: custody takes the head of its report list. -/
def Chip.takeReport (c : Chip) : Chip :=
  match c.custody.reports with
  | [] => c
  | s :: rest =>
    let c := c.onCustody fun k => { k with reports := rest }
    if c.stories[s].state = .free then c
    else
      let c := (c.onStory s fun x => { x with stamp := c.clock.count }).mark (.story s)
      if c.stories[s].state = .open_ then c.rearm s else c

/-- WRITE_REPORT (R109). -/
def execWriteReport (s : State) : Host.Outcome State Fault Refusal := chipEvent Chip.takeReport s

/-! ## Desk settings (R98) -/

/-- R98: a value taken into the setting that word `k` of a desk's entry holds. -/
def Desk.takeWord (k : Nat) (v : Word) (d : Desk) : Desk :=
  if h : k < 4 then
    { d with name := (d.name.set (2 * k) (v.extractLsb' 8 8) (by omega)).set (2 * k + 1) (v.extractLsb' 0 8) (by omega) }
  else if k = 4 then { d with basketLimit := clamp 1 255 v.toNat }
  else if k = 5 then { d with idleLimit := min 3600 v.toNat }
  else if k = 6 then { d with idleAction := if v = 1 then .recall else .notify }
  else d

/-- R98: a host write to desk table word `k`, 0 to 127. -/
def Chip.takeDeskWord (k : Nat) (v : Word) (c : Chip) : Chip :=
  c.onDesk (Fin.ofNat 16 (k / 8)) (Desk.takeWord (k % 8) v)

/-! ## The custody commands (R99 to R108) -/

/-- R99 b to d: caller, state, relation, in that order. -/
def Chip.custodyFault (c : Chip) (a : Admits) (stateAllowed relation : Bool) : Option ResultCode :=
  match c.callerFault a with
  | some r => some r
  | none => if !stateAllowed then some .wrongState else if !relation then some .noClearance else none

/-- EDIT or SLOT terminals and SYSTEM (R99, table). -/
def Admits.editors : Admits := { system := true, terminal := some .edit }

/-- R100 from the taking of the story: INTAKE for SYSTEM, OPEN for a terminal. -/
def Chip.createStory (s : StoryNo) (d : DeskNo) (urgent : Bool) (c : Chip) : Chip :=
  let c := (c.onStory s fun x => { x with desk := d, urgent := urgent, stamp := c.clock.count }).mark (.story s)
  let c := match c.callerTerminal with
    | some t => c.enterOpen s t
    | none => c.onStory s fun x => { x with state := .intake }
  let c := (c.onCustody fun k => { k with freeStories := k.freeStories - 1 }).mark .freeStories
  c.staleStory s

/-- The held set of the calling terminal is full (R96). -/
def Chip.callerHoldsTwo (c : Chip) : Bool :=
  match c.callerTerminal with
  | some t => 2 ≤ c.custody.held[t].length
  | none => false

/-- R88: the lowest-numbered FREE story. -/
def Chip.lowestFree (c : Chip) : Option StoryNo := (List.finRange 1024).find? fun s => c.stories[s].state = .free

/-- R100. -/
def Chip.create (c : Chip) : Reply :=
  match finArg 16 (c.cu.arg 1), flagArg (c.cu.arg 2) with
  | some d, some urgent =>
    match c.custodyFault .editors true (c.callerSystem || c.callerOnDesk d .read) with
    | some r => .refuse r
    | none =>
      match c.lowestFree with
      | none => .refuse .noFreeStory
      | some s => if c.callerHoldsTwo then .refuse .listFull else .done (c.createStory s d urgent) [wordOf s.val]
  | _, _ => .refuse .badArgument

/-- R99: ATTACH and DETACH work on INTAKE and OPEN stories, for SYSTEM and the holder in that order. -/
def Chip.blockFault (c : Chip) (s : StoryNo) : Option ResultCode :=
  let x := c.stories[s]
  c.custodyFault .editors (x.state = .intake || x.state = .open_)
    (if x.state = .intake then c.callerSystem else c.callerIs x.holder)

/-- R101. -/
def Chip.attach (c : Chip) : Reply :=
  match finArg 1024 (c.cu.arg 1), finArg 8192 (c.cu.arg 2) with
  | some s, some b =>
    match c.blockFault s with
    | some r => .refuse r
    | none =>
      if c.custody.owners[b].isSome then .refuse .blockTaken
      else if 48 ≤ c.stories[s].blocks.length then .refuse .listFull
      else
        let c := c.onCustody fun k => { k with owners := k.owners.set b (some s), freeBlocks := k.freeBlocks - 1 }
        let c := (c.onStory s fun x => { x with blocks := x.blocks ++ [b] }).mark (.story s)
        .done ((c.mark .freeBlocks).staleStory s) []
  | _, _ => .refuse .badArgument

/-- R102. -/
def Chip.detach (c : Chip) : Reply :=
  match finArg 1024 (c.cu.arg 1) with
  | none => .refuse .badArgument
  | some s =>
    match c.blockFault s with
    | some r => .refuse r
    | none =>
      match c.stories[s].blocks.getLast? with
      | none => .refuse .wrongState
      | some b =>
        let c := (c.onStory s fun x => { x with blocks := x.blocks.dropLast }).mark (.story s)
        let c := c.onCustody fun k => { k with owners := k.owners.set b none, freeBlocks := k.freeBlocks + 1 }
        .done ((c.mark .freeBlocks).staleStory s) [wordOf b.val]

/-- R103. -/
def Chip.submit (c : Chip) : Reply :=
  match finArg 1024 (c.cu.arg 1), finArg 16 (c.cu.arg 2) with
  | some s, some d =>
    match c.custodyFault .systemOnly (c.stories[s].state = .intake) true with
    | some r => .refuse r
    | none =>
      if c.basketFull d s then .refuse .basketFull
      else .done ((c.onStory s fun x => { x with desk := d, state := .basket }).joinTail s) []
  | _, _ => .refuse .badArgument

/-- R104. -/
def Chip.openStory (c : Chip) : Reply :=
  match finArg 1024 (c.cu.arg 1) with
  | none => .refuse .badArgument
  | some s =>
    match c.custodyFault { system := false, terminal := some .edit } (c.stories[s].state = .basket)
        (c.callerOnDesk c.stories[s].desk .read) with
    | some r => .refuse r
    | none =>
      match c.callerTerminal with
      | none => .refuse .noClearance
      | some t => if c.callerHoldsTwo then .refuse .listFull else .done ((c.leaveBasket s).enterOpen s t) []

/-- R105 from the leaving: the story comes to the tail of its class at the target desk, and ARRIVED is posted. -/
def Chip.sendStory (s : StoryNo) (d : DeskNo) (urgent : Bool) (c : Chip) : Chip :=
  let c := if c.stories[s].state = .open_ then c.leaveOpen s else c.leaveBasket s
  let c := c.onStory s fun x =>
    { x with desk := d, urgent := urgent, version := if x.version = 255 then 255 else x.version + 1, state := .basket }
  (c.joinTail s).post .arrived s.val (some d.val) (.desk d)

/-- R105. -/
def Chip.send (c : Chip) : Reply :=
  match finArg 1024 (c.cu.arg 1), finArg 16 (c.cu.arg 2), flagArg (c.cu.arg 3) with
  | some s, some d, some urgent =>
    let x := c.stories[s]
    match c.custodyFault .editors (x.state = .open_ || x.state = .basket)
        (if x.state = .open_ then c.callerIs x.holder else c.callerSystem || c.callerOnDesk x.desk .slot) with
    | some r => .refuse r
    | none => if c.basketFull d s then .refuse .basketFull else .done (c.sendStory s d urgent) []
  | _, _, _ => .refuse .badArgument

/-- R106. -/
def Chip.returnStory (c : Chip) : Reply :=
  match finArg 1024 (c.cu.arg 1) with
  | none => .refuse .badArgument
  | some s =>
    match c.custodyFault .editors (c.stories[s].state = .open_) (c.callerSystem || c.callerIs c.stories[s].holder) with
    | some r => .refuse r
    | none => .done (c.returnToHead s) []

/-- R107 e: every block of the list is freed. -/
def Chip.freeAll (l : List BlockNo) (c : Chip) : Chip :=
  let c := c.onCustody fun k =>
    { k with
             owners := l.foldl (fun (m : Vector (Option StoryNo) 8192) (b : BlockNo) => m.set b none) k.owners
             freeBlocks := k.freeBlocks + l.length }
  if l = [] then c else c.mark .freeBlocks

/-- R107, steps a to f; a pending report of the story is removed (R8). -/
def Chip.killStory (s : StoryNo) (c : Chip) : Chip :=
  let x := c.stories[s]
  let c := match x.state, x.holder with
    | .open_, some t => (c.post .killed s.val none (.terminal t)).leaveOpen s
    | .basket, _ => c.leaveBasket s
    | _, _ => c
  let c := ((c.removePlacement s).withdrawFit s).freeAll x.blocks
  let c := (c.onStory s fun _ => Story.free).mark (.story s)
  let c := c.onCustody fun k =>
    { k with freeStories := k.freeStories + 1, reports := k.reports.filter (· ≠ s) }
  c.mark .freeStories

/-- R107. -/
def Chip.kill (c : Chip) : Reply :=
  match finArg 1024 (c.cu.arg 1) with
  | none => .refuse .badArgument
  | some s =>
    let x := c.stories[s]
    match c.custodyFault { system := true, terminal := some .slot }
        (x.state = .intake || x.state = .basket || x.state = .open_)
        (c.callerSystem || c.callerOnDesk x.desk .read) with
    | some r => .refuse r
    | none => .done (c.killStory s) []

/-- The style arguments of SET STYLE, words 2 to 6 (R108). -/
def CommandUnit.styleArg (u : CommandUnit) : Option Style :=
  match finArg 8 (u.arg 2), rangeArg 10 144 (u.arg 3), rangeArg 0 4095 (u.arg 4), rangeArg 6 300 (u.arg 5),
      trackArg (u.arg 6) with
  | some font, some size, some leading, some measure, some track =>
    some { font := font, size := size, leading := leading, measure := measure, track := track }
  | _, _, _, _, _ => none

/-- R108. -/
def Chip.setStyle (c : Chip) : Reply :=
  match finArg 1024 (c.cu.arg 1), c.cu.styleArg with
  | some s, some style =>
    let x := c.stories[s]
    match c.custodyFault .editors (x.state = .intake || x.state = .basket || x.state = .open_)
        (c.callerSystem || c.callerIs x.holder || c.callerOnDesk x.desk .slot) with
    | some r => .refuse r
    | none => .done ((c.onStory s fun x => { x with style := style }).staleStory s) []
  | _, _ => .refuse .badArgument

/-- CREATE (R100), command 9. -/
def execCreate (s : State) : Host.Outcome State Fault Refusal := takeCommand 9 Chip.create s

/-- ATTACH (R101), command 10. -/
def execAttach (s : State) : Host.Outcome State Fault Refusal := takeCommand 10 Chip.attach s

/-- DETACH (R102), command 11. -/
def execDetach (s : State) : Host.Outcome State Fault Refusal := takeCommand 11 Chip.detach s

/-- SUBMIT (R103), command 12. -/
def execSubmit (s : State) : Host.Outcome State Fault Refusal := takeCommand 12 Chip.submit s

/-- OPEN (R104), command 13. -/
def execOpenStory (s : State) : Host.Outcome State Fault Refusal := takeCommand 13 Chip.openStory s

/-- SEND (R105), command 14. -/
def execSend (s : State) : Host.Outcome State Fault Refusal := takeCommand 14 Chip.send s

/-- RETURN (R106), command 15. -/
def execReturnStory (s : State) : Host.Outcome State Fault Refusal := takeCommand 15 Chip.returnStory s

/-- KILL (R107), command 16. -/
def execKill (s : State) : Host.Outcome State Fault Refusal := takeCommand 16 Chip.kill s

/-- SET_STYLE (R108), command 17. -/
def execSetStyle (s : State) : Host.Outcome State Fault Refusal := takeCommand 17 Chip.setStyle s

end Sys2Proof.Machine
end

