-- ==== Sys2Proof/Machine/Link.lean ====
section
/-! DEFINITION. The setting link engine (chapter 10) with the passages of a page it causes at the page controller
(R163 to R165), and the commands LINK ON, LINK OFF and LINK RESUME. -/

namespace Sys2Proof.Machine

/-! ## The output queue (R163 to R165) -/

/-- R163: a page whose plate count is above 1 stands in the replate class. -/
def Chip.replateClass (c : Chip) (p : PageNo) : Bool := 1 < (c.pages[p].plates).toNat

/-- A page joins the tail of its class (R163). -/
def Chip.queueTail (p : PageNo) (c : Chip) : Chip :=
  let q := c.outputQueue
  { c with outputQueue :=
      if c.replateClass p then q.takeWhile c.replateClass ++ p :: q.dropWhile c.replateClass else q ++ [p] }

/-- A page joins the head of its class (R164). -/
def Chip.queueHead (p : PageNo) (c : Chip) : Chip :=
  let q := c.outputQueue
  { c with outputQueue :=
      if c.replateClass p then p :: q else q.takeWhile c.replateClass ++ p :: q.dropWhile c.replateClass }

/-- A page leaves the queue. -/
def Chip.unqueue (p : PageNo) (c : Chip) : Chip := { c with outputQueue := c.outputQueue.filter (· ≠ p) }

/-- R164: the link gives a SETTING page back. -/
def Chip.giveBack (p : PageNo) (c : Chip) : Chip :=
  (((c.onPage p fun x => { x with state := .queued }).queueHead p).mark (.page p)).mark .outputCount

/-- R165: the typesetter has accepted the page whole. -/
def Chip.completePage (p : PageNo) (c : Chip) : Chip :=
  if c.pages[p].state = .setting then
    (((c.onPage p fun x => { x with state := .set }).mark (.page p)).post .pageSet p.number none
      (.desk c.pages[p].desk)).raise .link
  else c

/-! ## Link state, stages and frames (R170 to R173) -/

/-- The link enters a state with its stage; a change of the link state marks word 10 (R170). -/
def Chip.linkTo (st : LinkState) (stage : Option LinkStage) (c : Chip) : Chip :=
  let c' := c.onLink fun k => { k with state := st, stage := stage }
  if c.link.state = st then c' else c'.mark .linkState

/-- The frame in the buffer is sent, or sent again (R173 b). -/
def Chip.transmit (c : Chip) : Chip := c.linkTo .sending (some .transmitting)

/-- A new frame fills the buffer and is sent. -/
def Chip.sendFrame (kind : FrameKind) (payload : List Word) (c : Chip) : Chip :=
  (c.onLink fun k => { k with frame := some { kind := kind, payload := payload } }).transmit

/-- R172: what follows the last frame of placement `i` of a page with `n` placements. -/
def positionAfter (n i : Nat) : FramePosition := if i + 1 < n then .storyOpen (i + 1) else .pageClose

/-- The payload of a PAGE OPEN frame (R171). -/
def Page.openPayload (p : PageNo) (x : Page) : List Word :=
  [wordOf p.number, wordOf (x.edition.getD 0), x.plates.setWidth 16, if x.late then 1 else 0,
    wordOf x.placements.length]

/-- The payload of a STORY OPEN frame (R171). -/
def storyOpenPayload (e : Placement) (s : Style) : List Word :=
  [wordOf e.story.val, wordOf s.font.val, wordOf s.size, wordOf s.leading, wordOf s.measure, trackWord s.track,
    wordOf e.hole]

/-- The next frame of the page in hand is built and sent; a TEXT frame is read first (R172, R173). -/
def Chip.buildNext (c : Chip) : Chip :=
  match c.link.page with
  | none => c
  | some p =>
    let close := (c.onLink fun k => { k with position := some .pageClose }).sendFrame .pageClose
      [wordOf p.number, wordOf c.link.wordsSent]
    match c.link.position with
    | some (.storyOpen i) =>
      match c.pages[p].placements[i]? with
      | none => close
      | some e =>
        let blocks := c.stories[e.story].blocks
        let next := if blocks = [] then positionAfter c.pages[p].placements.length i else .text i 0
        (c.onLink fun k => { k with blocks := blocks, position := some next }).sendFrame .storyOpen
          (storyOpenPayload e c.stories[e.story].style)
    | some (.text _ _) =>
      (c.onLink fun k => { k with frame := some { kind := .text, payload := [] } }).linkTo .sending (some .reading)
    | _ => close

/-- R173 a: the read of the next copy word of a TEXT frame. Reading ends with the 64th word, END OF TEXT, or the
last word of the last block. -/
def Chip.textWord (c : Chip) : Option OwnRead :=
  match c.link.stage, c.link.page, c.link.position, c.link.frame with
  | some .reading, some p, some (.text i index), some f =>
    match c.link.blocks[index / Config.blockWords]? with
    | none => none
    | some b =>
      some
        { address := c.path.blockWord b (index % Config.blockWords)
          after := fun w =>
            let payload := f.payload ++ [w]
            let ended := copyWord w = .endOfText ∨ index + 1 = c.link.blocks.length * Config.blockWords
            let next := if ended then positionAfter c.pages[p].placements.length i else .text i (index + 1)
            let c := c.onLink fun k => { k with position := some next, frame := some { f with payload := payload } }
            if ended ∨ payload.length = 64 then c.transmit else c }
  | _, _, _, _ => none

/-- R173 b, c: the check word has been sent; the wait for the answer begins at 0. -/
def Chip.frameSent (c : Chip) : Chip :=
  if c.link.state = .sending ∧ c.link.stage = some .transmitting then
    c.onLink fun k => { k with stage := some .awaiting, answerWait := 0 }
  else c

/-- R174, R163: the page controller hands the head of the queue to the IDLE link. -/
def Chip.pageTake (c : Chip) : Chip :=
  match c.outputQueue with
  | [] => c
  | p :: rest =>
    if c.link.state = .idle ∧ c.link.offMark = false then
      let c := ((({ c with outputQueue := rest } : Chip).onPage p fun x => { x with state := .setting }).mark
        (.page p)).mark .outputCount
      (c.onLink fun k =>
        { k with page := some p, wordsSent := 0, tries := 0, holds := 0
                 position := some (if c.pages[p].placements = [] then .pageClose else .storyOpen 0) }).sendFrame
        .pageOpen (c.pages[p].openPayload p)
    else c

/-! ## Abandoning a page (R183, R184) -/

/-- ABANDON is built for the abandoning page and sent; try and hold counts are 0 (R183). -/
def Chip.buildAbandon (c : Chip) : Chip :=
  match c.link.abandoning with
  | none => c
  | some p => (c.onLink fun k => { k with tries := 0, holds := 0 }).sendFrame .abandon [wordOf p.number]

/-- R183: a page is withdrawn from the link. A copy word requested and not yet granted is dropped with the READING stage
(DESIGN CHOICE, unsafe in the grants: R183 speaks only of an access already granted; log 28). -/
def Chip.withdrawPage (p : PageNo) (c : Chip) : Chip :=
  let c := c.onLink fun k => { k with page := none, abandoning := some p, position := none }
  if c.link.state = .holding ∨ c.link.stage = some .reading then c.buildAbandon else c

/-- R184 a: the ABANDON has been accepted. -/
def Chip.endAbandon (c : Chip) : Chip :=
  let off := c.link.offMark
  (c.onLink fun k => { k with abandoning := none, offMark := false }).linkTo (if off then .off else .idle) none

/-- The frame in flight belongs to a page withdrawn from the link (R183). -/
def SettingLink.inFlightWithdrawn (k : SettingLink) : Bool :=
  k.abandoning.isSome && (match k.frame with | some f => f.kind ≠ .abandon | none => false)

/-! ## Answers, failures and holds (R175 to R179) -/

/-- R179: the link enters FAULT. -/
def Chip.linkFault (c : Chip) : Chip :=
  let named := c.link.page.orElse fun _ => c.link.abandoning
  let c := match c.link.page with | some p => c.giveBack p | none => c
  let c := match named with | some p => c.post .linkFault p.number none .everySlot | none => c
  let c := c.raise .link
  (c.onLink fun k =>
    { k with page := none, abandoning := none, offMark := false, position := none, frame := none, tries := 0,
             holds := 0, answerWait := 0, wordsSent := 0 }).linkTo .fault none

/-- R176: a failure of the frame sends it again, or on the third faults the link. -/
def Chip.frameFailed (c : Chip) : Chip :=
  let c := c.onLink fun k => { k with holds := 0 }
  if c.link.tries < 2 then (c.onLink fun k => { k with tries := k.tries + 1 }).transmit else c.linkFault

/-- R176, R183: a REJECT or a timeout of the frame awaited. -/
def Chip.frameRejected (c : Chip) : Chip :=
  if c.link.inFlightWithdrawn then c.buildAbandon else c.frameFailed

/-- R178: the page in hand is completed. -/
def Chip.completeLink (c : Chip) : Chip :=
  let c := match c.link.page with | some p => c.completePage p | none => c
  (c.onLink fun k => { k with page := none, position := none, wordsSent := 0 }).linkTo .idle none

/-- R175: an ACCEPT of the frame awaited. -/
def Chip.frameAccepted (c : Chip) : Chip :=
  let c := c.onLink fun k => { k with tries := 0, holds := 0 }
  if c.link.inFlightWithdrawn then c.buildAbandon
  else
    match c.link.frame with
    | none => c
    | some f =>
      match f.kind with
      | .abandon => c.endAbandon
      | .pageClose => c.completeLink
      | .text => (c.onLink fun k => { k with wordsSent := k.wordsSent + f.payload.length }).buildNext
      | _ => c.buildNext

/-- R177: a HOLD of the frame awaited. -/
def Chip.frameHeld (c : Chip) : Chip :=
  if c.link.inFlightWithdrawn then c.buildAbandon else c.linkTo .holding none

/-- The link awaits the answer to a frame. -/
def SettingLink.isAwaiting (k : SettingLink) : Bool := k.state = .sending && k.stage = some .awaiting

/-- R175: an answer word taken in AWAITING, discarded in every other state and stage. -/
def Chip.answerWord (w : Word) (c : Chip) : Chip :=
  if c.link.isAwaiting then
    if w = 1 then c.frameAccepted else if w = 2 then c.frameHeld else c.frameRejected
  else c

/-! ## Pulses at the link (R176, R177) -/

/-- A pulse in AWAITING times the frame out. -/
def SettingLink.timesOut (k : SettingLink) : Bool := k.isAwaiting && 2 ≤ k.answerWait + 1

/-- A pulse in HOLDING sends the held frame again. -/
def SettingLink.holdEnds (k : SettingLink) : Bool := k.state = .holding && k.holds + 1 ≤ k.holdLimit

/-- A pulse in HOLDING passes the hold limit. -/
def SettingLink.holdTooLong (k : SettingLink) : Bool := k.state = .holding && k.holdLimit < k.holds + 1

/-- The link engine takes a pulse in its own event, whatever the clock's state (R115, R176, R177). -/
def Chip.linkPulse (c : Chip) : Chip :=
  if c.link.timesOut then c.frameRejected
  else if c.link.isAwaiting then c.onLink fun k => { k with answerWait := k.answerWait + 1 }
  else if c.link.holdEnds then (c.onLink fun k => { k with holds := k.holds + 1 }).transmit
  else if c.link.holdTooLong then c.linkFault
  else c

/-! ## Link commands (R180 to R182) -/

/-- R180. -/
def Chip.linkOn (c : Chip) : Reply :=
  match c.callerFault .systemOnly with
  | some r => .refuse r
  | none => if c.link.state = .off then .done (c.linkTo .idle none) [] else .refuse .wrongState

/-- R181. -/
def Chip.linkResume (c : Chip) : Reply :=
  match c.callerFault .systemOnly with
  | some r => .refuse r
  | none => if c.link.state = .fault then .done (c.linkTo .idle none) [] else .refuse .wrongState

/-- R182 with a page in hand or an abandoning page. -/
def Chip.turnLinkOff (c : Chip) : Chip :=
  let c := match c.link.page with | some p => (c.giveBack p).withdrawPage p | none => c
  c.onLink fun k => { k with offMark := true }

/-- R182. -/
def Chip.linkOff (c : Chip) : Reply :=
  match c.callerFault .systemOnly with
  | some r => .refuse r
  | none =>
    if c.link.offMark then .refuse .wrongState
    else
      match c.link.state with
      | .off => .refuse .wrongState
      | .idle => .done (c.linkTo .off none) []
      | .fault => .done (c.linkTo .off none) []
      | .sending => .done c.turnLinkOff []
      | .holding => .done c.turnLinkOff []

/-! ## The meanings -/

/-- PAGE_TAKE (R174). -/
def execPageTake (s : State) : Host.Outcome State Fault Refusal := chipEvent Chip.pageTake s

/-- TEXT_WORD_READ (R173). -/
def execTextWordRead (s : State) : Host.Outcome State Fault Refusal := ownRead .linkEngine Chip.textWord s

/-- FRAME_SENT (R173). -/
def execFrameSent (s : State) : Host.Outcome State Fault Refusal := chipEvent Chip.frameSent s

/-- LINK_PULSE (R176, R177): a time-base pulse at the link, whatever it brings about. -/
def execLinkPulse (s : State) : Host.Outcome State Fault Refusal := chipEvent Chip.linkPulse s

/-- FRAME_TIMEOUT (R176): the pulse that times the frame out; with no such pulse due, nothing happens (log 7). -/
def execFrameTimeout (s : State) : Host.Outcome State Fault Refusal :=
  chipEvent (fun c => if c.link.timesOut then c.linkPulse else c) s

/-- HOLD_WAIT_END (R177 b): the pulse that ends a hold (log 7). -/
def execHoldWaitEnd (s : State) : Host.Outcome State Fault Refusal :=
  chipEvent (fun c => if c.link.holdEnds then c.linkPulse else c) s

/-- HOLD_LIMIT_EXCEEDED (R177 c): the pulse that passes the hold limit (log 7). -/
def execHoldLimitExceeded (s : State) : Host.Outcome State Fault Refusal :=
  chipEvent (fun c => if c.link.holdTooLong then c.linkPulse else c) s

/-- ACCEPT (R175): answer word 1. -/
def execAccept (s : State) : Host.Outcome State Fault Refusal := chipEvent (Chip.answerWord 1) s

/-- HOLD (R177): answer word 2. -/
def execHold (s : State) : Host.Outcome State Fault Refusal := chipEvent (Chip.answerWord 2) s

/-- REJECT (R176): answer word 3, or any other word the typesetter may send; the link takes the word as it is. -/
def execReject (answer : Word) (s : State) : Host.Outcome State Fault Refusal := chipEvent (Chip.answerWord answer) s

/-- LINK_ON (R180), command 30. -/
def execLinkOn (s : State) : Host.Outcome State Fault Refusal := takeCommand 30 Chip.linkOn s

/-- LINK_OFF (R182), command 31. -/
def execLinkOff (s : State) : Host.Outcome State Fault Refusal := takeCommand 31 Chip.linkOff s

/-- LINK_RESUME (R181), command 32. -/
def execLinkResume (s : State) : Host.Outcome State Fault Refusal := takeCommand 32 Chip.linkResume s

end Sys2Proof.Machine
end

