-- ==== Sys2Proof/Machine/Pages.lean ====
section
/-! DEFINITION. The page controller (chapter 9): lateness and the seven page commands. -/

namespace Sys2Proof.Machine

/-! ## Checks (R153) -/

/-- R153 b to d: caller, page state, relation, in that order. -/
def Chip.pageFault (c : Chip) (stateAllowed : Bool) (d : DeskNo) : Option ResultCode :=
  match c.callerFault { system := true, terminal := some .slot } with
  | some r => some r
  | none =>
    if !stateAllowed then some .wrongState
    else if !(c.callerSystem || c.callerOnDesk d .slot) then some .noClearance
    else none

/-! ## Page commands (R154 to R158) -/

/-- R154. -/
def Chip.pageOpen (c : Chip) : Reply :=
  match pageArg (c.cu.arg 1), finArg 16 (c.cu.arg 2) with
  | some p, some d =>
    match c.pageFault (c.pages[p].state = .empty) d with
    | some r => .refuse r
    | none =>
      .done ((c.onPage p fun x =>
        { x with state := .makeup, desk := d, close := closeArg (c.cu.arg 3), late := false }).mark (.page p)) []
  | _, _ => .refuse .badArgument

/-- R155. -/
def Chip.setClose (c : Chip) : Reply :=
  match pageArg (c.cu.arg 1) with
  | none => .refuse .badArgument
  | some p =>
    match c.pageFault (c.pages[p].state = .makeup || c.pages[p].state = .queued) c.pages[p].desk with
    | some r => .refuse r
    | none =>
      .done ((c.onPage p fun x => { x with close := closeArg (c.cu.arg 2), late := false }).mark (.page p)) []

/-- R156 a to d: the placement entered on the page and in the story, which is staled. -/
def Chip.placeStory (p : PageNo) (s : StoryNo) (hole : Nat) (c : Chip) : Chip :=
  let c := (c.onPage p fun x => { x with placements := x.placements ++ [{ story := s, hole := hole }] }).mark (.page p)
  let c := (c.onStory s fun x => { x with page := some p, hole := hole }).mark (.story s)
  (c.restale s).fitTake

/-- R156. -/
def Chip.place (c : Chip) : Reply :=
  match pageArg (c.cu.arg 1), finArg 1024 (c.cu.arg 2), rangeArg 16 32767 (c.cu.arg 3) with
  | some p, some s, some hole =>
    match c.pageFault (c.pages[p].state = .makeup) c.pages[p].desk with
    | some r => .refuse r
    | none =>
      if c.stories[s].state = .free ∨ c.stories[s].state = .set then .refuse .wrongState
      else if c.stories[s].page.isSome then .refuse .alreadyPlaced
      else if 16 ≤ c.pages[p].placements.length then .refuse .pageFull
      else .done (c.placeStory p s hole) [wordOf (c.pages[p].placements.length + 1)]
  | _, _, _ => .refuse .badArgument

/-- R157 a to d. -/
def Chip.unplaceStory (p : PageNo) (s : StoryNo) (c : Chip) : Chip := ((c.removeFrom p s).restale s).fitTake

/-- R157. -/
def Chip.unplace (c : Chip) : Reply :=
  match pageArg (c.cu.arg 1), finArg 1024 (c.cu.arg 2) with
  | some p, some s =>
    match c.pageFault (c.pages[p].state = .makeup) c.pages[p].desk with
    | some r => .refuse r
    | none =>
      if c.pages[p].placements.any (·.story = s) then
        .done (c.unplaceStory p s) [wordOf ((c.pages[p].placements.filter (·.story ≠ s)).length)]
      else .refuse .wrongState
  | _, _ => .refuse .badArgument

/-- R158. -/
def Chip.pageClear (c : Chip) : Reply :=
  match pageArg (c.cu.arg 1) with
  | none => .refuse .badArgument
  | some p =>
    match c.pageFault (c.pages[p].state = .makeup) c.pages[p].desk with
    | some r => .refuse r
    | none =>
      if c.pages[p].placements = [] then .done ((c.onPage p fun _ => Page.empty).mark (.page p)) []
      else .refuse .wrongState

/-! ## Release (R160, R161) -/

/-- R160, check 2: the QUEUED pages and the SETTING page together. -/
def Chip.releasedPages (c : Chip) : Nat :=
  c.outputQueue.length + (if (List.finRange 96).any fun p => c.pages[p].state = .setting then 1 else 0)

/-- R160, check 5: the status a placed story may show. -/
def Story.fitsFor (force : Bool) (s : Story) : Bool :=
  match s.result with
  | none => false
  | some r => r.status = .fits || (force && r.status = .overset)

/-- R160: the remaining checks in order; each looks at every placement before the next is made. -/
def Chip.releaseFault (c : Chip) (p : PageNo) (force : Bool) : Option (ResultCode × List Word) :=
  let l := c.pages[p].placements
  if l = [] then some (.emptyPage, [])
  else if 16 ≤ c.releasedPages then some (.queueFull, [])
  else
    match l.find? fun e => c.stories[e.story].state = .open_ with
    | some e => some (.storyOpen, [wordOf e.story.val])
    | none =>
      match l.find? fun e => c.stories[e.story].fit ≠ .current with
      | some e => some (.notFit, [wordOf e.story.val])
      | none =>
        match l.find? fun e => !c.stories[e.story].fitsFor force with
        | some e => some (.notFit, [wordOf e.story.val])
        | none => none

/-- R161, steps a to f. -/
def Chip.releasePage (p : PageNo) (c : Chip) : Chip :=
  let c := c.pages[p].placements.foldl (fun c e => c.freeze e.story) c
  let c := c.onPage p fun x =>
    { x with stamp := some c.clock.count, edition := some c.clock.current, state := .queued
             plates := if x.plates = 255 then 255 else x.plates + 1 }
  ((((c.queueTail p).mark (.page p)).mark .outputCount).post .released p.number none (.desk c.pages[p].desk))

/-- R160, R161. -/
def Chip.release (c : Chip) : Reply :=
  match pageArg (c.cu.arg 1), flagArg (c.cu.arg 2) with
  | some p, some force =>
    match c.pageFault (c.pages[p].state = .makeup) c.pages[p].desk with
    | some r => .refuse r
    | none =>
      match c.releaseFault p force with
      | some (r, words) => .refused r words
      | none =>
        let c := c.releasePage p
        .done c [c.pages[p].plates.setWidth 16, wordOf (c.pages[p].edition.getD 0)]
  | _, _ => .refuse .badArgument

/-! ## Replate (R166) -/

/-- R166 a to c: the page leaves the queue, or is withdrawn from the link. -/
def Chip.recallPage (p : PageNo) (c : Chip) : Chip :=
  match c.pages[p].state with
  | .queued => (c.unqueue p).mark .outputCount
  | .setting => if c.link.page = some p then c.withdrawPage p else c
  | _ => c

/-- R166 d to f. -/
def Chip.replatePage (p : PageNo) (c : Chip) : Chip :=
  let c := (c.recallPage p).onPage p fun x => { x with state := .makeup }
  (c.pages[p].placements.foldl (fun c e => c.returnToHead e.story) c).mark (.page p)

/-- R166. -/
def Chip.replate (c : Chip) : Reply :=
  match pageArg (c.cu.arg 1) with
  | none => .refuse .badArgument
  | some p =>
    let st := c.pages[p].state
    match c.pageFault (st = .queued || st = .setting || st = .set) c.pages[p].desk with
    | some r => .refuse r
    | none => .done (c.replatePage p) [c.pages[p].plates.setWidth 16]

/-! ## Lateness (R159) -/

/-- R159: a page goes late when a running pulse brings the count onto its close time. -/
def Page.goesLate (count : Word) (x : Page) : Bool :=
  x.close = some count && (x.state = .makeup || x.state = .queued) && !x.late

/-- R159: one page goes late. -/
def Chip.makeLate (p : PageNo) (c : Chip) : Chip :=
  (((c.onPage p fun x => { x with late := true }).mark (.page p)).post .late p.number none
    (.slotOf c.pages[p].desk)).raise .clock

/-- R159: the pages compared with the new count, in ascending page number. -/
def Chip.comparePages (c : Chip) : Chip :=
  (List.finRange 96).foldl (fun c p => if c.pages[p].goesLate c.clock.count then c.makeLate p else c) c

/-! ## The meanings -/

/-- PAGE_OPEN (R154), command 23. -/
def execPageOpen (s : State) : Host.Outcome State Fault Refusal := takeCommand 23 Chip.pageOpen s

/-- SET_CLOSE (R155), command 24. -/
def execSetClose (s : State) : Host.Outcome State Fault Refusal := takeCommand 24 Chip.setClose s

/-- PLACE (R156), command 25. -/
def execPlace (s : State) : Host.Outcome State Fault Refusal := takeCommand 25 Chip.place s

/-- UNPLACE (R157), command 26. -/
def execUnplace (s : State) : Host.Outcome State Fault Refusal := takeCommand 26 Chip.unplace s

/-- PAGE_CLEAR (R158), command 27. -/
def execPageClear (s : State) : Host.Outcome State Fault Refusal := takeCommand 27 Chip.pageClear s

/-- RELEASE (R160, R161), command 28. -/
def execRelease (s : State) : Host.Outcome State Fault Refusal := takeCommand 28 Chip.release s

/-- REPLATE (R166), command 29. -/
def execReplate (s : State) : Host.Outcome State Fault Refusal := takeCommand 29 Chip.replate s

end Sys2Proof.Machine
end

