-- ==== Sys2Proof/Machine/Clock.lean ====
section
/-! DEFINITION. The night clock, the editions and the lease timer (chapter 7), and the clock commands. -/

namespace Sys2Proof.Machine

/-! ## Editions (R118, R120) -/

/-- R118: the first edition whose close time is greater than the count, or n. -/
def currentEdition (closes : List (Option Word)) (count : Word) : Nat :=
  match closes.findIdx? fun x => match x with | some v => decide (count < v) | none => false with
  | some i => i + 1
  | none => closes.length

/-- The edition, counted from 1, whose close time a count is. -/
def NightClock.closing (k : NightClock) (count : Word) : Option Nat :=
  (k.closes.findIdx? fun x => decide (x = some count)).map (· + 1)

/-- R120: edition `e` closes. -/
def Chip.closeEdition (e : Nat) (c : Chip) : Chip :=
  let c :=
    if e < c.clock.closes.length then (c.onClock fun k => { k with current := e + 1 }).mark .currentEdition else c
  (c.post .editionClosed e none .everySlot).raise .clock

/-! ## Leases (R121 to R124) -/

/-- R122, R123: an IDLE notice to the holder, and the lease reloaded as warned, or cleared under a limit of 0. -/
def Chip.warnHolder (s : StoryNo) (c : Chip) : Chip :=
  let limit := c.desks[c.stories[s].desk].idleLimit
  let c := match c.stories[s].holder with
    | some t => c.post .idle s.val none (.terminal t)
    | none => c
  c.onStory s fun x => { x with lease := if limit = 0 then none else some { remaining := limit, warned := true } }

/-- R124: the story is recalled and RECALLED is posted to the former holder. -/
def Chip.recallStory (s : StoryNo) (c : Chip) : Chip :=
  let holder := c.stories[s].holder
  let c := c.returnToHead s
  match holder with
  | some t => c.post .recalled s.val none (.terminal t)
  | none => c

/-- R122 to R124: a lease expires. -/
def Chip.expireLease (s : StoryNo) (warned : Bool) (c : Chip) : Chip :=
  if warned ∧ c.desks[c.stories[s].desk].idleAction = .recall then c.recallStory s else c.warnHolder s

/-- A running pulse makes the lease expire (R121 b). -/
def Lease.expires (l : Lease) : Bool := l.remaining ≤ 1

/-- R121: one story's lease counted down. -/
def Chip.countLease (c : Chip) (s : StoryNo) : Chip :=
  match c.stories[s].lease with
  | none => c
  | some l =>
    let c := c.onStory s fun x => { x with lease := some { l with remaining := l.remaining - 1 } }
    if l.expires then c.expireLease s l.warned else c

/-- R121: every lease, in ascending story number. -/
def Chip.countLeases (c : Chip) : Chip := (List.finRange 1024).foldl Chip.countLease c

/-! ## The pulse (R115) -/

/-- The pulse finds the clock in RUN and below 65,535: a running pulse. -/
def NightClock.runs (k : NightClock) : Bool := k.running && k.count ≠ 65535

/-- R115: a running pulse raises the count; then the edition close, the page comparison and the leases, in that
order and in one event. -/
def Chip.runningPulse (c : Chip) : Chip :=
  let count := c.clock.count + 1
  let c := (c.onClock fun k => { k with count := count }).mark .clockCount
  let c := match c.clock.closing count with | some e => c.closeEdition e | none => c
  c.comparePages.countLeases

/-- R115: a pulse taken by the clock; PAUSED or held, it has no effect. -/
def Chip.clockPulse (c : Chip) : Chip := if c.clock.runs then c.runningPulse else c

/-- The next pulse closes an edition. -/
def Chip.closeDue (c : Chip) : Bool := c.clock.runs && (c.clock.closing (c.clock.count + 1)).isSome

/-- The next pulse makes a page late. -/
def Chip.lateDue (c : Chip) : Bool :=
  c.clock.runs && (List.finRange 96).any fun p => c.pages[p].goesLate (c.clock.count + 1)

/-- At the next pulse a lease with this warned flag expires. -/
def Chip.expiryDue (c : Chip) (warned : Bool) : Bool :=
  c.clock.runs && (List.finRange 1024).any fun s =>
    match c.stories[s].lease with | some l => l.expires && l.warned = warned | none => false

/-- PULSE (R115): a time-base pulse at the clock, whatever it brings about. -/
def execPulse (s : State) : Host.Outcome State Fault Refusal := chipEvent Chip.clockPulse s

/-- EDITION_CLOSE (R120): the pulse that closes an edition, whole; with no such pulse due, nothing happens (log 7). -/
def execEditionClose (s : State) : Host.Outcome State Fault Refusal :=
  chipEvent (fun c => if c.closeDue then c.clockPulse else c) s

/-- PAGE_LATE (R159): the pulse that makes a page late, whole (log 7). -/
def execPageLate (s : State) : Host.Outcome State Fault Refusal :=
  chipEvent (fun c => if c.lateDue then c.clockPulse else c) s

/-- LEASE_FIRST_EXPIRY (R122): the pulse at which a lease with the warned flag clear expires, whole (log 7). -/
def execLeaseFirstExpiry (s : State) : Host.Outcome State Fault Refusal :=
  chipEvent (fun c => if c.expiryDue false then c.clockPulse else c) s

/-- LEASE_SECOND_EXPIRY (R123, R124): the pulse at which a warned lease expires, whole (log 7). -/
def execLeaseSecondExpiry (s : State) : Host.Outcome State Fault Refusal :=
  chipEvent (fun c => if c.expiryDue true then c.clockPulse else c) s

/-! ## Clock commands (R116, R117, R119) -/

/-- R116. -/
def Chip.clockRun (c : Chip) : Reply :=
  if c.clock.running then .refused .wrongState [c.clock.count]
  else .done (c.onClock fun k => { k with running := true }) [c.clock.count]

/-- R116. -/
def Chip.clockPause (c : Chip) : Reply :=
  if c.clock.running then .done (c.onClock fun k => { k with running := false }) [c.clock.count]
  else .refused .wrongState [c.clock.count]

/-- R117 from the load. -/
def Chip.loadClock (v : Word) (c : Chip) : Chip :=
  ((c.onClock fun k => { k with count := v, current := currentEdition k.closes v }).mark .clockCount).mark
    .currentEdition

/-- R117. -/
def Chip.setClock (c : Chip) : Reply :=
  match c.callerFault .systemOnly with
  | some r => .refuse r
  | none => .done (c.loadClock (c.cu.arg 1)) []

/-- R119: the close times of words 1 to 6, which rise strictly to the first 0 and are 0 after it. -/
def closesArg (words : List Word) : Option (List Word) :=
  let l := words.takeWhile (· ≠ 0)
  if l ≠ [] ∧ l.Pairwise (· < ·) ∧ (words.drop l.length).all (· = 0) then some l else none

/-- R119 from the taking of the schedule. -/
def Chip.takeSchedule (l : List Word) (c : Chip) : Chip :=
  (c.onClock fun k =>
    { k with closes := l.map some, current := currentEdition (l.map some) k.count }).mark .currentEdition

/-- R119. -/
def Chip.setEditions (c : Chip) : Reply :=
  match closesArg ([1, 2, 3, 4, 5, 6].map c.cu.arg) with
  | none => .refuse .badArgument
  | some l =>
    match c.callerFault .systemOnly with
    | some r => .refuse r
    | none =>
      let c := c.takeSchedule l
      .done c [wordOf c.clock.current]

/-- CLOCK_RUN (R116), command 19. -/
def execClockRun (s : State) : Host.Outcome State Fault Refusal := takeCommand 19 Chip.clockRun s

/-- CLOCK_PAUSE (R116), command 20. -/
def execClockPause (s : State) : Host.Outcome State Fault Refusal := takeCommand 20 Chip.clockPause s

/-- SET_CLOCK (R117), command 21. -/
def execSetClock (s : State) : Host.Outcome State Fault Refusal := takeCommand 21 Chip.setClock s

/-- SET_EDITIONS (R119), command 22. -/
def execSetEditions (s : State) : Host.Outcome State Fault Refusal := takeCommand 22 Chip.setEditions s

end Sys2Proof.Machine
end

