-- ==== Sys2Proof/Machine/Keys.lean ====
section
/-! DEFINITION. Key intake and sessions (chapter 5): the key ring, KEYS answers, take writes, the write list, and
the commands SIGN ON and SIGN OFF. -/

namespace Sys2Proof.Machine

/-! ## The key ring (R73 to R76) -/

/-- R73: the number of unread keys, (put - take + 64) modulo 64. -/
def KeyRing.unread (k : KeyRing) : Nat := (k.put - k.take).val

/-- R73: unread and waiting keys together number 63. -/
def KeyRing.full (k : KeyRing) : Bool := 63 ≤ k.unread + k.waiting.length

/-- R75: the ACK key. -/
def ackKey : Byte := 0xF0

/-- R75: a function key is a code 0x80 to 0xFF other than the ACK key. -/
def isFunctionKey (b : Byte) : Bool := 0x80 ≤ b.toNat && b ≠ ackKey

/-- R75: the ring position the next waiting key will occupy. -/
def KeyRing.nextPosition (k : KeyRing) : Fin 64 := k.put + Fin.ofNat 64 k.waiting.length

/-- R75: one code other than the ACK key, by the first line of the table that applies. -/
def KeyRing.takeCode (b : Byte) (k : KeyRing) : KeyRing :=
  if k.functionPending.isSome then k
  else if k.full then { k with overrun := true }
  else
    { k with
      waiting := k.waiting ++ [b]
      functionPending := if isFunctionKey b then some k.nextPosition else none }

/-- R75: one code of a KEYS answer. -/
def Chip.takeCode (t : TerminalNo) (c : Chip) (b : Byte) : Chip :=
  if b = ackKey then c.acknowledge t else c.onKeys t (·.takeCode b)

/-- What the key state word shows of a ring (R78). -/
def KeyRing.flags (k : KeyRing) : Bool × Option (Fin 64) := (k.overrun, k.functionPending)

/-- R75, R77: a KEYS answer handed over whole. -/
def Chip.keysAnswer (t : TerminalNo) (codes : List Byte) (c : Chip) : Chip :=
  let before := c.keys[t]
  let c := codes.foldl (Chip.takeCode t) c
  let c := if c.keys[t].flags = before.flags then c else c.pendKey (.keyState t)
  let c := if c.keys[t].waiting.length = before.waiting.length then c else c.pendKey (.keyWords t)
  c.rearmHeld t

/-- R11, R74: a take value lies in the circular span from take forward to put, both included. -/
def KeyRing.inSpan (v : Word) (k : KeyRing) : Bool :=
  v.toNat < 64 && (Fin.ofNat 64 v.toNat - k.take).val ≤ k.unread

/-- R74 a: a ring position is passed by a take write to `n`. -/
def KeyRing.passes (n p : Fin 64) (k : KeyRing) : Bool := (p - k.take).val < (n - k.take).val

/-- R74 b to d: an accepted take write. -/
def KeyRing.takeTo (n : Fin 64) (k : KeyRing) : KeyRing :=
  { k with
    take := n
    overrun := false
    functionPending :=
      match k.functionPending with
      | some p => if k.passes n p then none else some p
      | none => none }

/-- R74: the accepted take write of terminal `t`; a change of flag or mark makes the key state word pending. -/
def Chip.takeIndex (t : TerminalNo) (v : Word) (c : Chip) : Chip :=
  let c' := c.onKeys t (·.takeTo (Fin.ofNat 64 v.toNat))
  if c'.keys[t].flags = c.keys[t].flags then c' else c'.pendKey (.keyState t)

/-! ## The write list (R78 to R80) -/

/-- The item in progress has ended. -/
def Chip.endKeyItem (c : Chip) : Chip := c.onKeyWriter fun w => { w with writing := none }

/-- R78: key intake takes the head of its list; a key words item with no waiting key ends at once (R79). -/
def Chip.beginKeyItem (c : Chip) : Chip :=
  match c.keyWriter.writing, c.keyWriter.pending with
  | none, i :: rest =>
    let ended : Bool := match i with | .keyWords t => c.keys[t].waiting.isEmpty | _ => false
    c.onKeyWriter fun _ => { pending := rest, writing := if ended then none else some i }
  | _, _ => c

/-- R79: one waiting key is written at the put index. -/
def Chip.keyWordWrite (c : Chip) : Option OwnWrite :=
  match c.keyWriter.writing with
  | some (.keyWords t) =>
    match c.keys[t].waiting with
    | [] => none
    | b :: rest =>
      let c' := c.onKeys t fun k =>
        { k with waiting := rest, put := k.put + 1
                 textMark := k.textMark || !isFunctionKey b
                 functionMark := k.functionMark || isFunctionKey b }
      let c' := c'.pendKey (.putWord t)
      some
        { address := c.path.windowWord t (1920 + c.keys[t].put.val)
          value := wordOfByte b
          after := if rest = [] then c'.endKeyItem else c' }
  | _ => none

/-- R80: the put word, with the announcement marks it takes. -/
def Chip.putWordWrite (c : Chip) : Option OwnWrite :=
  match c.keyWriter.writing with
  | some (.putWord t) =>
    let k := c.keys[t]
    let c' := c.onKeys t fun k => { k with textMark := false, functionMark := false }
    let c' := if k.textMark then c'.raise .keys else c'
    let c' := if k.functionMark then c'.raise .function else c'
    some { address := c.path.windowWord t 1984, value := wordOf k.put.val, after := c'.endKeyItem }
  | _ => none

/-- R78: the other status words, each with the value held when the access is granted. -/
def Chip.statusWordWrite (c : Chip) : Option OwnWrite :=
  match c.keyWriter.writing with
  | some (.takeWord t) =>
    some { address := c.path.windowWord t 1985, value := wordOf c.keys[t].take.val, after := c.endKeyItem }
  | some (.keyState t) =>
    some { address := c.path.windowWord t 1986, value := c.keys[t].stateWord, after := c.endKeyItem }
  | some (.sessionWord t) =>
    some { address := c.path.windowWord t 1987, value := Session.word c.keys[t].session, after := c.endKeyItem }
  | some (.linkWord t) =>
    some { address := c.path.windowWord t 1988, value := c.links[t].word, after := c.endKeyItem }
  | _ => none

/-- KEY_INTAKE_WRITE_BEGIN (R78). -/
def execKeyIntakeWriteBegin (s : State) : Host.Outcome State Fault Refusal := chipEvent Chip.beginKeyItem s

/-- KEY_WORD_WRITE (R79). -/
def execKeyWordWrite (s : State) : Host.Outcome State Fault Refusal := ownWrite .keyIntake Chip.keyWordWrite s

/-- PUT_WORD_WRITE (R80). -/
def execPutWordWrite (s : State) : Host.Outcome State Fault Refusal := ownWrite .keyIntake Chip.putWordWrite s

/-- STATUS_WORD_WRITE (R78). -/
def execStatusWordWrite (s : State) : Host.Outcome State Fault Refusal := ownWrite .keyIntake Chip.statusWordWrite s

/-! ## Sessions (R84, R85) -/

/-- R84. -/
def Chip.signOn (c : Chip) : Reply :=
  match finArg 64 (c.cu.arg 1), finArg 16 (c.cu.arg 2), clearanceArg (c.cu.arg 3) with
  | some t, some d, some clearance =>
    match c.callerFault .systemOnly with
    | some r => .refuse r
    | none =>
      if (c.session t).isSome then .refuse .wrongState
      else
        .done ((c.onKeys t fun k => { k with session := some { desk := d, clearance := clearance } }).pendKey
          (.sessionWord t)) []
  | _, _, _ => .refuse .badArgument

/-- R85 a to e. -/
def Chip.endSession (t : TerminalNo) (c : Chip) : Chip :=
  let held := (List.finRange 1024).filter fun s => s ∈ c.custody.held[t]
  let c := (held.foldl (fun c s => c.returnToHead s) c).emptyQueue t
  let marked := c.keys[t].functionPending.isSome
  let c := (c.onKeys t fun k => { k with functionPending := none, session := none }).pendKey (.sessionWord t)
  if marked then c.pendKey (.keyState t) else c

/-- R85: SYSTEM, or the terminal named with its session present. -/
def Chip.signOffFault (t : TerminalNo) (c : Chip) : Option ResultCode :=
  match c.callerFault { system := true, terminal := some .read } with
  | some r => some r
  | none =>
    if c.callerSystem then (if (c.session t).isSome then none else some .wrongState)
    else if c.callerTerminal = some t then none
    else some .noClearance

/-- R85. -/
def Chip.signOff (c : Chip) : Reply :=
  match finArg 64 (c.cu.arg 1) with
  | none => .refuse .badArgument
  | some t =>
    match c.signOffFault t with
    | some r => .refuse r
    | none => .done (c.endSession t) []

/-- SIGN_ON (R84), command 5. -/
def execSignOn (s : State) : Host.Outcome State Fault Refusal := takeCommand 5 Chip.signOn s

/-- SIGN_OFF (R85), command 6. -/
def execSignOff (s : State) : Host.Outcome State Fault Refusal := takeCommand 6 Chip.signOff s

end Sys2Proof.Machine
end

