-- ==== Sys2Proof/Machine/Lines.lean ====
section
/-! DEFINITION. The line engines and terminals (chapter 3): messages and answers, sweeps and visits, link states,
and the commands TERMINAL ON, TERMINAL OFF and LINE RESET. -/

namespace Sys2Proof.Machine

/-! ## Sweeps (R45) -/

/-- R39: a terminal is enabled when its link state is anything but OFF. -/
def Chip.enabled (c : Chip) (t : TerminalNo) : Bool := c.links[t].state ≠ .off

/-- A terminal of the line is enabled. -/
def Chip.lineEnabled (c : Chip) (l : LineNo) : Bool := (List.finRange 8).any fun a => c.enabled (terminalOf l a)

/-- R45: the decision at an address, by the link state and the sweep counter. -/
def visitDecision (st : TerminalState) (counter : Word) : Option VisitKind :=
  match st with
  | .off => none
  | .up => some .full
  | .suspect => some .full
  | .down => if counter.toNat % 16 = 0 then some .probe else none

/-- The first address of the list that is visited, with the kind of visit. -/
def Chip.firstVisit (c : Chip) (l : LineNo) (counter : Word) : List (Fin 8) → Option (Fin 8 × VisitKind)
  | [] => none
  | a :: rest =>
    match visitDecision c.links[terminalOf l a].state counter with
    | some k => some (a, k)
    | none => c.firstVisit l counter rest

/-- The engine sends a POLL to the terminal it visits (R46 b, R50). -/
def LineEngine.sendPoll (e : LineEngine) : LineEngine :=
  { e with phase := .sending, message := some .poll, rowWords := []
           visit := e.visit.map fun v => { v with awaited := .poll } }

/-- R46: the next step of a full visit: the lowest dirty row is taken while budget remains (R47), or a POLL is
sent. -/
def Chip.visitStep (l : LineNo) (c : Chip) : Chip :=
  match c.lines[l].visit with
  | none => c
  | some v =>
    match (if v.rowsSent < c.lines[l].rowBudget then c.screens[v.terminal].lowest else none) with
    | some r =>
      (c.clearRow v.terminal r).onLine l fun e =>
        { e with phase := .reading, rowWords := [], message := none
                 visit := some { v with rowInHand := some r, awaited := .row } }
    | none => c.onLine l LineEngine.sendPoll

/-- A visit begins (R46, R50). -/
def Chip.beginVisit (l : LineNo) (a : Fin 8) (k : VisitKind) (c : Chip) : Chip :=
  let c := c.onLine l fun e =>
    { e with position := a
             visit := some { terminal := terminalOf l a, kind := k, rowsSent := 0, rowInHand := none, awaited := .poll } }
  match k with
  | .full => c.visitStep l
  | .probe => c.onLine l LineEngine.sendPoll

/-- The addresses after `a` in a sweep. -/
def addressesAfter (a : Fin 8) : List (Fin 8) := (List.finRange 8).drop (a.val + 1)

/-- R45: the sweep goes on over the addresses given; after address 7 it ends, and the next begins at once while a
terminal of the line is enabled. Sixteen more sweeps always bring a visit or IDLE: a DOWN terminal is probed in one
of them. -/
def Chip.sweep (l : LineNo) : Nat → List (Fin 8) → Chip → Chip
  | 0, _, c => c
  | fuel + 1, rest, c =>
    match c.firstVisit l c.lines[l].sweepCounter rest with
    | some (a, k) => c.beginVisit l a k
    | none =>
      let c := c.onLine l fun e => { e with sweepCounter := e.sweepCounter + 1, position := 0 }
      if c.lineEnabled l then c.sweep l fuel (List.finRange 8) else c.onLine l fun e => { e with phase := .idle }

/-- The sweeps one event may pass through. -/
def sweepFuel : Nat := 18

/-- The engine begins a sweep at address 0 if a terminal of its line is enabled, and otherwise enters IDLE. -/
def Chip.newSweep (l : LineNo) (c : Chip) : Chip :=
  let c := c.onLine l fun e => { e with position := 0 }
  if c.lineEnabled l then c.sweep l sweepFuel (List.finRange 8) else c.onLine l fun e => { e with phase := .idle }

/-- The engine goes on with the next address of its sweep (R44, R49). -/
def Chip.nextAddress (l : LineNo) (c : Chip) : Chip := c.sweep l sweepFuel (addressesAfter c.lines[l].position)

/-- R55 c: the engine tests its line; with none enabled the sweep is abandoned uncounted. -/
def Chip.testLine (l : LineNo) (c : Chip) : Chip :=
  if c.lineEnabled l then c.nextAddress l else c.onLine l fun e => { e with position := 0, phase := .idle }

/-- R44: what follows the quiet wait. -/
def Chip.afterQuiet (l : LineNo) (c : Chip) : Chip :=
  match c.lines[l].afterQuiet with
  | .nextAddress => c.nextAddress l
  | .testLine => c.testLine l
  | .newSweep => c.newSweep l

/-! ## Link states (R51, R52) -/

/-- R51: a good answer. -/
def TerminalLink.good (_ : TerminalLink) : TerminalLink := { state := .up, misses := 0 }

/-- R51: a miss. -/
def TerminalLink.miss (k : TerminalLink) : TerminalLink :=
  match k.state with
  | .off => k
  | .up => { state := .suspect, misses := 1 }
  | .suspect => if k.misses.val < 2 then { state := .suspect, misses := k.misses + 1 } else { state := .down, misses := 3 }
  | .down => { state := .down, misses := 3 }

/-- R52: a terminal's link state and miss count take new values; a change makes its link word pending. -/
def Chip.setLink (t : TerminalNo) (k : TerminalLink) (c : Chip) : Chip :=
  if c.links[t] = k then c else (c.onTerminal t fun _ => k).pendKey (.linkWord t)

/-- R51, good answer: a return from DOWN marks all rows and raises TERMINAL. -/
def Chip.countGood (t : TerminalNo) (c : Chip) : Chip :=
  let was := c.links[t].state
  let c := c.setLink t c.links[t].good
  if was = .down then (c.markAllRows t).raise .terminal else c

/-- R51 a: entry to DOWN raises TERMINAL, and posts TERM DOWN when the terminal has a session. -/
def Chip.enterDown (t : TerminalNo) (c : Chip) : Chip :=
  let c := c.raise .terminal
  match c.session t with
  | some s => c.post .termDown t.val none (.slotOf s.desk)
  | none => c

/-- R51, miss. -/
def Chip.countMiss (t : TerminalNo) (c : Chip) : Chip :=
  let before := c.links[t].state
  let c := c.setLink t c.links[t].miss
  if before ≠ .down ∧ c.links[t].state = .down then c.enterDown t else c

/-! ## Misses and answers (R40 to R50) -/

/-- A row in hand is given back to the dirty-row set (R48, R53). -/
def Chip.giveRowBack (v : Visit) (c : Chip) : Chip :=
  match v.rowInHand with
  | some r => c.markRow v.terminal r
  | none => c

/-- The exchange in hand is over: no visit, no message, no answer. -/
def LineEngine.dropExchange (e : LineEngine) : LineEngine :=
  { e with visit := none, rowWords := [], message := none, received := [] }

/-- R43: a miss: the row in hand is given back, the visit ends, the miss is counted and the engine enters
QUIETING. -/
def Chip.missed (l : LineNo) (c : Chip) : Chip :=
  match c.lines[l].visit with
  | none => c
  | some v =>
    ((c.giveRowBack v).countMiss v.terminal).onLine l fun e =>
      { e.dropExchange with phase := .quieting, afterQuiet := .nextAddress }

/-- The kinds of answer (section 11.5). -/
inductive AnswerKind where
  | keys
  | quiet
  | taken
  | busy
  deriving DecidableEq, Repr

/-- R41 a: the kind byte of an answer. -/
def answerKind (b : Byte) : Option AnswerKind :=
  if b = 0x21 then some .keys else if b = 0x22 then some .quiet else if b = 0x23 then some .taken
  else if b = 0x24 then some .busy else none

/-- R41 c: the count byte of a KEYS answer is 1 to 8. -/
def countValid (b : Byte) : Bool := 1 ≤ b.toNat && b.toNat ≤ 8

/-- R43 c: KEYS and QUIET answer a POLL, TAKEN and BUSY a ROW. -/
def AnswerKind.answers : AnswerKind → MessageKind
  | .keys => .poll
  | .quiet => .poll
  | .taken => .row
  | .busy => .row

/-- What the bytes received so far amount to (R41). -/
inductive Reception where
  | bad
  | more
  | complete (k : AnswerKind)
  deriving DecidableEq, Repr

/-- R41: the answer's length is known from its first bytes: 3 in all, or 4 + count for KEYS. -/
def reception (l : List Byte) : Reception :=
  match l with
  | [] => .more
  | k :: rest =>
    match answerKind k with
    | none => .bad
    | some .keys =>
      match rest with
      | _ :: n :: body =>
        if countValid n then (if body.length = n.toNat + 1 then .complete .keys else .more) else .bad
      | _ => .more
    | some k => if rest.length = 2 then .complete k else .more

/-- R43: the checks on a complete answer from the terminal at address `a` to a message `m`. -/
def answerGood (k : AnswerKind) (a : Fin 8) (m : MessageKind) (l : List Byte) : Bool :=
  l.getLast? = some (checkByte l.dropLast) && l[1]? = some (BitVec.ofNat 8 a.val) && k.answers = m

/-- The key codes of a complete KEYS answer. -/
def keyCodes (l : List Byte) : List Byte := (l.drop 3).dropLast

/-- The visit has ended without a miss; the engine goes on with the next address (R49). -/
def Chip.endVisit (l : LineNo) (c : Chip) : Chip := (c.onLine l LineEngine.dropExchange).nextAddress l

/-- R48, R49: a good answer taken. -/
def Chip.goodAnswer (l : LineNo) (k : AnswerKind) (bytes : List Byte) (v : Visit) (c : Chip) : Chip :=
  let c := c.countGood v.terminal
  match k with
  | .keys => (c.keysAnswer v.terminal (keyCodes bytes)).endVisit l
  | .quiet => c.endVisit l
  | .taken =>
    (c.onLine l fun e =>
      { e with received := [], visit := some { v with rowsSent := v.rowsSent + 1, rowInHand := none } }).visitStep l
  | .busy =>
    (c.giveRowBack v).onLine l fun e =>
      { e with received := []
               visit := some { v with rowsSent := v.rowsSent + 1, rowInHand := none } }.sendPoll

/-- R43: a complete answer judged. -/
def Chip.judge (l : LineNo) (k : AnswerKind) (bytes : List Byte) (c : Chip) : Chip :=
  match c.lines[l].visit with
  | none => c
  | some v =>
    if answerGood k (addressOf v.terminal) v.awaited bytes then c.goodAnswer l k bytes v else c.missed l

/-- R41, R42, R44: a byte on the line. In AWAITING it is kept, completes an answer, or is judged bad; in QUIETING
it starts the quiet window anew and is discarded; in every other phase it is discarded. -/
def Chip.lineByte (l : LineNo) (b : Byte) (c : Chip) : Chip :=
  if c.lines[l].phase = .awaiting then
    let bytes := c.lines[l].received ++ [b]
    match reception bytes with
    | .bad => c.missed l
    | .more => c.onLine l fun e => { e with received := bytes }
    | .complete k => c.judge l k bytes
  else c

/-- R42, R44: the answer window expires: a miss whose quiet wait passes at once. -/
def Chip.windowExpiry (l : LineNo) (c : Chip) : Chip :=
  if c.lines[l].phase = .awaiting ∧ c.lines[l].visit.isSome then (c.missed l).afterQuiet l else c

/-- R44: the quiet window has run out. -/
def Chip.quietExpiry (l : LineNo) (c : Chip) : Chip := if c.lines[l].phase = .quieting then c.afterQuiet l else c

/-- R40: the check byte of a message has been sent. -/
def Chip.messageSent (l : LineNo) (c : Chip) : Chip :=
  if c.lines[l].phase = .sending then c.onLine l fun e => { e with phase := .awaiting, received := [] } else c

/-- R47: one word of the row in hand is read; after the eightieth the ROW is sent. -/
def Chip.rowWord (l : LineNo) (c : Chip) : Option OwnRead :=
  match c.lines[l].visit with
  | none => none
  | some v =>
    match v.rowInHand with
    | none => none
    | some r =>
      some
        { address := c.path.windowWord v.terminal (80 * r.val + c.lines[l].rowWords.length)
          after := fun w =>
            c.onLine l fun e =>
              let words := e.rowWords ++ [w]
              if words.length = 80 then { e with rowWords := [], phase := .sending, message := some (.row r words) }
              else { e with rowWords := words } }

/-! ## Commands on lines and terminals (R53 to R56) -/

/-- R53: a cut of the exchange in hand; `next` is what follows the quiet wait, if one is needed. A row word requested and
not yet granted is dropped with the row, or gives way to the request of the next row taken (DESIGN CHOICE, unsafe in the
grants: R53 speaks only of no further request and of an access already granted; log 28). -/
def Chip.cut (l : LineNo) (next : AfterQuiet) (c : Chip) : Chip :=
  let quiet := decide (c.lines[l].phase ≠ .reading)
  let c := match c.lines[l].visit with | some v => c.giveRowBack v | none => c
  (c.onLine l fun e =>
    { e.dropExchange with phase := if quiet then .quieting else e.phase, afterQuiet := next })

/-- R54. -/
def Chip.turnOn (t : TerminalNo) (c : Chip) : Chip :=
  let c := (c.setLink t { state := .suspect, misses := 0 }).markAllRows t
  if c.lines[lineOf t].phase = .idle then c.newSweep (lineOf t) else c

/-- R54. -/
def Chip.terminalOn (c : Chip) : Reply :=
  match finArg 64 (c.cu.arg 1) with
  | none => .refuse .badArgument
  | some t =>
    match c.callerFault .systemOnly with
    | some r => .refuse r
    | none => if c.enabled t then .refuse .wrongState else .done (c.turnOn t) []

/-- The engine of line `l` is visiting terminal `t`. -/
def Chip.visits (c : Chip) (l : LineNo) (t : TerminalNo) : Bool :=
  match c.lines[l].visit with
  | some v => v.terminal = t
  | none => false

/-- R55 a to c. -/
def Chip.turnOff (t : TerminalNo) (c : Chip) : Chip :=
  let l := lineOf t
  let cutReading : Bool := c.visits l t && c.lines[l].phase = .reading
  let c := if c.visits l t = true then c.cut l .testLine else c
  let c := c.setLink t { state := .off, misses := 0 }
  if cutReading = true then c.testLine l
  else if c.lines[l].phase = .quieting ∧ c.lines[l].afterQuiet = .nextAddress then
    c.onLine l fun e => { e with afterQuiet := .testLine }
  else c

/-- R55. -/
def Chip.terminalOff (c : Chip) : Reply :=
  match finArg 64 (c.cu.arg 1) with
  | none => .refuse .badArgument
  | some t =>
    match c.callerFault .systemOnly with
    | some r => .refuse r
    | none => if c.enabled t then .done (c.turnOff t) [] else .refuse .wrongState

/-- R56 c: one enabled terminal made SUSPECT, its link word pending and its rows marked. -/
def Chip.resetTerminal (c : Chip) (t : TerminalNo) : Chip :=
  if c.enabled t then
    ((c.onTerminal t fun _ => { state := .suspect, misses := 0 }).markAllRows t).pendKey (.linkWord t)
  else c

/-- R56 a to c; the new sweep begins at once when no quiet wait is needed. -/
def Chip.resetLine (l : LineNo) (c : Chip) : Chip :=
  let phase := c.lines[l].phase
  let c := if phase = .idle then c else c.cut l .newSweep
  let c := c.onLine l fun e => { e with position := 0 }
  let c := ((List.finRange 8).map (terminalOf l)).foldl Chip.resetTerminal c
  if phase = .idle ∨ phase = .reading then c.newSweep l else c

/-- R56. -/
def Chip.lineReset (c : Chip) : Reply :=
  match finArg 8 (c.cu.arg 1) with
  | none => .refuse .badArgument
  | some l =>
    match c.callerFault .systemOnly with
    | some r => .refuse r
    | none => .done (c.resetLine l) []

/-! ## The meanings -/

/-- ROW_WORD_READ (R47). -/
def execRowWordRead (l : LineNo) (s : State) : Host.Outcome State Fault Refusal :=
  ownRead (.line l) (Chip.rowWord l) s

/-- MESSAGE_SENT (R40). -/
def execMessageSent (l : LineNo) (s : State) : Host.Outcome State Fault Refusal := chipEvent (Chip.messageSent l) s

/-- TAKEN_ANSWER (R48): the check byte of a TAKEN answer arrives. The engine acts on the byte as it finds itself
(log 6), here and in the other answer rows. -/
def execTakenAnswer (l : LineNo) (b : Byte) (s : State) : Host.Outcome State Fault Refusal :=
  chipEvent (Chip.lineByte l b) s

/-- BUSY_ANSWER (R48): the check byte of a BUSY answer arrives. -/
def execBusyAnswer (l : LineNo) (b : Byte) (s : State) : Host.Outcome State Fault Refusal :=
  chipEvent (Chip.lineByte l b) s

/-- KEYS_ANSWER (R49): the check byte of a KEYS answer arrives. -/
def execKeysAnswer (l : LineNo) (b : Byte) (s : State) : Host.Outcome State Fault Refusal :=
  chipEvent (Chip.lineByte l b) s

/-- QUIET_ANSWER (R49): the check byte of a QUIET answer arrives. -/
def execQuietAnswer (l : LineNo) (b : Byte) (s : State) : Host.Outcome State Fault Refusal :=
  chipEvent (Chip.lineByte l b) s

/-- ANSWER_BAD_KIND_OR_COUNT (R41): a kind byte or KEYS count byte that is invalid arrives. -/
def execAnswerBadKindOrCount (l : LineNo) (b : Byte) (s : State) : Host.Outcome State Fault Refusal :=
  chipEvent (Chip.lineByte l b) s

/-- LINE_BYTE_RECEIVED (R42, R44): any other byte arrives. -/
def execLineByteReceived (l : LineNo) (b : Byte) (s : State) : Host.Outcome State Fault Refusal :=
  chipEvent (Chip.lineByte l b) s

/-- ANSWER_WINDOW_EXPIRY (R42). -/
def execAnswerWindowExpiry (l : LineNo) (s : State) : Host.Outcome State Fault Refusal :=
  chipEvent (Chip.windowExpiry l) s

/-- QUIET_WINDOW_EXPIRY (R44). -/
def execQuietWindowExpiry (l : LineNo) (s : State) : Host.Outcome State Fault Refusal :=
  chipEvent (Chip.quietExpiry l) s

/-- TERMINAL_ON (R54), command 2. -/
def execTerminalOn (s : State) : Host.Outcome State Fault Refusal := takeCommand 2 Chip.terminalOn s

/-- TERMINAL_OFF (R55), command 3. -/
def execTerminalOff (s : State) : Host.Outcome State Fault Refusal := takeCommand 3 Chip.terminalOff s

/-- LINE_RESET (R56), command 4. -/
def execLineReset (s : State) : Host.Outcome State Fault Refusal := takeCommand 4 Chip.lineReset s

end Sys2Proof.Machine
end

