-- ==== Sys2Proof/Machine/Command.lean ====
section
/-! DEFINITION. The command unit (chapter 2): taking and reading a cell, the checks before any block sees the
command, START, waiting, reporting; and the mirror writer. -/

namespace Sys2Proof.Machine

/-! ## Taking and reading a cell (R23, R24, R26) -/

/-- The cells in the order of R23: after the one last served, wrapping from 7 to 0. -/
def cellOrder (last : CellNo) : List CellNo :=
  (List.finRange 8).drop (last.val + 1) ++ (List.finRange 8).take (last.val + 1)

/-- R23: the first GO cell after the one last served. -/
def CommandUnit.nextCell (u : CommandUnit) : Option CellNo :=
  (cellOrder u.lastServed).find? fun k => u.cells[k].state = .go

/-- R24: the idle command unit takes a cell. -/
def Chip.takeCell (c : Chip) : Chip :=
  if c.cu.phase = .idle then
    match c.cu.nextCell with
    | none => c
    | some k =>
      (c.onCell k fun x => { x with state := .busy }).onUnit fun u =>
        { u with phase := .reading, serving := some k, lastServed := k, wordsRead := []
                 context := (c.cu.cells[k].context).getD .none }
  else c

/-- R26: the checks before any block sees the command. -/
def CommandUnit.check (u : CommandUnit) : Option ResultCode :=
  if ¬ (1 ≤ u.number ∧ u.number ≤ 32) then some .unknownCommand
  else if u.number = 1 ∧ u.service ≠ .stopped then some .wrongState
  else if u.number ≠ 1 ∧ u.service ≠ .running then some .notRunning
  else none

/-- R24, R26: the seventh word read, the command is refused or handed to its owning block. -/
def CommandUnit.dispatch (u : CommandUnit) : CommandUnit :=
  match u.check with
  | some r => u.report r []
  | none => { u with phase := .acting, startStage := .notBegun, configRead := [] }

/-- The control page offset of word `i` of a cell. -/
def cellOffset (k : CellNo) (i : Nat) : Nat := 32 + 8 * k.val + i

/-- R24: words 0 to 6 of the cell are read in word order. -/
def Chip.cellWordRead (c : Chip) : Option OwnRead :=
  match c.cu.phase, c.cu.serving with
  | .reading, some k =>
    some
      { address := c.path.controlWord (cellOffset k c.cu.wordsRead.length)
        after := fun w =>
          c.onUnit fun u =>
            let u := { u with wordsRead := u.wordsRead ++ [w] }
            if u.wordsRead.length < 7 then u else u.dispatch }
  | _, _ => none

/-! ## Reporting (R28 c) -/

/-- R28 c: the go word has been written: the cell is DONE and the command unit IDLE. -/
def Chip.finishReport (k : CellNo) (c : Chip) : Chip :=
  ((c.onCell k fun x => { x with state := .done }).onUnit fun u => { u with phase := .idle, serving := none }).raise
    .commandDone

/-- R28 c: one result word, or the go word after the last of them. -/
def Chip.resultWrite (c : Chip) : Option OwnWrite :=
  match c.cu.phase, c.cu.serving with
  | .reporting, some k =>
    match c.cu.resultWords[c.cu.reported]? with
    | some w =>
      some
        { address := c.path.controlWord (cellOffset k (c.cu.reported + 1))
          value := w
          after := c.onUnit fun u => { u with reported := u.reported + 1 } }
    | none =>
      some
        { address := c.path.controlWord (cellOffset k 7)
          value := c.cu.result.goWord
          after := c.finishReport k }
  | _, _ => none

/-! ## START (R30 to R32) -/

/-- START begins its action and reads its configuration words. -/
def Chip.beginStart (c : Chip) : Chip :=
  if c.commandDue 1 then c.onUnit fun u => { u with startStage := .reading, configRead := [] } else c

/-- The configuration words START reads are 96 to 112 (R30). -/
def configFirst : Nat := 96

/-- How many configuration words START reads. -/
def configCount : Nat := 17

/-- A base is high part × 65,536 + low part (R30); words 96 onward. -/
def baseOf (words : List Word) (i : Nat) : Nat := (words.getD i 0).toNat * 65536 + (words.getD (i + 1) 0).toNat

/-- Two ranges of words share a word. -/
def overlap (a n b m : Nat) : Bool := a < b + m && b < a + n

/-- R30: the bases are aligned, lie below 4,194,304, and no two of the four areas share a word. -/
def basesValid (control screen story directory : Nat) : Bool :=
  screen % Config.windowWords = 0 && story % Config.blockWords = 0 && directory % Config.directoryAlignment = 0 &&
    screen + Config.screenAreaWords ≤ Config.memoryWords && story + Config.storyAreaWords ≤ Config.memoryWords &&
    directory + Config.directoryAreaWords ≤ Config.memoryWords &&
    !overlap control Config.controlPageWords screen Config.screenAreaWords &&
    !overlap control Config.controlPageWords story Config.storyAreaWords &&
    !overlap control Config.controlPageWords directory Config.directoryAreaWords &&
    !overlap screen Config.screenAreaWords story Config.storyAreaWords &&
    !overlap screen Config.screenAreaWords directory Config.directoryAreaWords &&
    !overlap story Config.storyAreaWords directory Config.directoryAreaWords

/-- R31: a line speed code, 0 to 3, any other taken as 2. -/
def speedOf (w : Word) : BitVec 2 := if w.toNat ≤ 3 then w.setWidth 2 else 2

/-- R31: the clamped settings taken into the line engines and the link. -/
def Chip.takeSettings (words : List Word) (c : Chip) : Chip :=
  let c := (List.finRange 8).foldl
    (fun c l => Chip.onLine l (fun e =>
      { e with speed := speedOf (words.getD (6 + l.val) 0)
               rowBudget := clamp 1 4 (words.getD 14 0).toNat
               answerWindow := clamp 8 64 (words.getD 15 0).toNat }) c) c
  c.onLink fun k => { k with holdLimit := clamp 1 255 (words.getD 16 0).toNat }

/-- R32: the records and status words START marks: stories, pages, desks, words 7 to 19. -/
def startItems : List MirrorItem :=
  (List.finRange 1024).map .story ++ (List.finRange 96).map .page ++ (List.finRange 16).map .desk ++
    [.serviceState, .clockCount, .currentEdition, .linkState, .outputCount, .fitCount, .refusal, .freeStories,
      .freeBlocks]

/-- R82: the writes made pending for one terminal, in order. -/
def startKeyItems (t : TerminalNo) : List KeyItem :=
  [.putWord t, .takeWord t, .keyState t, .sessionWord t, .linkWord t]

/-- R31, R19: the areas are placed, the refusal count and record emptied. A refusal no write-out had carried is
carried by none (log 11). -/
def PathChecker.start (screen story directory : Nat) (p : PathChecker) : PathChecker :=
  { p with screenArea := some screen, storyArea := some story, directoryArea := some directory, refusalCount := 0,
           refusalRecord := none, refusalUncarried := false }

/-- R31, R32, R52, R68, R82: the event that enters STARTING. -/
def Chip.enterStarting (words : List Word) (c : Chip) : Chip :=
  let c := (c.takeSettings words).onPath (·.start (baseOf words 0) (baseOf words 2) (baseOf words 4))
  let c := (c.onUnit fun u => { u with service := .starting, startStage := .clearing }).collect
  let c := (c.markAll startItems).onUnit fun u => { u with collecting := false }
  let c := ((List.finRange 64).flatMap startKeyItems).foldl (fun c i => c.pendKey i) c
  (List.finRange 64).foldl (fun c t => c.pendRow t) c

/-- R30: the last configuration word has been read. -/
def Chip.validateStart (words : List Word) (c : Chip) : Chip :=
  match c.path.controlPage with
  | none => c.onUnit (·.report .configBad [])
  | some control =>
    if basesValid control (baseOf words 0) (baseOf words 2) (baseOf words 4) then c.enterStarting words
    else c.onUnit (·.report .configBad [])

/-- R30: one configuration word is read for START. -/
def Chip.configRead (c : Chip) : Option OwnRead :=
  if c.cu.phase = .acting ∧ c.cu.startStage = .reading then
    some
      { address := c.path.controlWord (configFirst + c.cu.configRead.length)
        after := fun w =>
          let words := c.cu.configRead ++ [w]
          let c := c.onUnit fun u => { u with configRead := words }
          if words.length < configCount then c else c.validateStart words }
  else none

/-! ## The mirror writer (R33, R16, R28 b) -/

/-- R28 b: a write-out of `i` begins: the entries of `i` in the wait set are marked begun. -/
def CommandUnit.writeOutBegins (i : MirrorItem) (u : CommandUnit) : CommandUnit :=
  { u with waitSet := u.waitSet.map fun e => if e.item = i then { e with begun := true } else e }

/-- R33: the mirror writer takes the head of its list and copies the item's values. -/
def Chip.beginWriteOut (c : Chip) : Chip :=
  match c.mirror.writing, c.mirror.pending with
  | none, i :: rest =>
    let carries := i = .refusal && c.path.refusalUncarried
    let c' := c.onMirror fun _ =>
      { pending := rest, writing := some { item := i, words := c.itemWords i, offset := 0, carriesRefusal := carries } }
    let c' := if i = .refusal then c'.onPath fun p => { p with refusalUncarried := false } else c'
    c'.onUnit (·.writeOutBegins i)
  | _, _ => c

/-- R32: START's wait set is empty: the service state becomes RUNNING, word 7 is marked and waited for. -/
def Chip.enterRunning (c : Chip) : Chip :=
  ((c.onUnit fun u => { u with service := .running }).collect.mark .serviceState).onUnit (·.endAction .ok [])

/-- R28 b: the entries of a write-out that has ended leave the wait set; an empty one ends the waiting. -/
def Chip.writeOutEnds (i : MirrorItem) (c : Chip) : Chip :=
  let left := c.cu.waitSet.filter fun e => !(e.item = i && e.begun)
  let c := c.onUnit fun u => { u with waitSet := left }
  if left = [] then
    if c.cu.phase = .waiting then c.onUnit fun u => { u with phase := .reporting }
    else if c.cu.phase = .acting ∧ c.cu.startStage = .clearing then c.enterRunning
    else c
  else c

/-- R33: one word of the item is written; the last word ends the write-out, which may raise REFUSAL (R15). -/
def Chip.mirrorWord (c : Chip) : Option OwnWrite :=
  match c.mirror.writing with
  | none => none
  | some w =>
    match w.words with
    | [] => none
    | x :: rest =>
      some
        { address := c.path.itemWord w.item w.offset
          value := x
          after :=
            if rest = [] then
              let c := (c.onMirror fun m => { m with writing := none }).writeOutEnds w.item
              if w.carriesRefusal then c.raise .refusal else c
            else c.onMirror fun m => { m with writing := some { w with words := rest, offset := w.offset + 1 } } }

/-! ## The meanings -/

/-- CELL_TAKE (R24). -/
def execCellTake (s : State) : Host.Outcome State Fault Refusal := chipEvent Chip.takeCell s

/-- CELL_WORD_READ (R24). -/
def execCellWordRead (s : State) : Host.Outcome State Fault Refusal := ownRead .commandUnit Chip.cellWordRead s

/-- CELL_RESULT_WRITE (R28). -/
def execCellResultWrite (s : State) : Host.Outcome State Fault Refusal := ownWrite .commandUnit Chip.resultWrite s

/-- START (R30), command 1. -/
def execStart (s : State) : Host.Outcome State Fault Refusal := chipEvent Chip.beginStart s

/-- START_CONFIG_READ (R30). -/
def execStartConfigRead (s : State) : Host.Outcome State Fault Refusal := ownRead .commandUnit Chip.configRead s

/-- MIRROR_WRITE_OUT_BEGIN (R33). -/
def execMirrorWriteOutBegin (s : State) : Host.Outcome State Fault Refusal := chipEvent Chip.beginWriteOut s

/-- MIRROR_WORD_WRITE (R33). -/
def execMirrorWordWrite (s : State) : Host.Outcome State Fault Refusal := ownWrite .mirrorWriter Chip.mirrorWord s

end Sys2Proof.Machine
end

