-- ==== Sys2Proof/Machine/HostWrite.lean ====
section
/-! DEFINITION. Host writes at the path checker (chapter 1): the decision, refusals, hand-offs, and the reset
line. -/

namespace Sys2Proof.Machine

/-! ## What a decision is (R6, R15) -/

/-- R6: a host write is accepted, with the part after the hand-offs of the same event, or refused for a reason. -/
inductive Decision where
  | accepted (c : Chip)
  | refused (r : RefusalReason)

/-- The internal context of a processor (R4). -/
def Chip.context (c : Chip) (p : Processor) : Context := c.path.contexts[p]

/-- R15, R16: a refusal enters the count and the record, and asks for a write-out of words 13 to 17. -/
def Chip.recordRefusal (h : HostAccess) (r : RefusalReason) (c : Chip) : Chip :=
  (c.onPath fun p =>
    { p with
      refusalCount := if p.refusalCount = 65535 then 65535 else p.refusalCount + 1
      refusalRecord :=
        some { processor := h.processor, address := h.address, reason := r, context := c.context h.processor }
      refusalUncarried := true
      refusalIndication := true }).mark .refusal

/-! ## The story area (R7, R8) -/

/-- R5, R7 b: the context is NONE, or a terminal without a session. -/
def Chip.badContext (c : Chip) : Context → Bool
  | .none => true
  | .system => false
  | .terminal t => (c.session t).isNone

/-- R7: why a write to a block is refused, if it is; the first check that fails. -/
def Chip.storyFault (c : Chip) (b : BlockNo) (x : Context) : Option RefusalReason :=
  match c.custody.owners[b] with
  | none => some .freeBlock
  | some s =>
    if c.badContext x then some .badContext
    else
      match c.stories[s].state with
      | .free => some .freeBlock
      | .intake => if x = .system then none else some .notHolder
      | .open_ =>
        match x, c.stories[s].holder with
        | .terminal t, some h => if t = h then none else some .notHolder
        | _, _ => some .notHolder
      | .basket => some .atRest
      | .set => some .frozen

/-- R8: an accepted story write is reported to custody's list and to the fit engine. -/
def Chip.reportWrite (b : BlockNo) (c : Chip) : Chip :=
  match c.custody.owners[b] with
  | none => c
  | some s => (c.onCustody fun k => { k with reports := joinOnce k.reports s }).staleStory s

/-- R7, R8. -/
def Chip.decideStory (c : Chip) (b : BlockNo) (x : Context) : Decision :=
  match c.storyFault b x with
  | some r => .refused r
  | none => .accepted (c.reportWrite b)

/-! ## Screen windows (R9 to R11) -/

/-- R9 to R11: a write to a window offset. -/
def Chip.decideWindow (c : Chip) (t : TerminalNo) (o : Nat) (v : Word) : Decision :=
  if o < 1840 then .accepted (c.markRow t (Fin.ofNat 24 (o / 80)))
  else if o = 1985 then if c.keys[t].inSpan v then .accepted (c.takeIndex t v) else .refused .badIndex
  else if o < 1992 then .refused .writeProtected
  else .accepted c

/-! ## The control page (R13, R14, R19) -/

/-- R4: the context a value names. -/
def contextOf (v : Word) : Context :=
  if h : v.toNat < 64 then .terminal ⟨v.toNat, h⟩ else if v = 65535 then .system else .none

/-- R21: a go word write at a cell that is not BUSY. -/
def Cell.takeGo (x : Context) (v : Word) (k : Cell) : Cell :=
  if v = 1 then { k with state := .go, context := some x } else { k with state := .empty, context := none }

/-- The cell a control page offset 32 to 95 lies in (R13). -/
def cellOf (o : Nat) : CellNo := Fin.ofNat 8 ((o - 32) / 8)

/-- R13, R21: a write to a word of a command cell. -/
def Chip.decideCell (c : Chip) (o : Nat) (x : Context) (v : Word) : Decision :=
  let k := cellOf o
  if c.cu.cells[k].state = .busy then .refused .cellBusy
  else if o % 8 = 7 then .accepted (c.onCell k (·.takeGo x v))
  else .accepted c

/-- A part-written word: refused PROTECTED, but stored unchecked in STOPPED (R13, R19). -/
def Chip.decidePartWritten (c : Chip) : Decision :=
  if c.cu.service = .stopped then .accepted c else .refused .writeProtected

/-- R16: a host write of 0 to word 13. -/
def Chip.clearRefusals (c : Chip) : Chip := (c.onPath fun p => { p with refusalCount := 0 }).mark .refusal

/-- R13: a write to a control page offset by a processor with context `x`. -/
def Chip.decideControl (c : Chip) (o : Nat) (x : Context) (v : Word) : Decision :=
  if h : o < 4 then .accepted (c.onPath fun p => { p with contexts := p.contexts.set o (contextOf v) })
  else if o = 4 then c.decidePartWritten
  else if o = 5 then .accepted (c.takeMask v)
  else if o = 6 then .accepted (c.clearCauses v)
  else if o < 13 then c.decidePartWritten
  else if o = 13 then if v = 0 then .accepted c.clearRefusals else c.decidePartWritten
  else if o < 20 then c.decidePartWritten
  else if o < 32 then .accepted c
  else if o < 96 then c.decideCell o x v
  else if o = 113 then .accepted (c.takeFontsPresent v)
  else if o < 128 then .accepted c
  else if o < 256 then .accepted (c.takeDeskWord (o - 128) v)
  else if o < 2048 then .accepted c
  else .accepted (c.takeWidth (Fin.ofNat 8 ((o - 2048) / 256)) (Fin.ofNat 256 ((o - 2048) % 256)) v)

/-! ## Deciding a host write (R6) -/

/-- R6, R2: the decision, by where the address lies in the area map as it stands. -/
def Chip.decide (c : Chip) (h : HostAccess) : Decision :=
  match c.path.classify h.address.toNat with
  | .control o => c.decideControl o (c.context h.processor) h.value
  | .window t o => c.decideWindow t o h.value
  | .block b _ => c.decideStory b (c.context h.processor)
  | .directory _ => .refused .writeProtected
  | .unclassified => .accepted c

/-- R6: deciding, storing and handing on are one event; a refused write leaves memory unchanged and releases the port
at once. -/
def State.decideWrite (h : HostAccess) (s : State) : State :=
  match s.chip.decide h with
  | .accepted c =>
    { s with chip := c.onPath fun p => { p with refusalIndication := false }
             memory := s.memory.write h.address.toNat h.value
             inProgress := some { address := h.address, old := s.memory.read h.address.toNat } }
  | .refused r => { s with chip := s.chip.recordRefusal h r, inProgress := none }

/-- A host write on the bus: decided when it is granted the port, ahead of every own request (R17); while the reset
line is asserted it waits (R20; log 8). -/
def hostWrite (p : Processor) (a : Address) (v : Word) (s : State) : Host.Outcome State Fault Refusal :=
  let h : HostAccess := { processor := p, address := a, value := v }
  .next (if s.chip.resetAsserted then { s with busWaiting := s.busWaiting ++ [h] } else s.decideWrite h)

/-! ## The meanings: a host write is decided by where it lands, whichever row names it (log 6) -/

/-- HOST_WRITE (R6): any host write, among them those to words with no behaviour of their own. -/
def execHostWrite (p : Processor) (a : Address) (v : Word) (s : State) : Host.Outcome State Fault Refusal :=
  hostWrite p a v s

/-- STORY_WRITE (R7, R8): the host write lands in a story block (`Chip.decideStory`). -/
def execStoryWrite (p : Processor) (a : Address) (v : Word) (s : State) : Host.Outcome State Fault Refusal :=
  hostWrite p a v s

/-- SCREEN_ROW_WRITE (R9): the host write lands in rows 0 to 22 of a window (`Chip.decideWindow`). -/
def execScreenRowWrite (p : Processor) (a : Address) (v : Word) (s : State) : Host.Outcome State Fault Refusal :=
  hostWrite p a v s

/-- TAKE_WORD_WRITE (R74): the host write lands on a take word (`Chip.takeIndex`). -/
def execTakeWordWrite (p : Processor) (a : Address) (v : Word) (s : State) : Host.Outcome State Fault Refusal :=
  hostWrite p a v s

/-- CONTEXT_WORD_WRITE (R4): the host write lands on words 0 to 3 of the control page (`contextOf`). -/
def execContextWordWrite (p : Processor) (a : Address) (v : Word) (s : State) : Host.Outcome State Fault Refusal :=
  hostWrite p a v s

/-- ATTENTION_MASK_WRITE (R36): the host write lands on word 5 (`Chip.takeMask`). -/
def execAttentionMaskWrite (p : Processor) (a : Address) (v : Word) (s : State) : Host.Outcome State Fault Refusal :=
  hostWrite p a v s

/-- ATTENTION_CLEAR_WRITE (R36): the host write lands on word 6 (`Chip.clearCauses`). -/
def execAttentionClearWrite (p : Processor) (a : Address) (v : Word) (s : State) : Host.Outcome State Fault Refusal :=
  hostWrite p a v s

/-- REFUSAL_COUNT_CLEAR (R16): the host writes 0 to word 13 (`Chip.clearRefusals`). -/
def execRefusalCountClear (p : Processor) (a : Address) (v : Word) (s : State) : Host.Outcome State Fault Refusal :=
  hostWrite p a v s

/-- GO_WORD_WRITE (R21): the host write lands on a cell's go word (`Cell.takeGo`). -/
def execGoWordWrite (p : Processor) (a : Address) (v : Word) (s : State) : Host.Outcome State Fault Refusal :=
  hostWrite p a v s

/-- FONTS_PRESENT_WRITE (R131): the host write lands on word 113 (`Chip.takeFontsPresent`). -/
def execFontsPresentWrite (p : Processor) (a : Address) (v : Word) (s : State) : Host.Outcome State Fault Refusal :=
  hostWrite p a v s

/-- DESK_TABLE_WRITE (R98): the host write lands on words 128 to 255 (`Chip.takeDeskWord`). -/
def execDeskTableWrite (p : Processor) (a : Address) (v : Word) (s : State) : Host.Outcome State Fault Refusal :=
  hostWrite p a v s

/-- WIDTH_TABLE_WRITE (R130): the host write lands on words 2,048 to 4,095 (`Chip.takeWidth`). -/
def execWidthTableWrite (p : Processor) (a : Address) (v : Word) (s : State) : Host.Outcome State Fault Refusal :=
  hostWrite p a v s

/-! ## The reset line (R20, R1) -/

/-- The address is one of the eight words of a BUSY cell (R13, R22). -/
def Chip.inBusyCell (c : Chip) (a : Nat) : Bool :=
  match c.path.classify a with
  | .control o => 32 ≤ o && o < 96 && c.cu.cells[cellOf o].state = .busy
  | _ => false

/-- R20: a host write in progress is abandoned: its word holds the value being written, or its old value; which of the
two is a free value (log 5). The access completes without the refusal indication. A write to a word of a cell taken since
then is stored (R24), and the words of a BUSY cell keep what they hold, the go word its 1 (R22). -/
def State.abandonAccess (s : State) : State :=
  match s.inProgress with
  | none => s
  | some w =>
    if s.chip.inBusyCell w.address.toNat then { s with inProgress := none }
    else
      { s with memory := if Config.abandonedStores s.abandonedCount then s.memory
                         else s.memory.write w.address.toNat w.old
               inProgress := none
               abandonedCount := s.abandonedCount + 1 }

/-- RESET (R20): every block returns to its start values and an access in progress is abandoned; other memory, and what
waits on the bus, are untouched. -/
def execReset (s : State) : Host.Outcome State Fault Refusal := .next { s.abandonAccess with chip := Chip.reset }

/-- R1: the control page placed by the strap value, and the line released. -/
def Chip.releaseReset (straps : BitVec 4) (c : Chip) : Chip :=
  { c with resetAsserted := false
           path := { c.path with controlPage := some (straps.toNat * Config.strapStep) } }

/-- RESET_RELEASE (R1, R20): the host writes that waited are decided after the release, in the order the bus
presented them (log 8). A line that is not asserted cannot be released: nothing happens (log 1). -/
def execResetRelease (straps : BitVec 4) (s : State) : Host.Outcome State Fault Refusal :=
  .next (if s.chip.resetAsserted then
    s.busWaiting.foldl (fun t h => t.decideWrite h)
      { s with chip := s.chip.releaseReset straps, busWaiting := [] }
  else s)

end Sys2Proof.Machine
end

