-- ==== Sys2Proof/Machine/Dispatch.lean ====
section
/-! DEFINITION. One arm for each command: its meaning. -/

namespace Sys2Proof.Machine

def exec (i : Instr) (s : State) : Host.Outcome State Fault Refusal :=
  match i with
  | .reset => Sys2Proof.Machine.execReset s
  | .resetRelease straps => Sys2Proof.Machine.execResetRelease straps s
  | .hostWrite p a v => Sys2Proof.Machine.execHostWrite p a v s
  | .storyWrite p a v => Sys2Proof.Machine.execStoryWrite p a v s
  | .screenRowWrite p a v => Sys2Proof.Machine.execScreenRowWrite p a v s
  | .takeWordWrite p a v => Sys2Proof.Machine.execTakeWordWrite p a v s
  | .contextWordWrite p a v => Sys2Proof.Machine.execContextWordWrite p a v s
  | .attentionMaskWrite p a v => Sys2Proof.Machine.execAttentionMaskWrite p a v s
  | .attentionClearWrite p a v => Sys2Proof.Machine.execAttentionClearWrite p a v s
  | .refusalCountClear p a v => Sys2Proof.Machine.execRefusalCountClear p a v s
  | .goWordWrite p a v => Sys2Proof.Machine.execGoWordWrite p a v s
  | .fontsPresentWrite p a v => Sys2Proof.Machine.execFontsPresentWrite p a v s
  | .deskTableWrite p a v => Sys2Proof.Machine.execDeskTableWrite p a v s
  | .widthTableWrite p a v => Sys2Proof.Machine.execWidthTableWrite p a v s
  | .cellTake => Sys2Proof.Machine.execCellTake s
  | .cellWordRead => Sys2Proof.Machine.execCellWordRead s
  | .cellResultWrite => Sys2Proof.Machine.execCellResultWrite s
  | .start => Sys2Proof.Machine.execStart s
  | .startConfigRead => Sys2Proof.Machine.execStartConfigRead s
  | .terminalOn => Sys2Proof.Machine.execTerminalOn s
  | .terminalOff => Sys2Proof.Machine.execTerminalOff s
  | .lineReset => Sys2Proof.Machine.execLineReset s
  | .signOn => Sys2Proof.Machine.execSignOn s
  | .signOff => Sys2Proof.Machine.execSignOff s
  | .ackNotice => Sys2Proof.Machine.execAckNotice s
  | .postNotice => Sys2Proof.Machine.execPostNotice s
  | .create => Sys2Proof.Machine.execCreate s
  | .attach => Sys2Proof.Machine.execAttach s
  | .detach => Sys2Proof.Machine.execDetach s
  | .submit => Sys2Proof.Machine.execSubmit s
  | .openStory => Sys2Proof.Machine.execOpenStory s
  | .send => Sys2Proof.Machine.execSend s
  | .returnStory => Sys2Proof.Machine.execReturnStory s
  | .kill => Sys2Proof.Machine.execKill s
  | .setStyle => Sys2Proof.Machine.execSetStyle s
  | .refit => Sys2Proof.Machine.execRefit s
  | .clockRun => Sys2Proof.Machine.execClockRun s
  | .clockPause => Sys2Proof.Machine.execClockPause s
  | .setClock => Sys2Proof.Machine.execSetClock s
  | .setEditions => Sys2Proof.Machine.execSetEditions s
  | .pageOpen => Sys2Proof.Machine.execPageOpen s
  | .setClose => Sys2Proof.Machine.execSetClose s
  | .place => Sys2Proof.Machine.execPlace s
  | .unplace => Sys2Proof.Machine.execUnplace s
  | .pageClear => Sys2Proof.Machine.execPageClear s
  | .release => Sys2Proof.Machine.execRelease s
  | .replate => Sys2Proof.Machine.execReplate s
  | .linkOn => Sys2Proof.Machine.execLinkOn s
  | .linkOff => Sys2Proof.Machine.execLinkOff s
  | .linkResume => Sys2Proof.Machine.execLinkResume s
  | .mirrorWriteOutBegin => Sys2Proof.Machine.execMirrorWriteOutBegin s
  | .mirrorWordWrite => Sys2Proof.Machine.execMirrorWordWrite s
  | .rowWordRead l => Sys2Proof.Machine.execRowWordRead l s
  | .messageSent l => Sys2Proof.Machine.execMessageSent l s
  | .takenAnswer l b => Sys2Proof.Machine.execTakenAnswer l b s
  | .busyAnswer l b => Sys2Proof.Machine.execBusyAnswer l b s
  | .keysAnswer l b => Sys2Proof.Machine.execKeysAnswer l b s
  | .quietAnswer l b => Sys2Proof.Machine.execQuietAnswer l b s
  | .answerBadKindOrCount l b => Sys2Proof.Machine.execAnswerBadKindOrCount l b s
  | .answerWindowExpiry l => Sys2Proof.Machine.execAnswerWindowExpiry l s
  | .quietWindowExpiry l => Sys2Proof.Machine.execQuietWindowExpiry l s
  | .keyIntakeWriteBegin => Sys2Proof.Machine.execKeyIntakeWriteBegin s
  | .keyWordWrite => Sys2Proof.Machine.execKeyWordWrite s
  | .putWordWrite => Sys2Proof.Machine.execPutWordWrite s
  | .statusWordWrite => Sys2Proof.Machine.execStatusWordWrite s
  | .noticeRowWriteBegin => Sys2Proof.Machine.execNoticeRowWriteBegin s
  | .noticeRowWordWrite => Sys2Proof.Machine.execNoticeRowWordWrite s
  | .writeReport => Sys2Proof.Machine.execWriteReport s
  | .pulse => Sys2Proof.Machine.execPulse s
  | .editionClose => Sys2Proof.Machine.execEditionClose s
  | .pageLate => Sys2Proof.Machine.execPageLate s
  | .leaseFirstExpiry => Sys2Proof.Machine.execLeaseFirstExpiry s
  | .leaseSecondExpiry => Sys2Proof.Machine.execLeaseSecondExpiry s
  | .fitWordRead => Sys2Proof.Machine.execFitWordRead s
  | .pageTake => Sys2Proof.Machine.execPageTake s
  | .textWordRead => Sys2Proof.Machine.execTextWordRead s
  | .frameSent => Sys2Proof.Machine.execFrameSent s
  | .linkPulse => Sys2Proof.Machine.execLinkPulse s
  | .frameTimeout => Sys2Proof.Machine.execFrameTimeout s
  | .holdWaitEnd => Sys2Proof.Machine.execHoldWaitEnd s
  | .holdLimitExceeded => Sys2Proof.Machine.execHoldLimitExceeded s
  | .accept => Sys2Proof.Machine.execAccept s
  | .hold => Sys2Proof.Machine.execHold s
  | .reject answer => Sys2Proof.Machine.execReject answer s
  | .lineByteReceived l b => Sys2Proof.Machine.execLineByteReceived l b s

end Sys2Proof.Machine
end

