-- ==== Sys2Proof/Safety.lean ====
section
/-! DEFINITION. What is claimed of the part: where the areas stand, when a command is due, what a command may
change, and the laws that every step keeps. -/

namespace Sys2Proof.Machine

/-- The character codes of a text (PRESUMED ASCII, log 14). -/
def ascii (s : String) : List Byte := s.toList.map fun x => BitVec.ofNat 8 x.toNat

/-! ## A safe step -/

/-- A safe step answers a next state: no fault, no refusal. -/
def State.StepsSafely (s : State) : Prop := ∃ t, step s = .next t

/-- The four areas stand in the map, inside the array and apart, as R1 says a passed START leaves them. -/
def PathChecker.AreasPlaced (p : PathChecker) : Prop :=
  ∃ control screen story directory,
    p.controlPage = some control ∧ p.screenArea = some screen ∧ p.storyArea = some story ∧
      p.directoryArea = some directory ∧ control + Config.controlPageWords ≤ Config.memoryWords ∧
      basesValid control screen story directory = true

/-- What the blocks count on the way through a cell, an item, a row or a notice row stays inside it: with the areas
placed, an own access then lies inside the array (log 16). -/
def Chip.OffsetsInRange (c : Chip) : Prop :=
  (c.cu.phase = .reading → c.cu.wordsRead.length < 7) ∧ c.cu.resultWords.length ≤ 6 ∧
    (c.cu.phase = .acting → c.cu.startStage = .reading → c.cu.configRead.length < 17) ∧
    (∀ w, c.mirror.writing = some w → w.offset + w.words.length = (c.itemWords w.item).length) ∧
    (∀ l : LineNo, c.lines[l].phase = .reading → c.lines[l].rowWords.length < 80) ∧
    ∀ w, c.noticeWriter.writing = some w → w.column + w.words.length = 80

/-! ## When a command is due -/

/-- The reset line is released. -/
def State.Released (s : State) : Prop := s.chip.resetAsserted = false

/-- Command `n` is with its owning block, which takes it next (R26). -/
def State.Serves (s : State) (n : Nat) : Prop := s.Released ∧ s.chip.commandDue n = true

/-- The memory port is about to be granted to the own requester `r` (R17). -/
def State.Grants (s : State) (r : Requester) : Prop := s.Released ∧ s.chip.nextGrant = some r

/-- The state with another part. -/
def State.withChip (s : State) (c : Chip) : State := { s with chip := c }

/-- The state after a command refused with a result and its result words: the command unit alone moves, to
REPORTING with an empty wait set (R26). -/
def State.refusedWith (s : State) (r : ResultCode) (words : List Word) : State :=
  s.withChip (s.chip.onUnit (·.report r words))

/-- A command's action has ended with a result and its result words (R28 a, b). -/
def Chip.Ended (c : Chip) (r : ResultCode) (words : List Word) : Prop :=
  c.cu.result = r ∧ c.cu.resultWords = words ∧ c.cu.reported = 0 ∧
    c.cu.phase = if c.cu.waitSet = [] then .reporting else .waiting

/-- The address lies on the control page at an offset (R2 a). -/
def State.ControlAt (s : State) (a : Address) (offset : Nat) : Prop :=
  ∃ base, s.chip.path.controlPage = some base ∧ a.toNat = base + offset ∧ offset < Config.controlPageWords

/-- The address lies where R2 classifies it. -/
def State.LandsAt (s : State) (a : Address) (w : Place) : Prop := s.chip.path.classify a.toNat = w

/-- The state after an accepted host write: the word stored, no refusal indication, the part as the hand-offs of the
same event leave it (R6 a), and the write at the port, where RESET would abandon it (R20; log 5). -/
def State.acceptedWith (s : State) (a : Address) (v : Word) (c : Chip) : State :=
  { s with chip := c.onPath fun p => { p with refusalIndication := false }, memory := s.memory.write a.toNat v
           inProgress := some { address := a, old := s.memory.read a.toNat } }

/-- The state after a refused host write: memory as it was, the port released, the refusal counted and recorded, a
write-out of words 13 to 17 asked for (R6 b, R15, R16). -/
def State.refusedWrite (s : State) (p : Processor) (a : Address) (r : RefusalReason) : State :=
  { s with
    chip := (s.chip.onPath fun k =>
      { k with
        refusalCount := if k.refusalCount = 65535 then 65535 else k.refusalCount + 1
        refusalRecord := some { processor := p, address := a, reason := r, context := k.contexts[p] }
        refusalUncarried := true
        refusalIndication := true }).mark .refusal
    inProgress := none }

/-- The number of a command that an owning block other than START's takes (R25). -/
def commandNumber : Instr → Option Nat
  | .terminalOn => some 2
  | .terminalOff => some 3
  | .lineReset => some 4
  | .signOn => some 5
  | .signOff => some 6
  | .ackNotice => some 7
  | .postNotice => some 8
  | .create => some 9
  | .attach => some 10
  | .detach => some 11
  | .submit => some 12
  | .openStory => some 13
  | .send => some 14
  | .returnStory => some 15
  | .kill => some 16
  | .setStyle => some 17
  | .refit => some 18
  | .clockRun => some 19
  | .clockPause => some 20
  | .setClock => some 21
  | .setEditions => some 22
  | .pageOpen => some 23
  | .setClose => some 24
  | .place => some 25
  | .unplace => some 26
  | .pageClear => some 27
  | .release => some 28
  | .replate => some 29
  | .linkOn => some 30
  | .linkOff => some 31
  | .linkResume => some 32
  | _ => none

/-- The processor, address and value of a host-write row. -/
def hostAccessOf : Instr → Option HostAccess
  | .hostWrite p a v => some ⟨p, a, v⟩
  | .storyWrite p a v => some ⟨p, a, v⟩
  | .screenRowWrite p a v => some ⟨p, a, v⟩
  | .takeWordWrite p a v => some ⟨p, a, v⟩
  | .contextWordWrite p a v => some ⟨p, a, v⟩
  | .attentionMaskWrite p a v => some ⟨p, a, v⟩
  | .attentionClearWrite p a v => some ⟨p, a, v⟩
  | .refusalCountClear p a v => some ⟨p, a, v⟩
  | .goWordWrite p a v => some ⟨p, a, v⟩
  | .fontsPresentWrite p a v => some ⟨p, a, v⟩
  | .deskTableWrite p a v => some ⟨p, a, v⟩
  | .widthTableWrite p a v => some ⟨p, a, v⟩
  | _ => none

/-- The own requester whose access a row is (R17). -/
def requesterOf : Instr → Option Requester
  | .cellWordRead => some .commandUnit
  | .cellResultWrite => some .commandUnit
  | .startConfigRead => some .commandUnit
  | .mirrorWordWrite => some .mirrorWriter
  | .rowWordRead l => some (.line l)
  | .keyWordWrite => some .keyIntake
  | .putWordWrite => some .keyIntake
  | .statusWordWrite => some .keyIntake
  | .noticeRowWordWrite => some .noticeWriter
  | .fitWordRead => some .fitEngine
  | .textWordRead => some .linkEngine
  | _ => none

/-- How many places a requester stands after the one last granted, wrapping; that one itself stands last (R17 c). -/
def PathChecker.turn (p : PathChecker) (r : Requester) : Nat := (r.place + 13 - p.lastGranted.place) % 14

/-- An item is awaited by the command being served (R28). -/
def Chip.Awaits (c : Chip) (i : MirrorItem) : Prop := ∃ e ∈ c.cu.waitSet, e.item = i

/-- A story that differs from another, if at all, in the fields the fit engine owns (R87, R132, R147). -/
def Story.SameOutsideFit (x y : Story) : Prop :=
  y = { x with fit := y.fit, rerun := y.rerun, result := y.result, fontsUsed := y.fontsUsed }

/-- A story's record after a staling (R133): CURRENT becomes STALE, RUNNING takes the re-run mark, FREE and STALE stay. -/
def Story.staled (x : Story) : Story :=
  if x.state = .free then x
  else
    match x.fit with
    | .current => { x with fit := .stale }
    | .stale => x
    | .running => { x with rerun := true }

/-- Story `n`, standing as `x`, has been staled in an event that began with the fit queue `q`, the fit engine RUNNING
throughout and taking no story (R133, R136). -/
def Chip.HasStaled (d : Chip) (n : StoryNo) (x : Story) (q : List StoryNo) : Prop :=
  d.stories[n] = x.staled ∧ (x.fit = .current → n ∈ d.fit.queue) ∧ (x.fit ≠ .current → d.fit.queue = q)

/-- From `c` the idle fit engine has taken story `n` from the head of its queue, leaving `rest`, and the part is `d`: the
run reads a copy of the story's block list, its working state set from the story's style and hole, the initial font
selected (R136). -/
def Chip.RunBegins (c : Chip) (n : StoryNo) (rest : List StoryNo) (d : Chip) : Prop :=
  d.fit = { c.fit with
      queue := rest
      run := some {
        story := n, blocks := c.stories[n].blocks, index := 0, font := c.stories[n].style.font
        size := c.stories[n].style.size, leading := c.stories[n].style.leading
        measure8 := 128 * c.stories[n].style.measure, track := c.stories[n].style.track, hole := c.stories[n].hole
        width := 0, break_ := none, content := false, lineStart := 0, lines := 0, depth := 0, deep := false
        overset := 0, cut := none, forced := 0, fonts := fontBit c.stories[n].style.font } } ∧
    d.stories[n] = { c.stories[n] with fit := .running, rerun := false } ∧
    (∀ m : StoryNo, m ≠ n → d.stories[m] = c.stories[m]) ∧ MirrorItem.story n ∈ d.mirror.pending ∧
    MirrorItem.fitCount ∈ d.mirror.pending

/-- A story a run of which reads its first word: it has blocks, and its font is present (R136 e, R145, R148). -/
def Chip.Readable (c : Chip) (n : StoryNo) : Prop :=
  c.stories[n].blocks ≠ [] ∧ c.fit.mask.getLsbD c.stories[n].style.font.val = true

/-- A recorded result with `v` overset lines has posted what it posts, and the part is `d`: OVERSET to the holder of an
OPEN story when `v` is above 0, and nothing else (R148 b). -/
def Chip.OversetPosts (c : Chip) (n : StoryNo) (v : Nat) (d : Chip) : Prop :=
  (c.stories[n].state ≠ .open_ ∨ v = 0 → d.screens = c.screens) ∧
    ∀ u : TerminalNo, c.stories[n].state = .open_ → c.stories[n].holder = some u → 0 < v →
      d.screens[u] = c.screens[u].enter { kind := .overset, subject := n.val, second := some v, count := 1 } ∧
      ∀ w : TerminalNo, w ≠ u → d.screens[w] = c.screens[w]

/-- A queue shows a notice of that kind and subject, unless it was full and shows its more mark (R62). -/
def Screen.Holds (s : Screen) (kind : NoticeKind) (subject : Nat) : Prop :=
  s.more = true ∨ ∃ m ∈ s.queue, m.kind = kind ∧ m.subject = subject

/-- A result with that status and nothing measured. -/
def FitResult.unmeasured (status : FitStatus) : FitResult :=
  { status := status, lines := 0, depth := 0, deep := false, overset := 0, cut := none, forced := 0,
    spaceLeft := none }

/-- The fonts a change of which stales a story (R130, R131): the working set of the run of a RUNNING story, the recorded
set of any other. -/
def Chip.fontsOf (c : Chip) (n : StoryNo) : Byte :=
  match c.stories[n].fit with
  | .running => match c.fit.run with | some r => r.fonts | none => 0
  | _ => c.stories[n].fontsUsed

/-- The caller is terminal `u`, signed on to desk `d` with at least the clearance `low` (R27, R83). -/
def Chip.CallsAs (c : Chip) (u : TerminalNo) (d : DeskNo) (low : Clearance) : Prop :=
  c.cu.context = .terminal u ∧ ∃ x, c.session u = some x ∧ x.desk = d ∧ low.code ≤ x.clearance.code

/-- The caller holds story `n` and may edit it (R99, table). -/
def Chip.CallsAsHolder (c : Chip) (n : StoryNo) : Prop :=
  ∃ u d, c.CallsAs u d .edit ∧ c.stories[n].holder = some u

/-- The caller may work on the pages of desk `d` (R153). -/
def Chip.CallsForPages (c : Chip) (d : DeskNo) : Prop := c.cu.context = .system ∨ ∃ u, c.CallsAs u d .slot

/-- The current edition is the one R118 gives: the first whose close time is greater than the count, or the last. -/
def NightClock.CurrentIsRight (k : NightClock) : Prop :=
  (∀ (i : Nat) (x : Word), k.closes[i]? = some (some x) → k.count < x →
    (∀ j, j < i → ∀ y, k.closes[j]? = some (some y) → y ≤ k.count) → k.current = i + 1) ∧
    ((∀ x, some x ∈ k.closes → x ≤ k.count) → k.current = k.closes.length)

/-- The link has entered FAULT from `c`, and the part is `d`: LINK FAULT names page `p` to every SLOT terminal, LINK is
raised and the link holds nothing, its off mark cleared (R179 b to f). -/
def Chip.LinkFaults (c : Chip) (p : PageNo) (d : Chip) : Prop :=
  d.link = { c.link with
      state := .fault, stage := none, page := none, abandoning := none, offMark := false, position := none
      frame := none, tries := 0, holds := 0, answerWait := 0, wordsSent := 0 } ∧
    d.cu.attentionRaw = c.cu.attentionRaw ||| 0x10#8 ∧
    (∀ w : TerminalNo, d.screens[w] =
      match c.session w with
      | some y => if y.clearance = .slot then c.screens[w].enter
          { kind := .linkFault, subject := p.number, second := none, count := 1 } else c.screens[w]
      | none => c.screens[w]) ∧
    MirrorItem.linkState ∈ d.mirror.pending

/-- The link has entered FAULT with page `p` in hand: the page is QUEUED at the head of its class (R164, R179 a). -/
def Chip.LinkFaultGivesBack (c : Chip) (p : PageNo) (d : Chip) : Prop :=
  d.pages[p] = { c.pages[p] with state := .queued } ∧ (∀ q : PageNo, q ≠ p → d.pages[q] = c.pages[q]) ∧
    (∀ front back, c.outputQueue = front ++ back → (∀ q ∈ front, 1 < c.pages[q].plates.toNat) →
      (∀ q ∈ back, c.pages[q].plates.toNat ≤ 1) →
      d.outputQueue = if 1 < c.pages[p].plates.toNat then p :: (front ++ back) else front ++ p :: back) ∧
    c.LinkFaults p d ∧ MirrorItem.page p ∈ d.mirror.pending ∧ MirrorItem.outputCount ∈ d.mirror.pending

/-- The link has entered FAULT while it sent or held the ABANDON of page `p`: no page is given back (R179 b, R184 b). -/
def Chip.LinkFaultAbandons (c : Chip) (p : PageNo) (d : Chip) : Prop :=
  c.LinkFaults p d ∧ d.pages = c.pages ∧ d.outputQueue = c.outputQueue

/-- The sweep of line `l`, going on from address `first`, comes to a full visit of address `a`: the terminals between are
OFF, the one at `a` is UP or SUSPECT (R45). -/
def Chip.ComesTo (c : Chip) (l : LineNo) (first : Nat) (a : Fin 8) : Prop :=
  first ≤ a.val ∧ (∀ b : Fin 8, first ≤ b.val → b.val < a.val → c.links[terminalOf l b].state = .off) ∧
    (c.links[terminalOf l a].state = .up ∨ c.links[terminalOf l a].state = .suspect)

/-- A sweep with that counter passes an address: its terminal is OFF, or DOWN while the counter is no multiple of 16
(R45). -/
def Chip.PassesAddress (c : Chip) (l : LineNo) (counter : Word) (a : Fin 8) : Prop :=
  c.links[terminalOf l a].state = .off ∨ c.links[terminalOf l a].state = .down ∧ counter.toNat % 16 ≠ 0

/-- A sweep with that counter, going on from address `first`, decides a visit of address `a`: it passes the addresses
between, and the terminal at `a` is UP or SUSPECT, for a full visit, or DOWN in a sweep whose counter is a multiple of
16, for a probe (R45). -/
def Chip.SweepComesTo (c : Chip) (l : LineNo) (first : Nat) (counter : Word) (a : Fin 8) (k : VisitKind) : Prop :=
  first ≤ a.val ∧ (∀ b : Fin 8, first ≤ b.val → b.val < a.val → c.PassesAddress l counter b) ∧
    (k = .full ∧ (c.links[terminalOf l a].state = .up ∨ c.links[terminalOf l a].state = .suspect) ∨
      k = .probe ∧ c.links[terminalOf l a].state = .down ∧ counter.toNat % 16 = 0)

/-- From `c` the engine of line `l` has begun a visit of address `a`, and the part is `d`. A full visit takes the lowest
dirty row within the row budget and reads it, or polls; a probe polls and takes no row (R46, R47, R50). -/
def Chip.VisitBegins (c : Chip) (l : LineNo) (a : Fin 8) (k : VisitKind) (d : Chip) : Prop :=
  d.lines[l].position = a ∧ (∀ m : LineNo, m ≠ l → d.lines[m] = c.lines[m]) ∧ d.links = c.links ∧
    ∀ u : TerminalNo, u = terminalOf l a →
      (∀ r : Fin 24, k = .full → 1 ≤ c.lines[l].rowBudget → c.screens[u].dirty[r] = true →
        (∀ q : Fin 24, q < r → c.screens[u].dirty[q] = false) →
        d.lines[l].phase = .reading ∧ d.screens[u].dirty[r] = false ∧ d.lines[l].visit =
          some { terminal := u, kind := .full, rowsSent := 0, rowInHand := some r, awaited := .row }) ∧
      (k = .probe ∨ c.lines[l].rowBudget = 0 ∨ (∀ q : Fin 24, c.screens[u].dirty[q] = false) →
        d.lines[l].phase = .sending ∧ d.lines[l].message = some .poll ∧ d.screens = c.screens ∧
          d.lines[l].visit =
            some { terminal := u, kind := k, rowsSent := 0, rowInHand := none, awaited := .poll })

/-- From `c` the engine of line `l` has gone on with the next address of its sweep, and the part is `d`. It decides the
addresses left with the counter as it stands; with all of them passed the sweep ends, the counter rises by 1 and the next
begins at address 0; when no terminal of the line is UP or SUSPECT, the lowest DOWN one is probed in the sweep whose
counter is the next multiple of 16 (R45). -/
def Chip.SweepGoesOn (c : Chip) (l : LineNo) (d : Chip) : Prop :=
  ∀ counter : Word, counter = c.lines[l].sweepCounter →
    (∀ a k, c.SweepComesTo l (c.lines[l].position.val + 1) counter a k →
      c.VisitBegins l a k d ∧ d.lines[l].sweepCounter = counter) ∧
    ((∀ b : Fin 8, c.lines[l].position < b → c.PassesAddress l counter b) →
      (∀ a k, c.SweepComesTo l 0 (counter + 1) a k →
        c.VisitBegins l a k d ∧ d.lines[l].sweepCounter = counter + 1) ∧
      (∀ a : Fin 8, c.links[terminalOf l a].state = .down →
        (∀ b : Fin 8, b < a → c.links[terminalOf l b].state = .off) →
        (∀ b : Fin 8, c.links[terminalOf l b].state = .off ∨ c.links[terminalOf l b].state = .down) →
        c.VisitBegins l a .probe d ∧ d.lines[l].sweepCounter = BitVec.ofNat 16 (16 * (counter.toNat / 16 + 1))))

/-- From `c` the visit `v` of line `l` has ended in a miss, and the part is `d`: the miss is counted, the row in hand
given back, and the line falls quiet before the sweep goes on (R43, R44, R51). -/
def Chip.MissEnds (c : Chip) (l : LineNo) (v : Visit) (d : Chip) : Prop :=
  d.links[v.terminal] = c.links[v.terminal].miss ∧
    (∀ w : TerminalNo, w ≠ v.terminal → d.links[w] = c.links[w]) ∧
    d.lines[l] = { c.lines[l] with
      phase := .quieting, afterQuiet := .nextAddress, visit := none, rowWords := [], message := none, received := [] } ∧
    (∀ m : LineNo, m ≠ l → d.lines[m] = c.lines[m]) ∧ d.keys = c.keys ∧
    ∀ r, v.rowInHand = some r → d.screens[v.terminal].dirty[r] = true

/-- The engine of line `l` has begun a full visit of address `a` (R46). -/
def Chip.VisitsFully (c : Chip) (l : LineNo) (a : Fin 8) : Prop :=
  c.lines[l].position = a ∧ ∃ v, c.lines[l].visit = some v ∧ v.terminal = terminalOf l a ∧ v.kind = .full ∧
    v.rowsSent = 0

/-- The callers a command's rule admits (R27, R54 to R56, R70, R71, R84, R85, R99, R117, R119, R153, R180 to R182); none
for a command without a caller check. -/
def admittedBy : Instr → Option Admits
  | .terminalOn => some .systemOnly
  | .terminalOff => some .systemOnly
  | .lineReset => some .systemOnly
  | .signOn => some .systemOnly
  | .signOff => some { system := true, terminal := some .read }
  | .ackNotice => some .systemOnly
  | .postNotice => some .systemOnly
  | .create => some .editors
  | .attach => some .editors
  | .detach => some .editors
  | .submit => some .systemOnly
  | .openStory => some { system := false, terminal := some .edit }
  | .send => some .editors
  | .returnStory => some .editors
  | .kill => some { system := true, terminal := some .slot }
  | .setStyle => some .editors
  | .setClock => some .systemOnly
  | .setEditions => some .systemOnly
  | .pageOpen => some { system := true, terminal := some .slot }
  | .setClose => some { system := true, terminal := some .slot }
  | .place => some { system := true, terminal := some .slot }
  | .unplace => some { system := true, terminal := some .slot }
  | .pageClear => some { system := true, terminal := some .slot }
  | .release => some { system := true, terminal := some .slot }
  | .replate => some { system := true, terminal := some .slot }
  | .linkOn => some .systemOnly
  | .linkOff => some .systemOnly
  | .linkResume => some .systemOnly
  | _ => none

/-- The control page stands inside the array, at `base`. -/
def State.PageAt (s : State) (base : Nat) : Prop :=
  s.chip.path.controlPage = some base ∧ base + Config.controlPageWords ≤ Config.memoryWords

/-! ## What a command may change -/

/-- The fields of the part. -/
inductive Part where
  | path
  | unit
  | mirror
  | lines
  | links
  | screens
  | noticeWriter
  | keys
  | keyWriter
  | stories
  | desks
  | custody
  | clock
  | fit
  | pages
  | outputQueue
  | link
  deriving DecidableEq, Repr

/-- Two parts agree in a field. -/
def Chip.SameIn (c d : Chip) : Part → Prop
  | .path => d.path = c.path
  | .unit => d.cu = c.cu
  | .mirror => d.mirror = c.mirror
  | .lines => d.lines = c.lines
  | .links => d.links = c.links
  | .screens => d.screens = c.screens
  | .noticeWriter => d.noticeWriter = c.noticeWriter
  | .keys => d.keys = c.keys
  | .keyWriter => d.keyWriter = c.keyWriter
  | .stories => d.stories = c.stories
  | .desks => d.desks = c.desks
  | .custody => d.custody = c.custody
  | .clock => d.clock = c.clock
  | .fit => d.fit = c.fit
  | .pages => d.pages = c.pages
  | .outputQueue => d.outputQueue = c.outputQueue
  | .link => d.link = c.link

/-- The fields a fit may change: its story, its queue, the items marked, the notices posted (R136, R148). -/
def fitParts : List Part := [.stories, .fit, .unit, .mirror, .screens, .noticeWriter]

/-- The fields a passage of the lines may change (chapter 3). -/
def lineParts : List Part := [.lines, .links, .screens, .noticeWriter, .keyWriter, .unit, .mirror]

/-- The fields a passage of the setting link may change (chapter 10). -/
def linkParts : List Part := [.link, .pages, .outputQueue, .screens, .noticeWriter, .unit, .mirror]

/-- The fields a command may change when the reset line is released and stays so; the others keep their values. -/
def partsOf : Instr → List Part
  | .reset => []
  | .resetRelease _ => []
  | .hostWrite _ _ _ => [.path, .desks, .keys, .keyWriter, .custody] ++ fitParts
  | .storyWrite _ _ _ => [.path, .desks, .keys, .keyWriter, .custody] ++ fitParts
  | .screenRowWrite _ _ _ => [.path, .desks, .keys, .keyWriter, .custody] ++ fitParts
  | .takeWordWrite _ _ _ => [.path, .desks, .keys, .keyWriter, .custody] ++ fitParts
  | .contextWordWrite _ _ _ => [.path, .desks, .keys, .keyWriter, .custody] ++ fitParts
  | .attentionMaskWrite _ _ _ => [.path, .desks, .keys, .keyWriter, .custody] ++ fitParts
  | .attentionClearWrite _ _ _ => [.path, .desks, .keys, .keyWriter, .custody] ++ fitParts
  | .refusalCountClear _ _ _ => [.path, .desks, .keys, .keyWriter, .custody] ++ fitParts
  | .goWordWrite _ _ _ => [.path, .desks, .keys, .keyWriter, .custody] ++ fitParts
  | .fontsPresentWrite _ _ _ => [.path, .desks, .keys, .keyWriter, .custody] ++ fitParts
  | .deskTableWrite _ _ _ => [.path, .desks, .keys, .keyWriter, .custody] ++ fitParts
  | .widthTableWrite _ _ _ => [.path, .desks, .keys, .keyWriter, .custody] ++ fitParts
  | .cellTake => [.unit]
  | .cellWordRead => [.unit, .path]
  | .cellResultWrite => [.unit, .path, .mirror]
  | .start => [.unit]
  | .startConfigRead => [.unit, .path, .mirror, .lines, .link, .keyWriter, .noticeWriter]
  | .terminalOn => lineParts
  | .terminalOff => lineParts
  | .lineReset => lineParts
  | .signOn => [.unit, .keys, .keyWriter]
  | .signOff =>
    [.unit, .mirror, .keys, .keyWriter, .screens, .noticeWriter, .stories, .desks, .custody]
  | .ackNotice => [.unit, .screens, .noticeWriter]
  | .postNotice => [.unit, .screens, .noticeWriter]
  | .create => [.desks, .custody] ++ fitParts
  | .attach => [.custody] ++ fitParts
  | .detach => [.custody] ++ fitParts
  | .submit => [.unit, .mirror, .stories, .desks]
  | .openStory => [.unit, .mirror, .stories, .desks, .custody]
  | .send => [.unit, .mirror, .stories, .desks, .custody, .screens, .noticeWriter]
  | .returnStory => [.unit, .mirror, .stories, .desks, .custody]
  | .kill => [.desks, .custody, .pages] ++ fitParts
  | .setStyle => fitParts
  | .refit => fitParts
  | .clockRun => [.unit, .clock]
  | .clockPause => [.unit, .clock]
  | .setClock => [.unit, .clock, .mirror]
  | .setEditions => [.unit, .clock, .mirror]
  | .pageOpen => [.unit, .mirror, .pages]
  | .setClose => [.unit, .mirror, .pages]
  | .place => [.pages] ++ fitParts
  | .unplace => [.pages] ++ fitParts
  | .pageClear => [.unit, .mirror, .pages]
  | .release =>
    [.unit, .mirror, .pages, .outputQueue, .stories, .desks, .screens, .noticeWriter]
  | .replate => [.unit, .mirror, .pages, .outputQueue, .stories, .desks, .custody, .link]
  | .linkOn => [.unit, .mirror, .link]
  | .linkOff => [.unit, .mirror, .link, .pages, .outputQueue]
  | .linkResume => [.unit, .mirror, .link]
  | .mirrorWriteOutBegin => [.unit, .mirror, .path]
  | .mirrorWordWrite => [.unit, .mirror, .path]
  | .rowWordRead _ => [.lines, .path]
  | .messageSent _ => [.lines]
  | .takenAnswer _ _ => [.keys, .stories] ++ lineParts
  | .busyAnswer _ _ => [.keys, .stories] ++ lineParts
  | .keysAnswer _ _ => [.keys, .stories] ++ lineParts
  | .quietAnswer _ _ => [.keys, .stories] ++ lineParts
  | .answerBadKindOrCount _ _ => [.keys, .stories] ++ lineParts
  | .lineByteReceived _ _ => [.keys, .stories] ++ lineParts
  | .answerWindowExpiry _ => lineParts
  | .quietWindowExpiry _ => lineParts
  | .keyIntakeWriteBegin => [.keyWriter]
  | .keyWordWrite => [.keys, .keyWriter, .path]
  | .putWordWrite => [.keys, .keyWriter, .path, .unit, .mirror]
  | .statusWordWrite => [.keyWriter, .path]
  | .noticeRowWriteBegin => [.noticeWriter]
  | .noticeRowWordWrite => [.noticeWriter, .path, .screens]
  | .writeReport => [.custody, .stories, .unit, .mirror]
  | .pulse => [.clock, .pages, .stories, .desks, .custody, .screens, .noticeWriter, .unit, .mirror]
  | .editionClose => [.clock, .pages, .stories, .desks, .custody, .screens, .noticeWriter, .unit, .mirror]
  | .pageLate => [.clock, .pages, .stories, .desks, .custody, .screens, .noticeWriter, .unit, .mirror]
  | .leaseFirstExpiry => [.clock, .pages, .stories, .desks, .custody, .screens, .noticeWriter, .unit, .mirror]
  | .leaseSecondExpiry => [.clock, .pages, .stories, .desks, .custody, .screens, .noticeWriter, .unit, .mirror]
  | .fitWordRead => [.path] ++ fitParts
  | .pageTake => linkParts
  | .textWordRead => [.path, .link, .unit, .mirror]
  | .frameSent => [.link]
  | .linkPulse => linkParts
  | .frameTimeout => linkParts
  | .holdWaitEnd => linkParts
  | .holdLimitExceeded => linkParts
  | .accept => linkParts
  | .hold => linkParts
  | .reject _ => linkParts

/-- The address an own-write row stores to: the one its meaning's plan computes on the part as it stands. -/
def ownStoreOf (i : Instr) (c : Chip) : Option Nat :=
  match i with
  | .cellResultWrite => c.resultWrite.bind (·.address)
  | .mirrorWordWrite => c.mirrorWord.bind (·.address)
  | .keyWordWrite => c.keyWordWrite.bind (·.address)
  | .putWordWrite => c.putWordWrite.bind (·.address)
  | .statusWordWrite => c.statusWordWrite.bind (·.address)
  | .noticeRowWordWrite => c.rowWordWrite.bind (·.address)
  | _ => none

/-- The addresses a command may store to: a host write's own, those of the writes that waited for the release of the
reset line, that of an own write, or that of the host write RESET abandons (R20). -/
def MayStore (i : Instr) (s : State) (a : Nat) : Prop :=
  (∃ h, hostAccessOf i = some h ∧ a = h.address.toNat) ∨
    (∃ straps, i = .resetRelease straps ∧ ∃ h ∈ s.busWaiting, a = h.address.toNat) ∨ ownStoreOf i s.chip = some a ∨
    (i = .reset ∧ ∃ w, s.inProgress = some w ∧ a = w.address.toNat)

/-! ## The laws every step keeps -/

/-- R35: the attention line is asserted exactly while a raised cause has its mask bit 1. -/
def Chip.AttentionLaw (c : Chip) : Prop :=
  c.cu.attentionLine = lineOfAttention c.cu.attentionRaw c.cu.attentionMask

/-- R60, R62: at most 4 notices, no two of one kind and subject, counts 1 to 99, and a set more mark only on a full
queue. -/
def Screen.NoticeLaw (s : Screen) : Prop :=
  s.queue.length ≤ 4 ∧ (s.more = true → s.queue.length = 4) ∧
    s.queue.Pairwise (fun m n => ¬(m.kind = n.kind ∧ m.subject = n.subject)) ∧
    ∀ n ∈ s.queue, 1 ≤ n.count ∧ n.count ≤ 99

/-- R73, the ring law: unread and waiting keys together number at most 63. -/
def KeyRing.RingLaw (k : KeyRing) : Prop := k.unread + k.waiting.length ≤ 63

/-- R39: the miss count a link state admits. -/
def TerminalLink.Lawful (k : TerminalLink) : Prop :=
  match k.state with
  | .off => k.misses = 0
  | .up => k.misses = 0
  | .suspect => k.misses.val ≤ 2
  | .down => k.misses = 3

/-- R33, R67, R78, R8: each pending list holds an entry at most once. -/
def Chip.ListsOnce (c : Chip) : Prop :=
  c.mirror.pending.Nodup ∧ c.keyWriter.pending.Nodup ∧ c.noticeWriter.pending.Nodup ∧ c.custody.reports.Nodup

/-- R118: 1 to 6 editions, their close times strictly rising, and the current edition the one the count gives. -/
def NightClock.EditionLaw (k : NightClock) : Prop :=
  k.current = currentEdition k.closes k.count ∧
    (k.closes = [none] ∨
      ∃ l : List Word, k.closes = l.map some ∧ l ≠ [] ∧ l.length ≤ 6 ∧ (∀ v ∈ l, v ≠ 0) ∧ l.Pairwise (· < ·))

/-- R170: stage, page in hand, abandoning page, off mark and try count agree with the link state; an ABANDON is the
frame in hand for an abandoning page alone (R183). -/
def SettingLink.Lawful (k : SettingLink) : Prop :=
  (k.stage.isSome ↔ k.state = .sending) ∧ ¬(k.page.isSome ∧ k.abandoning.isSome) ∧
    (k.page.isSome ∨ k.abandoning.isSome ↔ k.state = .sending ∨ k.state = .holding) ∧
    (k.offMark = true → k.abandoning.isSome) ∧ k.tries ≤ 2 ∧
    (k.page.isSome → ∀ f, k.frame = some f → f.kind ≠ .abandon)

/-- R163, the output law: the queue holds each page at most once and holds exactly the QUEUED pages, the replate
class before the first-plate class; the one SETTING page, if any, is the link's page in hand; together they number at
most 16. -/
def Chip.OutputLaw (c : Chip) : Prop :=
  c.outputQueue.Nodup ∧ (∀ p : PageNo, p ∈ c.outputQueue ↔ c.pages[p].state = .queued) ∧
    (∀ p : PageNo, c.pages[p].state = .setting ↔ c.link.page = some p) ∧
    c.outputQueue.length + (if c.link.page.isSome then 1 else 0) ≤ 16 ∧
    c.outputQueue.Pairwise (fun p q => c.replateClass q = true → c.replateClass p = true)

/-- R88: a FREE story holds the FREE values, and the free story count is the number of FREE stories. -/
def Chip.FreeLaw (c : Chip) : Prop :=
  (∀ n : StoryNo, c.stories[n].state = .free → c.stories[n] = Story.free) ∧
    c.custody.freeStories = ((List.finRange 1024).filter fun n => c.stories[n].state = .free).length

/-- R89, the block law: the owner map names a story for exactly the blocks of its list, no list holds a block twice or
more than 48, and the free block count is the number of free entries. -/
def Chip.BlockLaw (c : Chip) : Prop :=
  (∀ (b : BlockNo) (n : StoryNo), c.custody.owners[b] = some n ↔ b ∈ c.stories[n].blocks) ∧
    (∀ n : StoryNo, c.stories[n].blocks.Nodup ∧ c.stories[n].blocks.length ≤ 48) ∧
    c.custody.freeBlocks = ((List.finRange 8192).filter fun b => c.custody.owners[b] = none).length

/-- R91, the basket law: a desk's basket holds each BASKET story of the desk once and no other story, the urgent
before the others. -/
def Chip.BasketLaw (c : Chip) : Prop :=
  ∀ d : DeskNo, c.desks[d].basket.Nodup ∧
    c.desks[d].basket.Pairwise (fun m n => c.stories[n].urgent = true → c.stories[m].urgent = true) ∧
    ∀ n : StoryNo, n ∈ c.desks[d].basket ↔ c.stories[n].state = .basket ∧ c.stories[n].desk = d

/-- R96, R95, the holder law: a terminal's held set holds the stories OPEN with it as holder, at most two; every OPEN
story has a holder signed on to its desk, no other story has a holder or a lease; the open count is that of the desk's
OPEN stories. -/
def Chip.HolderLaw (c : Chip) : Prop :=
  (∀ u : TerminalNo, c.custody.held[u].Nodup ∧ c.custody.held[u].length ≤ 2 ∧
      ∀ n : StoryNo, n ∈ c.custody.held[u] ↔ c.stories[n].state = .open_ ∧ c.stories[n].holder = some u) ∧
    (∀ n : StoryNo,
      (c.stories[n].state = .open_ → ∃ u y, c.stories[n].holder = some u ∧ c.session u = some y ∧
        y.desk = c.stories[n].desk) ∧
      (c.stories[n].state ≠ .open_ → c.stories[n].holder = none ∧ c.stories[n].lease = none)) ∧
    ∀ d : DeskNo, c.desks[d].openCount =
      ((List.finRange 1024).filter fun n => c.stories[n].state = .open_ ∧ c.stories[n].desk = d).length

/-- R132, the fit law: the queue holds each STALE story once and no other, the placed before the unplaced; the one
RUNNING story is that of the run; the re-run mark stands on a RUNNING story alone. -/
def Chip.FitLaw (c : Chip) : Prop :=
  c.fit.queue.Nodup ∧ (∀ n : StoryNo, n ∈ c.fit.queue ↔ c.stories[n].fit = .stale) ∧
    c.fit.queue.Pairwise (fun m n => c.stories[n].page.isSome = true → c.stories[m].page.isSome = true) ∧
    ∀ n : StoryNo, (c.stories[n].fit = .running ↔ ∃ r, c.fit.run = some r ∧ r.story = n) ∧
      (c.stories[n].rerun = true → c.stories[n].fit = .running)

/-- R152, R151, the placement law: a story names a page exactly when the page's list holds it, with the hole of its
entry; no list holds a story twice or more than 16; an unplaced story has hole 0, an EMPTY page its EMPTY values. -/
def Chip.PlacementLaw (c : Chip) : Prop :=
  (∀ p : PageNo, c.pages[p].placements.length ≤ 16 ∧ (c.pages[p].placements.map (·.story)).Nodup ∧
      (c.pages[p].state = .empty → c.pages[p] = Page.empty)) ∧
    (∀ (n : StoryNo) (p : PageNo), c.stories[n].page = some p ↔ ∃ e ∈ c.pages[p].placements, e.story = n) ∧
    (∀ (p : PageNo) (e : Placement), e ∈ c.pages[p].placements → c.stories[e.story].hole = e.hole) ∧
    ∀ n : StoryNo, c.stories[n].page = none → c.stories[n].hole = 0

/-- R162, the release law: the SET stories are those placed on a QUEUED, SETTING or SET page. -/
def Chip.ReleaseLaw (c : Chip) : Prop :=
  ∀ n : StoryNo, c.stories[n].state = .set ↔ ∃ p, c.stories[n].page = some p ∧
    (c.pages[p].state = .queued ∨ c.pages[p].state = .setting ∨ c.pages[p].state = .set)

/-- The laws of the story table together: each rests on the others, so they are kept together. -/
def Chip.StoryLaws (c : Chip) : Prop :=
  c.FreeLaw ∧ c.BlockLaw ∧ c.BasketLaw ∧ c.HolderLaw ∧ c.FitLaw ∧ c.PlacementLaw ∧ c.ReleaseLaw

end Sys2Proof.Machine
end

