-- ==== Sys2Proof/Certificates/Slice0/Obligations.lean ====
section
/-! DEFINITION. The statements made of the part: the step, the frames and laws of every command, then the commands
chapter by chapter. Each command has at least one statement whose conclusion is the next state of its own effect. -/

open Sys2Proof Sys2Proof.Machine

/-! ## The step, the frames and the laws -/

/-- A step runs the command at the front of the queue on the state with the queue's rest; with nothing waiting the
block idles (the model's choice, log 2). -/
def Obligations.StepTakesTheFrontCommand : Prop :=
  (∀ (c : Instr) (rest : List Instr) (s : State),
    step { s with pending := c :: rest } = exec c { s with pending := rest }) ∧
    ∀ s : State, s.pending = [] → step s = .next s

/-- No command is refused by the model. A fault comes only at an own access whose requester is granted the port (the
model's own, log 16): none for want of an area once the areas are placed as R1 says, and none at all while the offsets
the blocks count stand in range as well, which every step keeps and the state after reset has. -/
def Obligations.CommandsStopOnlyAtUnplacedAreas : Prop :=
  (∀ (i : Instr) (s : State) (r : Refusal), exec i s ≠ .refused r) ∧
    (∀ (i : Instr) (s : State) (f : Fault), exec i s = .fault f → ∃ r, requesterOf i = some r ∧ s.Grants r) ∧
    (∀ (i : Instr) (s : State), s.chip.path.AreasPlaced → exec i s ≠ .fault .areaNotPlaced) ∧
    (∀ (i : Instr) (s : State) (f : Fault), s.chip.path.AreasPlaced → s.chip.OffsetsInRange → exec i s ≠ .fault f) ∧
    (∀ s t : State, s.chip.OffsetsInRange → step s = .next t → t.chip.OffsetsInRange) ∧
    State.reset.chip.OffsetsInRange

/-- The frame: a command other than those of the reset line changes no field of the part outside `partsOf`, leaves
the reset line and the queue of commands as they are, and adds to the writes that wait only while the line is
asserted. -/
def Obligations.CommandsKeepTheirFrame : Prop :=
  ∀ (i : Instr) (s t : State), i ≠ .reset → (∀ straps, i ≠ .resetRelease straps) → exec i s = .next t →
    (∀ p, p ∉ partsOf i → s.chip.SameIn t.chip p) ∧ t.chip.resetAsserted = s.chip.resetAsserted ∧
      t.pending = s.pending ∧ (s.Released → t.busWaiting = s.busWaiting)

/-- The frame of memory: a command leaves every word as it reads, but for the one address its own write or its host
write stores to (for RESET_RELEASE, the addresses of the writes that waited). -/
def Obligations.CommandsKeepOtherMemory : Prop :=
  ∀ (i : Instr) (s t : State), s.memory.wf = true → exec i s = .next t →
    ∀ a, ¬MayStore i s a → t.memory.read a = s.memory.read a

/-- Every step keeps memory's canonical form. -/
def Obligations.StepKeepsMemoryForm : Prop :=
  ∀ s t : State, s.memory.wf = true → step s = .next t → t.memory.wf = true

/-- Every step keeps the attention law: the line is asserted exactly while a raised cause is unmasked (R35). -/
def Obligations.StepKeepsAttentionLaw : Prop :=
  ∀ s t : State, s.chip.AttentionLaw → step s = .next t → t.chip.AttentionLaw

/-- Every step keeps the notice law of every terminal's queue (R60, R62). -/
def Obligations.StepKeepsNoticeLaw : Prop :=
  ∀ s t : State, (∀ u : TerminalNo, s.chip.screens[u].NoticeLaw) → step s = .next t →
    ∀ u : TerminalNo, t.chip.screens[u].NoticeLaw

/-- Every step keeps the ring law of every terminal's keys (R73). -/
def Obligations.StepKeepsRingLaw : Prop :=
  ∀ s t : State, (∀ u : TerminalNo, s.chip.keys[u].RingLaw) → step s = .next t →
    ∀ u : TerminalNo, t.chip.keys[u].RingLaw

/-- Every step keeps link state and miss count of every terminal in agreement (R39). -/
def Obligations.StepKeepsTerminalLaw : Prop :=
  ∀ s t : State, (∀ u : TerminalNo, s.chip.links[u].Lawful) → step s = .next t →
    ∀ u : TerminalNo, t.chip.links[u].Lawful

/-- Every step keeps each pending list free of repeats (R8, R33, R67, R78), and keeps the story laws: the lists of
blocks, baskets, held sets, fit queue and placements agree with the stories' records, the counts with their numbers
(R88, R89, R91, R95, R96, R132, R152, R162), in states where the output law holds (R163). -/
def Obligations.StepKeepsListsOnce : Prop :=
  (∀ s t : State, s.chip.ListsOnce → step s = .next t → t.chip.ListsOnce) ∧
    ∀ s t : State, s.chip.OutputLaw → s.chip.StoryLaws → step s = .next t → t.chip.StoryLaws

/-- Every step keeps the edition law: the schedule rises and the current edition is the one the count gives (R118). -/
def Obligations.StepKeepsEditionLaw : Prop :=
  ∀ s t : State, s.chip.clock.EditionLaw → step s = .next t → t.chip.clock.EditionLaw

/-- Every step keeps the link's own fields in agreement (R170, R183). -/
def Obligations.StepKeepsLinkLaw : Prop :=
  ∀ s t : State, s.chip.link.Lawful → step s = .next t → t.chip.link.Lawful

/-- Every step keeps the output law (R163), in states where the link's own fields agree. -/
def Obligations.StepKeepsOutputLaw : Prop :=
  ∀ s t : State, s.chip.link.Lawful → s.chip.OutputLaw → step s = .next t → t.chip.OutputLaw

/-- The state after reset satisfies every law that steps keep. -/
def Obligations.ResetSatisfiesTheLaws : Prop :=
  State.reset.memory.wf = true ∧ State.reset.chip.AttentionLaw ∧
    (∀ u : TerminalNo, State.reset.chip.screens[u].NoticeLaw) ∧
    (∀ u : TerminalNo, State.reset.chip.keys[u].RingLaw) ∧
    (∀ u : TerminalNo, State.reset.chip.links[u].Lawful) ∧ State.reset.chip.ListsOnce ∧
    State.reset.chip.clock.EditionLaw ∧ State.reset.chip.link.Lawful ∧ State.reset.chip.OutputLaw ∧
    State.reset.chip.StoryLaws

/-! ## The reset line (R20, R1) -/

/-- The reset line completes in every state: it is asserted and every block stands at its start values (R5, R20, R22, R29,
R34, R37 to R39, R57, R72, R88, R98, R113, R114, R118, R150, R151, R169, R185). A host write in progress is abandoned: its
word holds its old value or the one being written, the access completes without the refusal indication, and every other
word is left alone (R20; that a host write is in progress until the port is next granted is the model's choice, log 5).
The eight words of a BUSY cell keep what they hold, its go word among them (R22). What waits on the bus still waits (the
model's reading, log 8). -/
def Obligations.ResetReturnsStartValues : Prop :=
  (∀ (s r : State) (p : Processor) (a : Address) (v : Word) (c : Chip), s.memory.wf = true →
    exec (.hostWrite p a v) s = .next (s.acceptedWith a v c) → exec .reset (s.acceptedWith a v c) = .next r →
    (r.memory.read a.toNat = v ∨ r.memory.read a.toNat = s.memory.read a.toNat) ∧
      (∀ b, b ≠ a.toNat → r.memory.read b = s.memory.read b) ∧ r.chip.path.refusalIndication = false) ∧
  (∀ (s r : State) (k : CellNo) (base j : Nat), s.memory.wf = true → s.chip.cu.cells[k].state = .busy →
    s.chip.path.controlPage = some base → j < 8 → exec .reset s = .next r →
    r.memory.read (base + 32 + 8 * k.val + j) = s.memory.read (base + 32 + 8 * k.val + j)) ∧
  ∀ s : State, ∃ t, exec .reset s = .next t ∧
    (s.inProgress = none → t.memory = s.memory) ∧
    (∀ w, s.inProgress = some w → t.memory = s.memory ∨ t.memory = s.memory.write w.address.toNat w.old) ∧
    t.inProgress = none ∧ t.chip.path.refusalIndication = false ∧ t.chip.resetAsserted = true ∧
    t.busWaiting = s.busWaiting ∧ t.pending = s.pending ∧
    t.chip.path.screenArea = none ∧ t.chip.path.storyArea = none ∧ t.chip.path.directoryArea = none ∧
    (∀ p : Processor, t.chip.path.contexts[p] = .none) ∧ t.chip.path.refusalCount = 0 ∧
    t.chip.path.refusalRecord = none ∧ t.chip.path.lastGranted = .commandUnit ∧
    t.chip.cu.service = .stopped ∧ (∀ k : CellNo, t.chip.cu.cells[k] = { state := .empty, context := none }) ∧
    t.chip.cu.phase = .idle ∧ t.chip.cu.serving = none ∧ t.chip.cu.lastServed = 7 ∧
    t.chip.cu.attentionRaw = 0 ∧ t.chip.cu.attentionMask = 0 ∧ t.chip.cu.attentionLine = false ∧
    t.chip.mirror = { pending := [.attentionRaw, .serviceState], writing := none } ∧
    (∀ l : LineNo, t.chip.lines[l].phase = .idle ∧ t.chip.lines[l].sweepCounter = 0 ∧ t.chip.lines[l].position = 0 ∧
      t.chip.lines[l].visit = none ∧ t.chip.lines[l].speed = 2 ∧ t.chip.lines[l].rowBudget = 1 ∧
      t.chip.lines[l].answerWindow = 64) ∧
    (∀ (u : TerminalNo) (r : Fin 24), t.chip.screens[u].dirty[r] = false) ∧
    (∀ u : TerminalNo, t.chip.links[u] = { state := .off, misses := 0 } ∧ t.chip.screens[u].queue = [] ∧
      t.chip.screens[u].more = false ∧ t.chip.keys[u].take = 0 ∧ t.chip.keys[u].put = 0 ∧
      t.chip.keys[u].waiting = [] ∧ t.chip.keys[u].overrun = false ∧ t.chip.keys[u].functionPending = none ∧
      t.chip.keys[u].textMark = false ∧ t.chip.keys[u].functionMark = false ∧ t.chip.session u = none ∧
      t.chip.custody.held[u] = []) ∧
    t.chip.noticeWriter = { pending := [], writing := none } ∧ t.chip.keyWriter = { pending := [], writing := none } ∧
    (∀ n : StoryNo, t.chip.stories[n] = Story.free) ∧ (∀ b : BlockNo, t.chip.custody.owners[b] = none) ∧
    t.chip.custody.freeStories = 1024 ∧ t.chip.custody.freeBlocks = 8192 ∧ t.chip.custody.reports = [] ∧
    (∀ d : DeskNo, t.chip.desks[d] =
      { name := Vector.replicate 8 0x20, basketLimit := 255, idleLimit := 0, idleAction := .notify, basket := [],
        openCount := 0 }) ∧
    t.chip.clock.count = 0 ∧ t.chip.clock.running = false ∧ t.chip.clock.closes = [none] ∧ t.chip.clock.current = 1 ∧
    (∀ (f : Fin 8) (k : Fin 256), t.chip.fit.widths[f][k] = 0) ∧ t.chip.fit.mask = 0 ∧ t.chip.fit.queue = [] ∧
    t.chip.fit.run = none ∧ t.chip.fit.abandoned = [] ∧ (∀ p : PageNo, t.chip.pages[p] = Page.empty) ∧ t.chip.outputQueue = [] ∧
    t.chip.link.state = .off ∧ t.chip.link.stage = none ∧ t.chip.link.page = none ∧ t.chip.link.abandoning = none ∧
    t.chip.link.offMark = false ∧ t.chip.link.frame = none ∧ t.chip.link.position = none ∧ t.chip.link.tries = 0 ∧
    t.chip.link.holds = 0 ∧ t.chip.link.answerWait = 0 ∧ t.chip.link.wordsSent = 0 ∧ t.chip.link.holdLimit = 255

/-- While the reset line is asserted no block takes anything: a host write waits on the bus (log 8), and every other
command leaves the state as it is (R20). Its release places the control page at the strap value times 262,144 (R1) and
decides a host write that waited against the control page then placed. -/
def Obligations.ResetLineHoldsAndReleases : Prop :=
  (∀ (i : Instr) (s : State), s.chip.resetAsserted = true → i ≠ .reset → (∀ straps, i ≠ .resetRelease straps) →
    exec i s = .next (match hostAccessOf i with
      | some h => { s with busWaiting := s.busWaiting ++ [h] }
      | none => s)) ∧
    ∀ (s : State) (straps : BitVec 4), s.chip.resetAsserted = true →
      ∀ r : State, r = s.withChip { s.chip with
          resetAsserted := false, path := { s.chip.path with controlPage := some (straps.toNat * 262144) } } →
        (s.busWaiting = [] → exec (.resetRelease straps) s = .next r) ∧
          ∀ h, s.busWaiting = [h] →
            exec (.resetRelease straps) s =
              exec (.hostWrite h.processor h.address h.value) { r with busWaiting := [] }

/-! ## The copy path (chapter 1) -/

/-- With the areas placed as a passed START leaves them, an address is classified by the one area it lies in, with the
position R2 gives; an address in none is unclassified. -/
def Obligations.AddressesAreClassifiedByArea : Prop :=
  ∀ (p : PathChecker) (control screen story directory : Nat),
    p.controlPage = some control → p.screenArea = some screen → p.storyArea = some story →
    p.directoryArea = some directory → basesValid control screen story directory = true →
    ∀ a : Nat,
      (control ≤ a ∧ a < control + 4096 → p.classify a = .control (a - control)) ∧
      (∀ (t : TerminalNo) (o : Nat), o < 2048 → a = screen + 2048 * t.val + o → p.classify a = .window t o) ∧
      (∀ (b : BlockNo) (w : Nat), w < 128 → a = story + 128 * b.val + w → p.classify a = .block b w) ∧
      (directory ≤ a ∧ a < directory + 12160 → p.classify a = .directory (a - directory)) ∧
      (¬(control ≤ a ∧ a < control + 4096) → ¬(screen ≤ a ∧ a < screen + 131072) →
        ¬(story ≤ a ∧ a < story + 1048576) → ¬(directory ≤ a ∧ a < directory + 12160) →
        p.classify a = .unclassified)

/-- The port is granted round robin over the own requesters that wait, from the one after the one last granted
(R17 c); an own access happens only when its requester is granted, and makes it the one last granted. -/
def Obligations.PortGrantsRoundRobin : Prop :=
  (∀ c : Chip, c.nextGrant = none ↔ ∀ r, c.requests r = false) ∧
    (∀ (c : Chip) (r : Requester), c.nextGrant = some r →
      c.requests r = true ∧ ∀ q, c.requests q = true → c.path.turn r ≤ c.path.turn q) ∧
    ∀ (i : Instr) (r : Requester) (s t : State), requesterOf i = some r → exec i s = .next t →
      t = s ∨ s.Grants r ∧ t.chip.path.lastGranted = r

/-- A host write to a word with no behaviour of its own is stored and handed to no block: an unclassified address
(R2), the ordinary words of a window (R10) and of the control page, configuration words other than the mask, words 0
to 6 of a cell that is not BUSY (R13). The other host-write rows act as this one does: the address decides (log 6). -/
def Obligations.OrdinaryWordsAreStored : Prop :=
  (∀ (s : State) (p : Processor) (a : Address) (v : Word), s.Released →
    (s.LandsAt a .unclassified ∨ (∃ t o, 1992 ≤ o ∧ s.LandsAt a (.window t o)) ∨
      ∃ o, s.LandsAt a (.control o) ∧
        (20 ≤ o ∧ o < 32 ∨ 96 ≤ o ∧ o < 128 ∧ o ≠ 113 ∨ 256 ≤ o ∧ o < 2048 ∨
          ∃ (k : CellNo) (j : Nat), j < 7 ∧ o = 32 + 8 * k.val + j ∧ s.chip.cu.cells[k].state ≠ .busy)) →
    exec (.hostWrite p a v) s = .next (s.acceptedWith a v s.chip)) ∧
    ∀ (i : Instr) (h : HostAccess) (s : State), hostAccessOf i = some h →
      exec i s = exec (.hostWrite h.processor h.address h.value) s

/-- A write to a story block is decided by the owner story and the writer's context, in the order of R7. A write that
passes is stored, put on custody's report list once, and stales the story (R8), as a RUNNING fit shows. Custody takes the
head of the list in an event of its own: it stamps the story and re-arms a lease (R109). -/
def Obligations.StoryWritesAreDecidedAndReported : Prop :=
  (∀ (s : State) (n : StoryNo) (rest : List StoryNo), s.Released → s.chip.custody.reports = n :: rest →
    s.chip.stories[n].state ≠ .free →
    ∃ t, exec .writeReport s = .next t ∧ t.memory = s.memory ∧
      t.chip.custody = { s.chip.custody with reports := rest } ∧
      t.chip.stories[n] = { s.chip.stories[n] with
        stamp := s.chip.clock.count
        lease := if s.chip.stories[n].state = .open_ then s.chip.stories[n].lease.map fun _ =>
            { remaining := s.chip.desks[s.chip.stories[n].desk].idleLimit, warned := false }
          else s.chip.stories[n].lease } ∧
      (∀ m : StoryNo, m ≠ n → t.chip.stories[m] = s.chip.stories[m]) ∧
      MirrorItem.story n ∈ t.chip.mirror.pending) ∧
  ∀ (s : State) (p : Processor) (a : Address) (v : Word) (b : BlockNo) (w : Nat), s.Released →
    s.LandsAt a (.block b w) →
    (s.chip.custody.owners[b] = none → exec (.storyWrite p a v) s = .next (s.refusedWrite p a .freeBlock)) ∧
    ∀ n : StoryNo, s.chip.custody.owners[b] = some n → s.chip.stories[n].state ≠ .free →
      (s.chip.path.contexts[p] = .none ∨
          (∃ u, s.chip.path.contexts[p] = .terminal u ∧ s.chip.session u = none) →
        exec (.storyWrite p a v) s = .next (s.refusedWrite p a .badContext)) ∧
      (s.chip.path.contexts[p] = .system ∨
          (∃ u, s.chip.path.contexts[p] = .terminal u ∧ (s.chip.session u).isSome = true) →
        (s.chip.stories[n].state = .intake ∧ s.chip.path.contexts[p] ≠ .system →
          exec (.storyWrite p a v) s = .next (s.refusedWrite p a .notHolder)) ∧
        (s.chip.stories[n].state = .open_ ∧
            (∀ u, s.chip.path.contexts[p] = .terminal u → s.chip.stories[n].holder ≠ some u) →
          exec (.storyWrite p a v) s = .next (s.refusedWrite p a .notHolder)) ∧
        (s.chip.stories[n].state = .basket →
          exec (.storyWrite p a v) s = .next (s.refusedWrite p a .atRest)) ∧
        (s.chip.stories[n].state = .set →
          exec (.storyWrite p a v) s = .next (s.refusedWrite p a .frozen)) ∧
        (s.chip.stories[n].state = .intake ∧ s.chip.path.contexts[p] = .system ∨
            s.chip.stories[n].state = .open_ ∧
              (∃ u, s.chip.path.contexts[p] = .terminal u ∧ s.chip.stories[n].holder = some u) →
          ∃ t, exec (.storyWrite p a v) s = .next t ∧ t.memory = s.memory.write a.toNat v ∧
            t.chip.path.refusalIndication = false ∧ t.chip.custody.owners = s.chip.custody.owners ∧
            t.chip.custody.reports = joinOnce s.chip.custody.reports n ∧
            (∀ m : StoryNo, s.chip.stories[m].SameOutsideFit t.chip.stories[m]) ∧
            (s.chip.fit.run.isSome = true →
              t.chip.HasStaled n s.chip.stories[n] s.chip.fit.queue ∧
                ∀ m : StoryNo, m ≠ n → t.chip.stories[m] = s.chip.stories[m])))

/-- A write to rows 0 to 22 of a window is stored and marks its row dirty, whatever the writer's context and the
terminal's session or link state; nothing else changes (R9). -/
def Obligations.ScreenRowWritesMarkTheRow : Prop :=
  ∀ (s : State) (p : Processor) (a : Address) (v : Word) (u : TerminalNo) (o : Nat), s.Released →
    s.LandsAt a (.window u o) → o < 1840 →
    ∃ t, exec (.screenRowWrite p a v) s = .next t ∧ t.memory = s.memory.write a.toNat v ∧
      (∀ r : Fin 24, t.chip.screens[u].dirty[r] = (s.chip.screens[u].dirty[r] || decide (r.val = o / 80))) ∧
      t.chip.screens[u].queue = s.chip.screens[u].queue ∧ t.chip.screens[u].more = s.chip.screens[u].more ∧
      (∀ w : TerminalNo, w ≠ u → t.chip.screens[w] = s.chip.screens[w]) ∧
      t.chip = { s.chip with
        screens := t.chip.screens, path := { s.chip.path with refusalIndication := false } }

/-- Host writes to the words the part itself writes are refused PROTECTED: the notice row, key ring, put word and
status words of a window (R10), the directory area (R12), and the status words of the control page (R13); but while
STOPPED a control page status word is stored unchecked (R19). -/
def Obligations.PartWrittenWordsAreProtected : Prop :=
  ∀ (s : State) (p : Processor) (a : Address) (v : Word), s.Released →
    ((∃ u o, s.LandsAt a (.window u o) ∧ (1840 ≤ o ∧ o < 1985 ∨ 1986 ≤ o ∧ o < 1992)) ∨
        (∃ o, s.LandsAt a (.directory o)) →
      exec (.hostWrite p a v) s = .next (s.refusedWrite p a .writeProtected)) ∧
    ∀ o, s.LandsAt a (.control o) → o = 4 ∨ 7 ≤ o ∧ o < 13 ∨ o = 13 ∧ v ≠ 0 ∨ 14 ≤ o ∧ o < 20 →
      (s.chip.cu.service ≠ .stopped → exec (.hostWrite p a v) s = .next (s.refusedWrite p a .writeProtected)) ∧
      (s.chip.cu.service = .stopped → exec (.hostWrite p a v) s = .next (s.acceptedWith a v s.chip))

/-- A take word write is accepted when its value lies in the circular span from the take index to the put index, both
included: the take index moves, the overrun flag clears, and the function-pending mark goes when its position is
passed; any other value is refused BAD_INDEX (R11, R74). -/
def Obligations.TakeWritesMoveTheTakeIndex : Prop :=
  ∀ (s : State) (p : Processor) (a : Address) (v : Word) (u : TerminalNo), s.Released →
    s.LandsAt a (.window u 1985) →
    ∀ unread, unread = (s.chip.keys[u].put.val + 64 - s.chip.keys[u].take.val) % 64 →
      ((∀ k, k ≤ unread → v.toNat ≠ (s.chip.keys[u].take.val + k) % 64) →
        exec (.takeWordWrite p a v) s = .next (s.refusedWrite p a .badIndex)) ∧
      ∀ k, k ≤ unread → v.toNat = (s.chip.keys[u].take.val + k) % 64 →
        ∃ t, exec (.takeWordWrite p a v) s = .next t ∧ t.memory = s.memory.write a.toNat v ∧
          t.chip.keys[u].take.val = v.toNat ∧ t.chip.keys[u].overrun = false ∧
          (∀ q, s.chip.keys[u].functionPending = some q →
            t.chip.keys[u].functionPending =
              if (∃ j, j < k ∧ q.val = (s.chip.keys[u].take.val + j) % 64) then none else some q) ∧
          (s.chip.keys[u].functionPending = none → t.chip.keys[u].functionPending = none) ∧
          t.chip.keys[u].put = s.chip.keys[u].put ∧ t.chip.keys[u].waiting = s.chip.keys[u].waiting ∧
          t.chip.keys[u].session = s.chip.keys[u].session ∧
          (∀ w : TerminalNo, w ≠ u → t.chip.keys[w] = s.chip.keys[w]) ∧
          (t.chip.keys[u].overrun ≠ s.chip.keys[u].overrun ∨
              t.chip.keys[u].functionPending ≠ s.chip.keys[u].functionPending →
            KeyItem.keyState u ∈ t.chip.keyWriter.pending)

/-- A write to a context word is accepted whatever the service state and the writer; the context of the processor
named by the offset takes the value: 0 to 63 that terminal, 65535 SYSTEM, any other NONE (R4). -/
def Obligations.ContextWordsSetContexts : Prop :=
  ∀ (s : State) (p q : Processor) (a : Address) (v : Word), s.Released → s.ControlAt a q.val →
    ∃ t, exec (.contextWordWrite p a v) s = .next t ∧ t.memory = s.memory.write a.toNat v ∧
      (∀ u : TerminalNo, v.toNat = u.val → t.chip.path.contexts[q] = .terminal u) ∧
      (v = 65535 → t.chip.path.contexts[q] = .system) ∧
      (64 ≤ v.toNat ∧ v ≠ 65535 → t.chip.path.contexts[q] = .none) ∧
      (∀ r : Processor, r ≠ q → t.chip.path.contexts[r] = s.chip.path.contexts[r]) ∧
      t.chip = { s.chip with path := { s.chip.path with
        contexts := t.chip.path.contexts, refusalIndication := false } }

/-- The mask takes bits 0 to 7 of the value written; the clear word clears the causes whose bits are 1; the line is
recomputed at once (R35), and a clear of some cause marks word 4, while a value with none of those bits changes nothing
(R36). -/
def Obligations.MaskAndClearWordsActAtOnce : Prop :=
  ∀ (s : State) (p : Processor) (a : Address) (v : Word), s.Released →
    (s.ControlAt a 5 →
      ∃ t, exec (.attentionMaskWrite p a v) s = .next t ∧ t.memory = s.memory.write a.toNat v ∧
        t.chip.cu = { s.chip.cu with
          attentionMask := v.setWidth 8, attentionLine := lineOfAttention s.chip.cu.attentionRaw (v.setWidth 8) } ∧
        t.chip = { s.chip with cu := t.chip.cu, path := { s.chip.path with refusalIndication := false } }) ∧
    (s.ControlAt a 6 →
      ∃ t, exec (.attentionClearWrite p a v) s = .next t ∧ t.memory = s.memory.write a.toNat v ∧
        t.chip.cu.attentionRaw = s.chip.cu.attentionRaw &&& ~~~(v.setWidth 8) ∧
        t.chip.cu.attentionMask = s.chip.cu.attentionMask ∧
        (v.setWidth 8 ≠ 0#8 →
          t.chip.cu.attentionLine = lineOfAttention t.chip.cu.attentionRaw t.chip.cu.attentionMask ∧
            MirrorItem.attentionRaw ∈ t.chip.mirror.pending) ∧
        (v.setWidth 8 = 0#8 →
          t.chip = { s.chip with path := { s.chip.path with refusalIndication := false } }))

/-- A write of 0 to word 13 clears the refusal count, keeps the record and makes a write-out pending (R16); each
refused write raises the count, saturating, and replaces the record (R15): here the writes to a BUSY cell. -/
def Obligations.RefusalsAreCountedAndCleared : Prop :=
  ∀ (s : State) (p : Processor) (a : Address), s.Released →
    (s.ControlAt a 13 →
      ∃ t, exec (.refusalCountClear p a 0) s = .next t ∧ t.memory = s.memory.write a.toNat 0 ∧
        t.chip.path = { s.chip.path with refusalCount := 0, refusalIndication := false } ∧
        MirrorItem.refusal ∈ t.chip.mirror.pending) ∧
    ∀ (v : Word) (k : CellNo) (j : Nat), j < 8 → s.ControlAt a (32 + 8 * k.val + j) →
      s.chip.cu.cells[k].state = .busy →
      ∃ t, exec (.hostWrite p a v) s = .next t ∧ t.memory = s.memory ∧ t.chip.cu.cells = s.chip.cu.cells ∧
        t.chip.path.refusalCount.toNat = min 65535 (s.chip.path.refusalCount.toNat + 1) ∧
        t.chip.path.refusalRecord =
          some { processor := p, address := a, reason := .cellBusy, context := s.chip.path.contexts[p] } ∧
        t.chip.path.contexts = s.chip.path.contexts ∧ t.chip.path.refusalIndication = true ∧
        MirrorItem.refusal ∈ t.chip.mirror.pending

/-- A go word write of 1 to a cell that is not BUSY makes it GO with the writer's context captured; any other value
makes it EMPTY; at a BUSY cell it is refused CELL_BUSY (R21). -/
def Obligations.GoWordsMoveCells : Prop :=
  ∀ (s : State) (p : Processor) (a : Address) (v : Word) (k : CellNo), s.Released →
    s.ControlAt a (32 + 8 * k.val + 7) →
    (s.chip.cu.cells[k].state = .busy →
      exec (.goWordWrite p a v) s = .next (s.refusedWrite p a .cellBusy)) ∧
    (s.chip.cu.cells[k].state ≠ .busy →
      ∃ t, exec (.goWordWrite p a v) s = .next t ∧ t.memory = s.memory.write a.toNat v ∧
        t.chip.cu.cells[k] =
          (if v = 1 then { state := .go, context := some s.chip.path.contexts[p] }
            else { state := .empty, context := none }) ∧
        (∀ j : CellNo, j ≠ k → t.chip.cu.cells[j] = s.chip.cu.cells[j]) ∧
        t.chip.cu = { s.chip.cu with cells := t.chip.cu.cells } ∧
        t.chip = { s.chip with cu := t.chip.cu, path := { s.chip.path with refusalIndication := false } })

/-- The mask takes bits 0 to 7 of the value written to word 113, a width entry the low byte of the value written to its
word; each write stales the stories that use a font it changes (R130, R131), as a RUNNING fit shows. -/
def Obligations.FontWritesTakeTablesAndStale : Prop :=
  ∀ (s : State) (p : Processor) (a : Address) (v : Word), s.Released →
    (s.ControlAt a 113 →
      ∃ t, exec (.fontsPresentWrite p a v) s = .next t ∧ t.memory = s.memory.write a.toNat v ∧
        t.chip.fit.mask = v.setWidth 8 ∧ t.chip.fit.widths = s.chip.fit.widths ∧
        (∀ n : StoryNo, s.chip.stories[n].SameOutsideFit t.chip.stories[n]) ∧
        (s.chip.fit.run.isSome = true → ∀ n : StoryNo, t.chip.stories[n] =
          if s.chip.fontsOf n &&& (s.chip.fit.mask ^^^ v.setWidth 8) ≠ 0 then s.chip.stories[n].staled
          else s.chip.stories[n])) ∧
    ∀ (f : Fin 8) (k : Fin 256), s.ControlAt a (2048 + 256 * f.val + k.val) →
      ∃ t, exec (.widthTableWrite p a v) s = .next t ∧ t.memory = s.memory.write a.toNat v ∧
        t.chip.fit.widths[f][k] = v.setWidth 8 ∧
        (∀ (g : Fin 8) (j : Fin 256), (g, j) ≠ (f, k) → t.chip.fit.widths[g][j] = s.chip.fit.widths[g][j]) ∧
        t.chip.fit.mask = s.chip.fit.mask ∧
        (∀ n : StoryNo, s.chip.stories[n].SameOutsideFit t.chip.stories[n]) ∧
        (s.chip.fit.run.isSome = true → ∀ n : StoryNo, t.chip.stories[n] =
          if s.chip.fontsOf n &&& fontBit f ≠ 0 then s.chip.stories[n].staled else s.chip.stories[n])

/-- A desk table write is taken into the setting its word holds, with R98's ranges, and touches nothing else. -/
def Obligations.DeskTableWritesTakeSettings : Prop :=
  ∀ (s : State) (p : Processor) (a : Address) (v : Word) (d : DeskNo) (k : Nat), s.Released → k < 8 →
    s.ControlAt a (128 + 8 * d.val + k) →
    ∃ t, exec (.deskTableWrite p a v) s = .next t ∧ t.memory = s.memory.write a.toNat v ∧
      (∀ e : DeskNo, e ≠ d → t.chip.desks[e] = s.chip.desks[e]) ∧
      t.chip = { s.chip with desks := t.chip.desks, path := { s.chip.path with refusalIndication := false } } ∧
      (∀ h : k < 4,
        t.chip.desks[d] = { s.chip.desks[d] with name := t.chip.desks[d].name } ∧
          t.chip.desks[d].name[2 * k] = v.extractLsb' 8 8 ∧ t.chip.desks[d].name[2 * k + 1] = v.extractLsb' 0 8 ∧
          ∀ j : Fin 8, j.val ≠ 2 * k → j.val ≠ 2 * k + 1 → t.chip.desks[d].name[j] = s.chip.desks[d].name[j]) ∧
      (k = 4 → t.chip.desks[d] = { s.chip.desks[d] with
        basketLimit := if v.toNat = 0 then 1 else if 255 < v.toNat then 255 else v.toNat }) ∧
      (k = 5 → t.chip.desks[d] = { s.chip.desks[d] with
        idleLimit := if 3600 < v.toNat then 3600 else v.toNat }) ∧
      (k = 6 → t.chip.desks[d] = { s.chip.desks[d] with
        idleAction := if v = 1 then .recall else .notify }) ∧
      (k = 7 → t.chip.desks[d] = s.chip.desks[d])

/-! ## The command unit and the mirror writer (chapter 2) -/

/-- The IDLE command unit takes the first GO cell after the cell last served, wrapping from 7 to 0: the cell becomes
BUSY and the last served, its captured context is copied, and READING begins (R23, R24); with no GO cell, or while it
serves one, it takes none (log 1). Words 0 to 6 are then read in word order, one an own access (R24). The seventh read,
the checks of R26 give UNKNOWN_COMMAND, WRONG_STATE or NOT_RUNNING, reported at once, or the command goes to its owning
block. -/
def Obligations.CellsAreTakenReadAndChecked : Prop :=
  (∀ s : State, s.Released →
      (s.chip.cu.phase ≠ .idle ∨ (∀ k : CellNo, s.chip.cu.cells[k].state ≠ .go) → exec .cellTake s = .next s) ∧
      ∀ k : CellNo, s.chip.cu.phase = .idle → s.chip.cu.cells[k].state = .go →
        (∀ j : CellNo, s.chip.cu.cells[j].state = .go →
          (k.val + 7 - s.chip.cu.lastServed.val) % 8 ≤ (j.val + 7 - s.chip.cu.lastServed.val) % 8) →
        ∃ t, exec .cellTake s = .next t ∧ t.memory = s.memory ∧
          t.chip.cu.cells[k] = { s.chip.cu.cells[k] with state := .busy } ∧
          (∀ j : CellNo, j ≠ k → t.chip.cu.cells[j] = s.chip.cu.cells[j]) ∧ t.chip.cu.phase = .reading ∧
          t.chip.cu.serving = some k ∧ t.chip.cu.lastServed = k ∧ t.chip.cu.wordsRead = [] ∧
          (∀ x, s.chip.cu.cells[k].context = some x → t.chip.cu.context = x) ∧ t.chip = { s.chip with cu := t.chip.cu }) ∧
  ∀ (s : State) (k : CellNo) (base : Nat) (w : Word), s.Grants .commandUnit → s.chip.cu.phase = .reading →
    s.chip.cu.serving = some k → s.PageAt base → s.chip.cu.wordsRead.length < 7 →
    w = s.memory.read (base + 32 + 8 * k.val + s.chip.cu.wordsRead.length) →
    ∃ t, exec .cellWordRead s = .next t ∧ t.memory = s.memory ∧ t.chip.cu.wordsRead = s.chip.cu.wordsRead ++ [w] ∧
      t.chip.cu.cells = s.chip.cu.cells ∧ t.chip.cu.serving = some k ∧ t.chip.cu.service = s.chip.cu.service ∧
      t.chip = { s.chip with cu := t.chip.cu, path := { s.chip.path with lastGranted := .commandUnit } } ∧
      (s.chip.cu.wordsRead.length < 6 →
        t.chip.cu = { s.chip.cu with wordsRead := s.chip.cu.wordsRead ++ [w] }) ∧
      (s.chip.cu.wordsRead.length = 6 → ∀ n, n = t.chip.cu.number →
        (n = 0 ∨ 32 < n → t.chip.cu.phase = .reporting ∧ t.chip.cu.waitSet = [] ∧
          t.chip.cu.result = .unknownCommand ∧ t.chip.cu.resultWords = []) ∧
        (n = 1 ∧ s.chip.cu.service ≠ .stopped → t.chip.cu.phase = .reporting ∧ t.chip.cu.waitSet = [] ∧
          t.chip.cu.result = .wrongState ∧ t.chip.cu.resultWords = []) ∧
        (2 ≤ n ∧ n ≤ 32 ∧ s.chip.cu.service ≠ .running → t.chip.cu.phase = .reporting ∧ t.chip.cu.waitSet = [] ∧
          t.chip.cu.result = .notRunning ∧ t.chip.cu.resultWords = []) ∧
        (n = 1 ∧ s.chip.cu.service = .stopped ∨ 2 ≤ n ∧ n ≤ 32 ∧ s.chip.cu.service = .running →
          t.chip.commandDue n = true))

/-- The result words go into words 1 onward of the cell, in word order, then the result code + 256 into word 7; with
that the cell is DONE, COMMAND_DONE is raised and the command unit is IDLE (R28 c). -/
def Obligations.ResultsAreReported : Prop :=
  ∀ (s : State) (k : CellNo) (base : Nat), s.Grants .commandUnit → s.chip.cu.phase = .reporting →
    s.chip.cu.serving = some k → s.PageAt base → s.chip.cu.reported ≤ 6 →
    (∀ w, s.chip.cu.resultWords[s.chip.cu.reported]? = some w → s.chip.cu.reported < 6 →
      ∃ t, exec .cellResultWrite s = .next t ∧
        t.memory = s.memory.write (base + 32 + 8 * k.val + 1 + s.chip.cu.reported) w ∧
        t.chip = { s.chip with
          cu := { s.chip.cu with reported := s.chip.cu.reported + 1 }
          path := { s.chip.path with lastGranted := .commandUnit } }) ∧
    (s.chip.cu.resultWords.length ≤ s.chip.cu.reported →
      ∃ t, exec .cellResultWrite s = .next t ∧
        t.memory = s.memory.write (base + 32 + 8 * k.val + 7) (BitVec.ofNat 16 (s.chip.cu.result.code + 256)) ∧
        t.chip.cu.cells[k] = { s.chip.cu.cells[k] with state := .done } ∧
        (∀ j : CellNo, j ≠ k → t.chip.cu.cells[j] = s.chip.cu.cells[j]) ∧ t.chip.cu.phase = .idle ∧
        t.chip.cu.serving = none ∧ t.chip.cu.attentionRaw = s.chip.cu.attentionRaw ||| 1#8 ∧
        t.chip.cu.attentionMask = s.chip.cu.attentionMask ∧
        (s.chip.cu.attentionRaw &&& 1#8 = 0#8 → MirrorItem.attentionRaw ∈ t.chip.mirror.pending) ∧
        t.chip.cu.service = s.chip.cu.service)

/-- START reads words 96 to 112 in order while STOPPED. With the last it validates the bases: a failure ends
CONFIG_BAD, with nothing taken (R30); otherwise the areas are placed, the record emptied (R19), the settings clamped and
taken (R31), the service state is STARTING, every record and status word is marked and awaited (R32), and the first
writes of the windows are made pending (R68, R82). That no write-out then carries a refusal made in STOPPED before START,
so that no REFUSAL follows for it (refusalUncarried = false), is the model's own reading (log 11, DEDUCED, unsafe). -/
def Obligations.StartConfiguresThePart : Prop :=
  ∀ s : State,
    (s.Serves 1 →
      exec .start s = .next (s.withChip { s.chip with cu := { s.chip.cu with startStage := .reading, configRead := [] } })) ∧
    ∀ (base : Nat) (w : Word), s.Grants .commandUnit → s.chip.cu.phase = .acting → s.chip.cu.startStage = .reading →
      s.PageAt base → s.chip.cu.configRead.length < 17 →
      w = s.memory.read (base + 96 + s.chip.cu.configRead.length) →
      ∀ l : List Word, l = s.chip.cu.configRead ++ [w] →
      ∃ t, exec .startConfigRead s = .next t ∧ t.memory = s.memory ∧
        (s.chip.cu.configRead.length < 16 →
          t.chip = { s.chip with
            cu := { s.chip.cu with configRead := l }, path := { s.chip.path with lastGranted := .commandUnit } }) ∧
        (s.chip.cu.configRead.length = 16 →
          ∀ screen story directory, screen = (l.getD 0 0).toNat * 65536 + (l.getD 1 0).toNat →
            story = (l.getD 2 0).toNat * 65536 + (l.getD 3 0).toNat →
            directory = (l.getD 4 0).toNat * 65536 + (l.getD 5 0).toNat →
            (basesValid base screen story directory = false →
              t.chip.cu.phase = .reporting ∧ t.chip.cu.result = .configBad ∧ t.chip.cu.resultWords = [] ∧
                t.chip.cu.waitSet = [] ∧ t.chip.cu.service = s.chip.cu.service ∧
                t.chip = { s.chip with
                  cu := t.chip.cu, path := { s.chip.path with lastGranted := .commandUnit } }) ∧
            (basesValid base screen story directory = true →
              t.chip.path = { s.chip.path with
                screenArea := some screen, storyArea := some story, directoryArea := some directory,
                refusalCount := 0, refusalRecord := none, refusalUncarried := false, lastGranted := .commandUnit } ∧
              t.chip.cu.service = .starting ∧ t.chip.cu.phase = .acting ∧
              (∀ e : LineNo, t.chip.lines[e] = { s.chip.lines[e] with
                speed := if (l.getD (6 + e.val) 0).toNat ≤ 3 then (l.getD (6 + e.val) 0).setWidth 2 else 2
                rowBudget := max 1 (min 4 (l.getD 14 0).toNat)
                answerWindow := max 8 (min 64 (l.getD 15 0).toNat) }) ∧
              t.chip.link = { s.chip.link with holdLimit := max 1 (min 255 (l.getD 16 0).toNat) } ∧
              (∀ i, t.chip.Awaits i ↔ i ≠ .attentionRaw) ∧
              (∀ i, i ≠ .attentionRaw → i ∈ t.chip.mirror.pending) ∧
              ∀ u : TerminalNo, u ∈ t.chip.noticeWriter.pending ∧
                ∀ i ∈ [KeyItem.putWord u, .takeWord u, .keyState u, .sessionWord u, .linkWord u],
                  i ∈ t.chip.keyWriter.pending))

/-- The mirror writer takes the head of its list, copies the item's values as they stand and writes the copy word by
word in word order (R33). When the last word is served, the entries of the item whose write-out began after the marking
leave the wait set, and no other does; an empty one ends the waiting, or START's clearing, which then waits for word 7
alone (R28 b, R32); a carried refusal raises REFUSAL (R15, R16), and the word 4 it marks is awaited only inside a command's
action, which no write-out is (the field `collecting` is the model's own, log 22). -/
def Obligations.MirrorWriterCopiesAndWrites : Prop :=
  (∀ (s : State) (i : MirrorItem) (rest : List MirrorItem), s.Released → s.chip.mirror.writing = none →
    s.chip.mirror.pending = i :: rest →
    ∃ t, exec .mirrorWriteOutBegin s = .next t ∧ t.memory = s.memory ∧
      t.chip.mirror.pending = rest ∧
      (∀ b, b = (decide (i = .refusal) && s.chip.path.refusalUncarried) → t.chip.mirror.writing =
        some { item := i, words := s.chip.itemWords i, offset := 0, carriesRefusal := b }) ∧
      t.chip.cu = { s.chip.cu with
        waitSet := s.chip.cu.waitSet.map fun e => { e with begun := e.begun || decide (e.item = i) } } ∧
      t.chip.path = { s.chip.path with
        refusalUncarried := s.chip.path.refusalUncarried && decide (i ≠ .refusal) }) ∧
    ∀ (s : State) (w : WriteOut) (x : Word) (rest : List Word) (a : Nat), s.Grants .mirrorWriter →
      s.chip.mirror.writing = some w → w.words = x :: rest → s.chip.path.itemWord w.item w.offset = some a →
      a < Config.memoryWords →
      ∃ t, exec .mirrorWordWrite s = .next t ∧ t.memory = s.memory.write a x ∧
        (rest ≠ [] → t.chip = { s.chip with
          mirror := { s.chip.mirror with writing := some { w with words := rest, offset := w.offset + 1 } }
          path := { s.chip.path with lastGranted := .mirrorWriter } }) ∧
        (rest = [] → t.chip.mirror.writing = none ∧
          (w.carriesRefusal = true → t.chip.cu.attentionRaw = s.chip.cu.attentionRaw ||| 8#8) ∧
          (w.carriesRefusal = false → t.chip.cu.attentionRaw = s.chip.cu.attentionRaw) ∧
          (∀ left, left = s.chip.cu.waitSet.filter (fun e => !(decide (e.item = w.item) && e.begun)) →
            (left = [] ∧ s.chip.cu.phase = .acting ∧ s.chip.cu.startStage = .clearing →
              t.chip.cu.waitSet = [{ item := .serviceState, begun := false }]) ∧
            (¬(left = [] ∧ s.chip.cu.phase = .acting ∧ s.chip.cu.startStage = .clearing) →
              (s.chip.cu.collecting = false ∨ w.carriesRefusal = false → t.chip.cu.waitSet = left) ∧
              ∀ e ∈ t.chip.cu.waitSet, e ∈ left ∨ e = { item := .attentionRaw, begun := false })) ∧
          ((∃ e ∈ s.chip.cu.waitSet, ¬(e.item = w.item ∧ e.begun = true)) → t.chip.cu.phase = s.chip.cu.phase ∧
            t.chip.cu.service = s.chip.cu.service ∧
            ∀ e ∈ s.chip.cu.waitSet, ¬(e.item = w.item ∧ e.begun = true) → e ∈ t.chip.cu.waitSet) ∧
          ((∀ e ∈ s.chip.cu.waitSet, e.item = w.item ∧ e.begun = true) →
            (s.chip.cu.phase = .waiting → t.chip.cu.phase = .reporting ∧ t.chip.cu.service = s.chip.cu.service) ∧
            (s.chip.cu.phase = .acting ∧ s.chip.cu.startStage = .clearing →
              t.chip.cu.phase = .waiting ∧ t.chip.cu.service = .running ∧ t.chip.cu.result = .ok ∧
                t.chip.Awaits .serviceState ∧ MirrorItem.serviceState ∈ t.chip.mirror.pending)))

/-- A command with its owning block ends OK or is refused with a result; a refused command changes no block, and the
command unit reports at once with an empty wait set (R26). A caller the owning rule does not admit is refused as R27
says, unless an argument is out of range (R26's order). -/
def Obligations.RefusedCommandsChangeNoBlock : Prop :=
  ∀ (i : Instr) (n : Nat) (s : State), commandNumber i = some n → s.Serves n →
    ((∃ t words, exec i s = .next t ∧ t.chip.Ended .ok words) ∨
      ∃ r words, r ≠ .ok ∧ exec i s = .next (s.refusedWith r words)) ∧
    ∀ a, admittedBy i = some a →
      (s.chip.cu.context = .none ∨ s.chip.cu.context = .system ∧ a.system = false ∨
          (∃ u, s.chip.cu.context = .terminal u ∧ a.terminal = none) ∨
          (∃ u x low, s.chip.cu.context = .terminal u ∧ a.terminal = some low ∧ s.chip.session u = some x ∧
            x.clearance.code < low.code) →
        exec i s = .next (s.refusedWith .badArgument []) ∨ exec i s = .next (s.refusedWith .noClearance [])) ∧
      ((∃ u low, s.chip.cu.context = .terminal u ∧ a.terminal = some low ∧ s.chip.session u = none) →
        exec i s = .next (s.refusedWith .badArgument []) ∨ exec i s = .next (s.refusedWith .notSignedOn []))

/-! ## Lines and terminals (chapter 3) -/

/-- TERMINAL ON enables an OFF terminal: SUSPECT, all rows dirty, its link word pending, and an IDLE engine begins a
sweep (R54); a terminal that is not OFF is refused WRONG_STATE. The terminal's other state stands. -/
def Obligations.TerminalOnEnables : Prop :=
  ∀ (s : State) (u : TerminalNo), s.Serves 2 → finArg 64 (s.chip.cu.arg 1) = some u →
    s.chip.cu.context = .system →
    (s.chip.links[u].state ≠ .off → exec .terminalOn s = .next (s.refusedWith .wrongState [])) ∧
    (s.chip.links[u].state = .off →
      ∃ t, exec .terminalOn s = .next t ∧ t.memory = s.memory ∧ t.chip.Ended .ok [] ∧
        t.chip.links[u] = { state := .suspect, misses := 0 } ∧
        (∀ w : TerminalNo, w ≠ u → t.chip.links[w] = s.chip.links[w]) ∧
        KeyItem.linkWord u ∈ t.chip.keyWriter.pending ∧ t.chip.screens[u].queue = s.chip.screens[u].queue ∧
        (∀ l : LineNo, l ≠ lineOf u → t.chip.lines[l] = s.chip.lines[l]) ∧
        (s.chip.lines[lineOf u].phase ≠ .idle → t.chip.lines = s.chip.lines ∧
          ∀ r : Fin 24, t.chip.screens[u].dirty[r] = true) ∧
        (s.chip.lines[lineOf u].phase = .idle → 1 ≤ s.chip.lines[lineOf u].rowBudget →
          (∀ w : TerminalNo, w ≠ u → lineOf w = lineOf u → s.chip.links[w].state = .off) →
          t.chip.VisitsFully (lineOf u) (addressOf u) ∧ t.chip.lines[lineOf u].phase = .reading ∧
            ∀ r : Fin 24, t.chip.screens[u].dirty[r] = decide (r ≠ 0)))

/-- TERMINAL OFF disables a terminal that is not OFF and cuts an exchange with it (R53, R55): a row in hand is given
back, and a message or an answer cut leaves the engine QUIETING, to test its line. An engine on another exchange goes on
with it; one that is QUIETING tests its line afterwards, unless a new sweep is to follow (the model's reading, log 21). One
cut while READING tests its line at once: it goes on with the next address, or is IDLE with no terminal enabled (R55 c).
LINE RESET cuts any exchange, makes every enabled terminal of the line SUSPECT with all rows dirty, and keeps the sweep
counter. It leaves an engine that sent, awaited or was QUIETING so, to sweep anew; one that was IDLE or READING sweeps anew
at once, taking the first row of the lowest enabled address, or is IDLE (R56). -/
def Obligations.TerminalOffAndLineReset : Prop :=
  ∀ s : State, s.chip.cu.context = .system →
    (∀ u : TerminalNo, s.Serves 3 → finArg 64 (s.chip.cu.arg 1) = some u →
      (s.chip.links[u].state = .off → exec .terminalOff s = .next (s.refusedWith .wrongState [])) ∧
      (s.chip.links[u].state ≠ .off →
        ∃ t, exec .terminalOff s = .next t ∧ t.memory = s.memory ∧ t.chip.Ended .ok [] ∧
          t.chip.links[u] = { state := .off, misses := 0 } ∧
          (∀ w : TerminalNo, w ≠ u → t.chip.links[w] = s.chip.links[w]) ∧
          KeyItem.linkWord u ∈ t.chip.keyWriter.pending ∧
          (∀ l : LineNo, l ≠ lineOf u → t.chip.lines[l] = s.chip.lines[l]) ∧
          (∀ w : TerminalNo, t.chip.screens[w].queue = s.chip.screens[w].queue) ∧
          (∀ v, s.chip.lines[lineOf u].visit = some v → v.terminal = u →
            (∀ r, v.rowInHand = some r → t.chip.screens[u].dirty[r] = true) ∧
            (s.chip.lines[lineOf u].phase ≠ .reading → t.chip.lines[lineOf u].phase = .quieting ∧
              t.chip.lines[lineOf u].visit = none ∧ t.chip.lines[lineOf u].afterQuiet = .testLine) ∧
            (s.chip.lines[lineOf u].phase = .reading → ∀ (l : LineNo) (c : Chip), l = lineOf u →
              c = { s.chip.giveRowBack v with links := t.chip.links } →
              ((∀ a : Fin 8, t.chip.links[terminalOf l a].state = .off) →
                t.chip.lines[l].phase = .idle ∧ t.chip.lines[l].position = 0 ∧ t.chip.lines[l].visit = none ∧
                  t.chip.lines[l].sweepCounter = s.chip.lines[l].sweepCounter) ∧
              ((∃ a : Fin 8, t.chip.links[terminalOf l a].state ≠ .off) → c.SweepGoesOn l t.chip))) ∧
          (s.chip.lines[lineOf u].phase = .quieting → s.chip.lines[lineOf u].visit = none →
            t.chip.lines[lineOf u] = { s.chip.lines[lineOf u] with
              afterQuiet := if s.chip.lines[lineOf u].afterQuiet = .newSweep then .newSweep else .testLine }) ∧
          ((∀ v, s.chip.lines[lineOf u].visit = some v → v.terminal ≠ u) →
            s.chip.lines[lineOf u].phase ≠ .quieting → t.chip.lines = s.chip.lines))) ∧
    ∀ l : LineNo, s.Serves 4 → finArg 8 (s.chip.cu.arg 1) = some l →
      ∃ t, exec .lineReset s = .next t ∧ t.memory = s.memory ∧ t.chip.Ended .ok [] ∧
        (∀ a : Fin 8, s.chip.links[terminalOf l a].state ≠ .off →
          t.chip.links[terminalOf l a] = { state := .suspect, misses := 0 } ∧
            KeyItem.linkWord (terminalOf l a) ∈ t.chip.keyWriter.pending) ∧
        (∀ a : Fin 8, s.chip.links[terminalOf l a].state = .off →
          t.chip.links[terminalOf l a] = s.chip.links[terminalOf l a]) ∧
        (∀ w : TerminalNo, lineOf w ≠ l → t.chip.links[w] = s.chip.links[w] ∧
          ((∀ v, s.chip.lines[l].visit = some v → v.terminal ≠ w) → t.chip.screens[w] = s.chip.screens[w])) ∧
        (∀ m : LineNo, m ≠ l → t.chip.lines[m] = s.chip.lines[m]) ∧
        (s.chip.lines[l].phase = .idle ∨ s.chip.lines[l].phase = .reading →
          t.chip.lines[l].sweepCounter = s.chip.lines[l].sweepCounter ∧
          ((∀ a : Fin 8, s.chip.links[terminalOf l a].state = .off) →
            t.chip.lines[l].phase = .idle ∧ t.chip.lines[l].position = 0) ∧
          ∀ a : Fin 8, s.chip.links[terminalOf l a].state ≠ .off →
            (∀ b : Fin 8, b < a → s.chip.links[terminalOf l b].state = .off) → 1 ≤ s.chip.lines[l].rowBudget →
            t.chip.lines[l].phase = .reading ∧ t.chip.lines[l].position = a ∧ t.chip.lines[l].rowWords = [] ∧
            t.chip.lines[l].visit =
              some { terminal := terminalOf l a, kind := .full, rowsSent := 0, rowInHand := some 0, awaited := .row } ∧
            ∀ b : Fin 8, s.chip.links[terminalOf l b].state ≠ .off →
              ∀ r : Fin 24, t.chip.screens[terminalOf l b].dirty[r] = !decide (b = a ∧ r = 0)) ∧
        (s.chip.lines[l].phase ≠ .idle → s.chip.lines[l].phase ≠ .reading →
          t.chip.lines[l].phase = .quieting ∧ t.chip.lines[l].visit = none ∧ t.chip.lines[l].afterQuiet = .newSweep ∧
            t.chip.lines[l].position = 0 ∧ t.chip.lines[l].sweepCounter = s.chip.lines[l].sweepCounter ∧
            ∀ a : Fin 8, s.chip.links[terminalOf l a].state ≠ .off →
              ∀ r : Fin 24, t.chip.screens[terminalOf l a].dirty[r] = true)

/-- The engine reads the 80 words of the row in hand in word order, one an own access, and with the eightieth sends the
ROW with those words (R47); the check byte of a message sent, it awaits the answer (R40). -/
def Obligations.RowsAreReadAndMessagesSent : Prop :=
  ∀ (s : State) (l : LineNo),
    (∀ (v : Visit) (r : Fin 24) (base a : Nat) (w : Word), s.Grants (.line l) → s.chip.lines[l].visit = some v →
      v.rowInHand = some r → s.chip.path.screenArea = some base →
      a = base + 2048 * v.terminal.val + 80 * r.val + s.chip.lines[l].rowWords.length → a < Config.memoryWords →
      w = s.memory.read a →
      ∃ t, exec (.rowWordRead l) s = .next t ∧ t.memory = s.memory ∧
        t.chip = { s.chip with lines := t.chip.lines, path := { s.chip.path with lastGranted := .line l } } ∧
        (∀ m : LineNo, m ≠ l → t.chip.lines[m] = s.chip.lines[m]) ∧
        (s.chip.lines[l].rowWords.length ≠ 79 →
          t.chip.lines[l] = { s.chip.lines[l] with rowWords := s.chip.lines[l].rowWords ++ [w] }) ∧
        (s.chip.lines[l].rowWords.length = 79 →
          t.chip.lines[l] = { s.chip.lines[l] with
            rowWords := [], phase := .sending, message := some (.row r (s.chip.lines[l].rowWords ++ [w])) })) ∧
    (s.Released → s.chip.lines[l].phase = .sending →
      ∃ t, exec (.messageSent l) s = .next t ∧ t.memory = s.memory ∧ t.chip = { s.chip with lines := t.chip.lines } ∧
        t.chip.lines[l] = { s.chip.lines[l] with phase := .awaiting, received := [] } ∧
        ∀ m : LineNo, m ≠ l → t.chip.lines[m] = s.chip.lines[m])

/-- The last byte of a good TAKEN or BUSY answer to a ROW counts the row as sent and makes the terminal UP (R48, R51):
after TAKEN the lowest dirty row is taken while budget remains, and otherwise a POLL is sent (R46); after BUSY the row is
given back and the POLL is sent. -/
def Obligations.RowAnswersAdvanceTheVisit : Prop :=
  ∀ (s : State) (l : LineNo) (v : Visit) (b : Byte), s.Released → s.chip.lines[l].phase = .awaiting →
    s.chip.lines[l].visit = some v → v.awaited = .row → s.chip.links[v.terminal].state ≠ .down →
    (s.chip.lines[l].received = [0x23, BitVec.ofNat 8 (v.terminal.val % 8)] →
      b = 0x23 + BitVec.ofNat 8 (v.terminal.val % 8) →
      ∃ t, exec (.takenAnswer l b) s = .next t ∧ t.chip.links[v.terminal] = { state := .up, misses := 0 } ∧
        (∀ w : TerminalNo, w ≠ v.terminal → t.chip.links[w] = s.chip.links[w]) ∧
        (∀ m : LineNo, m ≠ l → t.chip.lines[m] = s.chip.lines[m]) ∧ t.chip.keys = s.chip.keys ∧
        (∀ r, v.rowsSent + 1 < s.chip.lines[l].rowBudget → s.chip.screens[v.terminal].dirty[r] = true →
          (∀ q : Fin 24, q < r → s.chip.screens[v.terminal].dirty[q] = false) →
          t.chip.lines[l].phase = .reading ∧ t.chip.screens[v.terminal].dirty[r] = false ∧
            t.chip.lines[l].visit =
              some { v with rowsSent := v.rowsSent + 1, rowInHand := some r, awaited := .row }) ∧
        (s.chip.lines[l].rowBudget ≤ v.rowsSent + 1 ∨
            (∀ q : Fin 24, s.chip.screens[v.terminal].dirty[q] = false) →
          t.chip.lines[l].phase = .sending ∧ t.chip.lines[l].message = some .poll ∧
            t.chip.screens = s.chip.screens ∧
            t.chip.lines[l].visit = some { v with rowsSent := v.rowsSent + 1, rowInHand := none, awaited := .poll })) ∧
    (s.chip.lines[l].received = [0x24, BitVec.ofNat 8 (v.terminal.val % 8)] →
      b = 0x24 + BitVec.ofNat 8 (v.terminal.val % 8) →
      ∃ t, exec (.busyAnswer l b) s = .next t ∧ t.chip.links[v.terminal] = { state := .up, misses := 0 } ∧
        (∀ w : TerminalNo, w ≠ v.terminal → t.chip.links[w] = s.chip.links[w]) ∧
        (∀ m : LineNo, m ≠ l → t.chip.lines[m] = s.chip.lines[m]) ∧ t.chip.keys = s.chip.keys ∧
        t.chip.lines[l].phase = .sending ∧ t.chip.lines[l].message = some .poll ∧
        t.chip.lines[l].visit = some { v with rowsSent := v.rowsSent + 1, rowInHand := none, awaited := .poll } ∧
        ∀ r, v.rowInHand = some r → t.chip.screens[v.terminal].dirty[r] = true)

/-- The last byte of a good answer to a POLL makes the terminal UP and ends the visit, and the sweep goes on (R49, R51).
The codes of a KEYS answer are handed to key intake in order: each ACK key removes a notice (R69), the others are ringed
by R75's table, and the leases of the stories held there are re-armed (R77). The table: under the function-pending mark a
code is discarded, into a full ring it is discarded and sets the overrun flag, a text key joins the waiting keys, and a
function key joins them and takes the mark. The sweep decides the addresses left; after address 7 it ends, its counter
rises by 1 and the next begins, or the engine is IDLE with no terminal enabled; DOWN terminals are probed when the counter
is a multiple of 16 and passed otherwise (R45, R46, R50). -/
def Obligations.PollAnswersEndTheVisit : Prop :=
  (∀ (k : KeyRing) (b : Byte) (unread : Nat), b ≠ 0xF0 → unread = (k.put.val + 64 - k.take.val) % 64 →
    (k.functionPending.isSome = true → k.takeCode b = k) ∧
    (k.functionPending = none → 63 ≤ unread + k.waiting.length → k.takeCode b = { k with overrun := true }) ∧
    (k.functionPending = none → unread + k.waiting.length < 63 →
      (b.toNat < 128 → k.takeCode b = { k with waiting := k.waiting ++ [b] }) ∧
      (128 ≤ b.toNat → k.takeCode b = { k with
        waiting := k.waiting ++ [b], functionPending := some (Fin.ofNat 64 (k.put.val + k.waiting.length)) }))) ∧
  (∀ (c d : Chip) (l : LineNo) (counter : Word), counter = c.lines[l].sweepCounter → d = c.nextAddress l →
    c.SweepGoesOn l d ∧
    ((∀ a : Fin 8, c.links[terminalOf l a].state = .off) →
      d.lines[l] = { c.lines[l] with phase := .idle, position := 0, sweepCounter := counter + 1 } ∧
        d.links = c.links ∧ d.screens = c.screens)) ∧
  ∀ (s : State) (l : LineNo) (v : Visit) (b : Byte), s.Released → s.chip.lines[l].phase = .awaiting →
    s.chip.lines[l].visit = some v → v.awaited = .poll →
    (s.chip.lines[l].received = [0x22, BitVec.ofNat 8 (v.terminal.val % 8)] →
      b = 0x22 + BitVec.ofNat 8 (v.terminal.val % 8) →
      ∃ t, exec (.quietAnswer l b) s = .next t ∧ t.memory = s.memory ∧
        t.chip.links[v.terminal] = { state := .up, misses := 0 } ∧
        (∀ w : TerminalNo, w ≠ v.terminal → t.chip.links[w] = s.chip.links[w]) ∧
        (∀ m : LineNo, m ≠ l → t.chip.lines[m] = s.chip.lines[m]) ∧ t.chip.keys = s.chip.keys ∧
        t.chip.stories = s.chip.stories ∧
        ∀ a, t.chip.ComesTo l (s.chip.lines[l].position.val + 1) a → t.chip.VisitsFully l a) ∧
    ∀ codes : List Byte, 1 ≤ codes.length → codes.length ≤ 8 →
      s.chip.lines[l].received =
        [0x21, BitVec.ofNat 8 (v.terminal.val % 8), BitVec.ofNat 8 codes.length] ++ codes →
      b = s.chip.lines[l].received.foldl (· + ·) 0 →
      ∃ t, exec (.keysAnswer l b) s = .next t ∧ t.memory = s.memory ∧
        t.chip.links[v.terminal] = { state := .up, misses := 0 } ∧
        t.chip.keys[v.terminal] =
          (codes.filter (· ≠ 0xF0)).foldl (fun k c => k.takeCode c) s.chip.keys[v.terminal] ∧
        (∀ w : TerminalNo, w ≠ v.terminal → t.chip.keys[w] = s.chip.keys[w] ∧
          t.chip.screens[w].queue = s.chip.screens[w].queue) ∧
        t.chip.screens[v.terminal].queue = s.chip.screens[v.terminal].queue.drop (codes.count 0xF0) ∧
        (∀ n : StoryNo, t.chip.stories[n] = if n ∈ s.chip.custody.held[v.terminal] then
          { s.chip.stories[n] with lease := s.chip.stories[n].lease.map fun _ =>
            { remaining := s.chip.desks[s.chip.stories[n].desk].idleLimit, warned := false } }
          else s.chip.stories[n]) ∧
        (t.chip.keys[v.terminal].waiting.length ≠ s.chip.keys[v.terminal].waiting.length →
          s.chip.keyWriter.writing ≠ some (.keyWords v.terminal) →
          KeyItem.keyWords v.terminal ∈ t.chip.keyWriter.pending) ∧
        (t.chip.keys[v.terminal].overrun ≠ s.chip.keys[v.terminal].overrun ∨
            t.chip.keys[v.terminal].functionPending ≠ s.chip.keys[v.terminal].functionPending →
          KeyItem.keyState v.terminal ∈ t.chip.keyWriter.pending) ∧
        ∀ a, t.chip.ComesTo l (s.chip.lines[l].position.val + 1) a → t.chip.VisitsFully l a

/-- A bad kind byte or KEYS count is a miss at once, and so is a complete answer with a wrong check byte, a wrong address
or a kind that does not answer the message: the row in hand is given back, the visit ends, the miss is counted and the line
falls quiet (R41, R43, R44). Any other byte of an answer not yet complete is kept. The answer window's expiry is a miss
whose quiet wait has passed (R42). When the quiet window runs out, the sweep goes on with the next address after a miss;
after a cut the engine tests its line, or begins a new sweep, and is IDLE with no terminal enabled (R44, R55, R56). The rows
that name an answer act as any byte of the line does (the model's choice, log 6). The model does not count times (its
choice, log 15): a byte outside AWAITING changes nothing, also one that restarts the quiet window (R44), and the expiries
may come whenever the engine is in their phase. -/
def Obligations.MissesEndTheVisit : Prop :=
  ∀ (s : State) (l : LineNo), s.Released →
    (∀ b : Byte, exec (.takenAnswer l b) s = exec (.lineByteReceived l b) s ∧
      exec (.busyAnswer l b) s = exec (.lineByteReceived l b) s ∧
      exec (.keysAnswer l b) s = exec (.lineByteReceived l b) s ∧
      exec (.quietAnswer l b) s = exec (.lineByteReceived l b) s ∧
      exec (.answerBadKindOrCount l b) s = exec (.lineByteReceived l b) s) ∧
    (∀ (v : Visit) (b : Byte), s.chip.lines[l].phase = .awaiting → s.chip.lines[l].visit = some v →
      (s.chip.lines[l].received = [] ∧ b ≠ 0x21 ∧ b ≠ 0x22 ∧ b ≠ 0x23 ∧ b ≠ 0x24 ∨
        (∃ x, s.chip.lines[l].received = [0x21, x]) ∧ (b.toNat = 0 ∨ 8 < b.toNat) →
        ∃ t, exec (.answerBadKindOrCount l b) s = .next t ∧ t.memory = s.memory ∧ s.chip.MissEnds l v t.chip) ∧
      ∀ (k x : Byte) (rest : List Byte), s.chip.lines[l].received = k :: x :: rest →
        ((k = 0x22 ∨ k = 0x23 ∨ k = 0x24) ∧ rest = [] ∨
          k = 0x21 ∧ ∃ n codes, rest = n :: codes ∧ 1 ≤ n.toNat ∧ n.toNat ≤ 8 ∧ codes.length = n.toNat) →
        (b ≠ s.chip.lines[l].received.foldl (· + ·) 0 ∨ x ≠ BitVec.ofNat 8 (v.terminal.val % 8) ∨
          v.awaited = .row ∧ (k = 0x21 ∨ k = 0x22) ∨ v.awaited = .poll ∧ (k = 0x23 ∨ k = 0x24)) →
        ∃ t, exec (.lineByteReceived l b) s = .next t ∧ t.memory = s.memory ∧ s.chip.MissEnds l v t.chip) ∧
    (∀ b : Byte, s.chip.lines[l].phase = .awaiting →
      (s.chip.lines[l].received = [] ∧ (b = 0x21 ∨ b = 0x22 ∨ b = 0x23 ∨ b = 0x24) ∨
        (∃ k, s.chip.lines[l].received = [k] ∧ (k = 0x21 ∨ k = 0x22 ∨ k = 0x23 ∨ k = 0x24)) ∨
        ((∃ x, s.chip.lines[l].received = [0x21, x]) ∧ 1 ≤ b.toNat ∧ b.toNat ≤ 8) ∨
        (∃ x n codes, s.chip.lines[l].received = 0x21 :: x :: n :: codes ∧ 1 ≤ n.toNat ∧ n.toNat ≤ 8 ∧
          codes.length < n.toNat) →
        ∃ t, exec (.lineByteReceived l b) s = .next t ∧ t.memory = s.memory ∧
          t.chip = { s.chip with lines := t.chip.lines } ∧
          t.chip.lines[l] = { s.chip.lines[l] with received := s.chip.lines[l].received ++ [b] } ∧
          ∀ m : LineNo, m ≠ l → t.chip.lines[m] = s.chip.lines[m])) ∧
    (∀ b : Byte, s.chip.lines[l].phase ≠ .awaiting → exec (.lineByteReceived l b) s = .next s) ∧
    (∀ v : Visit, s.chip.lines[l].phase = .awaiting → s.chip.lines[l].visit = some v →
      ∃ t, exec (.answerWindowExpiry l) s = .next t ∧ t.memory = s.memory ∧
        t.chip.links[v.terminal] = s.chip.links[v.terminal].miss ∧
        (∀ w : TerminalNo, w ≠ v.terminal → t.chip.links[w] = s.chip.links[w]) ∧
        (∀ m : LineNo, m ≠ l → t.chip.lines[m] = s.chip.lines[m]) ∧ t.chip.keys = s.chip.keys ∧
        ∀ a, t.chip.ComesTo l (s.chip.lines[l].position.val + 1) a → t.chip.VisitsFully l a) ∧
    (s.chip.lines[l].phase = .quieting → s.chip.lines[l].afterQuiet = .nextAddress →
      ∃ t, exec (.quietWindowExpiry l) s = .next t ∧ t.memory = s.memory ∧ t.chip.links = s.chip.links ∧
        (∀ m : LineNo, m ≠ l → t.chip.lines[m] = s.chip.lines[m]) ∧
        ∀ a, t.chip.ComesTo l (s.chip.lines[l].position.val + 1) a → t.chip.VisitsFully l a) ∧
    ∀ first : Nat, s.chip.lines[l].phase = .quieting →
      (s.chip.lines[l].afterQuiet = .testLine ∧ first = s.chip.lines[l].position.val + 1 ∨
        s.chip.lines[l].afterQuiet = .newSweep ∧ first = 0) →
      ((∀ a : Fin 8, s.chip.links[terminalOf l a].state = .off) →
        ∃ t, exec (.quietWindowExpiry l) s = .next t ∧ t.memory = s.memory ∧
          t.chip = { s.chip with lines := t.chip.lines } ∧
          t.chip.lines[l] = { s.chip.lines[l] with position := 0, phase := .idle } ∧
          ∀ m : LineNo, m ≠ l → t.chip.lines[m] = s.chip.lines[m]) ∧
      ∀ a k, s.chip.SweepComesTo l first s.chip.lines[l].sweepCounter a k →
        ∃ t, exec (.quietWindowExpiry l) s = .next t ∧ t.memory = s.memory ∧ s.chip.VisitBegins l a k t.chip ∧
          t.chip.lines[l].sweepCounter = s.chip.lines[l].sweepCounter

/-- The table of R51: what a good answer and a miss make of link state and miss count. On entry to DOWN and on return from
it TERMINAL is raised; the entry posts TERM DOWN to the SLOT terminals of the session's desk, if there is a session, and
the return marks all 24 rows. -/
def Obligations.AnswersMoveLinkStates : Prop :=
  ∀ (c : Chip) (u : TerminalNo),
    (c.countGood u).links[u] = { state := .up, misses := 0 } ∧
    (∀ w : TerminalNo, w ≠ u → (c.countGood u).links[w] = c.links[w] ∧ (c.countMiss u).links[w] = c.links[w]) ∧
    (c.links[u].state = .up → (c.countMiss u).links[u] = { state := .suspect, misses := 1 }) ∧
    (c.links[u].state = .suspect → c.links[u].misses = 0 →
      (c.countMiss u).links[u] = { state := .suspect, misses := 1 }) ∧
    (c.links[u].state = .suspect → c.links[u].misses = 1 →
      (c.countMiss u).links[u] = { state := .suspect, misses := 2 }) ∧
    (c.links[u].state = .suspect → c.links[u].misses = 2 →
      (c.countMiss u).links[u] = { state := .down, misses := 3 } ∧
      (c.countMiss u).cu.attentionRaw = c.cu.attentionRaw ||| 0x20#8 ∧
      (c.session u = none → (c.countMiss u).screens = c.screens) ∧
      ∀ y, c.session u = some y → ∀ w : TerminalNo, (c.countMiss u).screens[w] =
        match c.session w with
        | some z => if z.desk = y.desk ∧ z.clearance = .slot then c.screens[w].enter
            { kind := .termDown, subject := u.val, second := none, count := 1 } else c.screens[w]
        | none => c.screens[w]) ∧
    (c.links[u] = { state := .down, misses := 3 } → c.countMiss u = c) ∧
    (c.links[u].state = .down → (c.countGood u).cu.attentionRaw = c.cu.attentionRaw ||| 0x20#8 ∧
      ∀ r : Fin 24, (c.countGood u).screens[u].dirty[r] = true) ∧
    (c.links[u].state ≠ .down → (c.countGood u).cu = c.cu ∧ (c.countGood u).screens = c.screens)

/-! ## Notices (chapter 4) -/

/-- ACK NOTICE: a terminal outside 0 to 63 ends BAD_ARGUMENT, a caller other than SYSTEM NO_CLEARANCE, an empty queue
WRONG_STATE, nothing changing; otherwise the head leaves the queue, the more mark clears and a notice-row write is
pending (R63), and the command ends OK, with no result word and nothing to wait for (R70). -/
def Obligations.AckNoticeRemovesTheHead : Prop :=
  ∀ s : State, s.Serves 7 →
    (64 ≤ (s.chip.cu.arg 1).toNat → exec .ackNotice s = .next (s.refusedWith .badArgument [])) ∧
    ∀ u : TerminalNo, (s.chip.cu.arg 1).toNat = u.val →
      (s.chip.cu.context ≠ .system → exec .ackNotice s = .next (s.refusedWith .noClearance [])) ∧
      (s.chip.cu.context = .system → s.chip.screens[u].queue = [] →
        exec .ackNotice s = .next (s.refusedWith .wrongState [])) ∧
      ∀ head rest, s.chip.cu.context = .system → s.chip.screens[u].queue = head :: rest →
        ∃ t, exec .ackNotice s = .next t ∧ t.memory = s.memory ∧
          t.chip.screens[u] = { s.chip.screens[u] with queue := rest, more := false } ∧
          (∀ w : TerminalNo, w ≠ u → t.chip.screens[w] = s.chip.screens[w]) ∧
          u ∈ t.chip.noticeWriter.pending ∧ t.chip.Ended .ok [] ∧ t.chip.cu.phase = .reporting ∧
          t.chip.mirror = s.chip.mirror

/-- POST NOTICE enters a MESSAGE notice into the queue of the terminal named, or of every terminal signed on to the desk
named, each by R62: it merges, joins the tail, or is discarded with the more mark set. Word 1 is the number of
recipients, and the command reports at once (R71). -/
def Obligations.PostNoticeReachesItsRecipients : Prop :=
  ∀ (s : State) (m : Nat) (gets : TerminalNo → Bool), s.Serves 8 → s.chip.cu.context = .system →
    (s.chip.cu.arg 1).toNat = m → m ≤ 999 →
    (s.chip.cu.arg 2 = 0 ∧ (∃ u : TerminalNo, (s.chip.cu.arg 3).toNat = u.val ∧ ∀ w, gets w = decide (w = u)) ∨
      s.chip.cu.arg 2 = 1 ∧ ∃ d : DeskNo, (s.chip.cu.arg 3).toNat = d.val ∧
        ∀ w, gets w = match s.chip.session w with | some x => decide (x.desk = d) | none => false) →
    ∃ t, exec .postNotice s = .next t ∧ t.memory = s.memory ∧
      t.chip.Ended .ok [BitVec.ofNat 16 ((List.finRange 64).filter gets).length] ∧ t.chip.cu.phase = .reporting ∧
      t.chip.mirror = s.chip.mirror ∧
      ∀ w : TerminalNo, (gets w = false → t.chip.screens[w] = s.chip.screens[w]) ∧
        (gets w = true →
          (∀ (i : Nat) (n : Notice), s.chip.screens[w].queue[i]? = some n → n.kind = .message ∧ n.subject = m →
            t.chip.screens[w].queue[i]? = some { n with count := if 99 ≤ n.count then 99 else n.count + 1 } ∧
              t.chip.screens[w].queue.length = s.chip.screens[w].queue.length ∧
              t.chip.screens[w].more = s.chip.screens[w].more) ∧
          ((∀ n ∈ s.chip.screens[w].queue, ¬(n.kind = .message ∧ n.subject = m)) →
            (s.chip.screens[w].queue.length < 4 →
              t.chip.screens[w] = { s.chip.screens[w] with queue := s.chip.screens[w].queue ++
                [{ kind := .message, subject := m, second := none, count := 1 }] }) ∧
            (4 ≤ s.chip.screens[w].queue.length → t.chip.screens[w] = { s.chip.screens[w] with more := true })))

/-- The notice writer takes the head of its list and composes 80 words, all spaces for an empty queue without the more
mark: the text of the head notice's kind from column 0, then a count of 2 or more, spaces to column 74, and +MORE in
columns 75 to 79 under the more mark (R66). Numbers stand in decimal without leading zeros; a desk's name stands without
its trailing spaces, eight spaces as DESK and two digits (R66). Character codes are ASCII (PRESUMED, log 14). It writes the
words into window offsets 1,840 onward in word order, and the end of the write marks row 23 dirty (R67). -/
def Obligations.NoticeRowsAreWritten : Prop :=
  (∀ n : Nat, decimal n ≠ [] ∧ (∀ d ∈ decimal n, 48 ≤ d.toNat ∧ d.toNat ≤ 57) ∧
    (decimal n).foldl (fun k d => 10 * k + (d.toNat - 48)) 0 = n ∧ ((decimal n).head? = some 48#8 → n = 0)) ∧
  (∀ (c : Chip) (d : DeskNo) (name : List Byte) (k : Nat),
    c.desks[d].name.toList = name ++ List.replicate k 0x20#8 → name.getLast? ≠ some 0x20#8 →
    c.deskName d = if name = [] then ascii "DESK " ++ [BitVec.ofNat 8 (48 + d.val / 10), BitVec.ofNat 8 (48 + d.val % 10)]
      else name) ∧
  (∀ (c : Chip) (n : Notice) (s v : List Byte), s = decimal n.subject → v = decimal (n.second.getD 0) →
    c.noticeText n = match n.kind with
      | .arrived => ascii "STORY " ++ s ++ ascii " ARRIVED AT " ++ c.deskName (Fin.ofNat 16 (n.second.getD 0))
      | .recalled => ascii "STORY " ++ s ++ ascii " RECALLED TO BASKET"
      | .idle => ascii "STORY " ++ s ++ ascii " IDLE"
      | .overset => ascii "STORY " ++ s ++ ascii " OVERSET " ++ v ++ ascii " LINES"
      | .killed => ascii "STORY " ++ s ++ ascii " KILLED"
      | .released => ascii "PAGE " ++ s ++ ascii " RELEASED"
      | .pageSet => ascii "PAGE " ++ s ++ ascii " SET"
      | .late => ascii "PAGE " ++ s ++ ascii " LATE"
      | .linkFault => ascii "LINK FAULT PAGE " ++ s
      | .termDown => ascii "TERMINAL " ++ s ++ ascii " DOWN"
      | .editionClosed => ascii "EDITION " ++ s ++ ascii " CLOSED"
      | .message => ascii "MESSAGE " ++ s) ∧
  (∀ (c : Chip) (u : TerminalNo) (text more : List Byte),
    text = (match c.screens[u].queue with
      | [] => []
      | n :: _ => c.noticeText n ++ if 2 ≤ n.count then ascii " x" ++ decimal n.count else []) →
    more = (if c.screens[u].more then ascii "+MORE" else List.replicate 5 0x20#8) →
    c.noticeRow u = ((text ++ List.replicate 75 0x20#8).take 75 ++ more).map fun b => 0#8 ++ b) ∧
  (∀ (c : Chip) (u : TerminalNo), (c.noticeRow u).length = 80 ∧
    (c.screens[u].queue = [] → c.screens[u].more = false → c.noticeRow u = List.replicate 80 0x0020#16)) ∧
  (∀ (s : State) (u : TerminalNo) (rest : List TerminalNo), s.Released → s.chip.noticeWriter.writing = none →
    s.chip.noticeWriter.pending = u :: rest →
    exec .noticeRowWriteBegin s = .next (s.withChip { s.chip with noticeWriter :=
      { pending := rest, writing := some { terminal := u, words := s.chip.noticeRow u, column := 0 } } })) ∧
  ∀ (s : State) (w : RowWrite) (x : Word) (rest : List Word) (base a : Nat), s.Grants .noticeWriter →
    s.chip.noticeWriter.writing = some w → w.words = x :: rest → s.chip.path.screenArea = some base →
    a = base + 2048 * w.terminal.val + 1840 + w.column → a < Config.memoryWords →
    ∃ t, exec .noticeRowWordWrite s = .next t ∧ t.memory = s.memory.write a x ∧
      t.chip = { s.chip with
        noticeWriter := t.chip.noticeWriter, screens := t.chip.screens
        path := { s.chip.path with lastGranted := .noticeWriter } } ∧
      t.chip.noticeWriter.pending = s.chip.noticeWriter.pending ∧
      (rest ≠ [] → t.chip.screens = s.chip.screens ∧
        t.chip.noticeWriter.writing = some { w with words := rest, column := w.column + 1 }) ∧
      (rest = [] → t.chip.noticeWriter.writing = none ∧
        (∀ r : Fin 24, t.chip.screens[w.terminal].dirty[r] =
          (s.chip.screens[w.terminal].dirty[r] || decide (r = 23))) ∧
        ∀ u : TerminalNo, t.chip.screens[u].queue = s.chip.screens[u].queue ∧
          (u ≠ w.terminal → t.chip.screens[u] = s.chip.screens[u]))

/-! ## Keys and sessions (chapter 5) -/

/-- SIGN ON gives a terminal without a session the desk and clearance named, makes its session word pending and touches
nothing else; with a session already there it ends WRONG_STATE (R84). SIGN OFF, by SYSTEM or by the terminal itself,
returns every story the terminal holds to its desk's basket, empties the notice queue, drops the function-pending mark
and the session, and keeps the ring (R85, R64); SYSTEM naming a terminal without a session is refused WRONG_STATE. -/
def Obligations.SessionsBeginAndEnd : Prop :=
  (∀ (s : State) (u : TerminalNo) (d : DeskNo) (x : Clearance), s.Serves 5 → s.chip.cu.context = .system →
      finArg 64 (s.chip.cu.arg 1) = some u → finArg 16 (s.chip.cu.arg 2) = some d →
      (s.chip.cu.arg 3).toNat = x.code →
      ((s.chip.session u).isSome = true → exec .signOn s = .next (s.refusedWith .wrongState [])) ∧
      (s.chip.session u = none →
        ∃ t, exec .signOn s = .next t ∧ t.memory = s.memory ∧
          t.chip.keys[u] = { s.chip.keys[u] with session := some { desk := d, clearance := x } } ∧
          (∀ w : TerminalNo, w ≠ u → t.chip.keys[w] = s.chip.keys[w]) ∧
          KeyItem.sessionWord u ∈ t.chip.keyWriter.pending ∧ t.chip.Ended .ok [] ∧ t.chip.cu.phase = .reporting ∧
          t.chip = { s.chip with keys := t.chip.keys, keyWriter := t.chip.keyWriter, cu := t.chip.cu })) ∧
  ∀ (s : State) (u : TerminalNo), s.Serves 6 → finArg 64 (s.chip.cu.arg 1) = some u →
    (s.chip.cu.context = .system → s.chip.session u = none →
      exec .signOff s = .next (s.refusedWith .wrongState [])) ∧
    ((s.chip.session u).isSome = true → s.chip.cu.context = .system ∨ s.chip.cu.context = .terminal u →
      (∀ n : StoryNo, n ∈ s.chip.custody.held[u] ↔
        s.chip.stories[n].state = .open_ ∧ s.chip.stories[n].holder = some u) →
      ∃ t, exec .signOff s = .next t ∧ t.memory = s.memory ∧ t.chip.Ended .ok [] ∧
        t.chip.keys[u] = { s.chip.keys[u] with functionPending := none, session := none } ∧
        (∀ w : TerminalNo, w ≠ u → t.chip.keys[w] = s.chip.keys[w] ∧ t.chip.screens[w] = s.chip.screens[w]) ∧
        t.chip.screens[u] = { s.chip.screens[u] with queue := [], more := false } ∧
        KeyItem.sessionWord u ∈ t.chip.keyWriter.pending ∧
        (s.chip.keys[u].functionPending.isSome = true → KeyItem.keyState u ∈ t.chip.keyWriter.pending) ∧
        ∀ n : StoryNo,
          (n ∈ s.chip.custody.held[u] →
            t.chip.stories[n] = { s.chip.stories[n] with state := .basket, holder := none, lease := none } ∧
              n ∈ t.chip.desks[s.chip.stories[n].desk].basket ∧ t.chip.Awaits (.story n) ∧
              t.chip.Awaits (.desk s.chip.stories[n].desk)) ∧
          (n ∉ s.chip.custody.held[u] → t.chip.stories[n] = s.chip.stories[n]))

/-- Key intake writes one item of its list at a time (R78): each waiting key into the ring at the put index, which
advances (R79); the put word, raising KEYS and FUNCTION by the marks it takes (R80); the other status words as they
stand. -/
def Obligations.KeyIntakeWritesItsItems : Prop :=
  (∀ (s : State) (i : KeyItem) (rest : List KeyItem), s.Released → s.chip.keyWriter.writing = none →
    s.chip.keyWriter.pending = i :: rest → (∀ u : TerminalNo, i = .keyWords u → s.chip.keys[u].waiting ≠ []) →
    exec .keyIntakeWriteBegin s =
      .next (s.withChip { s.chip with keyWriter := { pending := rest, writing := some i } })) ∧
  ∀ (s : State) (u : TerminalNo) (base a : Nat), s.Grants .keyIntake → s.chip.path.screenArea = some base →
    base + 131072 ≤ Config.memoryWords → a = base + 2048 * u.val →
    (∀ (b : Byte) (rest : List Byte), s.chip.keyWriter.writing = some (.keyWords u) →
      s.chip.keys[u].waiting = b :: rest → b ≠ 0xF0 →
      ∃ t, exec .keyWordWrite s = .next t ∧
        t.memory = s.memory.write (a + 1920 + s.chip.keys[u].put.val) (wordOfByte b) ∧
        t.chip.keys[u] = { s.chip.keys[u] with
          waiting := rest, put := s.chip.keys[u].put + 1
          textMark := s.chip.keys[u].textMark || decide (b.toNat < 128)
          functionMark := s.chip.keys[u].functionMark || decide (128 ≤ b.toNat) } ∧
        (∀ w : TerminalNo, w ≠ u → t.chip.keys[w] = s.chip.keys[w]) ∧
        KeyItem.putWord u ∈ t.chip.keyWriter.pending ∧
        t.chip.keyWriter.writing = if rest = [] then none else some (.keyWords u)) ∧
    (s.chip.keyWriter.writing = some (.putWord u) →
      ∃ t, exec .putWordWrite s = .next t ∧ t.memory = s.memory.write (a + 1984) (wordOf s.chip.keys[u].put.val) ∧
        t.chip.keys[u] = { s.chip.keys[u] with textMark := false, functionMark := false } ∧
        (∀ w : TerminalNo, w ≠ u → t.chip.keys[w] = s.chip.keys[w]) ∧
        t.chip.keyWriter = { s.chip.keyWriter with writing := none } ∧
        t.chip.cu.attentionRaw = s.chip.cu.attentionRaw |||
          ((if s.chip.keys[u].textMark then 2#8 else 0#8) ||| (if s.chip.keys[u].functionMark then 4#8 else 0#8))) ∧
    ∀ o x, (s.chip.keyWriter.writing = some (.takeWord u) ∧ o = 1985 ∧ x = wordOf s.chip.keys[u].take.val ∨
        s.chip.keyWriter.writing = some (.keyState u) ∧ o = 1986 ∧ x = s.chip.keys[u].stateWord ∨
        s.chip.keyWriter.writing = some (.sessionWord u) ∧ o = 1987 ∧ x = Session.word s.chip.keys[u].session ∨
        s.chip.keyWriter.writing = some (.linkWord u) ∧ o = 1988 ∧ x = s.chip.links[u].word) →
      ∃ t, exec .statusWordWrite s = .next t ∧ t.memory = s.memory.write (a + o) x ∧
        t.chip = { s.chip with
          keyWriter := { s.chip.keyWriter with writing := none }
          path := { s.chip.path with lastGranted := .keyIntake } }

/-! ## Custody (chapter 6) -/

/-- CREATE takes the lowest FREE story, INTAKE for SYSTEM and OPEN for a terminal signed on to the desk with fewer than
two stories held (R100, R97). ATTACH gives a free block to a story's list, and DETACH frees its last one (R101, R102). Each
stales the story (R133), as a RUNNING fit shows, and no other story changes outside the fit. -/
def Obligations.StoriesAreCreatedAndGivenBlocks : Prop :=
  (∀ (s : State) (d : DeskNo) (urgent : Bool) (n : StoryNo) (x : Story), s.Serves 9 →
    (s.chip.cu.arg 1).toNat = d.val → (s.chip.cu.arg 2).toNat = urgent.toNat → s.chip.stories[n].state = .free →
    (∀ m : StoryNo, m < n → s.chip.stories[m].state ≠ .free) →
    (s.chip.cu.context = .system ∧
        x = { s.chip.stories[n] with desk := d, urgent := urgent, stamp := s.chip.clock.count, state := .intake } ∨
      ∃ u, s.chip.CallsAs u d .edit ∧ s.chip.custody.held[u].length < 2 ∧
        x = { s.chip.stories[n] with
          desk := d, urgent := urgent, stamp := s.chip.clock.count, state := .open_, holder := some u
          lease := if s.chip.desks[d].idleLimit = 0 then none
            else some { remaining := s.chip.desks[d].idleLimit, warned := false } }) →
    ∃ t, exec .create s = .next t ∧ t.memory = s.memory ∧ t.chip.Ended .ok [BitVec.ofNat 16 n.val] ∧
      x.SameOutsideFit t.chip.stories[n] ∧
      (∀ m : StoryNo, m ≠ n → s.chip.stories[m].SameOutsideFit t.chip.stories[m]) ∧
      (s.chip.fit.run.isSome = true → t.chip.HasStaled n x s.chip.fit.queue ∧
        ∀ m : StoryNo, m ≠ n → t.chip.stories[m] = s.chip.stories[m]) ∧
      t.chip.custody.freeStories = s.chip.custody.freeStories - 1 ∧ t.chip.Awaits (.story n) ∧
      t.chip.Awaits .freeStories ∧ (∀ e : DeskNo, t.chip.desks[e].basket = s.chip.desks[e].basket) ∧
      (s.chip.cu.context = .system → t.chip.custody.held = s.chip.custody.held ∧ t.chip.desks = s.chip.desks) ∧
      ∀ u, s.chip.cu.context = .terminal u → t.chip.custody.held[u] = s.chip.custody.held[u] ++ [n] ∧
        t.chip.desks[d].openCount = s.chip.desks[d].openCount + 1 ∧ t.chip.Awaits (.desk d)) ∧
  ∀ (s : State) (n : StoryNo), finArg 1024 (s.chip.cu.arg 1) = some n →
    (s.chip.stories[n].state = .intake ∧ s.chip.cu.context = .system ∨
      s.chip.stories[n].state = .open_ ∧ s.chip.CallsAsHolder n) →
    (∀ b : BlockNo, s.Serves 10 → (s.chip.cu.arg 2).toNat = b.val →
      (s.chip.custody.owners[b].isSome = true → exec .attach s = .next (s.refusedWith .blockTaken [])) ∧
      (s.chip.custody.owners[b] = none → 48 ≤ s.chip.stories[n].blocks.length →
        exec .attach s = .next (s.refusedWith .listFull [])) ∧
      (s.chip.custody.owners[b] = none → s.chip.stories[n].blocks.length < 48 → ∀ x : Story,
        x = { s.chip.stories[n] with blocks := s.chip.stories[n].blocks ++ [b] } →
        ∃ t, exec .attach s = .next t ∧ t.memory = s.memory ∧ t.chip.Ended .ok [] ∧
          t.chip.custody.owners[b] = some n ∧
          (∀ k : BlockNo, k ≠ b → t.chip.custody.owners[k] = s.chip.custody.owners[k]) ∧
          t.chip.custody.freeBlocks = s.chip.custody.freeBlocks - 1 ∧ x.SameOutsideFit t.chip.stories[n] ∧
          (∀ m : StoryNo, m ≠ n → s.chip.stories[m].SameOutsideFit t.chip.stories[m]) ∧
          (s.chip.fit.run.isSome = true → t.chip.HasStaled n x s.chip.fit.queue) ∧ t.chip.Awaits (.story n) ∧
          t.chip.Awaits .freeBlocks)) ∧
    (s.Serves 11 →
      (s.chip.stories[n].blocks = [] → exec .detach s = .next (s.refusedWith .wrongState [])) ∧
      ∀ (l : List BlockNo) (b : BlockNo) (x : Story), s.chip.stories[n].blocks = l ++ [b] →
        x = { s.chip.stories[n] with blocks := l } →
        ∃ t, exec .detach s = .next t ∧ t.memory = s.memory ∧ t.chip.Ended .ok [BitVec.ofNat 16 b.val] ∧
          t.chip.custody.owners[b] = none ∧
          (∀ k : BlockNo, k ≠ b → t.chip.custody.owners[k] = s.chip.custody.owners[k]) ∧
          t.chip.custody.freeBlocks = s.chip.custody.freeBlocks + 1 ∧ x.SameOutsideFit t.chip.stories[n] ∧
          (∀ m : StoryNo, m ≠ n → s.chip.stories[m].SameOutsideFit t.chip.stories[m]) ∧
          (s.chip.fit.run.isSome = true → t.chip.HasStaled n x s.chip.fit.queue) ∧ t.chip.Awaits (.story n) ∧
          t.chip.Awaits .freeBlocks)

/-- SUBMIT and SEND place a story at the tail of its class in the target basket, unless the other stories there number
the limit or more (R92, R103, R105); RETURN places it at the head of its class in its own (R93, R106); OPEN takes it from its
basket to the calling terminal (R94, R96, R97, R104). No other story's record changes. Stories stand in baskets as the
basket law says (R91). -/
def Obligations.StoriesMoveBetweenBasketsAndHolders : Prop :=
  ∀ (s : State) (n : StoryNo) (x : Story), finArg 1024 (s.chip.cu.arg 1) = some n → x = s.chip.stories[n] →
    (∀ e : DeskNo, n ∈ s.chip.desks[e].basket → x.state = .basket ∧ x.desk = e) →
    (∀ d : DeskNo, s.Serves 12 → (s.chip.cu.arg 2).toNat = d.val → x.state = .intake → s.chip.cu.context = .system →
      (s.chip.desks[d].basketLimit ≤ s.chip.desks[d].basket.length →
        exec .submit s = .next (s.refusedWith .basketFull [])) ∧
      ∀ front back, s.chip.desks[d].basket.length < s.chip.desks[d].basketLimit →
        s.chip.desks[d].basket = front ++ back → (∀ m ∈ front, s.chip.stories[m].urgent = true) →
        (∀ m ∈ back, s.chip.stories[m].urgent = false) →
        ∃ t, exec .submit s = .next t ∧ t.memory = s.memory ∧ t.chip.Ended .ok [] ∧
          t.chip.stories[n] = { x with desk := d, state := .basket } ∧
          (∀ m : StoryNo, m ≠ n → t.chip.stories[m] = s.chip.stories[m]) ∧
          t.chip.desks[d] = { s.chip.desks[d] with
            basket := if x.urgent then front ++ n :: back else front ++ back ++ [n] } ∧
          (∀ e : DeskNo, e ≠ d → t.chip.desks[e] = s.chip.desks[e]) ∧ t.chip.Awaits (.story n) ∧
          t.chip.Awaits (.desk d)) ∧
    (∀ (d : DeskNo) (urgent : Bool), s.Serves 14 → (s.chip.cu.arg 2).toNat = d.val →
      (s.chip.cu.arg 3).toNat = urgent.toNat →
      (x.state = .open_ ∧ s.chip.CallsAsHolder n ∨
        x.state = .basket ∧ (s.chip.cu.context = .system ∨ ∃ u, s.chip.CallsAs u x.desk .slot)) →
      ∀ others, others = s.chip.desks[d].basket.filter (· ≠ n) →
      (s.chip.desks[d].basketLimit ≤ others.length → exec .send s = .next (s.refusedWith .basketFull [])) ∧
      ∀ front back, others.length < s.chip.desks[d].basketLimit → others = front ++ back →
        (∀ m ∈ front, s.chip.stories[m].urgent = true) → (∀ m ∈ back, s.chip.stories[m].urgent = false) →
        ∃ t, exec .send s = .next t ∧ t.memory = s.memory ∧ t.chip.Ended .ok [] ∧
          (x.state = .open_ → t.chip.stories[n] = { x with
            desk := d, urgent := urgent, state := .basket, holder := none, lease := none
            version := if x.version = 255 then 255 else x.version + 1 }) ∧
          (x.state = .basket → t.chip.stories[n] = { x with
            desk := d, urgent := urgent, version := if x.version = 255 then 255 else x.version + 1 }) ∧
          (∀ m : StoryNo, m ≠ n → t.chip.stories[m] = s.chip.stories[m]) ∧
          t.chip.desks[d].basket = (if urgent then front ++ n :: back else front ++ back ++ [n]) ∧
          (∀ e : DeskNo, e ≠ d → t.chip.desks[e].basket = s.chip.desks[e].basket.filter (· ≠ n)) ∧
          (x.state = .open_ → ∀ u, x.holder = some u →
            t.chip.custody.held[u] = s.chip.custody.held[u].filter (· ≠ n) ∧
              t.chip.desks[x.desk].openCount = s.chip.desks[x.desk].openCount - 1) ∧
          (∀ w : TerminalNo, t.chip.screens[w] =
            match s.chip.session w with
            | some y => if y.desk = d then s.chip.screens[w].enter
                { kind := .arrived, subject := n.val, second := some d.val, count := 1 } else s.chip.screens[w]
            | none => s.chip.screens[w]) ∧
          t.chip.Awaits (.story n) ∧ t.chip.Awaits (.desk d)) ∧
    (∀ u : TerminalNo, s.Serves 13 → x.state = .basket → s.chip.CallsAs u x.desk .edit →
      (2 ≤ s.chip.custody.held[u].length → exec .openStory s = .next (s.refusedWith .listFull [])) ∧
      (s.chip.custody.held[u].length < 2 →
        ∃ t, exec .openStory s = .next t ∧ t.memory = s.memory ∧ t.chip.Ended .ok [] ∧
          t.chip.stories[n] = { x with
            state := .open_, holder := some u
            lease := if s.chip.desks[x.desk].idleLimit = 0 then none
              else some { remaining := s.chip.desks[x.desk].idleLimit, warned := false } } ∧
          (∀ m : StoryNo, m ≠ n → t.chip.stories[m] = s.chip.stories[m]) ∧
          t.chip.custody.held[u] = s.chip.custody.held[u] ++ [n] ∧
          t.chip.desks[x.desk] = { s.chip.desks[x.desk] with
            basket := s.chip.desks[x.desk].basket.filter (· ≠ n)
            openCount := s.chip.desks[x.desk].openCount + 1 } ∧
          (∀ e : DeskNo, e ≠ x.desk → t.chip.desks[e] = s.chip.desks[e]) ∧ t.chip.Awaits (.story n) ∧
          t.chip.Awaits (.desk x.desk))) ∧
    ∀ (u : TerminalNo) (front back : List StoryNo), s.Serves 15 → x.state = .open_ → x.holder = some u →
      s.chip.cu.context = .system ∨ s.chip.CallsAsHolder n → s.chip.desks[x.desk].basket = front ++ back →
      (∀ m ∈ front, s.chip.stories[m].urgent = true) → (∀ m ∈ back, s.chip.stories[m].urgent = false) →
      ∃ t, exec .returnStory s = .next t ∧ t.memory = s.memory ∧ t.chip.Ended .ok [] ∧
        t.chip.stories[n] = { x with state := .basket, holder := none, lease := none } ∧
        (∀ m : StoryNo, m ≠ n → t.chip.stories[m] = s.chip.stories[m]) ∧
        t.chip.custody.held[u] = s.chip.custody.held[u].filter (· ≠ n) ∧
        t.chip.desks[x.desk] = { s.chip.desks[x.desk] with
          basket := if x.urgent then n :: (front ++ back) else front ++ n :: back
          openCount := s.chip.desks[x.desk].openCount - 1 } ∧
        (∀ e : DeskNo, e ≠ x.desk → t.chip.desks[e] = s.chip.desks[e]) ∧ t.chip.screens = s.chip.screens ∧
        t.chip.Awaits (.story n) ∧ t.chip.Awaits (.desk x.desk)

/-- KILL frees the story and every block of its list, and takes it from its holder, basket, page and the fit (R107); the
word a run of it had requested stays at the port (R149; in what order, log 27). SET
STYLE replaces the style and stales the story (R108); REFIT stales it, and refuses a FREE one WRONG_STATE (R135). -/
def Obligations.StoriesAreKilledStyledAndRefitted : Prop :=
  ∀ (s : State) (n : StoryNo) (x : Story), finArg 1024 (s.chip.cu.arg 1) = some n → x = s.chip.stories[n] →
    (s.Serves 16 → x.state = .intake ∨ x.state = .basket ∨ x.state = .open_ →
      s.chip.cu.context = .system ∨ (∃ u, s.chip.CallsAs u x.desk .slot) →
      ∃ t, exec .kill s = .next t ∧ t.memory = s.memory ∧ t.chip.Ended .ok [] ∧ t.chip.stories[n] = Story.free ∧
        (∀ m : StoryNo, m ≠ n → s.chip.stories[m].SameOutsideFit t.chip.stories[m]) ∧
        t.chip.custody.freeStories = s.chip.custody.freeStories + 1 ∧
        t.chip.custody.freeBlocks = s.chip.custody.freeBlocks + x.blocks.length ∧
        (∀ b : BlockNo, t.chip.custody.owners[b] = if b ∈ x.blocks then none else s.chip.custody.owners[b]) ∧
        t.chip.custody.reports = s.chip.custody.reports.filter (· ≠ n) ∧
        (x.fit = .stale → s.chip.fit.run.isSome = true →
          t.chip.fit.queue = s.chip.fit.queue.filter (· ≠ n) ∧ t.chip.Awaits .fitCount) ∧
        (x.fit = .running → s.chip.fit.queue = [] → t.chip.fit.run = none) ∧
        (x.fit = .running → ∀ (k : FitRun) (b : BlockNo), s.chip.fit.run = some k → k.blocks[k.index / 128]? = some b →
          t.chip.fit.abandoned = s.chip.fit.abandoned ++ [{ block := b, word := Fin.ofNat 128 k.index }]) ∧
        (x.fit ≠ .running → t.chip.fit.abandoned = s.chip.fit.abandoned) ∧
        (∀ p : PageNo, t.chip.pages[p] = if x.page = some p then
          { s.chip.pages[p] with placements := s.chip.pages[p].placements.filter (·.story ≠ n) }
          else s.chip.pages[p]) ∧
        (∀ u : TerminalNo, x.state = .open_ → x.holder = some u →
          t.chip.custody.held[u] = s.chip.custody.held[u].filter (· ≠ n) ∧
            t.chip.desks[x.desk].openCount = s.chip.desks[x.desk].openCount - 1 ∧
            (x.fit ≠ .running → t.chip.screens[u] = s.chip.screens[u].enter
              { kind := .killed, subject := n.val, second := none, count := 1 })) ∧
        (x.state = .basket → t.chip.desks[x.desk] = { s.chip.desks[x.desk] with
          basket := s.chip.desks[x.desk].basket.filter (· ≠ n) }) ∧
        t.chip.Awaits (.story n) ∧ t.chip.Awaits .freeStories ∧ (x.blocks ≠ [] → t.chip.Awaits .freeBlocks)) ∧
    (∀ (f : Fin 8) (size leading measure : Nat) (track : Int) (y : Story), s.Serves 17 →
      (s.chip.cu.arg 2).toNat = f.val → (s.chip.cu.arg 3).toNat = size → 10 ≤ size → size ≤ 144 →
      (s.chip.cu.arg 4).toNat = leading → leading ≤ 4095 → (s.chip.cu.arg 5).toNat = measure → 6 ≤ measure →
      measure ≤ 300 → -8 ≤ track → track ≤ 7 → s.chip.cu.arg 6 = BitVec.ofInt 16 track →
      x.state = .intake ∨ x.state = .basket ∨ x.state = .open_ →
      s.chip.cu.context = .system ∨ s.chip.CallsAsHolder n ∨ (∃ u, s.chip.CallsAs u x.desk .slot) →
      y = { x with style := { font := f, size := size, leading := leading, measure := measure, track := track } } →
      ∃ t, exec .setStyle s = .next t ∧ t.memory = s.memory ∧ t.chip.Ended .ok [] ∧
        y.SameOutsideFit t.chip.stories[n] ∧
        (∀ m : StoryNo, m ≠ n → s.chip.stories[m].SameOutsideFit t.chip.stories[m]) ∧
        (s.chip.fit.run.isSome = true → t.chip.HasStaled n y s.chip.fit.queue ∧
          ∀ m : StoryNo, m ≠ n → t.chip.stories[m] = s.chip.stories[m])) ∧
    (s.Serves 18 →
      (x.state = .free → exec .refit s = .next (s.refusedWith .wrongState [])) ∧
      (x.state ≠ .free →
        ∃ t, exec .refit s = .next t ∧ t.memory = s.memory ∧ t.chip.Ended .ok [] ∧
          (∀ m : StoryNo, s.chip.stories[m].SameOutsideFit t.chip.stories[m]) ∧
          (s.chip.fit.run.isSome = true → t.chip.HasStaled n x s.chip.fit.queue ∧
            (∀ m : StoryNo, m ≠ n → t.chip.stories[m] = s.chip.stories[m]) ∧
            (x.fit ≠ .current → t.chip.cu.phase = .reporting))))

/-! ## The night clock, editions and leases (chapter 7) -/

/-- CLOCK RUN and CLOCK PAUSE, from any context, change the run state or end WRONG_STATE when it is already so; word 1 is
the count in every outcome, nothing else changes and both report at once. A PAUSED clock takes no effect from a pulse
(R116, R115). -/
def Obligations.ClockRunsAndPauses : Prop :=
  ∀ s : State,
    (s.Serves 19 →
      (s.chip.clock.running = true → exec .clockRun s = .next (s.refusedWith .wrongState [s.chip.clock.count])) ∧
      (s.chip.clock.running = false →
        ∃ t, exec .clockRun s = .next t ∧ t.memory = s.memory ∧ t.chip.Ended .ok [s.chip.clock.count] ∧
          t.chip.cu.phase = .reporting ∧
          t.chip = { s.chip with cu := t.chip.cu, clock := { s.chip.clock with running := true } })) ∧
    (s.Serves 20 →
      (s.chip.clock.running = false → exec .clockPause s = .next (s.refusedWith .wrongState [s.chip.clock.count])) ∧
      (s.chip.clock.running = true →
        ∃ t, exec .clockPause s = .next t ∧ t.memory = s.memory ∧ t.chip.Ended .ok [s.chip.clock.count] ∧
          t.chip.cu.phase = .reporting ∧
          t.chip = { s.chip with cu := t.chip.cu, clock := { s.chip.clock with running := false } })) ∧
    (s.chip.clock.running = false → exec .pulse s = .next s)

/-- SET CLOCK loads the count and recomputes the current edition by R118, firing nothing (R117); SET EDITIONS replaces the
schedule by the strictly rising close times before the first 0, recomputes the current edition and answers it in word 1;
a first word of 0 ends BAD_ARGUMENT (R119). -/
def Obligations.ClockAndEditionsAreSet : Prop :=
  ∀ s : State, s.chip.cu.context = .system →
    (s.Serves 21 →
      ∃ t, exec .setClock s = .next t ∧ t.memory = s.memory ∧ t.chip.Ended .ok [] ∧
        t.chip.clock = { s.chip.clock with count := s.chip.cu.arg 1, current := t.chip.clock.current } ∧
        t.chip.clock.CurrentIsRight ∧ t.chip.cu.waitSet.map (·.item) = [.clockCount, .currentEdition] ∧
        t.chip.pages = s.chip.pages ∧ t.chip.stories = s.chip.stories ∧ t.chip.screens = s.chip.screens) ∧
    (s.Serves 22 →
      (s.chip.cu.arg 1 = 0 → exec .setEditions s = .next (s.refusedWith .badArgument [])) ∧
      ∀ l : List Word, l ≠ [] → l.length ≤ 6 → (∀ v ∈ l, v ≠ 0) → l.Pairwise (· < ·) →
        [1, 2, 3, 4, 5, 6].map s.chip.cu.arg = l ++ List.replicate (6 - l.length) 0 →
        ∃ t, exec .setEditions s = .next t ∧ t.memory = s.memory ∧
          t.chip.Ended .ok [BitVec.ofNat 16 t.chip.clock.current] ∧
          t.chip.clock = { s.chip.clock with closes := l.map some, current := t.chip.clock.current } ∧
          t.chip.clock.CurrentIsRight ∧ t.chip.cu.waitSet.map (·.item) = [.currentEdition] ∧
          t.chip.pages = s.chip.pages ∧ t.chip.stories = s.chip.stories ∧ t.chip.screens = s.chip.screens)

/-- A running pulse raises the count, closes the edition whose close time it is (R120), makes late the MAKEUP and QUEUED
pages whose close time it is, with LATE to the SLOT terminals of the page's desk (R159), and counts every lease down: an
expiry warns, warns again under NOTIFY, each with IDLE to the holder, or recalls under RECALL, with RECALLED to the former
holder (R121 to R124). A notice posted stands in its queue, or the queue was full and shows the more mark (R62); a pulse to
a paused clock, or one held at 65,535, has no effect (R115). EDITION_CLOSE, PAGE_LATE and the two lease expiries are that
whole pulse, and do nothing unless it would bring them about (the model's reading, log 7). The premise is that leases stand
on OPEN stories (R97). -/
def Obligations.PulsesCloseEditionsAndCountLeases : Prop :=
  ∀ s : State, s.Released → (∀ n : StoryNo, s.chip.stories[n].lease.isSome = true → s.chip.stories[n].state = .open_) →
    (s.chip.clock.running = false ∨ s.chip.clock.count = 65535 → ∀ i : Instr,
      i = .pulse ∨ i = .editionClose ∨ i = .pageLate ∨ i = .leaseFirstExpiry ∨ i = .leaseSecondExpiry →
      exec i s = .next s) ∧
    (s.chip.clock.running = true → s.chip.clock.count ≠ 65535 → ∀ count : Word, count = s.chip.clock.count + 1 →
      ∃ t, exec .pulse s = .next t ∧ t.memory = s.memory ∧ t.chip.clock.count = count ∧
        t.chip.clock.running = true ∧ t.chip.clock.closes = s.chip.clock.closes ∧
        MirrorItem.clockCount ∈ t.chip.mirror.pending ∧
        (∀ e : Nat, s.chip.clock.closes[e]? = some (some count) →
          (∀ j, j < e → s.chip.clock.closes[j]? ≠ some (some count)) →
          t.chip.clock.current =
              (if e + 1 < s.chip.clock.closes.length then e + 2 else s.chip.clock.current) ∧
            t.chip.cu.attentionRaw &&& 0x40#8 ≠ 0#8 ∧ exec .editionClose s = .next t ∧
            ∀ (w : TerminalNo) (y : Session), s.chip.session w = some y → y.clearance = .slot →
              t.chip.screens[w].Holds .editionClosed (e + 1)) ∧
        (some count ∉ s.chip.clock.closes → t.chip.clock.current = s.chip.clock.current ∧
          exec .editionClose s = .next s) ∧
        (∀ p : PageNo,
          ((s.chip.pages[p].close = some count ∧ s.chip.pages[p].late = false ∧
              (s.chip.pages[p].state = .makeup ∨ s.chip.pages[p].state = .queued)) →
            t.chip.pages[p] = { s.chip.pages[p] with late := true } ∧ t.chip.cu.attentionRaw &&& 0x40#8 ≠ 0#8 ∧
              MirrorItem.page p ∈ t.chip.mirror.pending ∧ exec .pageLate s = .next t ∧
              ∀ (w : TerminalNo) (y : Session), s.chip.session w = some y → y.desk = s.chip.pages[p].desk →
                y.clearance = .slot → t.chip.screens[w].Holds .late p.number) ∧
          (¬(s.chip.pages[p].close = some count ∧ s.chip.pages[p].late = false ∧
              (s.chip.pages[p].state = .makeup ∨ s.chip.pages[p].state = .queued)) →
            t.chip.pages[p] = s.chip.pages[p])) ∧
        ((∀ p : PageNo, s.chip.pages[p].close = some count → s.chip.pages[p].late = false →
          s.chip.pages[p].state ≠ .makeup ∧ s.chip.pages[p].state ≠ .queued) → exec .pageLate s = .next s) ∧
        ((∀ n k, s.chip.stories[(n : StoryNo)].lease = some k → k.remaining ≤ 1 → k.warned = true) →
          exec .leaseFirstExpiry s = .next s) ∧
        ((∀ n k, s.chip.stories[(n : StoryNo)].lease = some k → k.remaining ≤ 1 → k.warned = false) →
          exec .leaseSecondExpiry s = .next s) ∧
        ∀ (n : StoryNo) (limit : Nat), limit = s.chip.desks[s.chip.stories[n].desk].idleLimit →
          (s.chip.stories[n].lease = none → t.chip.stories[n] = s.chip.stories[n]) ∧
          ∀ k, s.chip.stories[n].lease = some k →
            (2 ≤ k.remaining → t.chip.stories[n] = { s.chip.stories[n] with
              lease := some { k with remaining := k.remaining - 1 } }) ∧
            (k.remaining ≤ 1 →
              (k.warned = false → exec .leaseFirstExpiry s = .next t) ∧
              (k.warned = true → exec .leaseSecondExpiry s = .next t) ∧
              (k.warned = false ∨ s.chip.desks[s.chip.stories[n].desk].idleAction = .notify →
                t.chip.stories[n] = { s.chip.stories[n] with
                  lease := if limit = 0 then none else some { remaining := limit, warned := true } } ∧
                ∀ u : TerminalNo, s.chip.stories[n].holder = some u → t.chip.screens[u].Holds .idle n.val) ∧
              (k.warned = true ∧ s.chip.desks[s.chip.stories[n].desk].idleAction = .recall →
                t.chip.stories[n] =
                    { s.chip.stories[n] with state := .basket, holder := none, lease := none } ∧
                  n ∈ t.chip.desks[s.chip.stories[n].desk].basket ∧
                  MirrorItem.story n ∈ t.chip.mirror.pending ∧
                  ∀ u : TerminalNo, s.chip.stories[n].holder = some u → t.chip.screens[u].Holds .recalled n.val)))

/-! ## Copyfitting (chapter 8) -/

/-- The run reads its next word where its copy of the block list says and processes it in the same event (R128, R137). While
words remain the run goes on; its end, with the re-run mark clear, records the result, raises FIT for a placed story, posts
OVERSET with the lines to the holder of an OPEN story with overset lines and, with nothing queued, leaves the engine IDLE
(R146, R148 b). While the service state is RUNNING the idle engine takes the head of its queue in the event that gives it
one: the end of a run, or a staling, as by REFIT; it sets the run up from the
story's style, hole and block list (R136; at the end of that event, log 12), and a run whose font is absent or whose copy is
empty ends at once (R145, R146). A word a killed run had requested is served before any other and not processed (R149; its
order is the model's reading, log 27). -/
def Obligations.FitWordsAreReadAndProcessed : Prop :=
  (∀ (c : Chip) (n : StoryNo) (rest : List StoryNo), c.cu.service = .running → c.fit.run = none →
    c.fit.queue = n :: rest →
    (c.Readable n → c.RunBegins n rest c.fitTake) ∧
    ∀ status : FitStatus,
      (c.fit.mask.getLsbD c.stories[n].style.font.val = false ∧ status = .noFont ∨
        c.fit.mask.getLsbD c.stories[n].style.font.val = true ∧ c.stories[n].blocks = [] ∧ status = .unterminated) →
      rest = [] →
      c.fitTake.fit = { c.fit with queue := [] } ∧
        c.fitTake.stories[n] = { c.stories[n] with
          fit := .current, rerun := false, result := some (.unmeasured status)
          fontsUsed := fontBit c.stories[n].style.font } ∧
        ∀ m : StoryNo, m ≠ n → c.fitTake.stories[m] = c.stories[m]) ∧
  (∀ (s : State) (n : StoryNo), s.Serves 18 → finArg 1024 (s.chip.cu.arg 1) = some n → s.chip.cu.service = .running →
    s.chip.fit.run = none → s.chip.fit.queue = [] → s.chip.stories[n].state ≠ .free →
    s.chip.stories[n].fit = .current → s.chip.Readable n →
    ∃ t, exec .refit s = .next t ∧ t.memory = s.memory ∧ s.chip.RunBegins n [] t.chip) ∧
  (∀ (s : State) (p : CopyPlace) (rest : List CopyPlace) (base a : Nat), s.Grants .fitEngine →
    s.chip.fit.abandoned = p :: rest → s.chip.path.storyArea = some base →
    a = base + 128 * p.block.val + p.word.val → a < Config.memoryWords →
    ∃ t, exec .fitWordRead s = .next t ∧ t.memory = s.memory ∧
      t.chip = { s.chip with
        fit := { s.chip.fit with abandoned := rest }
        path := { s.chip.path with lastGranted := .fitEngine } }) ∧
  ∀ (s : State) (r q : FitRun) (stop : Option FitStop) (b : BlockNo) (base a : Nat), s.Grants .fitEngine →
    s.chip.fit.abandoned = [] →
    s.chip.fit.run = some r → r.blocks[r.index / 128]? = some b → s.chip.path.storyArea = some base →
    a = base + 128 * b.val + r.index % 128 → a < Config.memoryWords →
    s.chip.fit.process (s.memory.read a) r = (q, stop) →
    ∃ t, exec .fitWordRead s = .next t ∧ t.memory = s.memory ∧
      (∀ m : StoryNo, s.chip.stories[m].SameOutsideFit t.chip.stories[m]) ∧
      (stop = none → r.index + 1 < 128 * r.blocks.length →
        t.chip = { s.chip with
          fit := { s.chip.fit with run := some { q with index := r.index + 1 } }
          path := { s.chip.path with lastGranted := .fitEngine } }) ∧
      ∀ why : FitStop, stop = some why ∨ stop = none ∧ r.index + 1 = 128 * r.blocks.length ∧ why = .exhausted →
        q.story = r.story → s.chip.stories[r.story].rerun = false →
        (s.chip.fit.queue = [] ∨ (∃ n rest, s.chip.fit.queue = n :: rest ∧ n ≠ r.story ∧ s.chip.Readable n) →
          s.chip.OversetPosts r.story (q.finish why).overset t.chip ∧
            (s.chip.stories[r.story].page.isSome = true → t.chip.cu.attentionRaw &&& 0x80#8 ≠ 0#8)) ∧
        (s.chip.fit.queue = [] →
          t.chip.fit.run = none ∧
            t.chip.stories[r.story] = { s.chip.stories[r.story] with
              fit := .current, result := some ((q.finish why).result why), fontsUsed := (q.finish why).fonts } ∧
            (∀ m : StoryNo, m ≠ r.story → t.chip.stories[m] = s.chip.stories[m]) ∧
            MirrorItem.story r.story ∈ t.chip.mirror.pending) ∧
        ∀ (n : StoryNo) (rest : List StoryNo), s.chip.fit.queue = n :: rest → n ≠ r.story →
          s.chip.cu.service = .running → s.chip.Readable n →
          t.chip.stories[r.story] = { s.chip.stories[r.story] with
            fit := .current, result := some ((q.finish why).result why), fontsUsed := (q.finish why).fonts } ∧
          t.chip.fit.queue = rest ∧ t.chip.stories[n] = { s.chip.stories[n] with fit := .running, rerun := false } ∧
          ∃ k, t.chip.fit.run = some k ∧ k.story = n ∧ k.index = 0 ∧ k.blocks = s.chip.stories[n].blocks ∧
            k.hole = s.chip.stories[n].hole ∧ k.font = s.chip.stories[n].style.font

/-- The arithmetic of a run: the advance of a character and the leading of a line (R138); what ending a line does, but for
what the rule ending it sets (R139); a character adds its advance, a space also records a break (R140), a fixed space adds
its width (R143), and each is followed by the fit loop, whose one pass breaks at the break in hand, or before or after the
word (R141), until the width is within the measure, as it is after every word; a hyphen that fits records a break and
changes no width, and one that does not is ignored (R142); the end of a paragraph and the style words (R144); a font, absent
or not (R145); the end of the text and the final line (R146); the status of a run (R147); and a run that ends under the
re-run mark leaves the recorded result and joins the queue again (R148 a). -/
def Obligations.FitArithmeticFollowsTheRules : Prop :=
  (∀ (a index : Nat) (r : FitRun),
    (∀ b, r.break_ = some b → r.breakOnce a index = { r.endLine with
      width := r.width - b.leftBehind, lineStart := b.start, content := decide (0 < r.width - b.leftBehind) }) ∧
    (r.break_ = none → 0 < r.width - a → r.breakOnce a index = { r.endLine with
      width := a, lineStart := index, forced := min 255 (r.forced + 1), content := decide (0 < a) }) ∧
    (r.break_ = none → r.width - a = 0 → r.breakOnce a index = { r.endLine with
      width := 0, lineStart := index + 1, forced := min 255 (r.forced + 1), content := false }) ∧
    (r.width ≤ r.measure8 → FitRun.loop a index fitPasses r = r) ∧
    (r.measure8 < r.width →
      FitRun.loop a index fitPasses r = FitRun.loop a index fitPasses (r.breakOnce a index)) ∧
    (FitRun.loop a index fitPasses r).width ≤ r.measure8) ∧
  (∀ (e : FitEngine) (r : FitRun) (w : Word) (n : Nat), n = (w.extractLsb' 0 12).toNat →
    (r.width ≤ r.measure8 → (e.process w r).1.width ≤ (e.process w r).1.measure8) ∧
    (∀ (code : Byte) (a : Nat), w.extractLsb' 15 1 = 0#1 → code = w.extractLsb' 0 8 → a = e.advance r code →
      (code ≠ 0x20#8 → e.process w r =
        (FitRun.loop a r.index fitPasses { r with width := r.width + a, content := true }, none)) ∧
      (code = 0x20#8 → e.process w r = (FitRun.loop a r.index fitPasses { r with
        width := r.width + a, content := true
        break_ := some { endWidth := r.width, leftBehind := r.width + a, start := r.index + 1 } }, none))) ∧
    (w.extractLsb' 12 4 = 8#4 → e.process w r = (r, some .endOfText)) ∧
    (w.extractLsb' 12 4 = 9#4 →
      (8 ≤ n → e.process w r = (r, some .noFont)) ∧
      ∀ f : Fin 8, f.val = n →
        (e.mask.getLsbD n = true → e.process w r = ({ r with font := f, fonts := r.fonts ||| fontBit f }, none)) ∧
        (e.mask.getLsbD n = false → e.process w r = ({ r with fonts := r.fonts ||| fontBit f }, some .noFont))) ∧
    (w.extractLsb' 12 4 = 10#4 → e.process w r = ({ r with size := max 10 (min 144 n) }, none)) ∧
    (w.extractLsb' 12 4 = 11#4 → e.process w r = ({ r with leading := n }, none)) ∧
    (w.extractLsb' 12 4 = 12#4 → e.process w r = ({ r.endLine with lineStart := r.index + 1 }, none)) ∧
    (w.extractLsb' 12 4 = 13#4 → e.process w r =
      (FitRun.loop 0 r.index fitPasses { r with measure8 := 128 * max 6 (min 300 n) }, none)) ∧
    (w.extractLsb' 12 4 = 14#4 → e.process w r =
      (FitRun.loop (min 255 n * r.size) r.index fitPasses
        { r with width := r.width + min 255 n * r.size, content := true }, none)) ∧
    (w.extractLsb' 12 4 = 15#4 → e.process w r = (e.hyphen r, none))) ∧
  (∀ r : FitRun, r.finish .noFont = r ∧
    ∀ why : FitStop, why = .endOfText ∨ why = .exhausted →
      (r.content = true → r.finish why = r.endLine) ∧ (r.content = false → r.finish why = r)) ∧
  (∀ (e : FitEngine) (r : FitRun) (code : Byte),
    (e.advance r code : Int) = max 0 (((e.widths[r.font][code.toFin]).toNat : Int) + r.track) * r.size) ∧
  (∀ r : FitRun, r.lineDepth = if r.leading = 0 then 8 * r.size else r.leading) ∧
  (∀ (r q : FitRun), r.lines ≤ 65535 → r.overset ≤ 63 → q = r.endLine →
    q.lines = min 65535 (r.lines + 1) ∧ q.depth = min 65535 (r.depth + r.lineDepth) ∧
    (q.deep = true ↔ r.deep = true ∨ 65535 < r.depth + r.lineDepth) ∧
    (0 < r.hole ∧ r.hole < q.depth → q.overset = min 63 (r.overset + 1) ∧
      q.cut = some (r.cut.getD r.lineStart)) ∧
    (r.hole = 0 ∨ q.depth ≤ r.hole → q.overset = r.overset ∧ q.cut = r.cut) ∧
    q.width = 0 ∧ q.content = false ∧ q.break_ = none ∧ q.forced = r.forced ∧ q.fonts = r.fonts) ∧
  (∀ (e : FitEngine) (r : FitRun),
    (r.width + e.advance r 0x2D ≤ r.measure8 → e.hyphen r = { r with
      break_ := some { endWidth := r.width + e.advance r 0x2D, leftBehind := r.width, start := r.index + 1 } }) ∧
    (r.measure8 < r.width + e.advance r 0x2D → e.hyphen r = r)) ∧
  (∀ r : FitRun,
    r.status .noFont = .noFont ∧ r.status .exhausted = .unterminated ∧
    (0 < r.overset → r.status .endOfText = .overset) ∧
    (r.overset = 0 → 0 < r.hole →
      r.status .endOfText = .fits ∧ (r.result .endOfText).spaceLeft = some (r.hole - r.depth)) ∧
    (r.overset = 0 → r.hole = 0 → r.status .endOfText = .unplaced)) ∧
  ∀ (c d : Chip) (why : FitStop) (r : FitRun), c.stories[r.story].rerun = true → d = c.endRun why r →
    d.stories[r.story] = { c.stories[r.story] with fit := .stale, rerun := false } ∧ r.story ∈ d.fit.queue ∧
      d.fit.run = none ∧ d.screens = c.screens ∧ d.cu.attentionRaw = c.cu.attentionRaw ∧
      MirrorItem.story r.story ∈ d.mirror.pending ∧ MirrorItem.fitCount ∈ d.mirror.pending

/-! ## Pages (chapter 9) -/

/-- PAGE OPEN brings an EMPTY page into makeup with its desk and close time (R154); SET CLOSE replaces the close time and
clears the late flag (R155); PAGE CLEAR empties a page without placements (R158). PLACE appends a story with its hole, and
UNPLACE removes it (R156, R157). Both stale the story in its new class, as a RUNNING fit shows: it stands at the tail of the
class, also one that was STALE already, which leaves its old place, word 12 not marked for the move (R133, R134). The fit
queue stands in its two classes (R132). No other page changes. -/
def Obligations.PagesAreMadeUp : Prop :=
  ∀ (s : State) (p : PageNo) (x : Page), (s.chip.cu.arg 1).toNat = p.number → x = s.chip.pages[p] →
    (∀ d : DeskNo, s.Serves 23 → (s.chip.cu.arg 2).toNat = d.val → s.chip.CallsForPages d →
      (x.state ≠ .empty → exec .pageOpen s = .next (s.refusedWith .wrongState [])) ∧
      (x.state = .empty →
        ∃ t, exec .pageOpen s = .next t ∧ t.memory = s.memory ∧ t.chip.Ended .ok [] ∧
          t.chip.pages[p] = { x with
            state := .makeup, desk := d, late := false
            close := if s.chip.cu.arg 3 = 65535 then none else some (s.chip.cu.arg 3) } ∧
          (∀ q : PageNo, q ≠ p → t.chip.pages[q] = s.chip.pages[q]) ∧
          t.chip.cu.waitSet.map (·.item) = [.page p])) ∧
    (s.chip.CallsForPages x.desk →
      (s.Serves 24 →
        (x.state = .makeup ∨ x.state = .queued →
          ∃ t, exec .setClose s = .next t ∧ t.memory = s.memory ∧ t.chip.Ended .ok [] ∧
            t.chip.pages[p] = { x with
              late := false, close := if s.chip.cu.arg 2 = 65535 then none else some (s.chip.cu.arg 2) } ∧
            (∀ q : PageNo, q ≠ p → t.chip.pages[q] = s.chip.pages[q]) ∧
            t.chip.cu.waitSet.map (·.item) = [.page p])) ∧
      (x.state = .makeup →
        (s.Serves 27 →
          (x.placements ≠ [] → exec .pageClear s = .next (s.refusedWith .wrongState [])) ∧
          (x.placements = [] →
            ∃ t, exec .pageClear s = .next t ∧ t.memory = s.memory ∧ t.chip.Ended .ok [] ∧
              t.chip.pages[p] = Page.empty ∧ (∀ q : PageNo, q ≠ p → t.chip.pages[q] = s.chip.pages[q]) ∧
              t.chip.cu.waitSet.map (·.item) = [.page p])) ∧
        (∀ (n : StoryNo) (hole : Nat) (y : Story), s.Serves 25 → (s.chip.cu.arg 2).toNat = n.val →
          (s.chip.cu.arg 3).toNat = hole → 16 ≤ hole → hole ≤ 32767 → s.chip.stories[n].state ≠ .free →
          s.chip.stories[n].state ≠ .set →
          (s.chip.stories[n].page.isSome = true → exec .place s = .next (s.refusedWith .alreadyPlaced [])) ∧
          (s.chip.stories[n].page = none → 16 ≤ x.placements.length →
            exec .place s = .next (s.refusedWith .pageFull [])) ∧
          (s.chip.stories[n].page = none → x.placements.length < 16 →
            y = { s.chip.stories[n] with page := some p, hole := hole } →
            ∃ t, exec .place s = .next t ∧ t.memory = s.memory ∧
              t.chip.Ended .ok [BitVec.ofNat 16 (x.placements.length + 1)] ∧
              t.chip.pages[p] = { x with placements := x.placements ++ [{ story := n, hole := hole }] } ∧
              (∀ q : PageNo, q ≠ p → t.chip.pages[q] = s.chip.pages[q]) ∧ y.SameOutsideFit t.chip.stories[n] ∧
              (∀ m : StoryNo, m ≠ n → s.chip.stories[m].SameOutsideFit t.chip.stories[m]) ∧
              (s.chip.fit.run.isSome = true → t.chip.stories[n] = y.staled ∧
                (y.fit = .running → t.chip.fit.queue = s.chip.fit.queue) ∧
                (y.fit ≠ .running → n ∈ t.chip.fit.queue ∧ ∀ front back,
                  (if y.fit = .stale then s.chip.fit.queue.filter (· ≠ n) else s.chip.fit.queue) = front ++ back →
                  n ∉ front ++ back → (∀ m ∈ front, s.chip.stories[m].page.isSome = true) →
                  (∀ m ∈ back, s.chip.stories[m].page = none) → t.chip.fit.queue = front ++ n :: back) ∧
                (y.fit = .current ↔ t.chip.Awaits .fitCount)) ∧
              t.chip.Awaits (.page p) ∧ t.chip.Awaits (.story n))) ∧
        ∀ (n : StoryNo) (y : Story), s.Serves 26 → (s.chip.cu.arg 2).toNat = n.val →
          ((∀ e ∈ x.placements, e.story ≠ n) → exec .unplace s = .next (s.refusedWith .wrongState [])) ∧
          ((∃ e ∈ x.placements, e.story = n) → s.chip.stories[n].state ≠ .free →
            y = { s.chip.stories[n] with page := none, hole := 0 } →
            ∃ t, exec .unplace s = .next t ∧ t.memory = s.memory ∧
              t.chip.Ended .ok [BitVec.ofNat 16 (x.placements.filter (·.story ≠ n)).length] ∧
              t.chip.pages[p] = { x with placements := x.placements.filter (·.story ≠ n) } ∧
              (∀ q : PageNo, q ≠ p → t.chip.pages[q] = s.chip.pages[q]) ∧ y.SameOutsideFit t.chip.stories[n] ∧
              (∀ m : StoryNo, m ≠ n → s.chip.stories[m].SameOutsideFit t.chip.stories[m]) ∧
              (s.chip.fit.run.isSome = true → t.chip.stories[n] = y.staled ∧
                (y.fit = .running → t.chip.fit.queue = s.chip.fit.queue) ∧
                (y.fit ≠ .running → n ∈ t.chip.fit.queue ∧ ∀ front back,
                  (if y.fit = .stale then s.chip.fit.queue.filter (· ≠ n) else s.chip.fit.queue) = front ++ back →
                  n ∉ front ++ back → (∀ m ∈ front, s.chip.stories[m].page.isSome = true) →
                  (∀ m ∈ back, s.chip.stories[m].page = none) → t.chip.fit.queue = front ++ back ++ [n]) ∧
                (y.fit = .current ↔ t.chip.Awaits .fitCount)) ∧
              t.chip.Awaits (.page p) ∧ t.chip.Awaits (.story n))))

/-- RELEASE refuses an empty page, a full output queue, an OPEN story, a fit not CURRENT and a status not accepted, in that
order, naming the story (R160); otherwise it freezes the placed stories, stamps the page and queues it at the tail of its
class (R161, R163). REPLATE takes a page back to MAKEUP and its stories to their baskets (R166). -/
def Obligations.PagesAreReleasedAndReplated : Prop :=
  ∀ (s : State) (p : PageNo) (x : Page), (s.chip.cu.arg 1).toNat = p.number → x = s.chip.pages[p] →
    s.chip.CallsForPages x.desk →
    (∀ (force : Bool) (count : Nat), s.Serves 28 → (s.chip.cu.arg 2).toNat = force.toNat → x.state = .makeup →
      count = s.chip.outputQueue.length + (if ∃ q : PageNo, s.chip.pages[q].state = .setting then 1 else 0) →
      (x.placements = [] → exec .release s = .next (s.refusedWith .emptyPage [])) ∧
      (x.placements ≠ [] → 16 ≤ count → exec .release s = .next (s.refusedWith .queueFull [])) ∧
      (x.placements ≠ [] → count < 16 →
        (∀ before e rest, x.placements = before ++ e :: rest → s.chip.stories[e.story].state = .open_ →
          (∀ d ∈ before, s.chip.stories[d.story].state ≠ .open_) →
          exec .release s = .next (s.refusedWith .storyOpen [BitVec.ofNat 16 e.story.val])) ∧
        ((∀ e ∈ x.placements, s.chip.stories[e.story].state ≠ .open_) →
          (∀ before e rest, x.placements = before ++ e :: rest → s.chip.stories[e.story].fit ≠ .current →
            (∀ d ∈ before, s.chip.stories[d.story].fit = .current) →
            exec .release s = .next (s.refusedWith .notFit [BitVec.ofNat 16 e.story.val])) ∧
          ((∀ e ∈ x.placements, s.chip.stories[e.story].fit = .current) →
            (∀ before e rest, x.placements = before ++ e :: rest →
              s.chip.stories[e.story].fitsFor force = false →
              (∀ d ∈ before, s.chip.stories[d.story].fitsFor force = true) →
              exec .release s = .next (s.refusedWith .notFit [BitVec.ofNat 16 e.story.val])) ∧
            ∀ front back, (∀ e ∈ x.placements, s.chip.stories[e.story].fitsFor force = true) →
              s.chip.outputQueue = front ++ back → p ∉ s.chip.outputQueue →
              (∀ q ∈ front, 1 < s.chip.pages[q].plates.toNat) → (∀ q ∈ back, s.chip.pages[q].plates.toNat ≤ 1) →
              ∃ t, exec .release s = .next t ∧ t.memory = s.memory ∧
                t.chip.pages[p] = { x with
                  state := .queued, stamp := some s.chip.clock.count, edition := some s.chip.clock.current
                  plates := if x.plates = 255 then 255 else x.plates + 1 } ∧
                (∀ q : PageNo, q ≠ p → t.chip.pages[q] = s.chip.pages[q]) ∧
                t.chip.Ended .ok [t.chip.pages[p].plates.setWidth 16, BitVec.ofNat 16 s.chip.clock.current] ∧
                t.chip.outputQueue =
                  (if x.plates = 0 then front ++ back ++ [p] else front ++ p :: back) ∧
                (∀ n : StoryNo,
                  ((∃ e ∈ x.placements, e.story = n) →
                    t.chip.stories[n] = { s.chip.stories[n] with state := .set } ∧ t.chip.Awaits (.story n)) ∧
                  (¬(∃ e ∈ x.placements, e.story = n) → t.chip.stories[n] = s.chip.stories[n])) ∧
                (∀ w : TerminalNo, t.chip.screens[w] =
                  match s.chip.session w with
                  | some y => if y.desk = x.desk then s.chip.screens[w].enter
                      { kind := .released, subject := p.number, second := none, count := 1 }
                    else s.chip.screens[w]
                  | none => s.chip.screens[w]) ∧
                t.chip.Awaits (.page p) ∧ t.chip.Awaits .outputCount)))) ∧
    (s.Serves 29 → x.state = .queued ∨ x.state = .setting ∨ x.state = .set →
      (∀ e ∈ x.placements, s.chip.stories[e.story].state = .set) →
      ∃ t, exec .replate s = .next t ∧ t.memory = s.memory ∧ t.chip.Ended .ok [x.plates.setWidth 16] ∧
        t.chip.pages[p] = { x with state := .makeup } ∧
        (∀ q : PageNo, q ≠ p → t.chip.pages[q] = s.chip.pages[q]) ∧
        (x.state = .queued → t.chip.outputQueue = s.chip.outputQueue.filter (· ≠ p) ∧
          t.chip.link = s.chip.link ∧ t.chip.Awaits .outputCount) ∧
        (x.state = .setting → s.chip.link.page = some p → t.chip.outputQueue = s.chip.outputQueue ∧
          t.chip.link.page = none ∧ t.chip.link.abandoning = some p ∧ t.chip.link.position = none) ∧
        (x.state = .set → t.chip.outputQueue = s.chip.outputQueue ∧ t.chip.link = s.chip.link) ∧
        (∀ n : StoryNo,
          ((∃ e ∈ x.placements, e.story = n) →
            t.chip.stories[n] = { s.chip.stories[n] with state := .basket } ∧
              n ∈ t.chip.desks[s.chip.stories[n].desk].basket ∧ t.chip.Awaits (.story n)) ∧
          (¬(∃ e ∈ x.placements, e.story = n) → t.chip.stories[n] = s.chip.stories[n])) ∧
        t.chip.screens = s.chip.screens ∧ t.chip.Awaits (.page p))

/-! ## The setting link (chapter 10) -/

/-- The IDLE link with the off mark clear takes the head of the output queue, which becomes SETTING, and sends its PAGE OPEN
(R163, R171, R174). A TEXT frame is read word by word, to its 64th word, END OF TEXT, or the last word of the last block
(R172, R173 a); the check word sent, the link awaits the answer (R173 b). -/
def Obligations.FramesOfAPageAreSent : Prop :=
  ∀ s : State,
    (s.Released →
      (s.chip.outputQueue = [] ∨ s.chip.link.state ≠ .idle ∨ s.chip.link.offMark = true →
        exec .pageTake s = .next s) ∧
      ∀ p rest, s.chip.outputQueue = p :: rest → s.chip.link.state = .idle → s.chip.link.offMark = false →
        ∃ t, exec .pageTake s = .next t ∧ t.memory = s.memory ∧ t.chip.outputQueue = rest ∧
          t.chip.pages[p] = { s.chip.pages[p] with state := .setting } ∧
          (∀ q : PageNo, q ≠ p → t.chip.pages[q] = s.chip.pages[q]) ∧
          t.chip.link = { s.chip.link with
            state := .sending, stage := some .transmitting, page := some p, wordsSent := 0, tries := 0, holds := 0
            position := some (if s.chip.pages[p].placements = [] then .pageClose else .storyOpen 0)
            frame := some { kind := .pageOpen, payload :=
              [BitVec.ofNat 16 p.number, BitVec.ofNat 16 (s.chip.pages[p].edition.getD 0),
                s.chip.pages[p].plates.setWidth 16, if s.chip.pages[p].late then 1 else 0,
                BitVec.ofNat 16 s.chip.pages[p].placements.length] } } ∧
          MirrorItem.page p ∈ t.chip.mirror.pending ∧ MirrorItem.outputCount ∈ t.chip.mirror.pending ∧
          MirrorItem.linkState ∈ t.chip.mirror.pending) ∧
    (∀ (p : PageNo) (i j : Nat) (f : Frame) (b : BlockNo) (base a : Nat) (w : Word), s.Grants .linkEngine →
      s.chip.link.state = .sending → s.chip.link.stage = some .reading → s.chip.link.page = some p →
      s.chip.link.position = some (.text i j) → s.chip.link.frame = some f →
      s.chip.link.blocks[j / 128]? = some b → s.chip.path.storyArea = some base →
      a = base + 128 * b.val + j % 128 → a < Config.memoryWords → w = s.memory.read a →
      ∃ t, exec .textWordRead s = .next t ∧ t.memory = s.memory ∧
        t.chip = { s.chip with link := t.chip.link, path := { s.chip.path with lastGranted := .linkEngine } } ∧
        t.chip.link.frame = some { f with payload := f.payload ++ [w] } ∧
        (w.extractLsb' 12 4 = 8#4 ∨ j + 1 = 128 * s.chip.link.blocks.length →
          t.chip.link.stage = some .transmitting ∧ t.chip.link.position = some
            (if i + 1 < s.chip.pages[p].placements.length then .storyOpen (i + 1) else .pageClose)) ∧
        (¬(w.extractLsb' 12 4 = 8#4 ∨ j + 1 = 128 * s.chip.link.blocks.length) →
          t.chip.link.position = some (.text i (j + 1)) ∧
            t.chip.link.stage = some (if f.payload.length = 63 then .transmitting else .reading))) ∧
    (s.Released → s.chip.link.state = .sending → s.chip.link.stage = some .transmitting →
      exec .frameSent s = .next (s.withChip { s.chip with
        link := { s.chip.link with stage := some .awaiting, answerWait := 0 } }))

/-- An ACCEPT in AWAITING clears the try and hold counts and sends the next frame of the page's order (R172, R175): STORY
OPEN, TEXT, or PAGE CLOSE with the words sent. That of PAGE CLOSE completes the page (R165, R178), that of ABANDON ends the
abandon (R184), and that of a frame of a withdrawn page sends ABANDON (R183). In any other stage it is discarded. -/
def Obligations.AcceptsSendTheNextFrame : Prop :=
  ∀ s : State, s.Released →
    (¬(s.chip.link.state = .sending ∧ s.chip.link.stage = some .awaiting) → exec .accept s = .next s) ∧
    ∀ f : Frame, s.chip.link.state = .sending → s.chip.link.stage = some .awaiting → s.chip.link.frame = some f →
      (∀ p : PageNo, s.chip.link.page = some p → s.chip.link.abandoning = none →
        f.kind = .pageOpen ∨ f.kind = .storyOpen ∨ f.kind = .text → ∀ sent : Nat,
        sent = s.chip.link.wordsSent + (if f.kind = .text then f.payload.length else 0) →
        ∃ t, exec .accept s = .next t ∧ t.memory = s.memory ∧ t.chip = { s.chip with link := t.chip.link } ∧
          t.chip.link.tries = 0 ∧ t.chip.link.holds = 0 ∧ t.chip.link.wordsSent = sent ∧
          t.chip.link.state = .sending ∧ t.chip.link.page = some p ∧
          (∀ i e, s.chip.link.position = some (.storyOpen i) → s.chip.pages[p].placements[i]? = some e →
            t.chip.link.stage = some .transmitting ∧ t.chip.link.blocks = s.chip.stories[e.story].blocks ∧
            t.chip.link.frame = some { kind := .storyOpen, payload :=
              [BitVec.ofNat 16 e.story.val, BitVec.ofNat 16 s.chip.stories[e.story].style.font.val,
                BitVec.ofNat 16 s.chip.stories[e.story].style.size,
                BitVec.ofNat 16 s.chip.stories[e.story].style.leading,
                BitVec.ofNat 16 s.chip.stories[e.story].style.measure,
                BitVec.ofInt 16 s.chip.stories[e.story].style.track, BitVec.ofNat 16 e.hole] } ∧
            (s.chip.stories[e.story].blocks ≠ [] → t.chip.link.position = some (.text i 0))) ∧
          (∀ i j, s.chip.link.position = some (.text i j) → t.chip.link.stage = some .reading ∧
            t.chip.link.position = some (.text i j) ∧
            t.chip.link.frame = some { kind := .text, payload := [] }) ∧
          (s.chip.link.position = some .pageClose → t.chip.link.stage = some .transmitting ∧
            t.chip.link.frame = some { kind := .pageClose, payload :=
              [BitVec.ofNat 16 p.number, BitVec.ofNat 16 sent] })) ∧
      (∀ p : PageNo, s.chip.link.page = some p → s.chip.link.abandoning = none → f.kind = .pageClose →
        s.chip.pages[p].state = .setting →
        ∃ t, exec .accept s = .next t ∧ t.memory = s.memory ∧
          t.chip.pages[p] = { s.chip.pages[p] with state := .set } ∧
          (∀ q : PageNo, q ≠ p → t.chip.pages[q] = s.chip.pages[q]) ∧ t.chip.outputQueue = s.chip.outputQueue ∧
          t.chip.link.state = .idle ∧ t.chip.link.stage = none ∧ t.chip.link.page = none ∧
          t.chip.link.position = none ∧ t.chip.link.wordsSent = 0 ∧
          t.chip.cu.attentionRaw = s.chip.cu.attentionRaw ||| 0x10#8 ∧
          MirrorItem.page p ∈ t.chip.mirror.pending ∧ MirrorItem.linkState ∈ t.chip.mirror.pending ∧
          ∀ w : TerminalNo, t.chip.screens[w] =
            match s.chip.session w with
            | some y => if y.desk = s.chip.pages[p].desk then s.chip.screens[w].enter
                { kind := .pageSet, subject := p.number, second := none, count := 1 } else s.chip.screens[w]
            | none => s.chip.screens[w]) ∧
      ∀ p : PageNo, s.chip.link.page = none → s.chip.link.abandoning = some p →
        (f.kind = .abandon →
          ∃ t, exec .accept s = .next t ∧ t.memory = s.memory ∧
            t.chip.link = { s.chip.link with
              state := if s.chip.link.offMark then .off else .idle
              stage := none, abandoning := none, offMark := false, tries := 0, holds := 0 } ∧
            t.chip.pages = s.chip.pages ∧ MirrorItem.linkState ∈ t.chip.mirror.pending) ∧
        (f.kind ≠ .abandon →
          exec .accept s = .next (s.withChip { s.chip with link := { s.chip.link with
            stage := some .transmitting, tries := 0, holds := 0
            frame := some { kind := .abandon, payload := [BitVec.ofNat 16 p.number] } } }))

/-- A HOLD keeps the frame until the next pulse, which sends it again while the hold count stays within the limit and
faults the link beyond it (R177). A REJECT, any other answer, and the second pulse in AWAITING are failures: the first two
send the frame again, the third faults the link (R176). The fault gives the page in hand back (R164, R179 a); an ABANDON frame
is held, fails and faults the link as any other, with no page given back and LINK FAULT naming the abandoning page (R179 b,
R184). The frame in flight of a page withdrawn from the link is neither held nor sent again: whatever the answer, or at its
timeout, ABANDON is built and sent with the try count and hold count at 0 (R183; its ACCEPT is stated in
AcceptsSendTheNextFrame). FRAME_TIMEOUT, HOLD_WAIT_END and HOLD_LIMIT_EXCEEDED are that pulse (log 7). -/
def Obligations.FailuresAndHoldsOfAFrame : Prop :=
  ∀ (s : State) (again : State), s.Released →
    (s.chip.link.state = .sending → s.chip.link.stage = some .awaiting →
      (s.chip.link.answerWait = 0 →
        exec .linkPulse s = .next (s.withChip { s.chip with link := { s.chip.link with answerWait := 1 } }) ∧
          exec .frameTimeout s = .next s) ∧
      (s.chip.link.abandoning = none ∨ (∃ f, s.chip.link.frame = some f ∧ f.kind = .abandon) →
        (∃ t, exec .hold s = .next t ∧ t.memory = s.memory ∧
          t.chip.link = { s.chip.link with state := .holding, stage := none } ∧
          MirrorItem.linkState ∈ t.chip.mirror.pending ∧ t.chip.pages = s.chip.pages) ∧
        (again = s.withChip { s.chip with link := { s.chip.link with
            stage := some .transmitting, holds := 0, tries := s.chip.link.tries + 1 } } →
          s.chip.link.tries < 2 →
          (∀ w : Word, w ≠ 1 → w ≠ 2 → exec (.reject w) s = .next again) ∧
            (s.chip.link.answerWait = 1 →
              exec .linkPulse s = .next again ∧ exec .frameTimeout s = .next again)) ∧
        (∀ (p : PageNo) (i : Instr), s.chip.link.tries = 2 →
          (∃ w : Word, w ≠ 1 ∧ w ≠ 2 ∧ i = .reject w) ∨
            (s.chip.link.answerWait = 1 ∧ (i = .linkPulse ∨ i = .frameTimeout)) →
          (s.chip.link.page = some p →
            ∃ t, exec i s = .next t ∧ t.memory = s.memory ∧ s.chip.LinkFaultGivesBack p t.chip) ∧
          (s.chip.link.page = none → s.chip.link.abandoning = some p →
            ∃ t, exec i s = .next t ∧ t.memory = s.memory ∧ s.chip.LinkFaultAbandons p t.chip))) ∧
      ∀ (p : PageNo) (f : Frame) (next : State), s.chip.link.abandoning = some p → s.chip.link.frame = some f →
        f.kind ≠ .abandon →
        next = s.withChip { s.chip with link := { s.chip.link with
          stage := some .transmitting, tries := 0, holds := 0
          frame := some { kind := .abandon, payload := [BitVec.ofNat 16 p.number] } } } →
        exec .hold s = .next next ∧ (∀ w : Word, w ≠ 1 → w ≠ 2 → exec (.reject w) s = .next next) ∧
          (s.chip.link.answerWait = 1 → exec .linkPulse s = .next next ∧ exec .frameTimeout s = .next next)) ∧
    (s.chip.link.state = .holding →
      (s.chip.link.holds + 1 ≤ s.chip.link.holdLimit →
        ∃ t, exec .holdWaitEnd s = .next t ∧ exec .linkPulse s = .next t ∧ t.memory = s.memory ∧
          t.chip.link = { s.chip.link with
            state := .sending, stage := some .transmitting, holds := s.chip.link.holds + 1 } ∧
          MirrorItem.linkState ∈ t.chip.mirror.pending ∧ exec .holdLimitExceeded s = .next s) ∧
      ∀ p : PageNo, s.chip.link.holdLimit < s.chip.link.holds + 1 →
        (s.chip.link.page = some p →
          ∃ t, exec .holdLimitExceeded s = .next t ∧ exec .linkPulse s = .next t ∧ t.memory = s.memory ∧
            s.chip.LinkFaultGivesBack p t.chip) ∧
        (s.chip.link.page = none → s.chip.link.abandoning = some p →
          ∃ t, exec .holdLimitExceeded s = .next t ∧ exec .linkPulse s = .next t ∧ t.memory = s.memory ∧
            s.chip.LinkFaultAbandons p t.chip)) ∧
    (s.chip.link.state = .off ∨ s.chip.link.state = .idle ∨ s.chip.link.state = .fault →
      exec .linkPulse s = .next s ∧ exec .hold s = .next s ∧ ∀ w, exec (.reject w) s = .next s)

/-- LINK ON takes the link from OFF to IDLE (R180) and LINK RESUME from FAULT to IDLE (R181); LINK OFF takes an IDLE or
FAULT link to OFF, and one with a page in hand gives the page back, withdraws from it and sets the off mark (R182, R183,
R164). Every other state ends WRONG_STATE. -/
def Obligations.LinkCommandsChangeTheLink : Prop :=
  ∀ s : State, s.chip.cu.context = .system →
    (s.Serves 30 →
      (s.chip.link.state ≠ .off → exec .linkOn s = .next (s.refusedWith .wrongState [])) ∧
      (s.chip.link.state = .off →
        ∃ t, exec .linkOn s = .next t ∧ t.memory = s.memory ∧ t.chip.Ended .ok [] ∧
          t.chip.link = { s.chip.link with state := .idle, stage := none } ∧
          t.chip.cu.waitSet.map (·.item) = [.linkState])) ∧
    (s.Serves 32 →
      (s.chip.link.state ≠ .fault → exec .linkResume s = .next (s.refusedWith .wrongState [])) ∧
      (s.chip.link.state = .fault →
        ∃ t, exec .linkResume s = .next t ∧ t.memory = s.memory ∧ t.chip.Ended .ok [] ∧
          t.chip.link = { s.chip.link with state := .idle, stage := none } ∧
          t.chip.cu.waitSet.map (·.item) = [.linkState])) ∧
    (s.Serves 31 →
      (s.chip.link.offMark = true ∨ s.chip.link.state = .off →
        exec .linkOff s = .next (s.refusedWith .wrongState [])) ∧
      (s.chip.link.offMark = false → s.chip.link.state = .idle ∨ s.chip.link.state = .fault →
        ∃ t, exec .linkOff s = .next t ∧ t.memory = s.memory ∧ t.chip.Ended .ok [] ∧
          t.chip.link = { s.chip.link with state := .off, stage := none } ∧
          t.chip.cu.waitSet.map (·.item) = [.linkState]) ∧
      (s.chip.link.offMark = false → s.chip.link.state = .sending ∨ s.chip.link.state = .holding →
        (∀ p : PageNo, s.chip.link.page = some p →
          ∃ t, exec .linkOff s = .next t ∧ t.memory = s.memory ∧ t.chip.Ended .ok [] ∧
            t.chip.pages[p] = { s.chip.pages[p] with state := .queued } ∧
            (∀ q : PageNo, q ≠ p → t.chip.pages[q] = s.chip.pages[q]) ∧ p ∈ t.chip.outputQueue ∧
            t.chip.link.state = .sending ∧ t.chip.link.page = none ∧ t.chip.link.abandoning = some p ∧
            t.chip.link.offMark = true ∧ t.chip.Awaits (.page p) ∧ t.chip.Awaits .outputCount ∧
            (s.chip.link.state = .holding ∨ s.chip.link.stage = some .reading →
              t.chip.link.stage = some .transmitting ∧
                t.chip.link.frame = some { kind := .abandon, payload := [BitVec.ofNat 16 p.number] })) ∧
        (s.chip.link.page = none →
          ∃ t, exec .linkOff s = .next t ∧ t.memory = s.memory ∧ t.chip.Ended .ok [] ∧
            t.chip.link = { s.chip.link with offMark := true } ∧ t.chip.pages = s.chip.pages)))
end

