-- ==== Sys2Proof/Laws/State.lean ====
section
/-! SUPPORT. What each update of the part does to each of its fields: one lemma an update, true by rfl, whose
conjuncts simp uses field by field; and the reading of an updated table. -/

namespace Sys2Proof.Machine

-- One theorem after another: side by side they wait for one another, a thread each.
set_option Elab.async false

/-- The entry an update changes. -/
@[simp] theorem update_self {α : Type} {n : Nat} (v : Vector α n) (i : Fin n) (f : α → α) :
    (update v i f)[i.val] = f v[i.val] := by
  simp [update]

/-- An updated table read at any place. -/
theorem update_apply {α : Type} {n : Nat} (v : Vector α n) (i j : Fin n) (f : α → α) :
    (update v i f)[j] = if i = j then f v[j] else v[j] := by
  simp only [update, Fin.getElem_fin, Vector.getElem_set, Fin.ext_iff]
  split
  · rename_i h; simp [h]
  · rfl

/-- Every entry but the one an update changes is as it was. -/
theorem update_ne {α : Type} {n : Nat} (v : Vector α n) {i j : Fin n} (f : α → α) (h : i ≠ j) :
    (update v i f)[j] = v[j] := by
  rw [update_apply, if_neg h]

@[simp] theorem onPath_fields (c : Chip) (f : PathChecker → PathChecker) :
    (c.onPath f).resetAsserted = c.resetAsserted ∧ (c.onPath f).path = f c.path ∧ (c.onPath f).cu = c.cu ∧
      (c.onPath f).mirror = c.mirror ∧ (c.onPath f).lines = c.lines ∧ (c.onPath f).links = c.links ∧
      (c.onPath f).screens = c.screens ∧ (c.onPath f).noticeWriter = c.noticeWriter ∧ (c.onPath f).keys = c.keys ∧
      (c.onPath f).keyWriter = c.keyWriter ∧ (c.onPath f).stories = c.stories ∧ (c.onPath f).desks = c.desks ∧
      (c.onPath f).custody = c.custody ∧ (c.onPath f).clock = c.clock ∧ (c.onPath f).fit = c.fit ∧
      (c.onPath f).pages = c.pages ∧ (c.onPath f).outputQueue = c.outputQueue ∧ (c.onPath f).link = c.link := by
  refine ⟨?_, ?_, ?_, ?_, ?_, ?_, ?_, ?_, ?_, ?_, ?_, ?_, ?_, ?_, ?_, ?_, ?_, ?_⟩ <;> rfl

@[simp] theorem onUnit_fields (c : Chip) (f : CommandUnit → CommandUnit) :
    (c.onUnit f).resetAsserted = c.resetAsserted ∧ (c.onUnit f).path = c.path ∧ (c.onUnit f).cu = f c.cu ∧
      (c.onUnit f).mirror = c.mirror ∧ (c.onUnit f).lines = c.lines ∧ (c.onUnit f).links = c.links ∧
      (c.onUnit f).screens = c.screens ∧ (c.onUnit f).noticeWriter = c.noticeWriter ∧ (c.onUnit f).keys = c.keys ∧
      (c.onUnit f).keyWriter = c.keyWriter ∧ (c.onUnit f).stories = c.stories ∧ (c.onUnit f).desks = c.desks ∧
      (c.onUnit f).custody = c.custody ∧ (c.onUnit f).clock = c.clock ∧ (c.onUnit f).fit = c.fit ∧
      (c.onUnit f).pages = c.pages ∧ (c.onUnit f).outputQueue = c.outputQueue ∧ (c.onUnit f).link = c.link := by
  refine ⟨?_, ?_, ?_, ?_, ?_, ?_, ?_, ?_, ?_, ?_, ?_, ?_, ?_, ?_, ?_, ?_, ?_, ?_⟩ <;> rfl

@[simp] theorem onMirror_fields (c : Chip) (f : MirrorWriter → MirrorWriter) :
    (c.onMirror f).resetAsserted = c.resetAsserted ∧ (c.onMirror f).path = c.path ∧ (c.onMirror f).cu = c.cu ∧
      (c.onMirror f).mirror = f c.mirror ∧ (c.onMirror f).lines = c.lines ∧ (c.onMirror f).links = c.links ∧
      (c.onMirror f).screens = c.screens ∧ (c.onMirror f).noticeWriter = c.noticeWriter ∧
      (c.onMirror f).keys = c.keys ∧ (c.onMirror f).keyWriter = c.keyWriter ∧ (c.onMirror f).stories = c.stories ∧
      (c.onMirror f).desks = c.desks ∧ (c.onMirror f).custody = c.custody ∧ (c.onMirror f).clock = c.clock ∧
      (c.onMirror f).fit = c.fit ∧ (c.onMirror f).pages = c.pages ∧ (c.onMirror f).outputQueue = c.outputQueue ∧
      (c.onMirror f).link = c.link := by
  refine ⟨?_, ?_, ?_, ?_, ?_, ?_, ?_, ?_, ?_, ?_, ?_, ?_, ?_, ?_, ?_, ?_, ?_, ?_⟩ <;> rfl

@[simp] theorem onLine_fields (c : Chip) (l : LineNo) (f : LineEngine → LineEngine) :
    (c.onLine l f).resetAsserted = c.resetAsserted ∧ (c.onLine l f).path = c.path ∧ (c.onLine l f).cu = c.cu ∧
      (c.onLine l f).mirror = c.mirror ∧ (c.onLine l f).lines = update c.lines l f ∧
      (c.onLine l f).links = c.links ∧ (c.onLine l f).screens = c.screens ∧
      (c.onLine l f).noticeWriter = c.noticeWriter ∧ (c.onLine l f).keys = c.keys ∧
      (c.onLine l f).keyWriter = c.keyWriter ∧ (c.onLine l f).stories = c.stories ∧ (c.onLine l f).desks = c.desks ∧
      (c.onLine l f).custody = c.custody ∧ (c.onLine l f).clock = c.clock ∧ (c.onLine l f).fit = c.fit ∧
      (c.onLine l f).pages = c.pages ∧ (c.onLine l f).outputQueue = c.outputQueue ∧ (c.onLine l f).link = c.link := by
  refine ⟨?_, ?_, ?_, ?_, ?_, ?_, ?_, ?_, ?_, ?_, ?_, ?_, ?_, ?_, ?_, ?_, ?_, ?_⟩ <;> rfl

@[simp] theorem onTerminal_fields (c : Chip) (t : TerminalNo) (f : TerminalLink → TerminalLink) :
    (c.onTerminal t f).resetAsserted = c.resetAsserted ∧ (c.onTerminal t f).path = c.path ∧
      (c.onTerminal t f).cu = c.cu ∧ (c.onTerminal t f).mirror = c.mirror ∧ (c.onTerminal t f).lines = c.lines ∧
      (c.onTerminal t f).links = update c.links t f ∧ (c.onTerminal t f).screens = c.screens ∧
      (c.onTerminal t f).noticeWriter = c.noticeWriter ∧ (c.onTerminal t f).keys = c.keys ∧
      (c.onTerminal t f).keyWriter = c.keyWriter ∧ (c.onTerminal t f).stories = c.stories ∧
      (c.onTerminal t f).desks = c.desks ∧ (c.onTerminal t f).custody = c.custody ∧
      (c.onTerminal t f).clock = c.clock ∧ (c.onTerminal t f).fit = c.fit ∧ (c.onTerminal t f).pages = c.pages ∧
      (c.onTerminal t f).outputQueue = c.outputQueue ∧ (c.onTerminal t f).link = c.link := by
  refine ⟨?_, ?_, ?_, ?_, ?_, ?_, ?_, ?_, ?_, ?_, ?_, ?_, ?_, ?_, ?_, ?_, ?_, ?_⟩ <;> rfl

@[simp] theorem onScreen_fields (c : Chip) (t : TerminalNo) (f : Screen → Screen) :
    (c.onScreen t f).resetAsserted = c.resetAsserted ∧ (c.onScreen t f).path = c.path ∧ (c.onScreen t f).cu = c.cu ∧
      (c.onScreen t f).mirror = c.mirror ∧ (c.onScreen t f).lines = c.lines ∧ (c.onScreen t f).links = c.links ∧
      (c.onScreen t f).screens = update c.screens t f ∧ (c.onScreen t f).noticeWriter = c.noticeWriter ∧
      (c.onScreen t f).keys = c.keys ∧ (c.onScreen t f).keyWriter = c.keyWriter ∧
      (c.onScreen t f).stories = c.stories ∧ (c.onScreen t f).desks = c.desks ∧
      (c.onScreen t f).custody = c.custody ∧ (c.onScreen t f).clock = c.clock ∧ (c.onScreen t f).fit = c.fit ∧
      (c.onScreen t f).pages = c.pages ∧ (c.onScreen t f).outputQueue = c.outputQueue ∧
      (c.onScreen t f).link = c.link := by
  refine ⟨?_, ?_, ?_, ?_, ?_, ?_, ?_, ?_, ?_, ?_, ?_, ?_, ?_, ?_, ?_, ?_, ?_, ?_⟩ <;> rfl

@[simp] theorem onNoticeWriter_fields (c : Chip) (f : NoticeWriter → NoticeWriter) :
    (c.onNoticeWriter f).resetAsserted = c.resetAsserted ∧ (c.onNoticeWriter f).path = c.path ∧
      (c.onNoticeWriter f).cu = c.cu ∧ (c.onNoticeWriter f).mirror = c.mirror ∧
      (c.onNoticeWriter f).lines = c.lines ∧ (c.onNoticeWriter f).links = c.links ∧
      (c.onNoticeWriter f).screens = c.screens ∧ (c.onNoticeWriter f).noticeWriter = f c.noticeWriter ∧
      (c.onNoticeWriter f).keys = c.keys ∧ (c.onNoticeWriter f).keyWriter = c.keyWriter ∧
      (c.onNoticeWriter f).stories = c.stories ∧ (c.onNoticeWriter f).desks = c.desks ∧
      (c.onNoticeWriter f).custody = c.custody ∧ (c.onNoticeWriter f).clock = c.clock ∧
      (c.onNoticeWriter f).fit = c.fit ∧ (c.onNoticeWriter f).pages = c.pages ∧
      (c.onNoticeWriter f).outputQueue = c.outputQueue ∧ (c.onNoticeWriter f).link = c.link := by
  refine ⟨?_, ?_, ?_, ?_, ?_, ?_, ?_, ?_, ?_, ?_, ?_, ?_, ?_, ?_, ?_, ?_, ?_, ?_⟩ <;> rfl

@[simp] theorem onKeys_fields (c : Chip) (t : TerminalNo) (f : KeyRing → KeyRing) :
    (c.onKeys t f).resetAsserted = c.resetAsserted ∧ (c.onKeys t f).path = c.path ∧ (c.onKeys t f).cu = c.cu ∧
      (c.onKeys t f).mirror = c.mirror ∧ (c.onKeys t f).lines = c.lines ∧ (c.onKeys t f).links = c.links ∧
      (c.onKeys t f).screens = c.screens ∧ (c.onKeys t f).noticeWriter = c.noticeWriter ∧
      (c.onKeys t f).keys = update c.keys t f ∧ (c.onKeys t f).keyWriter = c.keyWriter ∧
      (c.onKeys t f).stories = c.stories ∧ (c.onKeys t f).desks = c.desks ∧ (c.onKeys t f).custody = c.custody ∧
      (c.onKeys t f).clock = c.clock ∧ (c.onKeys t f).fit = c.fit ∧ (c.onKeys t f).pages = c.pages ∧
      (c.onKeys t f).outputQueue = c.outputQueue ∧ (c.onKeys t f).link = c.link := by
  refine ⟨?_, ?_, ?_, ?_, ?_, ?_, ?_, ?_, ?_, ?_, ?_, ?_, ?_, ?_, ?_, ?_, ?_, ?_⟩ <;> rfl

@[simp] theorem onKeyWriter_fields (c : Chip) (f : KeyWriter → KeyWriter) :
    (c.onKeyWriter f).resetAsserted = c.resetAsserted ∧ (c.onKeyWriter f).path = c.path ∧
      (c.onKeyWriter f).cu = c.cu ∧ (c.onKeyWriter f).mirror = c.mirror ∧ (c.onKeyWriter f).lines = c.lines ∧
      (c.onKeyWriter f).links = c.links ∧ (c.onKeyWriter f).screens = c.screens ∧
      (c.onKeyWriter f).noticeWriter = c.noticeWriter ∧ (c.onKeyWriter f).keys = c.keys ∧
      (c.onKeyWriter f).keyWriter = f c.keyWriter ∧ (c.onKeyWriter f).stories = c.stories ∧
      (c.onKeyWriter f).desks = c.desks ∧ (c.onKeyWriter f).custody = c.custody ∧
      (c.onKeyWriter f).clock = c.clock ∧ (c.onKeyWriter f).fit = c.fit ∧ (c.onKeyWriter f).pages = c.pages ∧
      (c.onKeyWriter f).outputQueue = c.outputQueue ∧ (c.onKeyWriter f).link = c.link := by
  refine ⟨?_, ?_, ?_, ?_, ?_, ?_, ?_, ?_, ?_, ?_, ?_, ?_, ?_, ?_, ?_, ?_, ?_, ?_⟩ <;> rfl

@[simp] theorem onStory_fields (c : Chip) (s : StoryNo) (f : Story → Story) :
    (c.onStory s f).resetAsserted = c.resetAsserted ∧ (c.onStory s f).path = c.path ∧ (c.onStory s f).cu = c.cu ∧
      (c.onStory s f).mirror = c.mirror ∧ (c.onStory s f).lines = c.lines ∧ (c.onStory s f).links = c.links ∧
      (c.onStory s f).screens = c.screens ∧ (c.onStory s f).noticeWriter = c.noticeWriter ∧
      (c.onStory s f).keys = c.keys ∧ (c.onStory s f).keyWriter = c.keyWriter ∧
      (c.onStory s f).stories = update c.stories s f ∧ (c.onStory s f).desks = c.desks ∧
      (c.onStory s f).custody = c.custody ∧ (c.onStory s f).clock = c.clock ∧ (c.onStory s f).fit = c.fit ∧
      (c.onStory s f).pages = c.pages ∧ (c.onStory s f).outputQueue = c.outputQueue ∧ (c.onStory s f).link = c.link := by
  refine ⟨?_, ?_, ?_, ?_, ?_, ?_, ?_, ?_, ?_, ?_, ?_, ?_, ?_, ?_, ?_, ?_, ?_, ?_⟩ <;> rfl

@[simp] theorem onDesk_fields (c : Chip) (d : DeskNo) (f : Desk → Desk) :
    (c.onDesk d f).resetAsserted = c.resetAsserted ∧ (c.onDesk d f).path = c.path ∧ (c.onDesk d f).cu = c.cu ∧
      (c.onDesk d f).mirror = c.mirror ∧ (c.onDesk d f).lines = c.lines ∧ (c.onDesk d f).links = c.links ∧
      (c.onDesk d f).screens = c.screens ∧ (c.onDesk d f).noticeWriter = c.noticeWriter ∧
      (c.onDesk d f).keys = c.keys ∧ (c.onDesk d f).keyWriter = c.keyWriter ∧ (c.onDesk d f).stories = c.stories ∧
      (c.onDesk d f).desks = update c.desks d f ∧ (c.onDesk d f).custody = c.custody ∧
      (c.onDesk d f).clock = c.clock ∧ (c.onDesk d f).fit = c.fit ∧ (c.onDesk d f).pages = c.pages ∧
      (c.onDesk d f).outputQueue = c.outputQueue ∧ (c.onDesk d f).link = c.link := by
  refine ⟨?_, ?_, ?_, ?_, ?_, ?_, ?_, ?_, ?_, ?_, ?_, ?_, ?_, ?_, ?_, ?_, ?_, ?_⟩ <;> rfl

@[simp] theorem onCustody_fields (c : Chip) (f : Custody → Custody) :
    (c.onCustody f).resetAsserted = c.resetAsserted ∧ (c.onCustody f).path = c.path ∧ (c.onCustody f).cu = c.cu ∧
      (c.onCustody f).mirror = c.mirror ∧ (c.onCustody f).lines = c.lines ∧ (c.onCustody f).links = c.links ∧
      (c.onCustody f).screens = c.screens ∧ (c.onCustody f).noticeWriter = c.noticeWriter ∧
      (c.onCustody f).keys = c.keys ∧ (c.onCustody f).keyWriter = c.keyWriter ∧
      (c.onCustody f).stories = c.stories ∧ (c.onCustody f).desks = c.desks ∧
      (c.onCustody f).custody = f c.custody ∧ (c.onCustody f).clock = c.clock ∧ (c.onCustody f).fit = c.fit ∧
      (c.onCustody f).pages = c.pages ∧ (c.onCustody f).outputQueue = c.outputQueue ∧ (c.onCustody f).link = c.link := by
  refine ⟨?_, ?_, ?_, ?_, ?_, ?_, ?_, ?_, ?_, ?_, ?_, ?_, ?_, ?_, ?_, ?_, ?_, ?_⟩ <;> rfl

@[simp] theorem onClock_fields (c : Chip) (f : NightClock → NightClock) :
    (c.onClock f).resetAsserted = c.resetAsserted ∧ (c.onClock f).path = c.path ∧ (c.onClock f).cu = c.cu ∧
      (c.onClock f).mirror = c.mirror ∧ (c.onClock f).lines = c.lines ∧ (c.onClock f).links = c.links ∧
      (c.onClock f).screens = c.screens ∧ (c.onClock f).noticeWriter = c.noticeWriter ∧
      (c.onClock f).keys = c.keys ∧ (c.onClock f).keyWriter = c.keyWriter ∧ (c.onClock f).stories = c.stories ∧
      (c.onClock f).desks = c.desks ∧ (c.onClock f).custody = c.custody ∧ (c.onClock f).clock = f c.clock ∧
      (c.onClock f).fit = c.fit ∧ (c.onClock f).pages = c.pages ∧ (c.onClock f).outputQueue = c.outputQueue ∧
      (c.onClock f).link = c.link := by
  refine ⟨?_, ?_, ?_, ?_, ?_, ?_, ?_, ?_, ?_, ?_, ?_, ?_, ?_, ?_, ?_, ?_, ?_, ?_⟩ <;> rfl

@[simp] theorem onFit_fields (c : Chip) (f : FitEngine → FitEngine) :
    (c.onFit f).resetAsserted = c.resetAsserted ∧ (c.onFit f).path = c.path ∧ (c.onFit f).cu = c.cu ∧
      (c.onFit f).mirror = c.mirror ∧ (c.onFit f).lines = c.lines ∧ (c.onFit f).links = c.links ∧
      (c.onFit f).screens = c.screens ∧ (c.onFit f).noticeWriter = c.noticeWriter ∧ (c.onFit f).keys = c.keys ∧
      (c.onFit f).keyWriter = c.keyWriter ∧ (c.onFit f).stories = c.stories ∧ (c.onFit f).desks = c.desks ∧
      (c.onFit f).custody = c.custody ∧ (c.onFit f).clock = c.clock ∧ (c.onFit f).fit = f c.fit ∧
      (c.onFit f).pages = c.pages ∧ (c.onFit f).outputQueue = c.outputQueue ∧ (c.onFit f).link = c.link := by
  refine ⟨?_, ?_, ?_, ?_, ?_, ?_, ?_, ?_, ?_, ?_, ?_, ?_, ?_, ?_, ?_, ?_, ?_, ?_⟩ <;> rfl

@[simp] theorem onPage_fields (c : Chip) (p : PageNo) (f : Page → Page) :
    (c.onPage p f).resetAsserted = c.resetAsserted ∧ (c.onPage p f).path = c.path ∧ (c.onPage p f).cu = c.cu ∧
      (c.onPage p f).mirror = c.mirror ∧ (c.onPage p f).lines = c.lines ∧ (c.onPage p f).links = c.links ∧
      (c.onPage p f).screens = c.screens ∧ (c.onPage p f).noticeWriter = c.noticeWriter ∧
      (c.onPage p f).keys = c.keys ∧ (c.onPage p f).keyWriter = c.keyWriter ∧ (c.onPage p f).stories = c.stories ∧
      (c.onPage p f).desks = c.desks ∧ (c.onPage p f).custody = c.custody ∧ (c.onPage p f).clock = c.clock ∧
      (c.onPage p f).fit = c.fit ∧ (c.onPage p f).pages = update c.pages p f ∧
      (c.onPage p f).outputQueue = c.outputQueue ∧ (c.onPage p f).link = c.link := by
  refine ⟨?_, ?_, ?_, ?_, ?_, ?_, ?_, ?_, ?_, ?_, ?_, ?_, ?_, ?_, ?_, ?_, ?_, ?_⟩ <;> rfl

@[simp] theorem onLink_fields (c : Chip) (f : SettingLink → SettingLink) :
    (c.onLink f).resetAsserted = c.resetAsserted ∧ (c.onLink f).path = c.path ∧ (c.onLink f).cu = c.cu ∧
      (c.onLink f).mirror = c.mirror ∧ (c.onLink f).lines = c.lines ∧ (c.onLink f).links = c.links ∧
      (c.onLink f).screens = c.screens ∧ (c.onLink f).noticeWriter = c.noticeWriter ∧ (c.onLink f).keys = c.keys ∧
      (c.onLink f).keyWriter = c.keyWriter ∧ (c.onLink f).stories = c.stories ∧ (c.onLink f).desks = c.desks ∧
      (c.onLink f).custody = c.custody ∧ (c.onLink f).clock = c.clock ∧ (c.onLink f).fit = c.fit ∧
      (c.onLink f).pages = c.pages ∧ (c.onLink f).outputQueue = c.outputQueue ∧ (c.onLink f).link = f c.link := by
  refine ⟨?_, ?_, ?_, ?_, ?_, ?_, ?_, ?_, ?_, ?_, ?_, ?_, ?_, ?_, ?_, ?_, ?_, ?_⟩ <;> rfl

@[simp] theorem onCell_fields (c : Chip) (k : CellNo) (f : Cell → Cell) :
    (c.onCell k f).cu = { c.cu with cells := update c.cu.cells k f } := rfl

/-- `granted` moves the round-robin position alone. -/
@[simp] theorem granted_path (c : Chip) (r : Requester) :
    (c.granted r).path = { c.path with lastGranted := r } := rfl

end Sys2Proof.Machine
end

