-- ==== Sys2Proof/Laws/Effects.lean ====
section
/-! SUPPORT. What a change of the part may do, said once: the fields it leaves alone and the laws it keeps. One lemma
for each shared operation of Ops, Flags, Notices and Fit; the blocks' own lemmas stand in Laws/Blocks.lean, the meanings' in
Laws/Steps.lean. -/

namespace Sys2Proof.Machine

-- One theorem after another: side by side they wait for one another, a thread each.
set_option Elab.async false

/-- The change from `c` to `d` touches the fields of `l` alone and keeps the laws that hold field by field. -/
structure Chip.Does (l : List Part) (c d : Chip) : Prop where
  frame : ∀ p, p ∉ l → c.SameIn d p
  asserted : d.resetAsserted = c.resetAsserted
  attention : c.AttentionLaw → d.AttentionLaw
  notices : (∀ t : TerminalNo, c.screens[t].NoticeLaw) → ∀ t : TerminalNo, d.screens[t].NoticeLaw
  rings : (∀ t : TerminalNo, c.keys[t].RingLaw) → ∀ t : TerminalNo, d.keys[t].RingLaw
  terminals : (∀ t : TerminalNo, c.links[t].Lawful) → ∀ t : TerminalNo, d.links[t].Lawful
  once : c.ListsOnce → d.ListsOnce

namespace Chip.Does

theorem refl (l : List Part) (c : Chip) : Chip.Does l c c :=
  ⟨fun p _ => by cases p <;> rfl, rfl, id, id, id, id, id⟩

theorem sameIn_trans {c d e : Chip} {p : Part} (h : c.SameIn d p) (k : d.SameIn e p) : c.SameIn e p := by
  cases p <;> exact Eq.trans k h

/-- Two changes one after the other. -/
theorem andThen {l m n : List Part} {c d e : Chip} (h : Chip.Does l c d) (k : Chip.Does m d e)
    (s : ∀ p, p ∈ l ++ m → p ∈ n := by decide) : Chip.Does n c e :=
  ⟨fun p hp => sameIn_trans (h.frame p fun q => hp (s p (List.mem_append_left m q)))
      (k.frame p fun q => hp (s p (List.mem_append_right l q))),
    k.asserted.trans h.asserted, k.attention ∘ h.attention, k.notices ∘ h.notices, k.rings ∘ h.rings,
    k.terminals ∘ h.terminals, k.once ∘ h.once⟩

/-- A change followed by one that may touch as many fields and more. -/
theorem step {l n : List Part} {c d e : Chip} (h : Chip.Does l c d) (k : Chip.Does n d e)
    (s : ∀ p, p ∈ l → p ∈ n := by decide) : Chip.Does n c e :=
  h.andThen k fun p hp => (List.mem_append.mp hp).elim (s p) id

/-- A change that touches fewer fields. -/
theorem mono {l n : List Part} {c d : Chip} (h : Chip.Does l c d) (s : ∀ p, p ∈ l → p ∈ n := by decide) :
    Chip.Does n c d :=
  ⟨fun p hp => h.frame p fun q => hp (s p q), h.asserted, h.attention, h.notices, h.rings, h.terminals, h.once⟩

/-- A change made once for each entry of a list. -/
theorem foldl {α : Type} {l : List Part} (f : Chip → α → Chip) (h : ∀ c a, Chip.Does l c (f c a)) (xs : List α) :
    ∀ c, Chip.Does l c (xs.foldl f c) := by
  induction xs with
  | nil => exact fun c => refl l c
  | cons a xs ih => exact fun c => (h c a).andThen (ih (f c a)) (fun p hp => by simpa using hp)

/-- A change made under a condition. -/
theorem ite {l : List Part} {c d e : Chip} {q : Prop} [Decidable q] (h : q → Chip.Does l c d)
    (k : ¬q → Chip.Does l c e) : Chip.Does l c (if q then d else e) := by
  split
  · exact h ‹_›
  · exact k ‹_›

end Chip.Does

/-! ## The updates of one field -/

theorem does_onPath (c : Chip) (f : PathChecker → PathChecker) : Chip.Does [.path] c (c.onPath f) :=
  ⟨fun p hp => by cases p <;> first | rfl | simp at hp, rfl, id, id, id, id, id⟩

/-- An update of the command unit that leaves the attention words and the line as they are. -/
theorem does_onUnit (c : Chip) (f : CommandUnit → CommandUnit)
    (h : (f c.cu).attentionRaw = c.cu.attentionRaw ∧ (f c.cu).attentionMask = c.cu.attentionMask ∧
      (f c.cu).attentionLine = c.cu.attentionLine := by exact ⟨rfl, rfl, rfl⟩) :
    Chip.Does [.unit] c (c.onUnit f) :=
  ⟨fun p hp => by cases p <;> first | rfl | simp at hp, rfl,
    fun k => by
      show (f c.cu).attentionLine = lineOfAttention (f c.cu).attentionRaw (f c.cu).attentionMask
      rw [h.1, h.2.1, h.2.2]; exact k,
    id, id, id, id⟩

/-- The attention words taken and the line recomputed (R35). -/
theorem does_setAttention (c : Chip) (raw mask : Byte) : Chip.Does [.unit] c (c.onUnit (·.setAttention raw mask)) :=
  ⟨fun p hp => by cases p <;> first | rfl | simp at hp, rfl, fun _ => rfl, id, id, id, id⟩

/-- An update of the mirror writer that keeps each pending item once. -/
theorem does_onMirror (c : Chip) (f : MirrorWriter → MirrorWriter)
    (h : c.mirror.pending.Nodup → (f c.mirror).pending.Nodup) : Chip.Does [.mirror] c (c.onMirror f) :=
  ⟨fun p hp => by cases p <;> first | rfl | simp at hp, rfl, id, id, id, id, fun k => ⟨h k.1, k.2⟩⟩

theorem does_onLine (c : Chip) (l : LineNo) (f : LineEngine → LineEngine) : Chip.Does [.lines] c (c.onLine l f) :=
  ⟨fun p hp => by cases p <;> first | rfl | simp at hp, rfl, id, id, id, id, id⟩

/-- An entry of a table satisfies what every entry did, once its update does. -/
theorem update_forall {α : Type} {n : Nat} (P : α → Prop) (v : Vector α n) (i : Fin n) (f : α → α)
    (h : ∀ j : Fin n, P v[j]) (hf : P v[i] → P (f v[i])) (j : Fin n) : P (update v i f)[j] := by
  rw [update_apply]
  split
  · rename_i e; subst e; exact hf (h _)
  · exact h j

/-- An update of a terminal's link state that keeps it lawful. -/
theorem does_onTerminal (c : Chip) (t : TerminalNo) (f : TerminalLink → TerminalLink)
    (h : c.links[t].Lawful → (f c.links[t]).Lawful) : Chip.Does [.links] c (c.onTerminal t f) :=
  ⟨fun p hp => by cases p <;> first | rfl | simp at hp, rfl, id, id, id,
    fun k => update_forall TerminalLink.Lawful c.links t f k h, id⟩

/-- An update of a terminal's screen state that keeps the notice law. -/
theorem does_onScreen (c : Chip) (t : TerminalNo) (f : Screen → Screen)
    (h : c.screens[t].NoticeLaw → (f c.screens[t]).NoticeLaw) : Chip.Does [.screens] c (c.onScreen t f) :=
  ⟨fun p hp => by cases p <;> first | rfl | simp at hp, rfl, id,
    fun k => update_forall Screen.NoticeLaw c.screens t f k h, id, id, id⟩

theorem does_onNoticeWriter (c : Chip) (f : NoticeWriter → NoticeWriter)
    (h : c.noticeWriter.pending.Nodup → (f c.noticeWriter).pending.Nodup) :
    Chip.Does [.noticeWriter] c (c.onNoticeWriter f) :=
  ⟨fun p hp => by cases p <;> first | rfl | simp at hp, rfl, id, id, id, id,
    fun k => ⟨k.1, k.2.1, h k.2.2.1, k.2.2.2⟩⟩

/-- An update of a terminal's keys that keeps the ring law. -/
theorem does_onKeys (c : Chip) (t : TerminalNo) (f : KeyRing → KeyRing)
    (h : c.keys[t].RingLaw → (f c.keys[t]).RingLaw) : Chip.Does [.keys] c (c.onKeys t f) :=
  ⟨fun p hp => by cases p <;> first | rfl | simp at hp, rfl, id, id,
    fun k => update_forall KeyRing.RingLaw c.keys t f k h, id, id⟩

theorem does_onKeyWriter (c : Chip) (f : KeyWriter → KeyWriter)
    (h : c.keyWriter.pending.Nodup → (f c.keyWriter).pending.Nodup) :
    Chip.Does [.keyWriter] c (c.onKeyWriter f) :=
  ⟨fun p hp => by cases p <;> first | rfl | simp at hp, rfl, id, id, id, id,
    fun k => ⟨k.1, h k.2.1, k.2.2⟩⟩

theorem does_onStory (c : Chip) (s : StoryNo) (f : Story → Story) : Chip.Does [.stories] c (c.onStory s f) :=
  ⟨fun p hp => by cases p <;> first | rfl | simp at hp, rfl, id, id, id, id, id⟩

theorem does_onDesk (c : Chip) (d : DeskNo) (f : Desk → Desk) : Chip.Does [.desks] c (c.onDesk d f) :=
  ⟨fun p hp => by cases p <;> first | rfl | simp at hp, rfl, id, id, id, id, id⟩

theorem does_onCustody (c : Chip) (f : Custody → Custody)
    (h : c.custody.reports.Nodup → (f c.custody).reports.Nodup := by exact id) :
    Chip.Does [.custody] c (c.onCustody f) :=
  ⟨fun p hp => by cases p <;> first | rfl | simp at hp, rfl, id, id, id, id,
    fun k => ⟨k.1, k.2.1, k.2.2.1, h k.2.2.2⟩⟩

theorem does_onClock (c : Chip) (f : NightClock → NightClock) : Chip.Does [.clock] c (c.onClock f) :=
  ⟨fun p hp => by cases p <;> first | rfl | simp at hp, rfl, id, id, id, id, id⟩

theorem does_onFit (c : Chip) (f : FitEngine → FitEngine) : Chip.Does [.fit] c (c.onFit f) :=
  ⟨fun p hp => by cases p <;> first | rfl | simp at hp, rfl, id, id, id, id, id⟩

theorem does_onPage (c : Chip) (p : PageNo) (f : Page → Page) : Chip.Does [.pages] c (c.onPage p f) :=
  ⟨fun p hp => by cases p <;> first | rfl | simp at hp, rfl, id, id, id, id, id⟩

theorem does_onLink (c : Chip) (f : SettingLink → SettingLink) : Chip.Does [.link] c (c.onLink f) :=
  ⟨fun p hp => by cases p <;> first | rfl | simp at hp, rfl, id, id, id, id, id⟩

theorem does_onCell (c : Chip) (k : CellNo) (f : Cell → Cell) : Chip.Does [.unit] c (c.onCell k f) := does_onUnit c _

theorem does_outputQueue (c : Chip) (q : List PageNo) : Chip.Does [.outputQueue] c { c with outputQueue := q } :=
  ⟨fun p hp => by cases p <;> first | rfl | simp at hp, rfl, id, id, id, id, id⟩

theorem does_granted (c : Chip) (r : Requester) : Chip.Does [.path] c (c.granted r) := does_onPath c _

/-! ## Ordered sets -/

/-- An entry joins once. -/
theorem nodup_joinOnce {α : Type} [DecidableEq α] (l : List α) (x : α) (h : l.Nodup) : (joinOnce l x).Nodup := by
  unfold joinOnce
  split
  · exact h
  · rename_i hx
    exact List.nodup_append.mpr ⟨h, by simp, by
      intro a ha b hb e
      simp at hb
      exact hx (hb ▸ e ▸ ha)⟩

theorem mem_joinOnce {α : Type} [DecidableEq α] (l : List α) (x y : α) : y ∈ joinOnce l x ↔ y ∈ l ∨ y = x := by
  unfold joinOnce
  split
  · rename_i hx
    exact ⟨Or.inl, fun h => h.elim id fun e => e ▸ hx⟩
  · simp

/-! ## Marking, raising, pending writes (Ops, Flags) -/

theorem does_mark (i : MirrorItem) (c : Chip) : Chip.Does [.mirror, .unit] c (c.mark i) := by
  unfold Chip.mark
  have h := does_onMirror c (·.mark i) (nodup_joinOnce _ i)
  refine Chip.Does.ite (fun _ => h.andThen (does_onUnit _ _)) (fun _ => h.mono)

theorem does_markAll (l : List MirrorItem) (c : Chip) : Chip.Does [.mirror, .unit] c (c.markAll l) :=
  Chip.Does.foldl _ (fun c i => does_mark i c) l c

theorem does_raise (n : Cause) (c : Chip) : Chip.Does [.mirror, .unit] c (c.raise n) := by
  unfold Chip.raise
  have h := does_setAttention c (c.cu.attentionRaw ||| n.bit) c.cu.attentionMask
  exact Chip.Does.ite (fun _ => h.mono) (fun _ => h.andThen (does_mark _ _))

theorem does_takeMask (v : Word) (c : Chip) : Chip.Does [.unit] c (c.takeMask v) := does_setAttention c _ _

theorem does_clearCauses (v : Word) (c : Chip) : Chip.Does [.mirror, .unit] c (c.clearCauses v) := by
  unfold Chip.clearCauses
  exact Chip.Does.ite (fun _ => .refl _ _) (fun _ => (does_setAttention c _ _).andThen (does_mark _ _))

theorem does_pendKey (i : KeyItem) (c : Chip) : Chip.Does [.keyWriter] c (c.pendKey i) := by
  unfold Chip.pendKey
  refine does_onKeyWriter c _ (fun h => ?_)
  split
  · split
    · exact h
    · exact nodup_joinOnce _ _ h
  · exact nodup_joinOnce _ _ h

theorem does_pendRow (t : TerminalNo) (c : Chip) : Chip.Does [.noticeWriter] c (c.pendRow t) :=
  does_onNoticeWriter c _ (nodup_joinOnce _ t)

theorem does_markRow (t : TerminalNo) (r : Fin 24) (c : Chip) : Chip.Does [.screens] c (c.markRow t r) :=
  does_onScreen c t _ id

theorem does_markAllRows (t : TerminalNo) (c : Chip) : Chip.Does [.screens] c (c.markAllRows t) :=
  does_onScreen c t _ id

theorem does_clearRow (t : TerminalNo) (r : Fin 24) (c : Chip) : Chip.Does [.screens] c (c.clearRow t r) :=
  does_onScreen c t _ id

/-! ## Notices (R61 to R65) -/

theorem Notice.merge_kind (n m : Notice) : (n.merge m).kind = m.kind ∧ (n.merge m).subject = m.subject := ⟨rfl, rfl⟩

theorem Notice.matches_iff (m n : Notice) : m.matches n = true ↔ m.kind = n.kind ∧ m.subject = n.subject := by
  simp [Notice.matches]

/-- R62: a notice with a count of 1 to 99 entered keeps the notice law. -/
theorem Screen.enter_law (n : Notice) (hn : 1 ≤ n.count ∧ n.count ≤ 99) (s : Screen) (h : s.NoticeLaw) :
    (s.enter n).NoticeLaw := by
  obtain ⟨h1, h2, h3, h4⟩ := h
  unfold Screen.enter
  split
  · refine ⟨by simpa using h1, fun hm => by simpa using h2 hm, ?_, ?_⟩
    · refine List.pairwise_map.mpr (h3.imp ?_)
      intro a b hab
      have ea : ∀ m : Notice, (if m.matches n then n.merge m else m).kind = m.kind := by intro m; split <;> rfl
      have es : ∀ m : Notice, (if m.matches n then n.merge m else m).subject = m.subject := by
        intro m; split <;> rfl
      rw [ea, ea, es, es]
      exact hab
    · intro m hm
      obtain ⟨m', hm', rfl⟩ := List.mem_map.mp hm
      have := h4 m' hm'
      split
      · simp only [Notice.merge]; omega
      · exact this
  · rename_i hno
    split
    · rename_i hlt
      refine ⟨by simp; omega, fun hm => ?_, ?_, ?_⟩
      · have := h2 hm; omega
      · refine List.pairwise_append.mpr ⟨h3, by simp, ?_⟩
        intro a ha b hb
        simp at hb
        subst hb
        intro e
        exact hno (List.any_eq_true.mpr ⟨a, ha, (Notice.matches_iff a b).mpr e⟩)
      · intro m hm
        rcases List.mem_append.mp hm with hm | hm
        · exact h4 m hm
        · simp at hm; subst hm; exact hn
    · rename_i hge
      exact ⟨h1, fun _ => by show s.queue.length = 4; omega, h3, h4⟩

/-- R63: the law when the head leaves and the more mark is cleared. -/
theorem Screen.tail_law (s : Screen) (h : s.NoticeLaw) :
    Screen.NoticeLaw { s with queue := s.queue.tail, more := false } := by
  obtain ⟨h1, _, h3, h4⟩ := h
  refine ⟨by simp; omega, fun hm => by simp at hm, ?_, fun n hn => h4 n (List.mem_of_mem_tail hn)⟩
  cases hq : s.queue with
  | nil => simp
  | cons a q => rw [hq] at h3; exact (List.pairwise_cons.mp h3).2

/-- The law of an empty queue. -/
theorem Screen.empty_law (s : Screen) : Screen.NoticeLaw { s with queue := [], more := false } := by
  simp [Screen.NoticeLaw]

theorem does_enterNotice (n : Notice) (hn : 1 ≤ n.count ∧ n.count ≤ 99) (t : TerminalNo) (c : Chip) :
    Chip.Does [.screens, .noticeWriter] c (c.enterNotice n t) := by
  unfold Chip.enterNotice
  have h := does_onScreen c t (·.enter n) (Screen.enter_law n hn _)
  exact Chip.Does.ite (fun _ => h.mono) (fun _ => h.andThen (does_pendRow _ _))

theorem does_post (k : NoticeKind) (s : Nat) (v : Option Nat) (r : Recipients) (c : Chip) :
    Chip.Does [.screens, .noticeWriter] c (c.post k s v r) :=
  Chip.Does.foldl _ (fun c t => does_enterNotice _ (by simp) t c) _ c

theorem does_acknowledge (t : TerminalNo) (c : Chip) :
    Chip.Does [.screens, .noticeWriter] c (c.acknowledge t) := by
  unfold Chip.acknowledge
  exact Chip.Does.ite (fun _ => .refl _ _)
    (fun _ => (does_onScreen c t _ (Screen.tail_law _)).andThen (does_pendRow _ _))

theorem does_emptyQueue (t : TerminalNo) (c : Chip) :
    Chip.Does [.screens, .noticeWriter] c (c.emptyQueue t) := by
  unfold Chip.emptyQueue
  refine Chip.Does.ite (fun h => (does_onScreen c t _ (fun k => ?_)).mono)
    (fun _ => (does_onScreen c t _ (fun _ => Screen.empty_law _)).andThen (does_pendRow _ _))
  have e : c.screens[t] = { c.screens[t] with queue := [] } := by rw [← h]
  rw [e]
  exact Screen.empty_law _

/-! ## The fit engine (chapter 8) -/

theorem does_joinFitQueue (s : StoryNo) (c : Chip) : Chip.Does [.fit] c (c.joinFitQueue s) := by
  unfold Chip.joinFitQueue
  exact does_onFit c _

theorem does_stale (s : StoryNo) (c : Chip) : Chip.Does [.stories, .fit, .mirror, .unit] c (c.stale s) := by
  unfold Chip.stale
  refine Chip.Does.ite (fun _ => .refl _ _) (fun _ => ?_)
  split
  · exact (((does_onStory c s _).andThen (does_joinFitQueue s _) (n := [.stories, .fit])).andThen
      (does_mark _ _) (n := [.stories, .fit, .mirror, .unit])).andThen (does_mark _ _)
  · exact .refl _ _
  · exact (does_onStory c s _).mono

theorem does_restale (s : StoryNo) (c : Chip) : Chip.Does [.stories, .fit, .mirror, .unit] c (c.restale s) := by
  unfold Chip.restale
  exact Chip.Does.ite (fun _ => ((does_onFit c _).step (does_joinFitQueue s _)).mono) (fun _ => does_stale s c)

theorem does_staleFonts (fonts : Byte) (c : Chip) :
    Chip.Does [.stories, .fit, .mirror, .unit] c (c.staleFonts fonts) :=
  Chip.Does.foldl _ (fun c s => Chip.Does.ite (fun _ => does_stale s c) (fun _ => .refl _ _)) _ c

theorem does_recordFit (stop : FitStop) (r : FitRun) (c : Chip) : Chip.Does fitParts c (c.recordFit stop r) := by
  unfold Chip.recordFit
  extract_lets d e
  refine ((does_onStory c _ _).andThen (does_mark _ _) (n := fitParts) : Chip.Does fitParts c d).step ?_
  have h : Chip.Does [.mirror, .unit] d e := Chip.Does.ite (fun _ => does_raise .fit d) (fun _ => .refl _ d)
  refine h.step ?_
  clear_value e
  split
  · exact Chip.Does.ite (fun _ => (does_post _ _ _ _ e).mono) (fun _ => .refl _ _)
  · exact .refl _ _

theorem does_discardFit (s : StoryNo) (c : Chip) : Chip.Does fitParts c (c.discardFit s) := by
  unfold Chip.discardFit
  exact (((does_onStory c s _).andThen (does_joinFitQueue s _) (n := [.stories, .fit])).andThen
    (does_mark _ _) (n := [.stories, .fit, .mirror, .unit])).andThen (does_mark _ _)

theorem does_endRun (stop : FitStop) (r : FitRun) (c : Chip) : Chip.Does fitParts c (c.endRun stop r) := by
  unfold Chip.endRun
  exact Chip.Does.ite (fun _ => (does_onFit c _).andThen (does_discardFit _ _))
    (fun _ => (does_onFit c _).andThen (does_recordFit _ _ _))

theorem does_startRun (s : StoryNo) (rest : List StoryNo) (c : Chip) : Chip.Does fitParts c (c.startRun s rest) := by
  unfold Chip.startRun
  extract_lets d e
  refine ((does_onFit c _).andThen (does_mark _ _) (n := fitParts) : Chip.Does fitParts c d).step ?_
  refine ((does_onStory d s _).andThen (does_mark _ _) (n := fitParts) : Chip.Does fitParts d e).step ?_
  split
  · exact does_endRun _ _ _
  · exact Chip.Does.ite (fun _ => does_endRun _ _ _) (fun _ => (does_onFit _ _).mono)

theorem does_takeFits : ∀ (n : Nat) (c : Chip), Chip.Does fitParts c (c.takeFits n)
  | 0, c => .refl _ c
  | n + 1, c => by
    unfold Chip.takeFits
    refine Chip.Does.ite (fun _ => ?_) (fun _ => .refl _ _)
    split
    · exact .refl _ _
    · exact (does_startRun _ _ c).andThen (does_takeFits n _)

theorem does_fitTake (c : Chip) : Chip.Does fitParts c c.fitTake := does_takeFits _ c

theorem does_staleStory (s : StoryNo) (c : Chip) : Chip.Does fitParts c (c.staleStory s) :=
  (does_stale s c).andThen (does_fitTake _)

theorem does_withdrawFit (s : StoryNo) (c : Chip) : Chip.Does fitParts c (c.withdrawFit s) := by
  unfold Chip.withdrawFit
  split
  · exact .refl _ _
  · exact (does_onFit c _).andThen (does_mark _ _)
  · exact (does_onFit c _).andThen (does_fitTake _)

end Sys2Proof.Machine
end

