-- ==== Sys2Proof/Laws/Blocks.lean ====
section
/-! SUPPORT. What each block's operations may change (chapters 5 to 10): one lemma an operation, stated with
`Chip.Does`. -/

namespace Sys2Proof.Machine

-- One theorem after another: side by side they wait for one another, a thread each.
set_option Elab.async false

/-! ## Custody (chapter 6) -/

theorem does_setBasket (s : StoryNo) (before : Option StoryNo) (q : List StoryNo) (c : Chip) :
    Chip.Does [.desks, .mirror, .unit] c (c.setBasket s before q) := by
  unfold Chip.setBasket
  extract_lets d c1 c2
  have h1 : Chip.Does [.desks, .mirror, .unit] c c1 := (does_onDesk c d _).andThen (does_mark _ _)
  have h2 : Chip.Does [.desks, .mirror, .unit] c1 c2 := by
    show Chip.Does _ _ (match before with | some p => _ | none => _)
    split
    · exact (does_mark _ _).mono
    · exact .refl _ _
  exact (h1.step h2).andThen (does_mark _ _)

theorem does_joinTail (s : StoryNo) (c : Chip) : Chip.Does [.desks, .mirror, .unit] c (c.joinTail s) :=
  does_setBasket _ _ _ _

theorem does_joinHead (s : StoryNo) (c : Chip) : Chip.Does [.desks, .mirror, .unit] c (c.joinHead s) :=
  does_setBasket _ _ _ _

theorem does_leaveBasket (s : StoryNo) (c : Chip) : Chip.Does [.desks, .mirror, .unit] c (c.leaveBasket s) :=
  does_setBasket _ _ _ _

theorem does_rearm (s : StoryNo) (c : Chip) : Chip.Does [.stories] c (c.rearm s) := does_onStory c s _

theorem does_rearmHeld (t : TerminalNo) (c : Chip) : Chip.Does [.stories] c (c.rearmHeld t) :=
  Chip.Does.foldl _ (fun c s => does_rearm s c) _ c

/-- The fields that the opening and the return of a story may change. -/
def custodyParts : List Part := [.stories, .desks, .custody, .mirror, .unit]

theorem does_enterOpen (s : StoryNo) (t : TerminalNo) (c : Chip) : Chip.Does custodyParts c (c.enterOpen s t) := by
  unfold Chip.enterOpen
  extract_lets d c1 c2
  have h1 : Chip.Does custodyParts c c1 := (does_onStory c s _).mono
  have h2 : Chip.Does custodyParts c1 c2 := (does_onCustody c1 _).mono
  exact (h1.step h2).step (((does_onDesk c2 d _).andThen (does_mark _ _) (n := custodyParts)).andThen
    (does_mark _ _) (n := custodyParts))

theorem does_leaveOpen (s : StoryNo) (c : Chip) : Chip.Does custodyParts c (c.leaveOpen s) := by
  unfold Chip.leaveOpen
  extract_lets d c1 c2
  have h1 : Chip.Does custodyParts c c1 := by
    show Chip.Does _ _ (match c.stories[s].holder with | some t => _ | none => _)
    split
    · exact (does_onCustody c _).mono
    · exact .refl _ _
  have h2 : Chip.Does custodyParts c1 c2 := (does_onStory c1 s _).mono
  exact (h1.step h2).step (((does_onDesk c2 d _).andThen (does_mark _ _) (n := custodyParts)).andThen
    (does_mark _ _) (n := custodyParts))

theorem does_returnToHead (s : StoryNo) (c : Chip) : Chip.Does custodyParts c (c.returnToHead s) := by
  unfold Chip.returnToHead
  extract_lets c1
  have h1 : Chip.Does custodyParts c c1 :=
    Chip.Does.ite (fun _ => does_leaveOpen s c) (fun _ => .refl _ _)
  exact h1.step ((does_onStory c1 s _).andThen (does_joinHead s _))

theorem does_freeze (s : StoryNo) (c : Chip) : Chip.Does [.stories, .desks, .mirror, .unit] c (c.freeze s) := by
  unfold Chip.freeze
  extract_lets c1
  have h1 : Chip.Does [.desks, .mirror, .unit] c c1 :=
    Chip.Does.ite (fun _ => does_leaveBasket s c) (fun _ => .refl _ _)
  exact h1.step ((does_onStory c1 s _).andThen (does_mark _ _))

theorem does_removeFrom (p : PageNo) (s : StoryNo) (c : Chip) :
    Chip.Does [.pages, .stories, .mirror, .unit] c (c.removeFrom p s) := by
  unfold Chip.removeFrom
  extract_lets c1
  have h1 : Chip.Does [.pages, .mirror, .unit] c c1 := (does_onPage c p _).andThen (does_mark _ _)
  exact h1.step ((does_onStory c1 s _).andThen (does_mark _ _))

theorem does_removePlacement (s : StoryNo) (c : Chip) :
    Chip.Does [.pages, .stories, .mirror, .unit] c (c.removePlacement s) := by
  unfold Chip.removePlacement
  split
  · exact .refl _ _
  · exact does_removeFrom _ _ _

theorem does_takeReport (c : Chip) : Chip.Does [.custody, .stories, .mirror, .unit] c c.takeReport := by
  unfold Chip.takeReport
  split
  · exact .refl _ _
  · rename_i s rest hr
    extract_lets c1
    have h1 : Chip.Does [.custody] c c1 := does_onCustody c _ fun h => by
      rw [hr] at h; exact (List.nodup_cons.mp h).2
    refine h1.step ?_
    clear_value c1
    refine Chip.Does.ite (fun _ => .refl _ _) (fun _ => ?_)
    have h2 : Chip.Does [.custody, .stories, .mirror, .unit] c1
        ((c1.onStory s fun x => { x with stamp := c1.clock.count }).mark (.story s)) :=
      (does_onStory c1 s _).andThen (does_mark _ _)
    exact h2.step (Chip.Does.ite (fun _ => (does_rearm s _).mono) (fun _ => .refl _ _))

theorem does_takeDeskWord (k : Nat) (v : Word) (c : Chip) : Chip.Does [.desks] c (c.takeDeskWord k v) :=
  does_onDesk c _ _

theorem does_createStory (s : StoryNo) (d : DeskNo) (urgent : Bool) (c : Chip) :
    Chip.Does ([.desks, .custody] ++ fitParts) c (c.createStory s d urgent) := by
  unfold Chip.createStory
  extract_lets c1 c2 c3
  have h1 : Chip.Does custodyParts c c1 := (does_onStory c s _).andThen (does_mark _ _)
  have h2 : Chip.Does custodyParts c1 c2 := by
    show Chip.Does _ _ (match c1.callerTerminal with | some t => _ | none => _)
    split
    · exact does_enterOpen _ _ _
    · exact (does_onStory c1 s _).mono
  have h3 : Chip.Does custodyParts c2 c3 := (does_onCustody c2 _).andThen (does_mark _ _)
  exact ((h1.step h2).step h3).andThen (does_staleStory s c3)

theorem does_sendStory (s : StoryNo) (d : DeskNo) (urgent : Bool) (c : Chip) :
    Chip.Does [.unit, .mirror, .stories, .desks, .custody, .screens, .noticeWriter] c (c.sendStory s d urgent) := by
  unfold Chip.sendStory
  extract_lets c1 c2
  have h1 : Chip.Does custodyParts c c1 :=
    Chip.Does.ite (fun _ => does_leaveOpen s c) (fun _ => (does_leaveBasket s c).mono)
  have h2 : Chip.Does custodyParts c1 c2 := (does_onStory c1 s _).mono
  exact (h1.step h2).step ((does_joinTail s c2).andThen (does_post _ _ _ _ _))

theorem does_freeAll (l : List BlockNo) (c : Chip) : Chip.Does [.custody, .mirror, .unit] c (c.freeAll l) := by
  unfold Chip.freeAll
  extract_lets c1
  have h1 : Chip.Does [.custody] c c1 := does_onCustody c _
  exact h1.step (Chip.Does.ite (fun _ => .refl _ _) (fun _ => (does_mark _ _).mono))

theorem does_killStory (s : StoryNo) (c : Chip) :
    Chip.Does ([.desks, .custody, .pages] ++ fitParts) c (c.killStory s) := by
  unfold Chip.killStory
  extract_lets x c1 c2 c3 c4
  have h1 : Chip.Does ([.desks, .custody, .pages] ++ fitParts) c c1 := by
    show Chip.Does _ _ (match x.state, x.holder with | .open_, some t => _ | .basket, _ => _ | _, _ => _)
    split
    · exact (does_post _ _ _ _ _).andThen (does_leaveOpen s _)
    · exact (does_leaveBasket s c).mono
    · exact .refl _ _
  have h2 : Chip.Does ([.desks, .custody, .pages] ++ fitParts) c1 c2 :=
    ((does_removePlacement s c1).andThen (does_withdrawFit s _)
      (n := [.desks, .custody, .pages] ++ fitParts)).andThen (does_freeAll _ _)
  have h3 : Chip.Does ([.desks, .custody, .pages] ++ fitParts) c2 c3 :=
    (does_onStory c2 s _).andThen (does_mark _ _)
  have h4 : Chip.Does ([.desks, .custody, .pages] ++ fitParts) c3 c4 := by
    refine Chip.Does.mono (l := [.custody]) (does_onCustody c3 _ ?_)
    exact fun h => List.Pairwise.filter _ h
  exact (((h1.step h2).step h3).step h4).andThen (does_mark _ _)

/-! ## The setting link and the page controller (chapters 9 and 10) -/

theorem does_queueTail (p : PageNo) (c : Chip) : Chip.Does [.outputQueue] c (c.queueTail p) := does_outputQueue c _
theorem does_queueHead (p : PageNo) (c : Chip) : Chip.Does [.outputQueue] c (c.queueHead p) := does_outputQueue c _
theorem does_unqueue (p : PageNo) (c : Chip) : Chip.Does [.outputQueue] c (c.unqueue p) := does_outputQueue c _

theorem does_giveBack (p : PageNo) (c : Chip) :
    Chip.Does [.pages, .outputQueue, .mirror, .unit] c (c.giveBack p) := by
  unfold Chip.giveBack
  exact ((((does_onPage c p _).andThen (does_queueHead p _) (n := [.pages, .outputQueue])).andThen
    (does_mark _ _) (n := [.pages, .outputQueue, .mirror, .unit]))).andThen (does_mark _ _)

theorem does_completePage (p : PageNo) (c : Chip) :
    Chip.Does [.pages, .screens, .noticeWriter, .mirror, .unit] c (c.completePage p) := by
  unfold Chip.completePage
  exact Chip.Does.ite
    (fun _ => (((does_onPage c p _).andThen (does_mark _ _) (n := [.pages, .mirror, .unit])).andThen
      (does_post _ _ _ _ _) (n := [.pages, .screens, .noticeWriter, .mirror, .unit])).andThen (does_raise _ _))
    (fun _ => .refl _ _)

theorem does_linkTo (st : LinkState) (stage : Option LinkStage) (c : Chip) :
    Chip.Does [.link, .mirror, .unit] c (c.linkTo st stage) := by
  unfold Chip.linkTo
  extract_lets c1
  have h1 : Chip.Does [.link] c c1 := does_onLink c _
  exact h1.step (Chip.Does.ite (fun _ => .refl _ _) (fun _ => (does_mark _ _).mono))

theorem does_transmit (c : Chip) : Chip.Does [.link, .mirror, .unit] c c.transmit := does_linkTo _ _ _

theorem does_sendFrame (k : FrameKind) (l : List Word) (c : Chip) :
    Chip.Does [.link, .mirror, .unit] c (c.sendFrame k l) := (does_onLink c _).andThen (does_transmit _)

theorem does_buildNext (c : Chip) : Chip.Does [.link, .mirror, .unit] c c.buildNext := by
  unfold Chip.buildNext
  split
  · exact .refl _ _
  · extract_lets close
    have hclose : Chip.Does [.link, .mirror, .unit] c close := (does_onLink c _).andThen (does_sendFrame _ _ _)
    split
    · split
      · exact hclose
      · exact (does_onLink c _).andThen (does_sendFrame _ _ _)
    · exact (does_onLink c _).andThen (does_linkTo _ _ _)
    · exact hclose

theorem does_frameSent (c : Chip) : Chip.Does [.link] c c.frameSent :=
  Chip.Does.ite (fun _ => does_onLink c _) (fun _ => .refl _ _)

theorem does_pageTake (c : Chip) : Chip.Does linkParts c c.pageTake := by
  unfold Chip.pageTake
  split
  · exact .refl _ _
  · rename_i p rest _
    refine Chip.Does.ite (fun _ => ?_) (fun _ => .refl _ _)
    extract_lets c1
    have h1 : Chip.Does linkParts c c1 :=
      (((does_outputQueue c rest).andThen (does_onPage _ p _) (n := linkParts)).andThen (does_mark _ _)
        (n := linkParts)).andThen (does_mark _ _)
    exact h1.step ((does_onLink c1 _).andThen (does_sendFrame _ _ _))

theorem does_buildAbandon (c : Chip) : Chip.Does [.link, .mirror, .unit] c c.buildAbandon := by
  unfold Chip.buildAbandon
  split
  · exact .refl _ _
  · exact (does_onLink c _).andThen (does_sendFrame _ _ _)

theorem does_withdrawPage (p : PageNo) (c : Chip) : Chip.Does [.link, .mirror, .unit] c (c.withdrawPage p) := by
  unfold Chip.withdrawPage
  extract_lets c1
  have h1 : Chip.Does [.link] c c1 := does_onLink c _
  exact h1.step (Chip.Does.ite (fun _ => does_buildAbandon _) (fun _ => .refl _ _))

theorem does_endAbandon (c : Chip) : Chip.Does [.link, .mirror, .unit] c c.endAbandon :=
  (does_onLink c _).andThen (does_linkTo _ _ _)

theorem does_linkFault (c : Chip) : Chip.Does linkParts c c.linkFault := by
  unfold Chip.linkFault
  extract_lets named c1 c2 c3
  have h1 : Chip.Does linkParts c c1 := by
    show Chip.Does _ _ (match c.link.page with | some p => _ | none => _)
    split
    · exact (does_giveBack _ _).mono
    · exact .refl _ _
  have h2 : Chip.Does linkParts c1 c2 := by
    show Chip.Does _ _ (match named with | some p => _ | none => _)
    clear_value named
    cases named
    · exact .refl _ _
    · exact (does_post _ _ _ _ _).mono
  have h3 : Chip.Does linkParts c2 c3 := (does_raise _ _).mono
  exact ((h1.step h2).step h3).step ((does_onLink c3 _).andThen (does_linkTo _ _ _))

theorem does_frameFailed (c : Chip) : Chip.Does linkParts c c.frameFailed := by
  unfold Chip.frameFailed
  extract_lets c1
  have h1 : Chip.Does [.link] c c1 := does_onLink c _
  exact h1.step (Chip.Does.ite (fun _ => (does_onLink c1 _).andThen (does_transmit _)) (fun _ => does_linkFault c1))

theorem does_frameRejected (c : Chip) : Chip.Does linkParts c c.frameRejected :=
  Chip.Does.ite (fun _ => (does_buildAbandon c).mono) (fun _ => does_frameFailed c)

theorem does_completeLink (c : Chip) : Chip.Does linkParts c c.completeLink := by
  unfold Chip.completeLink
  extract_lets c1
  have h1 : Chip.Does linkParts c c1 := by
    show Chip.Does _ _ (match c.link.page with | some p => _ | none => _)
    split
    · exact (does_completePage _ _).mono
    · exact .refl _ _
  exact h1.step ((does_onLink c1 _).andThen (does_linkTo _ _ _))

theorem does_frameAccepted (c : Chip) : Chip.Does linkParts c c.frameAccepted := by
  unfold Chip.frameAccepted
  extract_lets c1
  have h1 : Chip.Does [.link] c c1 := does_onLink c _
  refine h1.step ?_
  clear_value c1
  refine Chip.Does.ite (fun _ => (does_buildAbandon _).mono) (fun _ => ?_)
  split
  · exact .refl _ _
  · split
    · exact (does_endAbandon _).mono
    · exact does_completeLink _
    · exact (does_onLink c1 _).andThen (does_buildNext _)
    · exact (does_buildNext _).mono

theorem does_frameHeld (c : Chip) : Chip.Does [.link, .mirror, .unit] c c.frameHeld :=
  Chip.Does.ite (fun _ => does_buildAbandon c) (fun _ => does_linkTo _ _ c)

theorem does_answerWord (w : Word) (c : Chip) : Chip.Does linkParts c (c.answerWord w) :=
  Chip.Does.ite
    (fun _ => Chip.Does.ite (fun _ => does_frameAccepted c)
      (fun _ => Chip.Does.ite (fun _ => (does_frameHeld c).mono) (fun _ => does_frameRejected c)))
    (fun _ => .refl _ _)

theorem does_linkPulse (c : Chip) : Chip.Does linkParts c c.linkPulse :=
  Chip.Does.ite (fun _ => does_frameRejected c) (fun _ =>
    Chip.Does.ite (fun _ => (does_onLink c _).mono) (fun _ =>
      Chip.Does.ite (fun _ => (does_onLink c _).andThen (does_transmit _)) (fun _ =>
        Chip.Does.ite (fun _ => does_linkFault c) (fun _ => .refl _ _))))

theorem does_turnLinkOff (c : Chip) : Chip.Does [.link, .pages, .outputQueue, .mirror, .unit] c c.turnLinkOff := by
  unfold Chip.turnLinkOff
  extract_lets c1
  have h1 : Chip.Does [.link, .pages, .outputQueue, .mirror, .unit] c c1 := by
    show Chip.Does _ _ (match c.link.page with | some p => _ | none => _)
    split
    · exact (does_giveBack _ _).andThen (does_withdrawPage _ _)
    · exact .refl _ _
  exact h1.andThen (does_onLink c1 _)

theorem does_placeStory (p : PageNo) (s : StoryNo) (hole : Nat) (c : Chip) :
    Chip.Does (.pages :: fitParts) c (c.placeStory p s hole) := by
  unfold Chip.placeStory
  extract_lets c1 c2
  have h1 : Chip.Does (.pages :: fitParts) c c1 := (does_onPage c p _).andThen (does_mark _ _)
  have h2 : Chip.Does (.pages :: fitParts) c1 c2 := (does_onStory c1 s _).andThen (does_mark _ _)
  exact (h1.step h2).step ((does_restale s c2).andThen (does_fitTake _))

theorem does_unplaceStory (p : PageNo) (s : StoryNo) (c : Chip) :
    Chip.Does (.pages :: fitParts) c (c.unplaceStory p s) :=
  ((does_removeFrom p s c).andThen (does_restale s _) (n := .pages :: fitParts)).andThen (does_fitTake _)

theorem does_releasePage (p : PageNo) (c : Chip) :
    Chip.Does [.unit, .mirror, .pages, .outputQueue, .stories, .desks, .screens, .noticeWriter] c
      (c.releasePage p) := by
  unfold Chip.releasePage
  extract_lets c1 c2
  have h1 : Chip.Does [.stories, .desks, .mirror, .unit] c c1 :=
    Chip.Does.foldl _ (fun c (e : Placement) => does_freeze e.story c) _ c
  have h2 : Chip.Does [.stories, .desks, .mirror, .unit, .pages] c1 c2 := (does_onPage c1 p _).mono
  have h3 := (((does_queueTail p c2).andThen (does_mark (.page p) _)
    (n := [.outputQueue, .mirror, .unit])).andThen (does_mark .outputCount _) (n := [.outputQueue, .mirror, .unit]))
  exact ((h1.step h2).andThen h3
    (n := [.unit, .mirror, .pages, .outputQueue, .stories, .desks, .screens, .noticeWriter])).andThen
      (does_post _ _ _ _ _)

theorem does_recallPage (p : PageNo) (c : Chip) :
    Chip.Does [.outputQueue, .link, .mirror, .unit] c (c.recallPage p) := by
  unfold Chip.recallPage
  split
  · exact (does_unqueue p c).andThen (does_mark _ _)
  · exact Chip.Does.ite (fun _ => (does_withdrawPage p c).mono) (fun _ => .refl _ _)
  · exact .refl _ _

theorem does_replatePage (p : PageNo) (c : Chip) :
    Chip.Does [.unit, .mirror, .pages, .outputQueue, .stories, .desks, .custody, .link] c (c.replatePage p) := by
  unfold Chip.replatePage
  extract_lets c1
  have h1 : Chip.Does [.outputQueue, .link, .mirror, .unit, .pages] c c1 :=
    (does_recallPage p c).andThen (does_onPage _ p _)
  exact (h1.andThen (Chip.Does.foldl _ (fun c (e : Placement) => does_returnToHead e.story c) c1.pages[p].placements c1)
    (n := [.unit, .mirror, .pages, .outputQueue, .stories, .desks, .custody, .link])).andThen (does_mark _ _)

theorem does_makeLate (p : PageNo) (c : Chip) :
    Chip.Does [.pages, .screens, .noticeWriter, .mirror, .unit] c (c.makeLate p) := by
  unfold Chip.makeLate
  exact (((does_onPage c p _).andThen (does_mark _ _) (n := [.pages, .mirror, .unit])).andThen
    (does_post _ _ _ _ _) (n := [.pages, .screens, .noticeWriter, .mirror, .unit])).andThen (does_raise _ _)

theorem does_comparePages (c : Chip) :
    Chip.Does [.pages, .screens, .noticeWriter, .mirror, .unit] c c.comparePages :=
  Chip.Does.foldl _ (fun c p => Chip.Does.ite (fun _ => does_makeLate p c) (fun _ => .refl _ _)) _ c

/-! ## The night clock (chapter 7) -/

theorem does_closeEdition (e : Nat) (c : Chip) :
    Chip.Does [.clock, .screens, .noticeWriter, .mirror, .unit] c (c.closeEdition e) := by
  unfold Chip.closeEdition
  extract_lets c1
  have h1 : Chip.Does [.clock, .mirror, .unit] c c1 :=
    Chip.Does.ite (fun _ => (does_onClock c _).andThen (does_mark _ _)) (fun _ => .refl _ _)
  exact (h1.andThen (does_post _ _ _ _ _) (n := [.clock, .screens, .noticeWriter, .mirror, .unit])).andThen
    (does_raise _ _)

/-- The fields that the counting of leases may change. -/
def leaseParts : List Part := [.stories, .desks, .custody, .screens, .noticeWriter, .mirror, .unit]

theorem does_warnHolder (s : StoryNo) (c : Chip) : Chip.Does leaseParts c (c.warnHolder s) := by
  unfold Chip.warnHolder
  extract_lets limit c1
  have h1 : Chip.Does leaseParts c c1 := by
    show Chip.Does _ _ (match c.stories[s].holder with | some t => _ | none => _)
    split
    · exact (does_post _ _ _ _ _).mono
    · exact .refl _ _
  exact h1.andThen (does_onStory c1 s _)

theorem does_recallStory (s : StoryNo) (c : Chip) : Chip.Does leaseParts c (c.recallStory s) := by
  unfold Chip.recallStory
  extract_lets holder c1
  have h1 : Chip.Does custodyParts c c1 := does_returnToHead s c
  refine h1.step ?_
  clear_value c1 holder
  cases holder
  · exact .refl _ _
  · exact (does_post _ _ _ _ _).mono

theorem does_expireLease (s : StoryNo) (w : Bool) (c : Chip) : Chip.Does leaseParts c (c.expireLease s w) :=
  Chip.Does.ite (fun _ => does_recallStory s c) (fun _ => does_warnHolder s c)

theorem does_countLease (c : Chip) (s : StoryNo) : Chip.Does leaseParts c (c.countLease s) := by
  unfold Chip.countLease
  split
  · exact .refl _ _
  · extract_lets c1
    have h1 : Chip.Does [.stories] c c1 := does_onStory c s _
    exact h1.step (Chip.Does.ite (fun _ => does_expireLease _ _ _) (fun _ => .refl _ _))

theorem does_countLeases (c : Chip) : Chip.Does leaseParts c c.countLeases :=
  Chip.Does.foldl _ (fun c s => does_countLease c s) _ c

/-- The fields a pulse at the clock may change. -/
def pulseParts : List Part :=
  [.clock, .pages, .stories, .desks, .custody, .screens, .noticeWriter, .unit, .mirror]

theorem does_runningPulse (c : Chip) : Chip.Does pulseParts c c.runningPulse := by
  unfold Chip.runningPulse
  extract_lets count c1 c2
  have h1 : Chip.Does pulseParts c c1 := (does_onClock c _).andThen (does_mark _ _)
  have h2 : Chip.Does pulseParts c1 c2 := by
    show Chip.Does _ _ (match c1.clock.closing count with | some e => _ | none => _)
    split
    · exact (does_closeEdition _ _).mono
    · exact .refl _ _
  exact (h1.step h2).step ((does_comparePages c2).andThen (does_countLeases _))

theorem does_clockPulse (c : Chip) : Chip.Does pulseParts c c.clockPulse :=
  Chip.Does.ite (fun _ => does_runningPulse c) (fun _ => .refl _ _)

theorem does_loadClock (v : Word) (c : Chip) : Chip.Does [.clock, .mirror, .unit] c (c.loadClock v) :=
  ((does_onClock c _).andThen (does_mark _ _) (n := [.clock, .mirror, .unit])).andThen (does_mark _ _)

theorem does_takeSchedule (l : List Word) (c : Chip) : Chip.Does [.clock, .mirror, .unit] c (c.takeSchedule l) :=
  (does_onClock c _).andThen (does_mark _ _)

/-! ## Key intake (chapter 5) -/

/-- R75: a code taken keeps the ring law. -/
theorem KeyRing.takeCode_law (b : Byte) (k : KeyRing) (h : k.RingLaw) : (k.takeCode b).RingLaw := by
  unfold KeyRing.takeCode
  split
  · exact h
  · split
    · exact h
    · rename_i hf
      simp only [KeyRing.full, decide_eq_true_eq] at hf
      simp only [KeyRing.RingLaw, KeyRing.unread, List.length_append, List.length_cons, List.length_nil] at hf ⊢
      omega

theorem does_takeCode (t : TerminalNo) (c : Chip) (b : Byte) :
    Chip.Does [.keys, .screens, .noticeWriter] c (c.takeCode t b) :=
  Chip.Does.ite (fun _ => (does_acknowledge t c).mono)
    (fun _ => (does_onKeys c t _ (KeyRing.takeCode_law b _)).mono)

theorem does_keysAnswer (t : TerminalNo) (codes : List Byte) (c : Chip) :
    Chip.Does [.keys, .keyWriter, .screens, .noticeWriter, .stories] c (c.keysAnswer t codes) := by
  unfold Chip.keysAnswer
  extract_lets before c1 c2 c3
  have h1 : Chip.Does [.keys, .keyWriter, .screens, .noticeWriter] c c1 :=
    (Chip.Does.foldl (Chip.takeCode t) (does_takeCode t) codes c).mono
  have h2 : Chip.Does [.keys, .keyWriter, .screens, .noticeWriter] c1 c2 :=
    Chip.Does.ite (fun _ => .refl _ _) (fun _ => (does_pendKey _ _).mono)
  have h3 : Chip.Does [.keys, .keyWriter, .screens, .noticeWriter] c2 c3 :=
    Chip.Does.ite (fun _ => .refl _ _) (fun _ => (does_pendKey _ _).mono)
  exact ((h1.step h2).step h3).andThen (does_rearmHeld t c3)

/-- R74: an accepted take write keeps the ring law. -/
theorem KeyRing.takeTo_law (v : Word) (k : KeyRing) (hv : k.inSpan v = true) (h : k.RingLaw) :
    (k.takeTo (Fin.ofNat 64 v.toNat)).RingLaw := by
  simp only [KeyRing.inSpan, Bool.and_eq_true, decide_eq_true_eq] at hv
  obtain ⟨_, hs⟩ := hv
  simp only [KeyRing.RingLaw, KeyRing.unread, KeyRing.takeTo] at h hs ⊢
  generalize (Fin.ofNat 64 v.toNat) = n at hs ⊢
  have e : (k.put - n).val ≤ (k.put - k.take).val := by
    simp only [Fin.sub_def] at hs ⊢
    omega
  omega

theorem does_takeIndex (t : TerminalNo) (v : Word) (c : Chip) (hv : c.keys[t].inSpan v = true) :
    Chip.Does [.keys, .keyWriter] c (c.takeIndex t v) := by
  unfold Chip.takeIndex
  extract_lets c1
  have h1 : Chip.Does [.keys] c c1 := does_onKeys c t _ (KeyRing.takeTo_law v _ hv)
  exact h1.step (Chip.Does.ite (fun _ => .refl _ _) (fun _ => (does_pendKey _ _).mono))

theorem does_endKeyItem (c : Chip) : Chip.Does [.keyWriter] c c.endKeyItem := does_onKeyWriter c _ id

theorem does_beginKeyItem (c : Chip) : Chip.Does [.keyWriter] c c.beginKeyItem := by
  unfold Chip.beginKeyItem
  split
  · rename_i i rest _ hp
    exact does_onKeyWriter c _ fun h => by rw [hp] at h; exact (List.nodup_cons.mp h).2
  · exact .refl _ _

/-- R79: a waiting key written keeps the ring law: it moves from the waiting keys to the unread. -/
theorem KeyRing.written_law (b : Byte) (rest : List Byte) (k k' : KeyRing) (hw : k.waiting = b :: rest)
    (ht : k'.take = k.take) (hp : k'.put = k.put + 1) (hr : k'.waiting = rest) (h : k.RingLaw) : k'.RingLaw := by
  simp only [KeyRing.RingLaw, KeyRing.unread, ht, hp, hr, hw, List.length_cons, Fin.sub_def, Fin.add_def] at h ⊢
  have h1 : ((1 : Fin 64) : Nat) = 1 := rfl
  omega

theorem does_keyWordWrite (c : Chip) (w : OwnWrite) (h : c.keyWordWrite = some w) :
    Chip.Does [.keys, .keyWriter] c w.after := by
  unfold Chip.keyWordWrite at h
  split at h
  · rename_i t _
    split at h
    · cases h
    · rename_i b rest hb
      injection h with h
      subst h
      have h1 := (does_onKeys c t (fun k =>
        { k with waiting := rest, put := k.put + 1
                 textMark := k.textMark || !isFunctionKey b
                 functionMark := k.functionMark || isFunctionKey b })
        (KeyRing.written_law b rest _ _ hb rfl rfl rfl)).andThen (does_pendKey (.putWord t) _) (n := [.keys, .keyWriter])
      exact Chip.Does.ite (fun _ => h1.andThen (does_endKeyItem _)) (fun _ => h1)
  · cases h

theorem does_putWordWrite (c : Chip) (w : OwnWrite) (h : c.putWordWrite = some w) :
    Chip.Does [.keys, .keyWriter, .mirror, .unit] c w.after := by
  unfold Chip.putWordWrite at h
  split at h
  · rename_i t _
    injection h with h
    subst h
    have h1 : Chip.Does [.keys, .mirror, .unit] c
        (c.onKeys t fun k => { k with textMark := false, functionMark := false }) :=
      (does_onKeys c t _ id).mono
    refine h1.step (Chip.Does.andThen (l := [.keys, .mirror, .unit])
      (Chip.Does.ite (fun _ => ?_) (fun _ => ?_)) (does_endKeyItem _))
    · refine (Chip.Does.ite (fun _ => (does_raise .keys _).mono) (fun _ => .refl _ _) :
        Chip.Does [.keys, .mirror, .unit] _ _).andThen (does_raise .function _)
    · exact Chip.Does.ite (fun _ => (does_raise .keys _).mono) (fun _ => .refl _ _)
  · cases h

theorem does_statusWordWrite (c : Chip) (w : OwnWrite) (h : c.statusWordWrite = some w) :
    Chip.Does [.keyWriter] c w.after := by
  have e : w.after = c.endKeyItem := by
    unfold Chip.statusWordWrite at h
    split at h <;> first | cases h; done | (injection h with h; rw [← h])
  rw [e]
  exact does_endKeyItem c

theorem does_endSession (t : TerminalNo) (c : Chip) :
    Chip.Does [.mirror, .unit, .keys, .keyWriter, .screens, .noticeWriter, .stories, .desks, .custody] c
      (c.endSession t) := by
  unfold Chip.endSession
  extract_lets held c1 marked c2
  have h1 : Chip.Does [.mirror, .unit, .keys, .keyWriter, .screens, .noticeWriter, .stories, .desks, .custody] c c1 :=
    (Chip.Does.foldl _ (fun c s => does_returnToHead s c) held c).andThen (does_emptyQueue t _)
  clear_value c1
  have h2 : Chip.Does [.keys, .keyWriter] c1 c2 := (does_onKeys c1 t _ id).andThen (does_pendKey _ _)
  exact h1.step (h2.step (Chip.Does.ite (fun _ => (does_pendKey _ _).mono) (fun _ => .refl _ _)))

/-! ## The line engines (chapter 3) -/

theorem does_visitStep (l : LineNo) (c : Chip) : Chip.Does [.lines, .screens] c (c.visitStep l) := by
  unfold Chip.visitStep
  split
  · exact .refl _ _
  · split
    · exact (does_clearRow _ _ c).andThen (does_onLine _ l _)
    · exact (does_onLine c l _).mono

theorem does_beginVisit (l : LineNo) (a : Fin 8) (k : VisitKind) (c : Chip) :
    Chip.Does [.lines, .screens] c (c.beginVisit l a k) := by
  unfold Chip.beginVisit
  extract_lets c1
  have h1 : Chip.Does [.lines] c c1 := does_onLine c l _
  refine h1.step ?_
  clear_value c1
  split
  · exact does_visitStep l c1
  · exact (does_onLine c1 l _).mono

theorem does_sweep (l : LineNo) : ∀ (n : Nat) (rest : List (Fin 8)) (c : Chip),
    Chip.Does [.lines, .screens] c (c.sweep l n rest)
  | 0, _, c => .refl _ c
  | n + 1, rest, c => by
    unfold Chip.sweep
    split
    · exact does_beginVisit _ _ _ _
    · extract_lets c1
      have h1 : Chip.Does [.lines] c c1 := does_onLine c l _
      exact h1.step (Chip.Does.ite (fun _ => does_sweep l n _ _) (fun _ => (does_onLine c1 l _).mono))

theorem does_newSweep (l : LineNo) (c : Chip) : Chip.Does [.lines, .screens] c (c.newSweep l) := by
  unfold Chip.newSweep
  extract_lets c1
  have h1 : Chip.Does [.lines] c c1 := does_onLine c l _
  exact h1.step (Chip.Does.ite (fun _ => does_sweep l _ _ _) (fun _ => (does_onLine c1 l _).mono))

theorem does_nextAddress (l : LineNo) (c : Chip) : Chip.Does [.lines, .screens] c (c.nextAddress l) :=
  does_sweep l _ _ c

theorem does_testLine (l : LineNo) (c : Chip) : Chip.Does [.lines, .screens] c (c.testLine l) :=
  Chip.Does.ite (fun _ => does_nextAddress l c) (fun _ => (does_onLine c l _).mono)

theorem does_afterQuiet (l : LineNo) (c : Chip) : Chip.Does [.lines, .screens] c (c.afterQuiet l) := by
  unfold Chip.afterQuiet
  split
  · exact does_nextAddress l c
  · exact does_testLine l c
  · exact does_newSweep l c

/-- R51: a good answer leaves a lawful link state. -/
theorem TerminalLink.good_law (k : TerminalLink) : k.good.Lawful := rfl

/-- R51: a miss leaves a lawful link state. -/
theorem TerminalLink.miss_law (k : TerminalLink) (h : k.Lawful) : k.miss.Lawful := by
  unfold TerminalLink.miss
  split
  · exact h
  · show (1 : Fin 4).val ≤ 2; decide
  · split
    · show (k.misses + 1).val ≤ 2
      simp only [Fin.add_def]
      have h1 : ((1 : Fin 4) : Nat) = 1 := rfl
      omega
    · rfl
  · rfl

theorem does_setLink (t : TerminalNo) (k : TerminalLink) (c : Chip)
    (h : c.links[t].Lawful → k.Lawful) : Chip.Does [.links, .keyWriter] c (c.setLink t k) :=
  Chip.Does.ite (fun _ => .refl _ _) (fun _ => (does_onTerminal c t _ h).andThen (does_pendKey _ _))

theorem does_countGood (t : TerminalNo) (c : Chip) :
    Chip.Does [.links, .keyWriter, .screens, .mirror, .unit] c (c.countGood t) := by
  unfold Chip.countGood
  extract_lets was c1
  have h1 : Chip.Does [.links, .keyWriter] c c1 := does_setLink t _ c fun _ => TerminalLink.good_law _
  exact h1.step (Chip.Does.ite (fun _ => (does_markAllRows t c1).andThen (does_raise _ _)) (fun _ => .refl _ _))

theorem does_enterDown (t : TerminalNo) (c : Chip) :
    Chip.Does [.screens, .noticeWriter, .mirror, .unit] c (c.enterDown t) := by
  unfold Chip.enterDown
  extract_lets c1
  have h1 : Chip.Does [.mirror, .unit] c c1 := does_raise _ c
  refine h1.step ?_
  clear_value c1
  split
  · exact (does_post _ _ _ _ _).mono
  · exact .refl _ _

theorem does_countMiss (t : TerminalNo) (c : Chip) :
    Chip.Does [.links, .keyWriter, .screens, .noticeWriter, .mirror, .unit] c (c.countMiss t) := by
  unfold Chip.countMiss
  extract_lets before c1
  have h1 : Chip.Does [.links, .keyWriter] c c1 := does_setLink t _ c (TerminalLink.miss_law _)
  exact h1.step (Chip.Does.ite (fun _ => (does_enterDown t c1).mono) (fun _ => .refl _ _))

theorem does_giveRowBack (v : Visit) (c : Chip) : Chip.Does [.screens] c (c.giveRowBack v) := by
  unfold Chip.giveRowBack
  split
  · exact does_markRow _ _ _
  · exact .refl _ _

theorem does_missed (l : LineNo) (c : Chip) : Chip.Does lineParts c (c.missed l) := by
  unfold Chip.missed
  split
  · exact .refl _ _
  · exact ((does_giveRowBack _ c).andThen (does_countMiss _ _) (n := lineParts)).andThen (does_onLine _ l _)

theorem does_endVisit (l : LineNo) (c : Chip) : Chip.Does [.lines, .screens] c (c.endVisit l) :=
  (does_onLine c l _).andThen (does_nextAddress l _)

theorem does_goodAnswer (l : LineNo) (k : AnswerKind) (bytes : List Byte) (v : Visit) (c : Chip) :
    Chip.Does ([.keys, .stories] ++ lineParts) c (c.goodAnswer l k bytes v) := by
  unfold Chip.goodAnswer
  extract_lets c1
  have h1 : Chip.Does lineParts c c1 := (does_countGood _ c).mono
  refine h1.step ?_
  clear_value c1
  split
  · exact (does_keysAnswer _ _ c1).andThen (does_endVisit l _)
  · exact (does_endVisit l c1).mono
  · exact (does_onLine c1 l _).andThen (does_visitStep l _)
  · exact (does_giveRowBack v c1).andThen (does_onLine _ l _)

theorem does_judge (l : LineNo) (k : AnswerKind) (bytes : List Byte) (c : Chip) :
    Chip.Does ([.keys, .stories] ++ lineParts) c (c.judge l k bytes) := by
  unfold Chip.judge
  split
  · exact .refl _ _
  · exact Chip.Does.ite (fun _ => does_goodAnswer _ _ _ _ _) (fun _ => (does_missed l c).mono)

theorem does_lineByte (l : LineNo) (b : Byte) (c : Chip) :
    Chip.Does ([.keys, .stories] ++ lineParts) c (c.lineByte l b) := by
  unfold Chip.lineByte
  refine Chip.Does.ite (fun _ => ?_) (fun _ => .refl _ _)
  dsimp only
  split
  · exact (does_missed l c).mono
  · exact (does_onLine c l _).mono
  · exact does_judge l _ _ c

theorem does_windowExpiry (l : LineNo) (c : Chip) : Chip.Does lineParts c (c.windowExpiry l) :=
  Chip.Does.ite (fun _ => (does_missed l c).andThen (does_afterQuiet l _)) (fun _ => .refl _ _)

theorem does_quietExpiry (l : LineNo) (c : Chip) : Chip.Does lineParts c (c.quietExpiry l) :=
  Chip.Does.ite (fun _ => (does_afterQuiet l c).mono) (fun _ => .refl _ _)

theorem does_messageSent (l : LineNo) (c : Chip) : Chip.Does [.lines] c (c.messageSent l) :=
  Chip.Does.ite (fun _ => does_onLine c l _) (fun _ => .refl _ _)

theorem does_cut (l : LineNo) (next : AfterQuiet) (c : Chip) : Chip.Does [.lines, .screens] c (c.cut l next) := by
  unfold Chip.cut
  extract_lets quiet c1
  have h1 : Chip.Does [.screens] c c1 := by
    show Chip.Does _ _ (match c.lines[l].visit with | some v => _ | none => _)
    split
    · exact does_giveRowBack _ _
    · exact .refl _ _
  exact h1.andThen (does_onLine c1 l _)

theorem does_turnOn (t : TerminalNo) (c : Chip) :
    Chip.Does [.lines, .links, .keyWriter, .screens] c (c.turnOn t) := by
  unfold Chip.turnOn
  extract_lets c1
  have h1 : Chip.Does [.links, .keyWriter, .screens] c c1 :=
    (does_setLink t _ c fun _ => by show (0 : Fin 4).val ≤ 2; decide).andThen (does_markAllRows t _)
  exact h1.step (Chip.Does.ite (fun _ => (does_newSweep _ _).mono) (fun _ => .refl _ _))

theorem does_turnOff (t : TerminalNo) (c : Chip) :
    Chip.Does [.lines, .links, .keyWriter, .screens] c (c.turnOff t) := by
  unfold Chip.turnOff
  extract_lets l cutReading c1 c2
  have h1 : Chip.Does [.lines, .links, .keyWriter, .screens] c c1 :=
    Chip.Does.ite (fun _ => (does_cut l _ c).mono) (fun _ => .refl _ _)
  have h2 : Chip.Does [.lines, .links, .keyWriter, .screens] c1 c2 := (does_setLink t { state := .off, misses := 0 } c1 fun _ => rfl).mono
  exact (h1.step h2).step (Chip.Does.ite (fun _ => (does_testLine l c2).mono)
    (fun _ => Chip.Does.ite (fun _ => (does_onLine c2 l _).mono) (fun _ => .refl _ _)))

theorem does_resetTerminal (c : Chip) (t : TerminalNo) :
    Chip.Does [.links, .keyWriter, .screens] c (c.resetTerminal t) :=
  Chip.Does.ite
    (fun _ => ((does_onTerminal c t _ fun _ => by show (0 : Fin 4).val ≤ 2; decide).andThen (does_markAllRows t _)
      (n := [.links, .keyWriter, .screens])).andThen (does_pendKey _ _))
    (fun _ => .refl _ _)

theorem does_resetLine (l : LineNo) (c : Chip) :
    Chip.Does [.lines, .links, .keyWriter, .screens] c (c.resetLine l) := by
  unfold Chip.resetLine
  extract_lets phase c1 c2 c3
  have h1 : Chip.Does [.lines, .screens] c c1 :=
    Chip.Does.ite (fun _ => .refl _ _) (fun _ => does_cut l _ c)
  have h2 : Chip.Does [.lines, .screens] c1 c2 := (does_onLine c1 l _).mono
  have h3 : Chip.Does [.lines, .links, .keyWriter, .screens] c2 c3 :=
    (Chip.Does.foldl _ does_resetTerminal _ c2).mono
  exact ((h1.step h2).step h3).step (Chip.Does.ite (fun _ => (does_newSweep l c3).mono) (fun _ => .refl _ _))

end Sys2Proof.Machine
end

