-- ==== Sys2Proof/Laws/Marks.lean ====
section
/-! SUPPORT. What marking an item, and making a write of key intake or of the notice writer pending, do to each field
of the part; and the items a command awaits. -/

namespace Sys2Proof.Machine

-- One theorem after another: side by side they wait for one another, a thread each.
set_option Elab.async false

/-- A marking reaches the mirror writer and, inside a command's action, the wait set (R33, R28). -/
@[simp] theorem mark_fields (c : Chip) (i : MirrorItem) :
    (c.mark i).resetAsserted = c.resetAsserted ∧ (c.mark i).path = c.path ∧
      (c.mark i).cu = { c.cu with waitSet := if c.cu.collecting then WaitEntry.add c.cu.waitSet i else c.cu.waitSet } ∧
      (c.mark i).mirror = c.mirror.mark i ∧ (c.mark i).lines = c.lines ∧ (c.mark i).links = c.links ∧
      (c.mark i).screens = c.screens ∧ (c.mark i).noticeWriter = c.noticeWriter ∧ (c.mark i).keys = c.keys ∧
      (c.mark i).keyWriter = c.keyWriter ∧ (c.mark i).stories = c.stories ∧ (c.mark i).desks = c.desks ∧
      (c.mark i).custody = c.custody ∧ (c.mark i).clock = c.clock ∧ (c.mark i).fit = c.fit ∧
      (c.mark i).pages = c.pages ∧ (c.mark i).outputQueue = c.outputQueue ∧ (c.mark i).link = c.link := by
  have e : c.mark i = { c with
      mirror := c.mirror.mark i
      cu := { c.cu with waitSet := if c.cu.collecting then WaitEntry.add c.cu.waitSet i else c.cu.waitSet } } := by
    unfold Chip.mark
    by_cases h : c.cu.collecting = true
    · simp only [onMirror_fields]
      rw [if_pos h, if_pos h]
      rfl
    · simp only [onMirror_fields]
      rw [if_neg h, if_neg h]
      rfl
  rw [e]
  refine ⟨?_, ?_, ?_, ?_, ?_, ?_, ?_, ?_, ?_, ?_, ?_, ?_, ?_, ?_, ?_, ?_, ?_, ?_⟩ <;> rfl

/-- A making-pending reaches key intake's write list alone (R78). -/
@[simp] theorem pendKey_fields (c : Chip) (i : KeyItem) :
    (c.pendKey i).resetAsserted = c.resetAsserted ∧ (c.pendKey i).path = c.path ∧ (c.pendKey i).cu = c.cu ∧
      (c.pendKey i).mirror = c.mirror ∧ (c.pendKey i).lines = c.lines ∧ (c.pendKey i).links = c.links ∧
      (c.pendKey i).screens = c.screens ∧ (c.pendKey i).noticeWriter = c.noticeWriter ∧
      (c.pendKey i).keys = c.keys ∧ (c.pendKey i).stories = c.stories ∧ (c.pendKey i).desks = c.desks ∧
      (c.pendKey i).custody = c.custody ∧ (c.pendKey i).clock = c.clock ∧ (c.pendKey i).fit = c.fit ∧
      (c.pendKey i).pages = c.pages ∧ (c.pendKey i).outputQueue = c.outputQueue ∧ (c.pendKey i).link = c.link := by
  refine ⟨?_, ?_, ?_, ?_, ?_, ?_, ?_, ?_, ?_, ?_, ?_, ?_, ?_, ?_, ?_, ?_, ?_⟩ <;> rfl

/-- A making-pending reaches the notice writer's list alone (R67). -/
@[simp] theorem pendRow_fields (c : Chip) (t : TerminalNo) :
    (c.pendRow t).resetAsserted = c.resetAsserted ∧ (c.pendRow t).path = c.path ∧ (c.pendRow t).cu = c.cu ∧
      (c.pendRow t).mirror = c.mirror ∧ (c.pendRow t).lines = c.lines ∧ (c.pendRow t).links = c.links ∧
      (c.pendRow t).screens = c.screens ∧
      (c.pendRow t).noticeWriter = { c.noticeWriter with pending := joinOnce c.noticeWriter.pending t } ∧
      (c.pendRow t).keys = c.keys ∧ (c.pendRow t).keyWriter = c.keyWriter ∧ (c.pendRow t).stories = c.stories ∧
      (c.pendRow t).desks = c.desks ∧ (c.pendRow t).custody = c.custody ∧ (c.pendRow t).clock = c.clock ∧
      (c.pendRow t).fit = c.fit ∧ (c.pendRow t).pages = c.pages ∧ (c.pendRow t).outputQueue = c.outputQueue ∧
      (c.pendRow t).link = c.link := by
  refine ⟨?_, ?_, ?_, ?_, ?_, ?_, ?_, ?_, ?_, ?_, ?_, ?_, ?_, ?_, ?_, ?_, ?_, ?_⟩ <;> rfl

/-- The part as the owning block finds it differs in the wait set and the collecting flag alone (R28). -/
@[simp] theorem collect_fields (c : Chip) :
    (c.collect).resetAsserted = c.resetAsserted ∧ (c.collect).path = c.path ∧
      (c.collect).cu = { c.cu with waitSet := [], collecting := true } ∧ (c.collect).mirror = c.mirror ∧
      (c.collect).lines = c.lines ∧ (c.collect).links = c.links ∧ (c.collect).screens = c.screens ∧
      (c.collect).noticeWriter = c.noticeWriter ∧ (c.collect).keys = c.keys ∧
      (c.collect).keyWriter = c.keyWriter ∧ (c.collect).stories = c.stories ∧ (c.collect).desks = c.desks ∧
      (c.collect).custody = c.custody ∧ (c.collect).clock = c.clock ∧ (c.collect).fit = c.fit ∧
      (c.collect).pages = c.pages ∧ (c.collect).outputQueue = c.outputQueue ∧ (c.collect).link = c.link := by
  refine ⟨?_, ?_, ?_, ?_, ?_, ?_, ?_, ?_, ?_, ?_, ?_, ?_, ?_, ?_, ?_, ?_, ?_, ?_⟩ <;> rfl

theorem mem_mark_pending (m : MirrorWriter) (i j : MirrorItem) :
    j ∈ (m.mark i).pending ↔ j ∈ m.pending ∨ j = i := by
  unfold MirrorWriter.mark joinOnce
  split
  · rename_i h
    constructor
    · exact Or.inl
    · rintro (h' | rfl)
      · exact h'
      · exact h
  · simp

/-- An item joins a wait set, and what stood there stays (R28 a). -/
theorem awaits_add (l : List WaitEntry) (i j : MirrorItem) :
    (∃ e ∈ WaitEntry.add l i, e.item = j) ↔ (∃ e ∈ l, e.item = j) ∨ j = i := by
  unfold WaitEntry.add
  split
  · rename_i h
    simp only [List.any_eq_true, decide_eq_true_eq] at h
    constructor
    · exact Or.inl
    · rintro (h' | rfl)
      · exact h'
      · exact h
  · simp only [List.mem_append, List.mem_singleton]
    constructor
    · rintro ⟨e, he | he, hj⟩
      · exact Or.inl ⟨e, he, hj⟩
      · subst he
        exact Or.inr hj.symm
    · rintro (⟨e, he, hj⟩ | rfl)
      · exact ⟨e, Or.inl he, hj⟩
      · exact ⟨_, Or.inr rfl, rfl⟩

/-- A status, session, link, put or take word made pending stands in key intake's list (R78). -/
theorem pendKey_pending (c : Chip) (i : KeyItem) (h : ∀ t, i ≠ .keyWords t) :
    (c.pendKey i).keyWriter = { c.keyWriter with pending := joinOnce c.keyWriter.pending i } := by
  unfold Chip.pendKey
  cases i <;> first | rfl | exact absurd rfl (h _)

end Sys2Proof.Machine
end

