-- ==== Sys2Proof/Laws/Fits.lean ====
section
/-! SUPPORT. What the fit engine leaves alone: a story's fields outside the fit, and the items a command awaits. One
lemma for each operation of Fit; what staling does while the engine is RUNNING; the passes of the fit loop, and the read
the engine waits for. -/

namespace Sys2Proof.Machine

-- One theorem after another: side by side they wait for one another, a thread each.
set_option Elab.async false

theorem Story.SameOutsideFit.refl (x : Story) : x.SameOutsideFit x := by
  simp [Story.SameOutsideFit]

theorem Story.SameOutsideFit.trans {x y z : Story} (h : x.SameOutsideFit y) (k : y.SameOutsideFit z) :
    x.SameOutsideFit z := by
  unfold Story.SameOutsideFit at *
  rw [k, h]

/-- A change that the fit engine may make: every story keeps its fields outside the fit, every item awaited or
pending stays so, and the width tables and the mask stand. -/
structure Chip.FitDoes (c d : Chip) : Prop where
  outside : ∀ m : StoryNo, c.stories[m].SameOutsideFit d.stories[m]
  awaits : ∀ i, c.Awaits i → d.Awaits i
  pending : ∀ i, i ∈ c.mirror.pending → i ∈ d.mirror.pending
  tables : d.fit.widths = c.fit.widths ∧ d.fit.mask = c.fit.mask

namespace Chip.FitDoes

theorem refl (c : Chip) : Chip.FitDoes c c := ⟨fun _ => .refl _, fun _ h => h, fun _ h => h, rfl, rfl⟩

theorem andThen {c d e : Chip} (h : Chip.FitDoes c d) (k : Chip.FitDoes d e) : Chip.FitDoes c e :=
  ⟨fun m => (h.outside m).trans (k.outside m), fun i a => k.awaits i (h.awaits i a),
    fun i a => k.pending i (h.pending i a), k.tables.1.trans h.tables.1, k.tables.2.trans h.tables.2⟩

theorem foldl {α : Type} (f : Chip → α → Chip) (h : ∀ c a, Chip.FitDoes c (f c a)) (xs : List α) :
    ∀ c, Chip.FitDoes c (xs.foldl f c) := by
  induction xs with
  | nil => exact fun c => refl c
  | cons a xs ih => exact fun c => (h c a).andThen (ih (f c a))

/-- A change that reaches neither the stories nor the command unit nor the mirror writer nor the tables. -/
theorem of_same {c d : Chip} (h : d.stories = c.stories) (k : d.cu = c.cu) (m : d.mirror = c.mirror)
    (w : d.fit.widths = c.fit.widths) (x : d.fit.mask = c.fit.mask) : Chip.FitDoes c d :=
  ⟨fun n => by rw [h]; exact .refl _, fun i a => by unfold Chip.Awaits at *; rwa [k], fun i a => by rwa [m], w, x⟩

end Chip.FitDoes

theorem fit_mark (i : MirrorItem) (c : Chip) : Chip.FitDoes c (c.mark i) := by
  refine ⟨fun n => ?_, fun j h => ?_, fun j h => ?_, by simp, by simp⟩
  · simp only [mark_fields]
    exact .refl _
  · unfold Chip.Awaits at *
    simp only [mark_fields]
    split
    · exact (awaits_add _ _ _).mpr (Or.inl h)
    · exact h
  · simp only [mark_fields]
    exact (mem_mark_pending _ _ _).mpr (Or.inl h)

theorem fit_raise (n : Cause) (c : Chip) : Chip.FitDoes c (c.raise n) := by
  unfold Chip.raise
  extract_lets raw c'
  have e : Chip.FitDoes c c' := ⟨fun n => .refl _, fun _ h => h, fun _ h => h, rfl, rfl⟩
  split
  · exact e
  · exact e.andThen (fit_mark _ _)

theorem fit_enterNotice (n : Notice) (t : TerminalNo) (c : Chip) : Chip.FitDoes c (c.enterNotice n t) := by
  unfold Chip.enterNotice
  extract_lets c'
  have e : Chip.FitDoes c c' := .of_same rfl rfl rfl rfl rfl
  split
  · exact e
  · exact e.andThen (.of_same rfl rfl rfl rfl rfl)

theorem fit_post (k : NoticeKind) (s : Nat) (v : Option Nat) (r : Recipients) (c : Chip) :
    Chip.FitDoes c (c.post k s v r) :=
  .foldl _ (fun _ _ => fit_enterNotice _ _ _) _ c

/-- The queue or the run changed. -/
theorem fit_onFit (f : FitEngine → FitEngine) (c : Chip)
    (h : (f c.fit).widths = c.fit.widths ∧ (f c.fit).mask = c.fit.mask := by exact ⟨rfl, rfl⟩) :
    Chip.FitDoes c (c.onFit f) := .of_same rfl rfl rfl h.1 h.2

/-- A story's fit fields changed. -/
theorem fit_onStory (s : StoryNo) (f : Story → Story) (hf : ∀ x : Story, x.SameOutsideFit (f x)) (c : Chip) :
    Chip.FitDoes c (c.onStory s f) := by
  refine ⟨fun n => ?_, fun _ h => h, fun _ h => h, rfl, rfl⟩
  simp only [onStory_fields]
  rw [update_apply]
  split
  · exact hf _
  · exact .refl _

theorem fit_joinFitQueue (s : StoryNo) (c : Chip) : Chip.FitDoes c (c.joinFitQueue s) :=
  .of_same rfl rfl rfl rfl rfl

theorem fit_stale (s : StoryNo) (c : Chip) : Chip.FitDoes c (c.stale s) := by
  unfold Chip.stale
  split
  · exact .refl c
  · split
    · exact (((fit_onStory s _ (fun x => by simp [Story.SameOutsideFit]) c).andThen (fit_joinFitQueue _ _)).andThen
        (fit_mark _ _)).andThen (fit_mark _ _)
    · exact .refl c
    · exact fit_onStory s _ (fun x => by simp [Story.SameOutsideFit]) c

theorem fit_restale (s : StoryNo) (c : Chip) : Chip.FitDoes c (c.restale s) := by
  unfold Chip.restale
  split
  · exact (fit_onFit _ _).andThen (fit_joinFitQueue _ _)
  · exact fit_stale s c

theorem fit_staleFonts (fonts : Byte) (c : Chip) : Chip.FitDoes c (c.staleFonts fonts) := by
  refine .foldl _ (fun c s => ?_) _ c
  extract_lets used
  clear_value used
  split
  · exact fit_stale s c
  · exact .refl c

theorem fit_recordFit (stop : FitStop) (r : FitRun) (c : Chip) : Chip.FitDoes c (c.recordFit stop r) := by
  unfold Chip.recordFit
  extract_lets c1 c2
  have h1 : Chip.FitDoes c c1 :=
    (fit_onStory r.story _ (fun x => by simp [Story.SameOutsideFit]) c).andThen (fit_mark _ _)
  have h2 : Chip.FitDoes c c2 := by
    refine h1.andThen ?_
    unfold c2
    split
    · exact fit_raise _ _
    · exact .refl _
  split
  · split
    · exact h2.andThen (fit_post _ _ _ _ _)
    · exact h2
  · exact h2

theorem fit_discardFit (s : StoryNo) (c : Chip) : Chip.FitDoes c (c.discardFit s) :=
  (((fit_onStory s _ (fun x => by simp [Story.SameOutsideFit]) c).andThen (fit_joinFitQueue _ _)).andThen
    (fit_mark _ _)).andThen (fit_mark _ _)

theorem fit_endRun (stop : FitStop) (r : FitRun) (c : Chip) : Chip.FitDoes c (c.endRun stop r) := by
  unfold Chip.endRun
  extract_lets c1
  have h1 : Chip.FitDoes c c1 := fit_onFit _ _
  split
  · exact h1.andThen (fit_discardFit _ _)
  · exact h1.andThen (fit_recordFit _ _ _)

theorem fit_startRun (s : StoryNo) (rest : List StoryNo) (c : Chip) : Chip.FitDoes c (c.startRun s rest) := by
  unfold Chip.startRun
  extract_lets c1 c2
  have h2 : Chip.FitDoes c c2 :=
    (((fit_onFit _ c).andThen (fit_mark _ _)).andThen
      (fit_onStory s _ (fun x => by simp [Story.SameOutsideFit]) _)).andThen (fit_mark _ _)
  split
  · exact h2.andThen (fit_endRun _ _ _)
  · split
    · exact h2.andThen (fit_endRun _ _ _)
    · exact h2.andThen (fit_onFit _ _)

theorem fit_takeFits : ∀ (n : Nat) (c : Chip), Chip.FitDoes c (c.takeFits n)
  | 0, c => .refl c
  | n + 1, c => by
    unfold Chip.takeFits
    split
    · split
      · exact .refl c
      · exact (fit_startRun _ _ c).andThen (fit_takeFits n _)
    · exact .refl c

theorem fit_fitTake (c : Chip) : Chip.FitDoes c c.fitTake := fit_takeFits _ c

theorem fit_staleStory (s : StoryNo) (c : Chip) : Chip.FitDoes c (c.staleStory s) :=
  (fit_stale s c).andThen (fit_fitTake _)

theorem fit_withdrawFit (s : StoryNo) (c : Chip) : Chip.FitDoes c (c.withdrawFit s) := by
  unfold Chip.withdrawFit
  split
  · exact .refl c
  · exact (fit_onFit _ _).andThen (fit_mark _ _)
  · exact (fit_onFit _ _).andThen (fit_fitTake _)

/-! ## While the engine is RUNNING -/

/-- A RUNNING engine takes no story (R136). -/
theorem fitTake_busy (c : Chip) (h : c.fit.run.isSome = true) : c.fitTake = c := by
  unfold Chip.fitTake
  generalize c.fit.queue.length = n
  cases n with
  | zero => rfl
  | succ n =>
    have : c.fit.run ≠ none := by rw [Option.isSome_iff_ne_none] at h; exact h
    simp [Chip.takeFits, this]

theorem stale_run (s : StoryNo) (c : Chip) : (c.stale s).fit.run = c.fit.run := by
  unfold Chip.stale
  split
  · rfl
  · split <;> simp [Chip.joinFitQueue]

/-- Staling touches one story (R133). -/
theorem stale_other (s m : StoryNo) (c : Chip) (h : m ≠ s) : (c.stale s).stories[m] = c.stories[m] := by
  unfold Chip.stale
  split
  · rfl
  · split
    · simp only [mark_fields, Chip.joinFitQueue, onFit_fields, onStory_fields]
      exact update_ne _ _ (Ne.symm h)
    · rfl
    · simp only [onStory_fields]
      exact update_ne _ _ (Ne.symm h)

theorem mem_joinFitQueue (s : StoryNo) (c : Chip) : s ∈ (c.joinFitQueue s).fit.queue := by
  simp only [Chip.joinFitQueue, onFit_fields]
  split <;> simp

/-- The staled story's record (R133). -/
theorem stale_self (s : StoryNo) (c : Chip) : (c.stale s).stories[s] = c.stories[s].staled := by
  unfold Chip.stale Story.staled
  by_cases h : c.stories[s].state = .free
  · rw [if_pos h, if_pos h]
  · rw [if_neg h, if_neg h]
    cases e : c.stories[s].fit
    · simp [Chip.joinFitQueue]
    · rfl
    · simp
      exact e

theorem stale_queue (s : StoryNo) (c : Chip) :
    (c.stories[s].state ≠ .free → c.stories[s].fit = .current → s ∈ (c.stale s).fit.queue) ∧
      (c.stories[s].fit ≠ .current → (c.stale s).fit.queue = c.fit.queue) := by
  unfold Chip.stale
  refine ⟨fun h e => ?_, fun e => ?_⟩
  · rw [if_neg h, e]
    simp only [mark_fields]
    exact mem_joinFitQueue _ _
  · split
    · rfl
    · split
      · rename_i k
        exact absurd k e
      · rfl
      · rfl

theorem staleStory_busy (s : StoryNo) (c : Chip) (h : c.fit.run.isSome = true) : c.staleStory s = c.stale s := by
  unfold Chip.staleStory
  exact fitTake_busy _ (by rwa [stale_run])

/-- R133 while the engine is RUNNING: the story named is staled, and no other is touched. -/
theorem staleStory_hasStaled (s : StoryNo) (c : Chip) (h : c.fit.run.isSome = true)
    (hf : c.stories[s].state ≠ .free) :
    (c.staleStory s).HasStaled s c.stories[s] c.fit.queue ∧
      ∀ m : StoryNo, m ≠ s → (c.staleStory s).stories[m] = c.stories[m] := by
  rw [staleStory_busy s c h]
  exact ⟨⟨stale_self s c, (stale_queue s c).1 hf, (stale_queue s c).2⟩, fun m hm => stale_other s m c hm⟩

/-- One story of a change of fonts (R130, R131). -/
def Chip.staleFont (fonts : Byte) (c : Chip) (s : StoryNo) : Chip :=
  if c.fontsOf s &&& fonts ≠ 0 then c.stale s else c

theorem staleFonts_eq (fonts : Byte) (c : Chip) :
    c.staleFonts fonts = (List.finRange 1024).foldl (Chip.staleFont fonts) c := rfl

theorem staleFont_run (fonts : Byte) (c : Chip) (s : StoryNo) : (c.staleFont fonts s).fit.run = c.fit.run := by
  unfold Chip.staleFont
  split
  · exact stale_run s c
  · rfl

theorem staleFont_other (fonts : Byte) (c : Chip) (s m : StoryNo) (h : m ≠ s) :
    (c.staleFont fonts s).stories[m] = c.stories[m] := by
  unfold Chip.staleFont
  split
  · exact stale_other s m c h
  · rfl

theorem fontsOf_congr {c d : Chip} {n : StoryNo} (h : d.stories[n] = c.stories[n]) (k : d.fit.run = c.fit.run) :
    d.fontsOf n = c.fontsOf n := by
  unfold Chip.fontsOf
  rw [h, k]

theorem foldl_staleFont (fonts : Byte) (n : StoryNo) : ∀ (l : List StoryNo) (c : Chip), l.Nodup →
    (l.foldl (Chip.staleFont fonts) c).fit.run = c.fit.run ∧
      (l.foldl (Chip.staleFont fonts) c).stories[n] =
        if n ∈ l ∧ c.fontsOf n &&& fonts ≠ 0 then c.stories[n].staled else c.stories[n]
  | [], c, _ => by simp
  | m :: l, c, hl => by
    have ih := foldl_staleFont fonts n l (c.staleFont fonts m) (List.nodup_cons.mp hl).2
    simp only [List.foldl_cons]
    refine ⟨ih.1.trans (staleFont_run fonts c m), ?_⟩
    rw [ih.2]
    by_cases e : n = m
    · subst e
      have hn := (List.nodup_cons.mp hl).1
      rw [if_neg (fun h => hn h.1)]
      unfold Chip.staleFont
      by_cases k : c.fontsOf n &&& fonts ≠ 0
      · rw [if_pos k, if_pos ⟨List.mem_cons_self, k⟩]
        exact stale_self n c
      · rw [if_neg k, if_neg (fun h => k h.2)]
    · rw [staleFont_other fonts c m n e,
        fontsOf_congr (staleFont_other fonts c m n e) (staleFont_run fonts c m)]
      have : n ∈ m :: l ↔ n ∈ l := by simp [e]
      simp only [this]

/-- R130, R131: exactly the stories that use one of the fonts are staled. -/
theorem staleFonts_story (fonts : Byte) (c : Chip) (n : StoryNo) :
    (c.staleFonts fonts).stories[n] =
      if c.fontsOf n &&& fonts ≠ 0 then c.stories[n].staled else c.stories[n] := by
  rw [staleFonts_eq, (foldl_staleFont fonts n _ c (List.nodup_finRange 1024)).2]
  simp

theorem staleFonts_run (fonts : Byte) (c : Chip) : (c.staleFonts fonts).fit.run = c.fit.run := by
  rw [staleFonts_eq]
  exact (foldl_staleFont fonts 0 _ c (List.nodup_finRange 1024)).1

/-! ## The fit loop (R141) -/

/-- A loop that finds the width within the measure changes nothing. -/
theorem loop_within (a i k : Nat) (r : FitRun) (h : r.width ≤ r.measure8) : FitRun.loop a i k r = r := by
  cases k <;> simp [FitRun.loop, h]

/-- A loop that finds the width above the measure makes one pass and is tested again. -/
theorem loop_above (a i k : Nat) (r : FitRun) (h : r.measure8 < r.width) :
    FitRun.loop a i (k + 1) r = FitRun.loop a i k (r.breakOnce a i) := by
  rw [FitRun.loop, if_neg (Nat.not_le.mpr h)]

theorem breakOnce_keeps (a i : Nat) (r : FitRun) :
    (r.breakOnce a i).break_ = none ∧ (r.breakOnce a i).measure8 = r.measure8 := by
  unfold FitRun.breakOnce
  split
  · exact ⟨rfl, rfl⟩
  · split <;> exact ⟨rfl, rfl⟩

theorem breakOnce_width (a i : Nat) (r : FitRun) (h : r.break_ = none) :
    (r.breakOnce a i).width = if 0 < r.width - a then a else 0 := by
  unfold FitRun.breakOnce
  rw [h]
  dsimp only
  split <;> rfl

/-- With no break in hand two passes suffice. -/
theorem loop_two (a i k : Nat) (r : FitRun) (hb : r.break_ = none) :
    FitRun.loop a i (k + 2) r = FitRun.loop a i 2 r ∧ (FitRun.loop a i 2 r).width ≤ r.measure8 := by
  by_cases h : r.width ≤ r.measure8
  · rw [loop_within _ _ _ _ h, loop_within _ _ _ _ h]
    exact ⟨rfl, h⟩
  have h := Nat.not_le.mp h
  rw [loop_above _ _ _ _ h, loop_above _ _ _ _ h]
  have hk := breakOnce_keeps a i r
  have hw := breakOnce_width a i r hb
  generalize r.breakOnce a i = q at hk hw
  by_cases h2 : q.width ≤ q.measure8
  · rw [loop_within _ _ _ _ h2, loop_within _ _ _ _ h2]
    exact ⟨rfl, hk.2 ▸ h2⟩
  have h2 := Nat.not_le.mp h2
  rw [loop_above _ _ _ _ h2, loop_above _ _ _ _ h2]
  have hq := breakOnce_keeps a i q
  have hz : (q.breakOnce a i).width = 0 := by
    rw [breakOnce_width a i q hk.1]
    split at hw <;> simp [hw]
  rw [loop_within _ _ _ _ (by omega), loop_within _ _ _ _ (by omega)]
  exact ⟨rfl, by omega⟩

/-- The passes given bring the width within the measure, and a pass made before them changes nothing. -/
theorem loop_passes (a i : Nat) (r : FitRun) :
    (r.measure8 < r.width → FitRun.loop a i fitPasses r = FitRun.loop a i fitPasses (r.breakOnce a i)) ∧
      (FitRun.loop a i fitPasses r).width ≤ r.measure8 := by
  have hk := breakOnce_keeps a i r
  have h2 := loop_two a i 1 (r.breakOnce a i) hk.1
  show (_ → FitRun.loop a i 3 r = FitRun.loop a i 3 _) ∧ (FitRun.loop a i 3 r).width ≤ _
  refine ⟨fun h => ?_, ?_⟩
  · rw [loop_above _ _ _ _ h, h2.1]
  · by_cases h : r.width ≤ r.measure8
    · rw [loop_within _ _ _ _ h]
      exact h
    · rw [loop_above _ _ _ _ (Nat.not_le.mp h)]
      exact hk.2 ▸ h2.2

theorem loop_measure8 (a i k : Nat) (r : FitRun) : (FitRun.loop a i k r).measure8 = r.measure8 := by
  induction k generalizing r with
  | zero => rfl
  | succ k ih =>
    by_cases h : r.width ≤ r.measure8
    · rw [loop_within _ _ _ _ h]
    · rw [loop_above _ _ _ _ (Nat.not_le.mp h), ih, (breakOnce_keeps a i r).2]

/-- A font is present when its bit of the mask is set (R145). -/
theorem fontBit_present (m : Byte) (f : Fin 8) : m &&& fontBit f ≠ 0 ↔ m.getLsbD f.val = true := by
  unfold fontBit
  revert m f
  decide +kernel

/-- After every word the width is within the measure (R141, R144). -/
theorem process_within (e : FitEngine) (w : Word) (r : FitRun) (h : r.width ≤ r.measure8) :
    (e.process w r).1.width ≤ (e.process w r).1.measure8 := by
  unfold FitEngine.process
  split
  · dsimp only [FitEngine.character]
    rw [loop_measure8]
    exact (loop_passes _ _ _).2
  · exact h
  · dsimp only [FitEngine.selectFont]
    split
    · split <;> exact h
    · exact h
  · exact h
  · exact h
  · exact Nat.zero_le _
  · rw [loop_measure8]
    exact (loop_passes _ _ _).2
  · dsimp only [FitRun.fixedSpace]
    rw [loop_measure8]
    exact (loop_passes _ _ _).2
  · unfold FitEngine.hyphen
    dsimp only
    split <;> exact h

/-! ## The read the engine waits for (R137, R149) -/

/-- A word left at the port by a killed run is served first and only leaves the list. -/
theorem fitWord_abandoned (c : Chip) (p : CopyPlace) (rest : List CopyPlace) (h : c.fit.abandoned = p :: rest) :
    c.fitWord = some
      { address := c.path.blockWord p.block p.word, after := fun _ => c.onFit fun e => { e with abandoned := rest } } := by
  unfold Chip.fitWord
  rw [h]

/-- With none left, the word is that of the run's index, and it is processed. -/
theorem fitWord_run (c : Chip) (r : FitRun) (b : BlockNo) (h : c.fit.abandoned = []) (k : c.fit.run = some r)
    (hb : r.blocks[r.index / 128]? = some b) :
    c.fitWord = some
      { address := c.path.blockWord b (Fin.ofNat 128 r.index), after := fun w => c.processWord r w } := by
  unfold Chip.fitWord FitRun.requested
  rw [h, k]
  simp [Config.blockWords, hb]

end Sys2Proof.Machine
end

