-- ==== Sys2Proof/Laws/Queues.lean ====
section
/-! SUPPORT. What keeps the fit law (R132): lists in two classes, a story set apart from the law and brought back, and the
law kept by each operation of the fit engine. -/

namespace Sys2Proof.Machine

-- One theorem after another: side by side they wait for one another, a thread each.
set_option Elab.async false

/-! ## Lists in two classes -/

/-- A list stands in its classes: the entries of the first class before the others. -/
def InClasses {α : Type} (p : α → Bool) (q : List α) : Prop := q.Pairwise fun m n => p n = true → p m = true

/-- A list whose front is of the first class and whose back is of the second splits there. -/
theorem classes_split {α : Type} {p : α → Bool} {front back : List α} (hf : ∀ m ∈ front, p m = true)
    (hb : ∀ m ∈ back, p m = false) :
    (front ++ back).takeWhile p = front ∧ (front ++ back).dropWhile p = back := by
  induction front with
  | nil => cases back with
    | nil => exact ⟨rfl, rfl⟩
    | cons b l => simp [hb b List.mem_cons_self]
  | cons a l ih =>
    have := ih fun m hm => hf m (List.mem_cons_of_mem a hm)
    simp [hf a List.mem_cons_self, this]

/-- A list in its classes has a front of the first and a back of the second. -/
theorem classes_parts {α : Type} {p : α → Bool} {q : List α} (h : InClasses p q) :
    ∃ front back, q = front ++ back ∧ (∀ m ∈ front, p m = true) ∧ ∀ m ∈ back, p m = false := by
  refine ⟨q.takeWhile p, q.dropWhile p, (List.takeWhile_append_dropWhile).symm, fun m hm => ?_, ?_⟩
  · exact List.all_eq_true.mp (List.all_takeWhile) m hm
  · induction q with
    | nil => simp
    | cons a l ih =>
      rw [InClasses, List.pairwise_cons] at h
      cases e : p a with
      | true => simpa [List.dropWhile, e] using ih h.2
      | false =>
        simp only [List.dropWhile, e, List.mem_cons]
        rintro m (rfl | hm)
        · exact e
        · cases k : p m with
          | false => rfl
          | true => exact absurd (h.1 m hm k) (by simp [e])

/-- An entry put between the two classes. -/
theorem classes_insert {α : Type} {p : α → Bool} {front back : List α} (s : α) (hf : ∀ m ∈ front, p m = true)
    (hb : ∀ m ∈ back, p m = false) : InClasses p (front ++ s :: back) := by
  refine List.pairwise_append.mpr ⟨?_, List.pairwise_cons.mpr ⟨?_, ?_⟩, ?_⟩
  · exact List.Pairwise.imp_of_mem (R := fun _ _ => True) (fun hm _ _ _ => hf _ hm) (List.pairwise_of_forall fun _ _ => trivial)
  · intro m hm k; simp [hb m hm] at k
  · exact List.Pairwise.imp_of_mem (R := fun _ _ => True) (fun _ hn _ k => by simp [hb _ hn] at k) (List.pairwise_of_forall fun _ _ => trivial)
  · intro a ha _ _ _; exact hf a ha

/-! ## The fit law (R132) -/

/-- The fit law for the stories of `P`; the others stand neither in the queue nor in the run. While the record of a story
is being changed, the law holds for the others. -/
structure Chip.FitLawFor (P : StoryNo → Prop) (c : Chip) : Prop where
  once : c.fit.queue.Nodup
  inside : ∀ n ∈ c.fit.queue, P n
  stale : ∀ n : StoryNo, P n → (n ∈ c.fit.queue ↔ c.stories[n].fit = .stale)
  classes : InClasses (fun n : StoryNo => c.stories[n].page.isSome) c.fit.queue
  ran : ∀ r, c.fit.run = some r → P r.story
  running : ∀ n : StoryNo, P n → (c.stories[n].fit = .running ↔ ∃ r, c.fit.run = some r ∧ r.story = n)
  rerun : ∀ n : StoryNo, P n → c.stories[n].rerun = true → c.stories[n].fit = .running

/-- The stories of `P` but one. -/
def AllBut (s : StoryNo) (P : StoryNo → Prop) (n : StoryNo) : Prop := P n ∧ n ≠ s

theorem fitLaw_iff (c : Chip) : c.FitLaw ↔ c.FitLawFor fun _ => True :=
  ⟨fun h => ⟨h.1, fun _ _ => trivial, fun n _ => h.2.1 n, h.2.2.1, fun _ _ => trivial, fun n _ => (h.2.2.2 n).1,
      fun n _ => (h.2.2.2 n).2⟩,
    fun h => ⟨h.once, fun n => h.stale n trivial, h.classes, fun n => ⟨h.running n trivial, h.rerun n trivial⟩⟩⟩

/-- Two records agree in what the fit law reads of them. -/
def Story.SameFit (x y : Story) : Prop := y.fit = x.fit ∧ y.rerun = x.rerun ∧ y.page.isSome = x.page.isSome

section
variable {P : StoryNo → Prop} {c d : Chip} {s : StoryNo}

/-- The law reads the queue, the run, and three fields of the records of `P`. -/
theorem fitLawFor_congr (h : c.FitLawFor P) (hq : d.fit.queue = c.fit.queue) (hr : d.fit.run = c.fit.run)
    (hs : ∀ n : StoryNo, P n → c.stories[n].SameFit d.stories[n]) : d.FitLawFor P := by
  refine ⟨hq ▸ h.once, hq ▸ h.inside, fun n k => ?_, ?_, hr ▸ h.ran, fun n k => ?_, fun n k => ?_⟩
  · rw [hq, (hs n k).1]
    exact h.stale n k
  · rw [hq]
    refine List.Pairwise.imp_of_mem (fun {a b} ha hb k => ?_) h.classes
    show d.stories[b].page.isSome = true → d.stories[a].page.isSome = true
    rw [(hs a (h.inside a ha)).2.2, (hs b (h.inside b hb)).2.2]
    exact k
  · rw [(hs n k).1, hr]
    exact h.running n k
  · rw [(hs n k).1, (hs n k).2.1]
    exact h.rerun n k

/-- A change of nothing the law reads. -/
theorem fitLawFor_same (h : c.FitLawFor P) (hs : d.stories = c.stories) (hf : d.fit = c.fit) : d.FitLawFor P :=
  fitLawFor_congr h (by rw [hf]) (by rw [hf]) fun n _ => by rw [hs]; exact ⟨rfl, rfl, rfl⟩

theorem fitLawFor_mark (i : MirrorItem) (h : c.FitLawFor P) : (c.mark i).FitLawFor P :=
  fitLawFor_same h (by simp) (by simp)

/-- The record of a story apart may be changed in any way. -/
theorem fitLawFor_onStory (f : Story → Story) (h : c.FitLawFor (AllBut s P)) : (c.onStory s f).FitLawFor (AllBut s P) :=
  fitLawFor_congr h rfl rfl fun n k => by
    simp only [onStory_fields]
    rw [update_ne _ _ (Ne.symm k.2)]
    exact ⟨rfl, rfl, rfl⟩

/-! A story is set apart. -/

/-- A CURRENT story stands apart already. -/
theorem fitLawFor_of_current (h : c.FitLawFor P) (hs : P s) (k : c.stories[s].fit = .current) :
    c.FitLawFor (AllBut s P) :=
  ⟨h.once, fun n m => ⟨h.inside n m, fun e => (nomatch k.symm.trans ((h.stale s hs).mp (e ▸ m)))⟩,
    fun n k => h.stale n k.1, h.classes,
    fun r hr => ⟨h.ran r hr, fun e => (nomatch k.symm.trans ((h.running s hs).mpr ⟨r, hr, e⟩))⟩,
    fun n k => h.running n k.1, fun n k => h.rerun n k.1⟩

/-- A STALE story is taken out of the queue. -/
theorem fitLawFor_of_stale (h : c.FitLawFor P) (hs : P s) (k : c.stories[s].fit = .stale) {q : List StoryNo}
    (hq : q = c.fit.queue.filter (· ≠ s)) : (c.onFit fun e => { e with queue := q }).FitLawFor (AllBut s P) := by
  subst hq
  refine ⟨h.once.filter _, fun n m => ?_, fun n hn => ?_, h.classes.filter _, fun r hr => ?_, fun n hn => ?_,
    fun n hn => h.rerun n hn.1⟩
  · exact ⟨h.inside n (List.mem_filter.mp m).1, by simpa using (List.mem_filter.mp m).2⟩
  · simp [hn.2, h.stale n hn.1]
  · exact ⟨h.ran r hr, fun e => (nomatch k.symm.trans ((h.running s hs).mpr ⟨r, hr, e⟩))⟩
  · exact h.running n hn.1

/-- The head is taken out of the queue (R136). -/
theorem fitLawFor_of_head {rest : List StoryNo} (h : c.FitLawFor P) (k : c.fit.queue = s :: rest) :
    (c.onFit fun e => { e with queue := rest }).FitLawFor (AllBut s P) := by
  have hn := List.nodup_cons.mp (k ▸ h.once)
  have hs : P s := h.inside s (by simp [k])
  refine fitLawFor_of_stale h hs ((h.stale s hs).mp (by simp [k])) ?_
  rw [k, List.filter_cons_of_neg (by simp)]
  exact (List.filter_eq_self.mpr fun a ha => by simpa using fun e : a = s => hn.1 (e ▸ ha)).symm

/-- The run has ended, or been abandoned (R148, R149). -/
theorem fitLawFor_of_run {r : FitRun} (h : c.FitLawFor P) (k : c.fit.run = some r) (hs : d.stories = c.stories)
    (hq : d.fit.queue = c.fit.queue) (hr : d.fit.run = none) : d.FitLawFor (AllBut r.story P) := by
  have hf : c.stories[r.story].fit = .running := (h.running _ (h.ran r k)).mpr ⟨r, k, rfl⟩
  refine ⟨hq ▸ h.once, fun n m => ?_, fun n hn => ?_, ?_, fun q x => (nomatch hr.symm.trans x), fun n hn => ?_,
    fun n hn => ?_⟩
  · rw [hq] at m
    refine ⟨h.inside n m, fun e => ?_⟩
    subst e
    exact nomatch hf.symm.trans ((h.stale _ (h.inside _ m)).mp m)
  · rw [hq, hs]
    exact h.stale n hn.1
  · rw [hq, hs]
    exact h.classes
  · rw [hs, hr, h.running n hn.1, k]
    refine ⟨fun ⟨q, e, m⟩ => ?_, fun ⟨q, e, _⟩ => nomatch e⟩
    cases e
    exact absurd m.symm hn.2
  · rw [hs]
    exact h.rerun n hn.1

/-! A story set apart comes back. -/

/-- A CURRENT story without the re-run mark. -/
theorem fitLawFor_current (h : c.FitLawFor (AllBut s P)) (hs : P s) (k : c.stories[s].fit = .current)
    (m : c.stories[s].rerun = false) : c.FitLawFor P := by
  refine ⟨h.once, fun n hn => (h.inside n hn).1, fun n hn => ?_, h.classes, fun r hr => (h.ran r hr).1,
    fun n hn => ?_, fun n hn => ?_⟩ <;> by_cases e : n = s
  · subst e
    exact ⟨fun x => absurd rfl (h.inside _ x).2, fun x => nomatch k.symm.trans x⟩
  · exact h.stale n ⟨hn, e⟩
  · subst e
    exact ⟨fun x => (nomatch k.symm.trans x), fun ⟨r, hr, e⟩ => absurd e (h.ran r hr).2⟩
  · exact h.running n ⟨hn, e⟩
  · subst e
    exact fun x => nomatch m.symm.trans x
  · exact h.rerun n ⟨hn, e⟩

/-- A STALE story joins the queue at the tail of its class (R134). -/
theorem fitLawFor_join (h : c.FitLawFor (AllBut s P)) (hs : P s) (k : c.stories[s].fit = .stale)
    (m : c.stories[s].rerun = false) : (c.joinFitQueue s).FitLawFor P := by
  have hab : s ∉ c.fit.queue := fun x => (h.inside s x).2 rfl
  obtain ⟨f, b, e, hfb, hcl⟩ : ∃ f b, (c.joinFitQueue s).fit.queue = f ++ s :: b ∧ f ++ b = c.fit.queue ∧
      InClasses (fun n : StoryNo => c.stories[n].page.isSome) (f ++ s :: b) := by
    obtain ⟨front, back, hq, hf, hb⟩ := classes_parts h.classes
    simp only [Chip.joinFitQueue, onFit_fields]
    split
    · have hsplit := classes_split hf hb
      exact ⟨front, back, by rw [hq, hsplit.1, hsplit.2], hq.symm, classes_insert s hf hb⟩
    · rename_i hp
      refine ⟨c.fit.queue, [], rfl, by simp, List.pairwise_append.mpr ⟨h.classes, List.pairwise_singleton _ _, ?_⟩⟩
      intro a _ b hbm hb'
      rw [List.mem_singleton.mp hbm] at hb'
      exact absurd hb' hp
  have hmem : ∀ n : StoryNo, n ∈ (c.joinFitQueue s).fit.queue ↔ n = s ∨ n ∈ c.fit.queue := by
    intro n
    rw [e, ← hfb]
    exact (List.perm_middle.mem_iff).trans List.mem_cons
  have hst : (c.joinFitQueue s).stories = c.stories := rfl
  have hrun : (c.joinFitQueue s).fit.run = c.fit.run := rfl
  refine ⟨?_, fun n x => ?_, fun n hn => ?_, ?_, fun r hr => (h.ran r hr).1, fun n hn => ?_, fun n hn => ?_⟩
  · rw [e]
    refine (List.perm_middle.nodup_iff).mpr (List.nodup_cons.mpr ⟨?_, hfb ▸ h.once⟩)
    rw [hfb]
    exact hab
  · exact ((hmem n).mp x).elim (fun y => y ▸ hs) fun y => (h.inside n y).1
  · rw [hmem, hst]
    by_cases x : n = s
    · subst x
      exact ⟨fun _ => k, fun _ => .inl rfl⟩
    · simp [x, h.stale n ⟨hn, x⟩]
  · rw [e, hst]
    exact hcl
  · rw [hst, hrun]
    by_cases x : n = s
    · subst x
      exact ⟨fun x => (nomatch k.symm.trans x), fun ⟨r, hr, e⟩ => absurd e (h.ran r hr).2⟩
    · exact h.running n ⟨hn, x⟩
  · rw [hst]
    by_cases x : n = s
    · subst x
      exact fun x => nomatch m.symm.trans x
    · exact h.rerun n ⟨hn, x⟩

/-- A run of the story begins in an IDLE engine (R136). -/
theorem fitLawFor_running {r : FitRun} (h : c.FitLawFor (AllBut s P)) (hs : P s) (hi : c.fit.run = none)
    (k : c.stories[s].fit = .running) (hd : d.stories = c.stories) (hq : d.fit.queue = c.fit.queue)
    (hr : d.fit.run = some r) (e : r.story = s) : d.FitLawFor P := by
  refine ⟨hq ▸ h.once, fun n x => (h.inside n (hq ▸ x)).1, fun n hn => ?_, ?_, fun q x => ?_, fun n hn => ?_,
    fun n hn => ?_⟩
  · rw [hq, hd]
    by_cases x : n = s
    · subst x
      exact ⟨fun m => absurd rfl (h.inside _ m).2, fun m => nomatch k.symm.trans m⟩
    · exact h.stale n ⟨hn, x⟩
  · rw [hq, hd]
    exact h.classes
  · cases hr.symm.trans x
    exact e ▸ hs
  · rw [hd, hr]
    by_cases x : n = s
    · subst x
      exact ⟨fun _ => ⟨r, rfl, e⟩, fun _ => k⟩
    · rw [h.running n ⟨hn, x⟩, hi]
      exact ⟨fun ⟨q, m, _⟩ => (nomatch m), fun ⟨q, m, y⟩ => by cases m; exact absurd (y.symm.trans e) x⟩
  · rw [hd]
    by_cases x : n = s
    · subst x
      exact fun _ => k
    · exact h.rerun n ⟨hn, x⟩

/-! The operations of the fit engine. -/

/-- A CURRENT or a STALE story bears no re-run mark. -/
theorem rerun_false (h : c.FitLawFor P) (hs : P s) (k : c.stories[s].fit ≠ .running) : c.stories[s].rerun = false := by
  cases e : c.stories[s].rerun with
  | false => rfl
  | true => exact absurd (h.rerun s hs e) k

/-- The re-run mark put on a RUNNING story. -/
theorem fitLawFor_markRerun (h : c.FitLawFor P) (k : c.stories[s].fit = .running) :
    (c.onStory s fun x => { x with rerun := true }).FitLawFor P := by
  refine ⟨h.once, h.inside, fun n hn => ?_, ?_, h.ran, fun n hn => ?_, fun n hn => ?_⟩ <;> simp only [onStory_fields]
  · rw [update_apply]
    split <;> exact h.stale n hn
  · refine h.classes.imp fun {m n} x => ?_
    show (update c.stories s _)[n].page.isSome = true → (update c.stories s _)[m].page.isSome = true
    rw [update_apply, update_apply]
    split <;> split <;> exact x
  · rw [update_apply]
    split <;> exact h.running n hn
  · rw [update_apply]
    split
    · rename_i e
      subst e
      exact fun _ => k
    · exact h.rerun n hn

/-- A story apart, made STALE, comes back through the queue. -/
theorem fitLawFor_rejoin (h : c.FitLawFor (AllBut s P)) (hs : P s) (f : Story → Story)
    (k : (f c.stories[s]).fit = .stale) (m : (f c.stories[s]).rerun = false) :
    ((c.onStory s f).joinFitQueue s).FitLawFor P :=
  fitLawFor_join (fitLawFor_onStory f h) hs (by simpa using k) (by simpa using m)

/-- Staling keeps the law (R133). -/
theorem fitLawFor_stale (h : c.FitLawFor P) (hs : P s) : (c.stale s).FitLawFor P := by
  unfold Chip.stale
  split
  · exact h
  · split
    · rename_i k
      exact fitLawFor_mark _ (fitLawFor_mark _ (fitLawFor_rejoin (fitLawFor_of_current h hs k) hs _ rfl
        (rerun_false h hs (by rw [k]; decide))))
    · exact h
    · exact fitLawFor_markRerun h ‹_›

/-- A staling after the page of the story has changed keeps the law (R134). -/
theorem fitLawFor_restale (h : c.FitLawFor P) (hs : P s) (hq : d.fit = c.fit)
    (ho : ∀ n : StoryNo, n ≠ s → d.stories[n] = c.stories[n])
    (hf : d.stories[s].fit = c.stories[s].fit) (hm : d.stories[s].rerun = c.stories[s].rerun) :
    (d.restale s).FitLawFor P := by
  have same : ∀ n, AllBut s P n → c.stories[n].SameFit d.stories[n] := fun n hn => by
    rw [ho n hn.2]
    exact ⟨rfl, rfl, rfl⟩
  unfold Chip.restale
  split
  · rename_i k
    have hk : c.stories[s].fit = .stale := hf ▸ k
    refine fitLawFor_join (fitLawFor_congr (fitLawFor_of_stale h hs hk rfl) ?_ ?_ same) hs k ?_
    · simp [hq]
    · simp [hq]
    · exact hm.trans (rerun_false h hs (by rw [hk]; decide))
  · rename_i k
    refine fitLawFor_stale ?_ hs
    have hs' : s ∉ c.fit.queue := fun m => k (hf.trans ((h.stale s hs).mp m))
    refine ⟨by rw [hq]; exact h.once, by rw [hq]; exact h.inside, fun n hn => ?_, ?_, by rw [hq]; exact h.ran,
      fun n hn => ?_, fun n hn => ?_⟩
    · rw [hq]
      by_cases e : n = s
      · subst e
        rw [hf]
        exact h.stale n hn
      · rw [ho n e]
        exact h.stale n hn
    · rw [hq]
      refine List.Pairwise.imp_of_mem (fun {a b} ha hb k => ?_) h.classes
      show d.stories[b].page.isSome = true → d.stories[a].page.isSome = true
      rw [ho a fun e => hs' (e ▸ ha), ho b fun e => hs' (e ▸ hb)]
      exact k
    · rw [hq]
      by_cases e : n = s
      · subst e
        rw [hf]
        exact h.running n hn
      · rw [ho n e]
        exact h.running n hn
    · by_cases e : n = s
      · subst e
        rw [hf, hm]
        exact h.rerun n hn
      · rw [ho n e]
        exact h.rerun n hn

/-- The end of a run whose story stands apart is recorded (R148 b). -/
theorem fitLawFor_recordFit (stop : FitStop) (r : FitRun) (h : c.FitLawFor (AllBut r.story P)) (hs : P r.story)
    (k : c.stories[r.story].rerun = false) : (c.recordFit stop r).FitLawFor P := by
  unfold Chip.recordFit
  extract_lets c2 c3
  have h2 : c2.FitLawFor P := by
    refine fitLawFor_mark _ (fitLawFor_current (fitLawFor_onStory _ h) hs ?_ ?_)
    · simp
    · simpa using k
  have h3 : c3.FitLawFor P := by
    unfold c3
    split
    · exact fitLawFor_same h2 ((does_raise _ _).frame .stories (by decide)) ((does_raise _ _).frame .fit (by decide))
    · exact h2
  split
  · split
    · exact fitLawFor_same h3 ((does_post _ _ _ _ _).frame .stories (by decide))
        ((does_post _ _ _ _ _).frame .fit (by decide))
    · exact h3
  · exact h3

/-- The final line is the run's own. -/
theorem finish_story (stop : FitStop) (r : FitRun) : (r.finish stop).story = r.story := by
  unfold FitRun.finish
  split
  · rfl
  · split <;> rfl

/-- The end of a run whose story stands apart (R148). -/
theorem fitLawFor_endRun (stop : FitStop) (r : FitRun) (hi : c.fit.run = none) (h : c.FitLawFor (AllBut r.story P))
    (hs : P r.story) : (c.endRun stop r).FitLawFor P := by
  have e : ({ c.fit with run := none } : FitEngine) = c.fit := by
    rw [← hi]
  unfold Chip.endRun
  extract_lets c1
  have hc : c1 = c := by
    show { c with fit := { c.fit with run := none } } = c
    rw [e]
  rw [hc]
  split
  · exact fitLawFor_mark _ (fitLawFor_mark _ (fitLawFor_rejoin h hs _ rfl rfl))
  · rename_i k
    have e := finish_story stop r
    exact fitLawFor_recordFit stop (r.finish stop) (e.symm ▸ h) (e.symm ▸ hs)
      (by rw [Fin.getElem_fin] at k; simpa [e] using k)

/-- A font selected leaves the run with its story (R145). -/
theorem selectFont_story (e : FitEngine) (n : Nat) (r : FitRun) : (e.selectFont n r).1.story = r.story := by
  unfold FitEngine.selectFont
  split
  · dsimp only
    split <;> rfl
  · rfl

/-- The idle engine takes the head of its queue (R136). -/
theorem fitLawFor_startRun {rest : List StoryNo} (h : c.FitLawFor P) (hi : c.fit.run = none)
    (k : c.fit.queue = s :: rest) : (c.startRun s rest).FitLawFor P := by
  have hs : P s := h.inside s (by simp [k])
  unfold Chip.startRun
  extract_lets c1 c2
  have h2 : c2.FitLawFor (AllBut s P) :=
    fitLawFor_mark _ (fitLawFor_onStory _ (fitLawFor_mark _ (fitLawFor_of_head h k)))
  have hi2 : c2.fit.run = none := by simp [c2, c1, hi]
  have hf : c2.stories[s].fit = .running := by simp [c2]
  have hr : ∀ q stop, c2.fit.selectFont c2.stories[s].style.font.val (FitRun.begin s c2.stories[s]) = (q, stop) →
      q.story = s := by
    intro q stop e
    have := selectFont_story c2.fit c2.stories[s].style.font.val (FitRun.begin s c2.stories[s])
    rw [e] at this
    exact this
  split
  · rename_i q stop e
    have := hr _ _ e
    subst this
    exact fitLawFor_endRun _ _ hi2 h2 hs
  · rename_i q e
    have := hr _ _ e
    split
    · subst this
      exact fitLawFor_endRun _ _ hi2 h2 hs
    · exact fitLawFor_running h2 hs hi2 hf rfl rfl rfl this

theorem fitLawFor_takeFits : ∀ (n : Nat) (c : Chip), c.FitLawFor P → (c.takeFits n).FitLawFor P
  | 0, _, h => h
  | n + 1, c, h => by
    unfold Chip.takeFits
    split
    · rename_i k
      split
      · exact h
      · rename_i e
        exact fitLawFor_takeFits n _ (fitLawFor_startRun h k.2 e)
    · exact h

theorem fitLawFor_fitTake (h : c.FitLawFor P) : c.fitTake.FitLawFor P := fitLawFor_takeFits _ c h

theorem fitLawFor_staleStory (h : c.FitLawFor P) (hs : P s) : (c.staleStory s).FitLawFor P :=
  fitLawFor_fitTake (fitLawFor_stale h hs)
end

/-- A change of fonts keeps the fit law (R130, R131). -/
theorem fitLaw_staleFonts (fonts : Byte) {c : Chip} (h : c.FitLaw) : (c.staleFonts fonts).FitLaw := by
  rw [staleFonts_eq]
  generalize List.finRange 1024 = l
  induction l generalizing c with
  | nil => exact h
  | cons s l ih =>
    refine ih ?_
    unfold Chip.staleFont
    split
    · exact (fitLaw_iff _).mpr (fitLawFor_stale ((fitLaw_iff _).mp h) trivial)
    · exact h

/-- A killed story leaves the fit: it stands apart (R107 d, R149). -/
theorem fitLawFor_withdrawFit {c : Chip} (s : StoryNo) (h : c.FitLaw) :
    (c.withdrawFit s).FitLawFor (AllBut s fun _ => True) := by
  have h := (fitLaw_iff _).mp h
  unfold Chip.withdrawFit
  split
  · exact fitLawFor_of_current h trivial ‹_›
  · exact fitLawFor_mark _ (fitLawFor_of_stale h trivial ‹_› rfl)
  · obtain ⟨r, hr, e⟩ := (h.running s trivial).mp ‹_›
    subst e
    exact fitLawFor_fitTake (fitLawFor_of_run h hr rfl rfl rfl)

theorem loop_story (a i k : Nat) (r : FitRun) : (FitRun.loop a i k r).story = r.story := by
  induction k generalizing r with
  | zero => rfl
  | succ k ih =>
    by_cases h : r.width ≤ r.measure8
    · rw [loop_within _ _ _ _ h]
    · rw [loop_above _ _ _ _ (Nat.not_le.mp h), ih]
      unfold FitRun.breakOnce
      split
      · rfl
      · split <;> rfl

/-- A copy word leaves the run with its story (R137). -/
theorem process_story (e : FitEngine) (w : Word) (r : FitRun) : (e.process w r).1.story = r.story := by
  unfold FitEngine.process
  split
  · dsimp only [FitEngine.character]
    rw [loop_story]
    split <;> rfl
  · rfl
  · exact selectFont_story e _ r
  · rfl
  · rfl
  · rfl
  · exact loop_story _ _ _ _
  · exact loop_story _ _ _ _
  · unfold FitEngine.hyphen
    dsimp only
    split <;> rfl

/-- A copy word processed keeps the fit law (R137, R148). -/
theorem fitLaw_processWord {c : Chip} {r : FitRun} (w : Word) (h : c.FitLaw) (k : c.fit.run = some r) :
    (c.processWord r w).FitLaw := by
  have h := (fitLaw_iff _).mp h
  have hp := process_story c.fit w r
  have done : ∀ (stop : FitStop) (q : FitRun), q.story = r.story → (c.endRun stop q).fitTake.FitLaw := by
    intro stop q e
    refine (fitLaw_iff _).mpr (fitLawFor_fitTake ?_)
    have h1 := fitLawFor_of_run (d := c.onFit fun e => { e with run := none }) h k rfl rfl rfl
    rw [← e] at h1
    exact fitLawFor_endRun (c := c.onFit fun e => { e with run := none }) stop q rfl h1 trivial
  unfold Chip.processWord
  split
  · rename_i q stop e
    rw [e] at hp
    exact done stop q hp
  · rename_i q e
    rw [e] at hp
    split
    · exact done _ q hp
    · have hf : c.stories[q.story].fit = .running := (h.running _ trivial).mpr ⟨r, k, hp.symm⟩
      have h1 := fitLawFor_of_run (d := c.onFit fun e => { e with run := none }) h k rfl rfl rfl
      exact (fitLaw_iff _).mpr (fitLawFor_running h1 trivial rfl (hp ▸ hf) rfl rfl rfl hp)

end Sys2Proof.Machine
end

