-- ==== Sys2Proof/Laws/Custody.lean ====
section
/-! SUPPORT. What keeps the laws of custody and of placement (R88, R89, R91, R95, R96, R152): numbers of entries, a story
set apart from a law and brought back, and the law kept by each shared operation on baskets, holders, blocks and
placements. -/

namespace Sys2Proof.Machine

-- One theorem after another: side by side they wait for one another, a thread each.
set_option Elab.async false

/-! ## Numbers of entries -/

/-- How many numbers satisfy a condition. -/
def howMany {m : Nat} (p : Fin m → Bool) : Nat := ((List.finRange m).filter p).length

theorem howMany_congr {m : Nat} {p q : Fin m → Bool} (h : ∀ n, p n = q n) : howMany p = howMany q := by
  rw [show p = q from funext h]

/-- One number more satisfies the condition. -/
theorem howMany_add {m : Nat} {p q : Fin m → Bool} (a : Fin m) (h : ∀ n, n ≠ a → p n = q n) (hp : p a = false)
    (hq : q a = true) : howMany q = howMany p + 1 := by
  have key : ∀ l : List (Fin m), l.Nodup → a ∈ l → (l.filter q).length = (l.filter p).length + 1 := by
    intro l
    induction l with
    | nil => exact fun _ x => nomatch x
    | cons b l ih =>
      intro hn hm
      have hn := List.nodup_cons.mp hn
      by_cases e : a = b
      · subst e
        have : l.filter q = l.filter p := List.filter_congr fun n x => (h n fun e => hn.1 (e ▸ x)).symm
        simp [hp, hq, this]
      · have ih := ih hn.2 ((List.mem_cons.mp hm).resolve_left e)
        rw [List.filter_cons, List.filter_cons, h b (Ne.symm e)]
        split <;> simp [ih]
  exact key _ (List.nodup_finRange m) (List.mem_finRange a)

/-! ## Baskets (R91 to R94) -/

/-- The basket law for the stories of `P`; the others stand in no basket. -/
structure Chip.BasketLawFor (P : StoryNo → Prop) (c : Chip) : Prop where
  once : ∀ d : DeskNo, c.desks[d].basket.Nodup
  inside : ∀ (d : DeskNo), ∀ n ∈ c.desks[d].basket, P n
  classes : ∀ d : DeskNo, InClasses (fun n : StoryNo => c.stories[n].urgent) c.desks[d].basket
  member : ∀ (d : DeskNo) (n : StoryNo), P n →
    (n ∈ c.desks[d].basket ↔ c.stories[n].state = .basket ∧ c.stories[n].desk = d)

theorem basketLaw_iff (c : Chip) : c.BasketLaw ↔ c.BasketLawFor fun _ => True :=
  ⟨fun h => ⟨fun d => (h d).1, fun _ _ _ => trivial, fun d => (h d).2.1, fun d n _ => (h d).2.2 n⟩,
    fun h d => ⟨h.once d, h.classes d, fun n => h.member d n trivial⟩⟩

/-- Two records agree in what the basket law reads of them. -/
def Story.SameBasket (x y : Story) : Prop := y.state = x.state ∧ y.desk = x.desk ∧ y.urgent = x.urgent

section
variable {P : StoryNo → Prop} {c d : Chip} {s : StoryNo}

theorem basketLawFor_congr (h : c.BasketLawFor P) (hb : ∀ x : DeskNo, d.desks[x].basket = c.desks[x].basket)
    (hs : ∀ n : StoryNo, P n → c.stories[n].SameBasket d.stories[n]) : d.BasketLawFor P := by
  refine ⟨fun x => hb x ▸ h.once x, fun x => hb x ▸ h.inside x, fun x => ?_, fun x n k => ?_⟩
  · rw [hb]
    refine List.Pairwise.imp_of_mem (fun {a b} ha hb k => ?_) (h.classes x)
    show d.stories[b].urgent = true → d.stories[a].urgent = true
    rw [(hs a (h.inside x a ha)).2.2, (hs b (h.inside x b hb)).2.2]
    exact k
  · rw [hb, (hs n k).1, (hs n k).2.1]
    exact h.member x n k

/-- The record of a story apart may be changed in any way. -/
theorem basketLawFor_onStory (f : Story → Story) (h : c.BasketLawFor (AllBut s P)) :
    (c.onStory s f).BasketLawFor (AllBut s P) :=
  basketLawFor_congr h (fun _ => rfl) fun n k => by
    simp only [onStory_fields]
    rw [update_ne _ _ (Ne.symm k.2)]
    exact ⟨rfl, rfl, rfl⟩

/-- A story that is not BASKET stands apart already, -/
theorem basketLawFor_of_other (h : c.BasketLawFor P) (hs : P s) (k : c.stories[s].state ≠ .basket) :
    c.BasketLawFor (AllBut s P) :=
  ⟨h.once, fun d n m => ⟨h.inside d n m, fun e => k ((h.member d s hs).mp (e ▸ m)).1⟩, h.classes,
    fun d n k => h.member d n k.1⟩

/-- and comes back as it is. -/
theorem basketLawFor_other (h : c.BasketLawFor (AllBut s P)) (k : c.stories[s].state ≠ .basket) :
    c.BasketLawFor P := by
  refine ⟨h.once, fun d n m => (h.inside d n m).1, h.classes, fun d n hn => ?_⟩
  by_cases e : n = s
  · subst e
    exact ⟨fun m => absurd rfl (h.inside d _ m).2, fun m => absurd m.1 k⟩
  · exact h.member d n ⟨hn, e⟩

/-- A change of a basket leaves every record, and every other basket. -/
theorem setBasket_same (before : Option StoryNo) (q : List StoryNo) (c : Chip) :
    (c.setBasket s before q).stories = c.stories ∧
      ∀ x : DeskNo, (c.setBasket s before q).desks[x].basket = if c.stories[s].desk = x then q else c.desks[x].basket := by
  refine ⟨(does_setBasket s before q c).frame .stories (by decide), fun x => ?_⟩
  unfold Chip.setBasket
  simp only [mark_fields]
  split <;> simp only [mark_fields, onDesk_fields] <;> rw [update_apply] <;> split <;> rfl

/-- A BASKET story leaves its basket (R94). -/
theorem basketLawFor_leave (h : c.BasketLawFor P) (hs : P s) :
    (c.leaveBasket s).BasketLawFor (AllBut s P) := by
  unfold Chip.leaveBasket
  obtain ⟨e, b⟩ := setBasket_same (s := s) (entryBefore s c.desks[c.stories[s].desk].basket)
    (c.desks[c.stories[s].desk].basket.filter (· ≠ s)) c
  have only : ∀ x : DeskNo, s ∈ c.desks[x].basket → c.stories[s].desk = x := fun x m => ((h.member x s hs).mp m).2
  refine ⟨fun x => ?_, fun x n m => ?_, fun x => ?_, fun x n hn => ?_⟩
  · rw [b]
    split
    · exact (h.once _).filter _
    · exact h.once x
  · rw [b] at m
    split at m
    · exact ⟨h.inside _ n (List.mem_filter.mp m).1, by simpa using (List.mem_filter.mp m).2⟩
    · rename_i hx
      exact ⟨h.inside x n m, fun e => hx (only x (e ▸ m))⟩
  · rw [b, e]
    split
    · exact (h.classes _).filter _
    · exact h.classes x
  · rw [b, e]
    split
    · rename_i hx
      subst hx
      rw [List.mem_filter]
      exact ⟨fun m => (h.member _ n hn.1).mp m.1, fun m => ⟨(h.member _ n hn.1).mpr m, by simpa using hn.2⟩⟩
    · exact h.member x n hn.1

/-- A BASKET story put between the two classes of its desk's basket, or at the end of its own. -/
theorem basketLawFor_enter (h : c.BasketLawFor (AllBut s P)) (hs : P s) (k : c.stories[s].state = .basket)
    (before : Option StoryNo) {f b : List StoryNo} (hfb : f ++ b = c.desks[c.stories[s].desk].basket)
    (hcl : InClasses (fun n : StoryNo => c.stories[n].urgent) (f ++ s :: b)) :
    (c.setBasket s before (f ++ s :: b)).BasketLawFor P := by
  obtain ⟨e, hb⟩ := setBasket_same (s := s) before (f ++ s :: b) c
  have hab : s ∉ f ++ b := hfb ▸ fun m => (h.inside _ s m).2 rfl
  have hmem : ∀ n : StoryNo, n ∈ f ++ s :: b ↔ n = s ∨ n ∈ c.desks[c.stories[s].desk].basket := fun n => by
    rw [← hfb]
    exact (List.perm_middle.mem_iff).trans List.mem_cons
  refine ⟨fun x => ?_, fun x n m => ?_, fun x => ?_, fun x n hn => ?_⟩
  · rw [hb]
    split
    · exact (List.perm_middle.nodup_iff).mpr (List.nodup_cons.mpr ⟨hab, hfb ▸ h.once _⟩)
    · exact h.once x
  · rw [hb] at m
    split at m
    · exact ((hmem n).mp m).elim (fun y => y ▸ hs) fun y => (h.inside _ n y).1
    · exact (h.inside x n m).1
  · rw [hb, e]
    split
    · exact hcl
    · exact h.classes x
  · rw [hb, e]
    split
    · rename_i hx
      subst hx
      rw [hmem]
      by_cases y : n = s
      · subst y
        exact ⟨fun _ => ⟨k, rfl⟩, fun _ => .inl rfl⟩
      · exact ⟨fun m => (h.member _ n ⟨hn, y⟩).mp (m.resolve_left y), fun m => .inr ((h.member _ n ⟨hn, y⟩).mpr m)⟩
    · rename_i hx
      by_cases y : n = s
      · subst y
        exact ⟨fun m => absurd rfl (h.inside x _ m).2, fun m => absurd m.2 hx⟩
      · exact h.member x n ⟨hn, y⟩

/-- A BASKET story joins the tail of its class (R92). -/
theorem basketLawFor_joinTail (h : c.BasketLawFor (AllBut s P)) (hs : P s) (k : c.stories[s].state = .basket) :
    (c.joinTail s).BasketLawFor P := by
  obtain ⟨front, back, hq, hf, hb⟩ := classes_parts (h.classes c.stories[s].desk)
  have hsplit := classes_split hf hb
  unfold Chip.joinTail
  extract_lets b urgent q
  have hq' : b = front ++ back := hq
  by_cases u : c.stories[s].urgent = true
  · have : q = front ++ s :: back := by
      show (if _ then _ else _) = _
      rw [if_pos u, hq', hsplit.1, hsplit.2]
    rw [this]
    exact basketLawFor_enter h hs k _ hq.symm (classes_insert s hf hb)
  · have : q = b ++ s :: [] := if_neg u
    rw [this]
    refine basketLawFor_enter h hs k _ (List.append_nil b)
      (List.pairwise_append.mpr ⟨h.classes _, List.pairwise_singleton _ _, ?_⟩)
    intro a _ x hx hu
    rw [List.mem_singleton.mp hx] at hu
    exact absurd hu u

/-- A BASKET story joins the head of its class (R93). -/
theorem basketLawFor_joinHead (h : c.BasketLawFor (AllBut s P)) (hs : P s) (k : c.stories[s].state = .basket) :
    (c.joinHead s).BasketLawFor P := by
  obtain ⟨front, back, hq, hf, hb⟩ := classes_parts (h.classes c.stories[s].desk)
  have hsplit := classes_split hf hb
  unfold Chip.joinHead
  extract_lets b urgent q
  have hq' : b = front ++ back := hq
  by_cases u : c.stories[s].urgent = true
  · have : q = [] ++ s :: b := if_pos u
    rw [this]
    exact basketLawFor_enter h hs k _ (List.nil_append b) (List.pairwise_cons.mpr ⟨fun _ _ _ => u, h.classes _⟩)
  · have : q = front ++ s :: back := by
      show (if _ then _ else _) = _
      rw [if_neg u, hq', hsplit.1, hsplit.2]
    rw [this]
    exact basketLawFor_enter h hs k _ hq.symm (classes_insert s hf hb)
end

/-! ## Holders (R95, R96) -/

/-- The holder law for every story but `s`, which no held set and no open count takes in. -/
structure Chip.HolderLawBut (s : StoryNo) (c : Chip) : Prop where
  held : ∀ u : TerminalNo, c.custody.held[u].Nodup ∧ c.custody.held[u].length ≤ 2 ∧
    ∀ n : StoryNo, n ∈ c.custody.held[u] ↔ n ≠ s ∧ c.stories[n].state = .open_ ∧ c.stories[n].holder = some u
  opened : ∀ n : StoryNo, n ≠ s → c.stories[n].state = .open_ →
    ∃ u y, c.stories[n].holder = some u ∧ c.session u = some y ∧ y.desk = c.stories[n].desk
  closed : ∀ n : StoryNo, n ≠ s → c.stories[n].state ≠ .open_ →
    c.stories[n].holder = none ∧ c.stories[n].lease = none
  number : ∀ d : DeskNo, c.desks[d].openCount =
    howMany fun n : StoryNo => Decidable.decide (n ≠ s ∧ c.stories[n].state = .open_ ∧ c.stories[n].desk = d)

section
variable {c d : Chip} {s : StoryNo}

/-- The number of the open stories of a desk, as the holder law counts them. -/
theorem holderLaw_number (h : c.HolderLaw) (x : DeskNo) : c.desks[x].openCount =
    howMany fun n : StoryNo => decide (c.stories[n].state = .open_ ∧ c.stories[n].desk = x) := h.2.2 x

/-- A story that is not OPEN stands apart already, -/
theorem holderLawBut_of_closed (h : c.HolderLaw) (k : c.stories[s].state ≠ .open_) : c.HolderLawBut s := by
  refine ⟨fun u => ⟨(h.1 u).1, (h.1 u).2.1, fun n => ?_⟩, fun n _ => (h.2.1 n).1, fun n _ => (h.2.1 n).2, fun x => ?_⟩
  · rw [(h.1 u).2.2 n]
    exact ⟨fun m => ⟨fun e => k (e ▸ m.1), m⟩, fun m => m.2⟩
  · rw [holderLaw_number h]
    refine howMany_congr fun n => ?_
    rw [decide_eq_decide]
    exact ⟨fun m => ⟨fun e => k (e ▸ m.1), m⟩, fun m => m.2⟩

/-- and comes back without holder and lease. -/
theorem holderLaw_closed (h : c.HolderLawBut s) (k : c.stories[s].state ≠ .open_)
    (m : c.stories[s].holder = none ∧ c.stories[s].lease = none) : c.HolderLaw := by
  refine ⟨fun u => ⟨(h.held u).1, (h.held u).2.1, fun n => ?_⟩, fun n => ?_, fun x => ?_⟩
  · rw [(h.held u).2.2 n]
    exact ⟨fun m => m.2, fun m => ⟨fun e => k (e ▸ m.1), m⟩⟩
  · by_cases e : n = s
    · subst e
      exact ⟨fun x => absurd x k, fun _ => m⟩
    · exact ⟨h.opened n e, h.closed n e⟩
  · show _ = howMany fun n : StoryNo => decide _
    rw [h.number]
    refine howMany_congr fun n => ?_
    rw [decide_eq_decide]
    exact ⟨fun m => m.2, fun m => ⟨fun e => k (e ▸ m.1), m⟩⟩

/-- Two records agree in what the holder law reads of them. -/
def Story.SameHolder (x y : Story) : Prop :=
  y.state = x.state ∧ y.holder = x.holder ∧ y.desk = x.desk ∧ (x.state ≠ .open_ → x.lease = none → y.lease = none)

theorem holderLawBut_congr (h : c.HolderLawBut s) (hh : d.custody.held = c.custody.held)
    (hk : ∀ u, d.session u = c.session u) (ho : ∀ x : DeskNo, d.desks[x].openCount = c.desks[x].openCount)
    (hs : ∀ n : StoryNo, n ≠ s → c.stories[n].SameHolder d.stories[n]) : d.HolderLawBut s := by
  refine ⟨fun u => ⟨hh ▸ (h.held u).1, hh ▸ (h.held u).2.1, fun n => ?_⟩, fun n e => ?_, fun n e => ?_, fun x => ?_⟩
  · rw [hh, (h.held u).2.2 n]
    by_cases e : n = s
    · simp [e]
    · rw [(hs n e).1, (hs n e).2.1]
  · rw [(hs n e).1, (hs n e).2.1, (hs n e).2.2.1]
    simpa only [hk] using h.opened n e
  · rw [(hs n e).1, (hs n e).2.1]
    exact fun k => ⟨(h.closed n e k).1, (hs n e).2.2.2 k (h.closed n e k).2⟩
  · rw [ho, h.number]
    refine howMany_congr fun n => ?_
    by_cases e : n = s
    · simp [e]
    · rw [(hs n e).1, (hs n e).2.2.1]

/-- The record of a story apart may be changed in any way. -/
theorem holderLawBut_onStory (f : Story → Story) (h : c.HolderLawBut s) : (c.onStory s f).HolderLawBut s :=
  holderLawBut_congr h rfl (fun _ => rfl) (fun _ => rfl) fun n k => by
    simp only [onStory_fields]
    rw [update_ne _ _ (Ne.symm k)]
    exact ⟨rfl, rfl, rfl, fun _ k => k⟩

/-- What a leaving of the holder makes of the part (R96). -/
theorem leaveOpen_same {t : TerminalNo} (k : c.stories[s].holder = some t) :
    (c.leaveOpen s).stories = update c.stories s (fun x => { x with holder := none, lease := none }) ∧
      (c.leaveOpen s).custody.held = update c.custody.held t (fun l => l.filter (· ≠ s)) ∧
      (∀ u, (c.leaveOpen s).session u = c.session u) ∧
      ∀ x : DeskNo, (c.leaveOpen s).desks[x].openCount =
        if c.stories[s].desk = x then c.desks[x].openCount - 1 else c.desks[x].openCount := by
  unfold Chip.leaveOpen
  rw [k]
  simp only [mark_fields, onDesk_fields, onStory_fields, onCustody_fields, Chip.session]
  refine ⟨trivial, trivial, fun _ => trivial, fun x => ?_⟩
  rw [update_apply]
  split <;> rfl

/-- An OPEN story leaves its holder (R96). -/
theorem holderLawBut_leaveOpen (h : c.HolderLaw) (k : c.stories[s].state = .open_) :
    (c.leaveOpen s).HolderLawBut s := by
  obtain ⟨t, y, ht, _, _⟩ := (h.2.1 s).1 k
  obtain ⟨es, eh, ek, eo⟩ := leaveOpen_same ht
  have other : ∀ n : StoryNo, n ≠ s → (c.leaveOpen s).stories[n] = c.stories[n] := fun n e => by
    rw [es, update_ne _ _ (Ne.symm e)]
  have state : ∀ n : StoryNo, (c.leaveOpen s).stories[n].state = c.stories[n].state ∧
      (c.leaveOpen s).stories[n].desk = c.stories[n].desk := fun n => by
    rw [es, update_apply]
    split <;> exact ⟨rfl, rfl⟩
  refine ⟨fun u => ?_, fun n e => ?_, fun n e => ?_, fun x => ?_⟩
  · have hm : ∀ n : StoryNo, n ≠ s ∧ (c.leaveOpen s).stories[n].state = .open_ ∧
        (c.leaveOpen s).stories[n].holder = some u ↔ n ≠ s ∧ n ∈ c.custody.held[u] := fun n => by
      rw [(h.1 u).2.2 n]
      by_cases e : n = s
      · simp [e]
      · rw [other n e]
    simp only [hm]
    rw [eh, update_apply]
    split
    · refine ⟨(h.1 u).1.filter _, Nat.le_trans (List.length_filter_le _ _) (h.1 u).2.1, fun n => ?_⟩
      rw [List.mem_filter]
      exact ⟨fun m => ⟨by simpa using m.2, m.1⟩, fun m => ⟨m.2, by simpa using m.1⟩⟩
    · rename_i hu
      refine ⟨(h.1 u).1, (h.1 u).2.1, fun n => ⟨fun m => ⟨fun e => ?_, m⟩, fun m => m.2⟩⟩
      have := ((h.1 u).2.2 s).mp (e ▸ m)
      exact hu (Option.some.inj (ht.symm.trans this.2))
  · rw [other n e]
    simpa only [ek] using (h.2.1 n).1
  · rw [other n e]
    exact (h.2.1 n).2
  · rw [eo, holderLaw_number h]
    split
    · rename_i hx
      rw [howMany_add (p := fun n : StoryNo => decide (n ≠ s ∧ c.stories[n].state = .open_ ∧ c.stories[n].desk = x)) s
        (fun n e => by simp [e]) (by simp) (decide_eq_true ⟨k, hx⟩), Nat.add_sub_cancel]
      exact howMany_congr fun n => by rw [(state n).1, (state n).2]
    · rename_i hx
      refine howMany_congr fun n => ?_
      rw [(state n).1, (state n).2, decide_eq_decide]
      exact ⟨fun m => ⟨fun e => hx (e ▸ m.2), m⟩, fun m => m.2⟩

/-- What an opening makes of the part (R96, R97). -/
theorem enterOpen_same (t : TerminalNo) :
    (c.enterOpen s t).stories = update c.stories s (fun x => { x with
      state := .open_, holder := some t, lease := c.armedLease c.stories[s].desk }) ∧
      (c.enterOpen s t).custody.held = update c.custody.held t (fun l => l ++ [s]) ∧
      (∀ u, (c.enterOpen s t).session u = c.session u) ∧
      ∀ x : DeskNo, (c.enterOpen s t).desks[x].openCount =
        if c.stories[s].desk = x then c.desks[x].openCount + 1 else c.desks[x].openCount := by
  unfold Chip.enterOpen
  simp only [mark_fields, onDesk_fields, onStory_fields, onCustody_fields, Chip.session]
  refine ⟨trivial, trivial, fun _ => trivial, fun x => ?_⟩
  rw [update_apply]
  split <;> rfl

/-- A story becomes OPEN at a terminal signed on to its desk that holds at most one other (R96). -/
theorem holderLaw_enterOpen {t : TerminalNo} {y : Session} (h : c.HolderLawBut s) (ht : c.custody.held[t].length < 2)
    (hy : c.session t = some y) (hd : y.desk = c.stories[s].desk) : (c.enterOpen s t).HolderLaw := by
  obtain ⟨es, eh, ek, eo⟩ := enterOpen_same (c := c) (s := s) t
  have other : ∀ n : StoryNo, n ≠ s → (c.enterOpen s t).stories[n] = c.stories[n] := fun n e => by
    rw [es, update_ne _ _ (Ne.symm e)]
  have self : (c.enterOpen s t).stories[s] = { c.stories[s] with
      state := .open_, holder := some t, lease := c.armedLease c.stories[s].desk } := by
    rw [es, update_apply, if_pos rfl]
  refine ⟨fun u => ?_, fun n => ?_, fun x => ?_⟩
  · have hm : ∀ n : StoryNo, (c.enterOpen s t).stories[n].state = .open_ ∧
        (c.enterOpen s t).stories[n].holder = some u ↔ n ∈ c.custody.held[u] ∨ n = s ∧ t = u := fun n => by
      rw [(h.held u).2.2 n]
      by_cases e : n = s
      · subst e
        rw [self]
        simp
      · rw [other n e]
        simp [e]
    simp only [hm]
    rw [eh, update_apply]
    split
    · rename_i hu
      subst hu
      refine ⟨?_, ?_, fun n => by simp⟩
      rotate_left
      · rw [List.length_append, List.length_singleton]
        omega
      refine List.nodup_append.mpr ⟨(h.held t).1, List.pairwise_singleton _ s, fun a ha b hb e => ?_⟩
      rw [List.mem_singleton.mp hb] at e
      exact (((h.held t).2.2 a).mp ha).1 e
    · rename_i hu
      exact ⟨(h.held u).1, (h.held u).2.1, fun n => by simp [hu]⟩
  · by_cases e : n = s
    · subst e
      rw [self]
      exact ⟨fun _ => ⟨t, y, rfl, (ek t).trans hy, hd⟩, fun x => absurd rfl x⟩
    · rw [other n e]
      simp only [ek]
      exact ⟨h.opened n e, h.closed n e⟩
  · have hr : ∀ n : StoryNo, n ≠ s → decide ((c.enterOpen s t).stories[n].state = .open_ ∧
        (c.enterOpen s t).stories[n].desk = x) = decide (n ≠ s ∧ c.stories[n].state = .open_ ∧ c.stories[n].desk = x) :=
      fun n e => by
        rw [other n e]
        simp [e]
    show _ = howMany fun n : StoryNo => decide _
    rw [eo, h.number]
    split
    · rename_i hx
      refine (howMany_add s (fun n e => (hr n e).symm) (by simp) ?_).symm
      rw [self]
      exact decide_eq_true ⟨rfl, hx⟩
    · rename_i hx
      refine howMany_congr fun n => ?_
      by_cases e : n = s
      · subst e
        rw [self, decide_eq_decide]
        exact ⟨fun m => absurd rfl m.1, fun m => absurd m.2 hx⟩
      · exact (hr n e).symm
end

/-! ## FREE stories (R88) -/

section
variable {c d : Chip} {s : StoryNo}

/-- The free story count, as the law counts. -/
theorem freeLaw_number (h : c.FreeLaw) :
    c.custody.freeStories = howMany fun n : StoryNo => decide (c.stories[n].state = .free) := h.2

/-- The law reads the FREE stories and the count. -/
theorem freeLaw_congr (h : c.FreeLaw) (hc : d.custody.freeStories = c.custody.freeStories)
    (hs : ∀ n : StoryNo, (d.stories[n].state = .free ↔ c.stories[n].state = .free) ∧
      (c.stories[n].state = .free → d.stories[n] = c.stories[n])) : d.FreeLaw := by
  refine ⟨fun n k => ?_, ?_⟩
  · have k := (hs n).1.mp k
    rw [(hs n).2 k]
    exact h.1 n k
  · rw [hc]
    show _ = howMany fun n : StoryNo => decide _
    rw [freeLaw_number h]
    exact howMany_congr fun n => by rw [decide_eq_decide]; exact (hs n).1.symm

/-- A FREE story is taken (R100). -/
theorem freeLaw_taken (h : c.FreeLaw) (k : c.stories[s].state = .free) (m : d.stories[s].state ≠ .free)
    (hc : d.custody.freeStories = c.custody.freeStories - 1)
    (ho : ∀ n : StoryNo, n ≠ s → d.stories[n] = c.stories[n]) : d.FreeLaw := by
  refine ⟨fun n x => ?_, ?_⟩
  · by_cases e : n = s
    · exact absurd (e ▸ x) m
    · rw [ho n e] at x ⊢
      exact h.1 n x
  · show _ = howMany fun n : StoryNo => decide _
    rw [hc, freeLaw_number h, howMany_add (p := fun n : StoryNo => decide (d.stories[n].state = .free)) s
      (fun n e => by rw [ho n e]) (decide_eq_false m) (decide_eq_true k), Nat.add_sub_cancel]

/-- A killed story is FREE again (R107). -/
theorem freeLaw_freed (h : c.FreeLaw) (k : c.stories[s].state ≠ .free) (m : d.stories[s] = Story.free)
    (hc : d.custody.freeStories = c.custody.freeStories + 1)
    (ho : ∀ n : StoryNo, n ≠ s → d.stories[n] = c.stories[n]) : d.FreeLaw := by
  have e : d.stories[s].state = .free := by rw [m]; rfl
  refine ⟨fun n x => ?_, ?_⟩
  · by_cases e : n = s
    · rw [e, m]
    · rw [ho n e] at x ⊢
      exact h.1 n x
  · show _ = howMany fun n : StoryNo => decide _
    rw [hc, freeLaw_number h]
    exact (howMany_add s (fun n e => by rw [ho n e]) (decide_eq_false k) (decide_eq_true e)).symm
end

/-! ## Block lists (R89) -/

/-- Every block of a list freed in the owner map (R107 e). -/
theorem owners_freed (l : List BlockNo) (m : Vector (Option StoryNo) 8192) (b : BlockNo) :
    (l.foldl (fun (m : Vector (Option StoryNo) 8192) (b : BlockNo) => m.set b none) m)[b] =
      if b ∈ l then none else m[b] := by
  induction l generalizing m with
  | nil => simp
  | cons a l ih =>
    rw [List.foldl_cons, ih]
    by_cases e : b = a
    · subst e
      simp
    · have hv : a.val ≠ b.val := fun h => e (Fin.ext h.symm)
      simp [e, Vector.getElem_set_ne _ _ hv]

section
variable {c d : Chip} {s : StoryNo} {b : BlockNo}

/-- The free block count, as the law counts. -/
theorem blockLaw_number (h : c.BlockLaw) :
    c.custody.freeBlocks = howMany fun b : BlockNo => decide (c.custody.owners[b] = none) := h.2.2

/-- The law reads the lists, the owner map and the count. -/
theorem blockLaw_congr (h : c.BlockLaw) (ho : d.custody.owners = c.custody.owners)
    (hf : d.custody.freeBlocks = c.custody.freeBlocks)
    (hs : ∀ n : StoryNo, d.stories[n].blocks = c.stories[n].blocks) : d.BlockLaw := by
  unfold Chip.BlockLaw
  simp only [ho, hf, hs]
  exact h

/-- A free block joins the end of a list (R101). -/
theorem blockLaw_attach (h : c.BlockLaw) (k : c.custody.owners[b] = none) (hl : c.stories[s].blocks.length < 48)
    (ho : d.custody.owners = c.custody.owners.set b (some s)) (hf : d.custody.freeBlocks = c.custody.freeBlocks - 1)
    (hs : d.stories[s].blocks = c.stories[s].blocks ++ [b])
    (hn : ∀ n : StoryNo, n ≠ s → d.stories[n].blocks = c.stories[n].blocks) : d.BlockLaw := by
  have owner : ∀ x : BlockNo, d.custody.owners[x] = if x = b then some s else c.custody.owners[x] := fun x => by
    rw [ho]
    by_cases e : x = b
    · subst e
      simp
    · have hv : b.val ≠ x.val := fun h => e (Fin.ext h.symm)
      simp [e, Vector.getElem_set_ne _ _ hv]
  have none_in : ∀ n : StoryNo, b ∉ c.stories[n].blocks := fun n m => nomatch k.symm.trans ((h.1 b n).mpr m)
  refine ⟨fun x n => ?_, fun n => ?_, ?_⟩
  · rw [owner]
    by_cases e : n = s
    · subst e
      rw [hs, List.mem_append, List.mem_singleton]
      split
      · rename_i hx
        exact ⟨fun _ => .inr hx, fun _ => rfl⟩
      · rename_i hx
        exact ⟨fun m => .inl ((h.1 x n).mp m), fun m => (h.1 x n).mpr (m.resolve_right hx)⟩
    · rw [hn n e]
      split
      · rename_i hx
        subst hx
        exact ⟨fun m => absurd (Option.some.inj m).symm e, fun m => absurd m (none_in n)⟩
      · exact h.1 x n
  · by_cases e : n = s
    · subst e
      rw [hs]
      refine ⟨List.nodup_append.mpr ⟨(h.2.1 n).1, List.pairwise_singleton _ b, fun x hx y hy e => ?_⟩, ?_⟩
      · rw [List.mem_singleton.mp hy] at e
        exact none_in n (e ▸ hx)
      · rw [List.length_append, List.length_singleton]
        omega
    · rw [hn n e]
      exact h.2.1 n
  · show _ = howMany fun b : BlockNo => decide _
    rw [hf, blockLaw_number h, howMany_add (p := fun x : BlockNo => decide (d.custody.owners[x] = none)) b
      (fun x e => by rw [owner x, if_neg e]) (decide_eq_false (by rw [owner, if_pos rfl]; simp)) (decide_eq_true k),
      Nat.add_sub_cancel]

/-- The last block of a list is freed (R102). -/
theorem blockLaw_detach (h : c.BlockLaw) (k : c.stories[s].blocks.getLast? = some b)
    (ho : d.custody.owners = c.custody.owners.set b none) (hf : d.custody.freeBlocks = c.custody.freeBlocks + 1)
    (hs : d.stories[s].blocks = c.stories[s].blocks.dropLast)
    (hn : ∀ n : StoryNo, n ≠ s → d.stories[n].blocks = c.stories[n].blocks) : d.BlockLaw := by
  have owner : ∀ x : BlockNo, d.custody.owners[x] = if x = b then none else c.custody.owners[x] := fun x => by
    rw [ho]
    by_cases e : x = b
    · subst e
      simp
    · have hv : b.val ≠ x.val := fun h => e (Fin.ext h.symm)
      simp [e, Vector.getElem_set_ne _ _ hv]
  have parts : c.stories[s].blocks = c.stories[s].blocks.dropLast ++ [b] :=
    by obtain ⟨l, e⟩ := List.getLast?_eq_some_iff.mp k; rw [e, List.dropLast_concat]
  have mine : c.custody.owners[b] = some s := (h.1 b s).mpr (by rw [parts]; simp)
  have hd := (h.2.1 s)
  rw [parts] at hd
  have hb : b ∉ c.stories[s].blocks.dropLast := fun m =>
    (List.nodup_append.mp hd.1).2.2 b m b (List.mem_singleton.mpr rfl) rfl
  refine ⟨fun x n => ?_, fun n => ?_, ?_⟩
  · rw [owner]
    by_cases e : n = s
    · subst e
      rw [hs]
      split
      · rename_i hx
        subst hx
        exact ⟨fun m => (nomatch m), fun m => absurd m hb⟩
      · rename_i hx
        rw [h.1 x n, parts, List.mem_append, List.mem_singleton, ← parts]
        exact ⟨fun m => m.resolve_right hx, .inl⟩
    · rw [hn n e]
      split
      · rename_i hx
        subst hx
        exact ⟨fun m => (nomatch m), fun m => absurd (Option.some.inj (mine.symm.trans ((h.1 x n).mpr m))).symm e⟩
      · exact h.1 x n
  · by_cases e : n = s
    · subst e
      rw [hs]
      rw [List.length_append] at hd
      exact ⟨(List.nodup_append.mp hd.1).1, by omega⟩
    · rw [hn n e]
      exact h.2.1 n
  · show _ = howMany fun b : BlockNo => decide _
    rw [hf, blockLaw_number h]
    refine (howMany_add b (fun x e => by rw [owner x, if_neg e]) (decide_eq_false ?_) (decide_eq_true ?_)).symm
    · rw [mine]
      simp
    · rw [owner, if_pos rfl]

/-- The owned blocks of a list freed, so many more are free. -/
theorem howMany_freed (l : List BlockNo) (m : Vector (Option StoryNo) 8192) (hn : l.Nodup) (ho : ∀ b ∈ l, m[b] ≠ none) :
    (howMany fun b : BlockNo => decide
      ((l.foldl (fun (m : Vector (Option StoryNo) 8192) (b : BlockNo) => m.set b none) m)[b] = none)) =
      (howMany fun b : BlockNo => decide (m[b] = none)) + l.length := by
  induction l generalizing m with
  | nil =>
    rw [List.foldl_nil, List.length_nil, Nat.add_zero]
  | cons a l ih =>
    have hn := List.nodup_cons.mp hn
    have other : ∀ b : BlockNo, b ≠ a → (m.set a none)[b] = m[b] := fun b e => by
      have hv : a.val ≠ b.val := fun h => e (Fin.ext h.symm)
      simp [Vector.getElem_set_ne _ _ hv]
    rw [List.foldl_cons, ih _ hn.2 fun b hb => by
        rw [other b fun e => hn.1 (e ▸ hb)]
        exact ho b (List.mem_cons_of_mem a hb),
      howMany_add (p := fun b : BlockNo => decide (m[b] = none)) a (fun b e => by rw [other b e])
        (decide_eq_false (ho a List.mem_cons_self)) (decide_eq_true (by simp)), List.length_cons]
    omega

/-- Every block of a killed story is freed (R107 e). -/
theorem blockLaw_killed (h : c.BlockLaw)
    (ho : d.custody.owners =
      c.stories[s].blocks.foldl (fun (m : Vector (Option StoryNo) 8192) (b : BlockNo) => m.set b none) c.custody.owners)
    (hf : d.custody.freeBlocks = c.custody.freeBlocks + c.stories[s].blocks.length) (hs : d.stories[s].blocks = [])
    (hn : ∀ n : StoryNo, n ≠ s → d.stories[n].blocks = c.stories[n].blocks) : d.BlockLaw := by
  refine ⟨fun x n => ?_, fun n => ?_, ?_⟩
  · rw [ho, owners_freed]
    by_cases e : n = s
    · subst e
      rw [hs]
      split
      · exact ⟨fun m => (nomatch m), fun m => (nomatch m)⟩
      · rename_i hx
        exact ⟨fun m => absurd ((h.1 x n).mp m) hx, fun m => (nomatch m)⟩
    · rw [hn n e]
      split
      · rename_i hx
        exact ⟨fun m => (nomatch m),
          fun m => absurd (Option.some.inj (((h.1 x s).mpr hx).symm.trans ((h.1 x n).mpr m))).symm e⟩
      · exact h.1 x n
  · by_cases e : n = s
    · subst e
      rw [hs]
      exact ⟨List.nodup_nil, Nat.zero_le _⟩
    · rw [hn n e]
      exact h.2.1 n
  · show _ = howMany fun b : BlockNo => decide _
    rw [hf, blockLaw_number h, ho]
    exact (howMany_freed _ _ (h.2.1 s).1 fun b hb => by rw [(h.1 b s).mpr hb]; simp).symm
end

/-! ## Placements (R151, R152) -/

section
variable {c d : Chip} {s : StoryNo} {p : PageNo}

/-- The law reads the placement lists, each story's page and hole, and the values of EMPTY pages. -/
theorem placementLaw_congr (h : c.PlacementLaw)
    (hp : ∀ q : PageNo, d.pages[q].placements = c.pages[q].placements ∧ (d.pages[q].state = .empty → d.pages[q] = Page.empty))
    (hs : ∀ n : StoryNo, d.stories[n].page = c.stories[n].page ∧ d.stories[n].hole = c.stories[n].hole) :
    d.PlacementLaw := by
  refine ⟨fun q => ?_, fun n q => ?_, fun q e => ?_, fun n => ?_⟩
  · rw [(hp q).1]
    exact ⟨(h.1 q).1, (h.1 q).2.1, (hp q).2⟩
  · rw [(hp q).1, (hs n).1]
    exact h.2.1 n q
  · rw [(hp q).1, (hs e.story).2]
    exact h.2.2.1 q e
  · rw [(hs n).1, (hs n).2]
    exact h.2.2.2 n

/-- A story is placed on a page (R156). -/
theorem placementLaw_placed {hole : Nat} (h : c.PlacementLaw) (k : c.stories[s].page = none)
    (hl : c.pages[p].placements.length < 16)
    (hp : d.pages[p].placements = c.pages[p].placements ++ [{ story := s, hole := hole }])
    (he : d.pages[p].state ≠ .empty) (hq : ∀ q : PageNo, q ≠ p → d.pages[q] = c.pages[q])
    (hs : d.stories[s].page = some p ∧ d.stories[s].hole = hole)
    (hn : ∀ n : StoryNo, n ≠ s → d.stories[n].page = c.stories[n].page ∧ d.stories[n].hole = c.stories[n].hole) :
    d.PlacementLaw := by
  have apart : ∀ (q : PageNo) (e : Placement), e ∈ c.pages[q].placements → e.story ≠ s := fun q e m x =>
    nomatch k.symm.trans ((h.2.1 s q).mpr ⟨e, m, x⟩)
  refine ⟨fun q => ?_, fun n q => ?_, fun q e m => ?_, fun n x => ?_⟩
  · by_cases y : q = p
    · subst y
      rw [hp]
      refine ⟨by rw [List.length_append, List.length_singleton]; omega, ?_, fun x => absurd x he⟩
      rw [List.map_append]
      refine List.nodup_append.mpr ⟨(h.1 q).2.1, List.pairwise_singleton _ _, fun a ha b hb e => ?_⟩
      obtain ⟨x, hx, rfl⟩ := List.mem_map.mp ha
      exact apart q x hx (e.trans (List.mem_singleton.mp hb))
    · rw [hq q y]
      exact h.1 q
  · by_cases x : n = s
    · subst x
      rw [hs.1]
      constructor
      · intro y
        cases y
        exact ⟨{ story := n, hole := hole }, by rw [hp]; simp, rfl⟩
      · rintro ⟨e, m, y⟩
        by_cases z : q = p
        · rw [z]
        · rw [hq q z] at m
          exact absurd y (apart q e m)
    · rw [(hn n x).1, h.2.1 n q]
      by_cases z : q = p
      · subst z
        rw [hp]
        constructor
        · rintro ⟨e, m, y⟩
          exact ⟨e, List.mem_append_left _ m, y⟩
        · rintro ⟨e, m, y⟩
          rcases List.mem_append.mp m with m | m
          · exact ⟨e, m, y⟩
          · rw [List.mem_singleton.mp m] at y
            exact absurd y.symm x
      · rw [hq q z]
  · have old : e ∈ c.pages[q].placements → d.stories[e.story].hole = e.hole := fun m => by
      rw [(hn e.story (apart q e m)).2]
      exact h.2.2.1 q e m
    by_cases z : q = p
    · subst z
      rw [hp] at m
      rcases List.mem_append.mp m with m | m
      · exact old m
      · rw [List.mem_singleton.mp m]
        exact hs.2
    · rw [hq q z] at m
      exact old m
  · by_cases y : n = s
    · subst y
      exact nomatch hs.1.symm.trans x
    · rw [(hn n y).1] at x
      rw [(hn n y).2]
      exact h.2.2.2 n x

/-- A story's entry leaves its page's list (R107 c, R157). -/
theorem placementLaw_removed (h : c.PlacementLaw) (k : c.stories[s].page = some p)
    (hp : d.pages[p].placements = c.pages[p].placements.filter (·.story ≠ s)) (he : d.pages[p].state = c.pages[p].state)
    (hq : ∀ q : PageNo, q ≠ p → d.pages[q] = c.pages[q]) (hs : d.stories[s].page = none ∧ d.stories[s].hole = 0)
    (hn : ∀ n : StoryNo, n ≠ s → d.stories[n].page = c.stories[n].page ∧ d.stories[n].hole = c.stories[n].hole) :
    d.PlacementLaw := by
  obtain ⟨x, hx, hxs⟩ := (h.2.1 s p).mp k
  have full : c.pages[p].state ≠ .empty := fun e => by
    rw [(h.1 p).2.2 e] at hx
    exact nomatch hx
  have only : ∀ (q : PageNo) (e : Placement), e ∈ c.pages[q].placements → e.story = s → q = p := fun q e m y =>
    Option.some.inj (((h.2.1 s q).mpr ⟨e, m, y⟩).symm.trans k)
  have left : ∀ (q : PageNo) (e : Placement), e ∈ d.pages[q].placements ↔ e ∈ c.pages[q].placements ∧ e.story ≠ s :=
    fun q e => by
      by_cases z : q = p
      · subst z
        rw [hp, List.mem_filter]
        simp
      · rw [hq q z]
        exact ⟨fun m => ⟨m, fun y => z (only q e m y)⟩, fun m => m.1⟩
  refine ⟨fun q => ?_, fun n q => ?_, fun q e m => ?_, fun n y => ?_⟩
  · by_cases z : q = p
    · subst z
      rw [hp]
      refine ⟨Nat.le_trans (List.length_filter_le _ _) (h.1 q).1, ?_, fun x => absurd (he ▸ x) full⟩
      exact (h.1 q).2.1.sublist ((List.filter_sublist).map _)
    · rw [hq q z]
      exact h.1 q
  · by_cases z : n = s
    · subst z
      rw [hs.1]
      exact ⟨fun y => (nomatch y), fun ⟨e, m, y⟩ => absurd y ((left q e).mp m).2⟩
    · rw [(hn n z).1, h.2.1 n q]
      exact ⟨fun ⟨e, m, y⟩ => ⟨e, (left q e).mpr ⟨m, fun w => z (y.symm.trans w)⟩, y⟩,
        fun ⟨e, m, y⟩ => ⟨e, ((left q e).mp m).1, y⟩⟩
  · have m := (left q e).mp m
    rw [(hn e.story m.2).2]
    exact h.2.2.1 q e m.1
  · by_cases z : n = s
    · rw [z]
      exact hs.2
    · rw [(hn n z).1] at y
      rw [(hn n z).2]
      exact h.2.2.2 n y
end

end Sys2Proof.Machine
end

