-- ==== Sys2Proof/Laws/Memory.lean ====
section
/-! SUPPORT. Memory: what a store does to each read, and that the canonical form is kept. -/

namespace Sys2Proof.Machine

-- One theorem after another: side by side they wait for one another, a thread each.
set_option Elab.async false

/-- Below every listed address memory reads as unlisted. -/
theorem Memory.read_below (m : Memory) (a : Nat) (h : ∀ x ∈ m, a < x.1) : Memory.read m a = Config.powerOnWord := by
  induction m with
  | nil => rfl
  | cons x m ih =>
    have hx := h x (by simp)
    simp only [Memory.read]
    rw [if_neg (by omega)]
    exact ih fun y hy => h y (by simp [hy])

/-- The canonical form, apart: rising addresses. -/
def Memory.Rising (m : Memory) : Prop := m.Pairwise (fun x y => x.1 < y.1)

theorem Memory.wf_iff (m : Memory) :
    Memory.wf m = true ↔
      Memory.Rising m ∧ ∀ x ∈ m, x.1 < Config.memoryWords ∧ x.2 ≠ Config.powerOnWord := by
  simp [Memory.wf, Memory.Rising, List.all_eq_true]

/-- A store is read back at its own address, and every other address reads as before. -/
theorem Memory.read_write (m : Memory) (a b : Nat) (w : Word) (h : Memory.Rising m) :
    Memory.read (Memory.write m a w) b = if a = b then w else Memory.read m b := by
  induction m with
  | nil =>
    simp only [Memory.write]
    split <;> simp only [Memory.read] <;> split <;> simp_all
  | cons x m ih =>
    obtain ⟨k, v⟩ := x
    have hr : Memory.Rising m := (List.pairwise_cons.mp h).2
    have hk : ∀ y ∈ m, k < y.1 := fun y hy => (List.pairwise_cons.mp h).1 y hy
    by_cases hab : a = b
    · subst hab
      simp only [Memory.write, if_true]
      split
      · rename_i hlt
        split
        · rename_i hw
          have : Memory.read ((k, v) :: m) a = Config.powerOnWord :=
            Memory.read_below _ _ (by
              intro y hy
              rcases List.mem_cons.mp hy with rfl | hy
              · exact hlt
              · have := hk y hy; omega)
          rw [this, hw]
        · simp [Memory.read]
      · split
        · rename_i heq
          subst heq
          split
          · rename_i hw
            rw [Memory.read_below m a hk, hw]
          · simp [Memory.read]
        · rename_i hlt hne
          simp only [Memory.read]
          rw [if_neg (fun e => hne e.symm)]
          simpa using ih hr
    · simp only [if_neg hab] at ih ⊢
      simp only [Memory.write]
      split
      · split
        · rfl
        · simp [Memory.read, hab]
      · split
        · rename_i heq
          subst heq
          split
          · simp [Memory.read, hab]
          · simp [Memory.read, hab]
        · simp only [Memory.read]
          rw [ih hr]

/-- Every listed word after a store is the stored one or was listed before. -/
theorem Memory.mem_write (m : Memory) (a : Nat) (w : Word) (x : Nat × Word) (h : x ∈ Memory.write m a w) :
    (x = (a, w) ∧ w ≠ Config.powerOnWord) ∨ x ∈ m := by
  induction m with
  | nil =>
    simp only [Memory.write] at h
    split at h <;> simp_all
  | cons y m ih =>
    obtain ⟨k, v⟩ := y
    simp only [Memory.write] at h
    split at h
    · split at h
      · exact Or.inr h
      · rcases List.mem_cons.mp h with rfl | h
        · simp_all
        · exact Or.inr h
    · split at h
      · split at h
        · exact Or.inr (List.mem_cons_of_mem _ h)
        · rcases List.mem_cons.mp h with rfl | h
          · simp_all
          · exact Or.inr (List.mem_cons_of_mem _ h)
      · rcases List.mem_cons.mp h with rfl | h
        · exact Or.inr (by simp)
        · rcases ih h with h | h
          · exact Or.inl h
          · exact Or.inr (List.mem_cons_of_mem _ h)

/-- A store keeps the addresses rising. -/
theorem Memory.rising_write (m : Memory) (a : Nat) (w : Word) (h : Memory.Rising m) :
    Memory.Rising (Memory.write m a w) := by
  induction m with
  | nil =>
    simp only [Memory.write]
    split <;> simp [Memory.Rising]
  | cons y m ih =>
    obtain ⟨k, v⟩ := y
    have hr : Memory.Rising m := (List.pairwise_cons.mp h).2
    have hk : ∀ y ∈ m, k < y.1 := fun y hy => (List.pairwise_cons.mp h).1 y hy
    simp only [Memory.write]
    split
    · rename_i hlt
      split
      · exact h
      · refine List.pairwise_cons.mpr ⟨fun y hy => ?_, h⟩
        rcases List.mem_cons.mp hy with rfl | hy
        · exact hlt
        · have := hk y hy
          show a < y.1
          omega
    · split
      · rename_i heq
        subst heq
        split
        · exact hr
        · exact List.pairwise_cons.mpr ⟨hk, hr⟩
      · rename_i h1 h2
        refine List.pairwise_cons.mpr ⟨fun y hy => ?_, ih hr⟩
        rcases Memory.mem_write m a w y hy with ⟨rfl, _⟩ | hy
        · show k < a
          omega
        · exact hk y hy

/-- A store inside the array keeps the canonical form. -/
theorem Memory.wf_write (m : Memory) (a : Nat) (w : Word) (h : Memory.wf m = true) (ha : a < Config.memoryWords) :
    Memory.wf (Memory.write m a w) = true := by
  rw [Memory.wf_iff] at h ⊢
  refine ⟨Memory.rising_write m a w h.1, fun x hx => ?_⟩
  rcases Memory.mem_write m a w x hx with ⟨rfl, hw⟩ | hx
  · exact ⟨ha, hw⟩
  · exact h.2 x hx

/-- Memory with nothing listed has the canonical form. -/
theorem Memory.wf_nil : Memory.wf [] = true := rfl

end Sys2Proof.Machine
end

