-- ==== Sys2Proof/Laws/Steps.lean ====
section
/-! SUPPORT. What each command may do: its frame and the laws it keeps (`exec_does`), and what it does to memory and
to the queues (`exec_memory`, `exec_pending`). -/

namespace Sys2Proof.Machine

-- One theorem after another: side by side they wait for one another, a thread each.
set_option Elab.async false

/-! ## Commands taken by their owning blocks -/

/-- What a reply may have changed. -/
def Reply.Does (l : List Part) (c : Chip) : Reply → Prop
  | .done d _ => Chip.Does l c d
  | .refused _ _ => True

theorem does_collect (c : Chip) : Chip.Does [.unit] c c.collect := does_onUnit c _

theorem does_collected (c : Chip) : Chip.Does [.unit] c (c.onUnit fun u => { u with collecting := false }) :=
  does_onUnit c _

theorem does_answer (l : List Part) (body : Chip → Reply) (c : Chip) (h : ∀ d, (body d).Does l d) :
    Chip.Does (.unit :: l) c (c.answer body) := by
  unfold Chip.answer
  have hb := h c.collect
  split
  · rename_i d words e
    rw [e] at hb
    have h1 : Chip.Does (.unit :: l) c d := (does_collect c).andThen hb (fun p hp => by simpa using hp)
    exact h1.andThen (does_onUnit d (·.endAction .ok words)) (fun p hp => by
      simp at hp ⊢; rcases hp with h | h | h <;> simp [h])
  · exact (does_onUnit c _).mono (fun p hp => by simp at hp ⊢; exact Or.inl hp)

theorem does_takeCommand (n : Nat) (l : List Part) (body : Chip → Reply) (h : ∀ d, (body d).Does l d) (c : Chip) :
    Chip.Does (.unit :: l) c (if c.commandDue n then c.answer body else c) :=
  Chip.Does.ite (fun _ => does_answer l body c h) (fun _ => .refl _ _)

theorem Reply.does_refuse (l : List Part) (c : Chip) (r : ResultCode) : (Reply.refuse r).Does l c := trivial

theorem does_signOn (c : Chip) : c.signOn.Does [.keys, .keyWriter] c := by
  unfold Chip.signOn
  split
  · split
    · trivial
    · split
      · trivial
      · exact (does_onKeys c _ _ id).andThen (does_pendKey _ _)
  · trivial

theorem does_signOff (c : Chip) :
    c.signOff.Does [.mirror, .unit, .keys, .keyWriter, .screens, .noticeWriter, .stories, .desks, .custody] c := by
  unfold Chip.signOff
  split
  · trivial
  · split
    · trivial
    · exact does_endSession _ c

theorem does_ackNotice (c : Chip) : c.ackNotice.Does [.screens, .noticeWriter] c := by
  unfold Chip.ackNotice
  split
  · trivial
  · split
    · trivial
    · split
      · trivial
      · exact does_acknowledge _ c

theorem does_postNotice (c : Chip) : c.postNotice.Does [.screens, .noticeWriter] c := by
  unfold Chip.postNotice
  split
  · split
    · trivial
    · exact does_post _ _ _ _ c
  · trivial

theorem does_create (c : Chip) : c.create.Does ([.desks, .custody] ++ fitParts) c := by
  unfold Chip.create
  split
  · split
    · trivial
    · split
      · trivial
      · split
        · trivial
        · exact does_createStory _ _ _ c
  · trivial

theorem does_attach (c : Chip) : c.attach.Does ([.custody] ++ fitParts) c := by
  unfold Chip.attach
  split
  · rename_i s b _ _
    split
    · trivial
    · split
      · trivial
      · split
        · trivial
        · have h1 : Chip.Does ([.custody] ++ fitParts) c
              (c.onCustody fun k => { k with owners := k.owners.set b (some s), freeBlocks := k.freeBlocks - 1 }) :=
            (does_onCustody c _).mono
          exact ((h1.andThen ((does_onStory _ s _).andThen (does_mark _ _) (n := [.stories, .mirror, .unit]))
            (n := [.custody] ++ fitParts)).andThen (does_mark _ _) (n := [.custody] ++ fitParts)).andThen
              (does_staleStory s _)
  · trivial

theorem does_detach (c : Chip) : c.detach.Does ([.custody] ++ fitParts) c := by
  unfold Chip.detach
  split
  · trivial
  · rename_i s _
    split
    · trivial
    · split
      · trivial
      · rename_i b _
        have h1 : Chip.Does ([.custody] ++ fitParts) c
            ((c.onStory s fun x => { x with blocks := x.blocks.dropLast }).mark (.story s)) :=
          (does_onStory c s _).andThen (does_mark _ _)
        exact h1.step (((does_onCustody _ fun k =>
            { k with owners := k.owners.set b none, freeBlocks := k.freeBlocks + 1 }).andThen
          (does_mark _ _) (n := [.custody] ++ fitParts)).andThen (does_staleStory s _))

theorem does_submit (c : Chip) : c.submit.Does [.mirror, .unit, .stories, .desks] c := by
  unfold Chip.submit
  split
  · split
    · trivial
    · split
      · trivial
      · exact (does_onStory c _ _).andThen (does_joinTail _ _)
  · trivial

theorem does_openStory (c : Chip) : c.openStory.Does custodyParts c := by
  unfold Chip.openStory
  split
  · trivial
  · split
    · trivial
    · split
      · trivial
      · split
        · trivial
        · exact (does_leaveBasket _ c).andThen (does_enterOpen _ _ _)

theorem does_send (c : Chip) :
    c.send.Does [.unit, .mirror, .stories, .desks, .custody, .screens, .noticeWriter] c := by
  unfold Chip.send
  split
  · dsimp only
    split
    · trivial
    · split
      · trivial
      · exact does_sendStory _ _ _ c
  · trivial

theorem does_returnStory (c : Chip) : c.returnStory.Does custodyParts c := by
  unfold Chip.returnStory
  split
  · trivial
  · split
    · trivial
    · exact does_returnToHead _ c

theorem does_kill (c : Chip) : c.kill.Does ([.desks, .custody, .pages] ++ fitParts) c := by
  unfold Chip.kill
  split
  · trivial
  · dsimp only
    split
    · trivial
    · exact does_killStory _ c

theorem does_setStyle (c : Chip) : c.setStyle.Does fitParts c := by
  unfold Chip.setStyle
  split
  · dsimp only
    split
    · trivial
    · exact (does_onStory c _ _).andThen (does_staleStory _ _)
  · trivial

theorem does_refit (c : Chip) : c.refit.Does fitParts c := by
  unfold Chip.refit
  split
  · trivial
  · split
    · trivial
    · exact does_staleStory _ c

theorem does_clockRun (c : Chip) : c.clockRun.Does [.clock] c := by
  unfold Chip.clockRun
  split
  · trivial
  · exact does_onClock c _

theorem does_clockPause (c : Chip) : c.clockPause.Does [.clock] c := by
  unfold Chip.clockPause
  split
  · exact does_onClock c _
  · trivial

theorem does_setClock (c : Chip) : c.setClock.Does [.clock, .mirror, .unit] c := by
  unfold Chip.setClock
  split
  · trivial
  · exact does_loadClock _ c

theorem does_setEditions (c : Chip) : c.setEditions.Does [.clock, .mirror, .unit] c := by
  unfold Chip.setEditions
  split
  · trivial
  · split
    · trivial
    · exact does_takeSchedule _ c

theorem does_pageOpen (c : Chip) : c.pageOpen.Does [.pages, .mirror, .unit] c := by
  unfold Chip.pageOpen
  split
  · split
    · trivial
    · exact (does_onPage c _ _).andThen (does_mark _ _)
  · trivial

theorem does_setClose (c : Chip) : c.setClose.Does [.pages, .mirror, .unit] c := by
  unfold Chip.setClose
  split
  · trivial
  · split
    · trivial
    · exact (does_onPage c _ _).andThen (does_mark _ _)

theorem does_place (c : Chip) : c.place.Does (.pages :: fitParts) c := by
  unfold Chip.place
  split
  · split
    · trivial
    · split
      · trivial
      · split
        · trivial
        · split
          · trivial
          · exact does_placeStory _ _ _ c
  · trivial

theorem does_unplace (c : Chip) : c.unplace.Does (.pages :: fitParts) c := by
  unfold Chip.unplace
  split
  · split
    · trivial
    · split
      · exact does_unplaceStory _ _ c
      · trivial
  · trivial

theorem does_pageClear (c : Chip) : c.pageClear.Does [.pages, .mirror, .unit] c := by
  unfold Chip.pageClear
  split
  · trivial
  · split
    · trivial
    · split
      · exact (does_onPage c _ _).andThen (does_mark _ _)
      · trivial

theorem does_release (c : Chip) :
    c.release.Does [.unit, .mirror, .pages, .outputQueue, .stories, .desks, .screens, .noticeWriter] c := by
  unfold Chip.release
  split
  · split
    · trivial
    · split
      · trivial
      · exact does_releasePage _ c
  · trivial

theorem does_replate (c : Chip) :
    c.replate.Does [.unit, .mirror, .pages, .outputQueue, .stories, .desks, .custody, .link] c := by
  unfold Chip.replate
  split
  · trivial
  · dsimp only
    split
    · trivial
    · exact does_replatePage _ c

theorem does_linkOn (c : Chip) : c.linkOn.Does [.link, .mirror, .unit] c := by
  unfold Chip.linkOn
  split
  · trivial
  · split
    · exact does_linkTo _ _ c
    · trivial

theorem does_linkResume (c : Chip) : c.linkResume.Does [.link, .mirror, .unit] c := by
  unfold Chip.linkResume
  split
  · trivial
  · split
    · exact does_linkTo _ _ c
    · trivial

theorem does_linkOff (c : Chip) : c.linkOff.Does [.link, .pages, .outputQueue, .mirror, .unit] c := by
  unfold Chip.linkOff
  split
  · trivial
  · split
    · trivial
    · split
      · trivial
      · exact (does_linkTo _ _ c).mono
      · exact (does_linkTo _ _ c).mono
      · exact does_turnLinkOff c
      · exact does_turnLinkOff c

theorem does_terminalOn (c : Chip) : c.terminalOn.Does [.lines, .links, .keyWriter, .screens] c := by
  unfold Chip.terminalOn
  split
  · trivial
  · split
    · trivial
    · split
      · trivial
      · exact does_turnOn _ c

theorem does_terminalOff (c : Chip) : c.terminalOff.Does [.lines, .links, .keyWriter, .screens] c := by
  unfold Chip.terminalOff
  split
  · trivial
  · split
    · trivial
    · split
      · exact does_turnOff _ c
      · trivial

theorem does_lineReset (c : Chip) : c.lineReset.Does [.lines, .links, .keyWriter, .screens] c := by
  unfold Chip.lineReset
  split
  · trivial
  · split
    · trivial
    · exact does_resetLine _ c

/-! ## The command unit, START and the mirror writer -/

theorem does_takeCell (c : Chip) : Chip.Does [.unit] c c.takeCell := by
  unfold Chip.takeCell
  refine Chip.Does.ite (fun _ => ?_) (fun _ => .refl _ _)
  split
  · exact .refl _ _
  · exact (does_onCell c _ _).andThen (does_onUnit _ _)

theorem attention_dispatch (u : CommandUnit) :
    u.dispatch.attentionRaw = u.attentionRaw ∧ u.dispatch.attentionMask = u.attentionMask ∧
      u.dispatch.attentionLine = u.attentionLine := by
  unfold CommandUnit.dispatch
  split <;> exact ⟨rfl, rfl, rfl⟩

theorem does_cellWordRead (c : Chip) (q : OwnRead) (h : c.cellWordRead = some q) (w : Word) :
    Chip.Does [.unit] c (q.after w) := by
  unfold Chip.cellWordRead at h
  split at h
  · injection h with h
    subst h
    dsimp only
    refine does_onUnit c _ ?_
    split
    · exact ⟨rfl, rfl, rfl⟩
    · exact attention_dispatch _
  · cases h

theorem does_finishReport (k : CellNo) (c : Chip) : Chip.Does [.unit, .mirror] c (c.finishReport k) := by
  unfold Chip.finishReport
  have h1 : Chip.Does [.unit] c (c.onCell k fun x => { x with state := .done }) := does_onCell c k _
  exact (h1.step (does_onUnit _ fun u => { u with phase := .idle, serving := none })).andThen (does_raise _ _)

theorem does_resultWrite (c : Chip) (w : OwnWrite) (h : c.resultWrite = some w) :
    Chip.Does [.unit, .mirror] c w.after := by
  unfold Chip.resultWrite at h
  split at h
  · split at h
    · injection h with h
      subst h
      exact (does_onUnit c fun u => { u with reported := u.reported + 1 }).mono
    · injection h with h
      subst h
      exact does_finishReport _ c
  · cases h

theorem does_beginStart (c : Chip) : Chip.Does [.unit] c c.beginStart :=
  Chip.Does.ite (fun _ => does_onUnit c _) (fun _ => .refl _ _)

/-- The fields the entry to STARTING may change. -/
def startParts : List Part := [.unit, .path, .mirror, .lines, .link, .keyWriter, .noticeWriter]

theorem does_takeSettings (words : List Word) (c : Chip) : Chip.Does [.lines, .link] c (c.takeSettings words) := by
  unfold Chip.takeSettings
  extract_lets c1
  have h1 : Chip.Does [.lines] c c1 := Chip.Does.foldl _ (fun c l => does_onLine c l _) _ c
  exact h1.andThen (does_onLink c1 _)

theorem does_enterStarting (words : List Word) (c : Chip) : Chip.Does startParts c (c.enterStarting words) := by
  unfold Chip.enterStarting
  extract_lets c1 c2 c3 c4
  have h1 : Chip.Does startParts c c1 := (does_takeSettings words c).andThen (does_onPath _ _)
  have h2 : Chip.Does startParts c1 c2 :=
    (does_onUnit c1 fun u => { u with service := .starting, startStage := .clearing }).andThen (does_collect _)
  have h3 : Chip.Does startParts c2 c3 :=
    (does_markAll startItems c2).andThen (does_collected _)
  have h4 : Chip.Does startParts c3 c4 := (Chip.Does.foldl _ (fun c i => does_pendKey i c) _ c3).mono
  exact ((h1.step h2).step h3).step (h4.step ((Chip.Does.foldl _ (fun c t => does_pendRow t c) _ c4).mono))

theorem does_validateStart (words : List Word) (c : Chip) : Chip.Does startParts c (c.validateStart words) := by
  unfold Chip.validateStart
  split
  · exact (does_onUnit c _).mono
  · exact Chip.Does.ite (fun _ => does_enterStarting _ _) (fun _ => (does_onUnit c _).mono)

theorem does_configRead (c : Chip) (q : OwnRead) (h : c.configRead = some q) (w : Word) :
    Chip.Does startParts c (q.after w) := by
  unfold Chip.configRead at h
  split at h
  · injection h with h
    subst h
    have h1 : Chip.Does [.unit] c (c.onUnit fun u => { u with configRead := c.cu.configRead ++ [w] }) :=
      does_onUnit c _
    exact h1.step (Chip.Does.ite (fun _ => .refl _ _) (fun _ => does_validateStart _ _))
  · cases h

theorem does_beginWriteOut (c : Chip) : Chip.Does [.unit, .mirror, .path] c c.beginWriteOut := by
  unfold Chip.beginWriteOut
  split
  · rename_i i rest _ hp
    extract_lets carries c1 c2
    have h1 : Chip.Does [.mirror] c c1 := does_onMirror c _ fun h => by
      rw [hp] at h; exact (List.nodup_cons.mp h).2
    have h2 : Chip.Does [.path] c1 c2 := Chip.Does.ite (fun _ => does_onPath _ _) (fun _ => .refl _ _)
    exact h1.step (h2.andThen (does_onUnit c2 _))
  · exact .refl _ _

theorem does_enterRunning (c : Chip) : Chip.Does [.unit, .mirror] c c.enterRunning := by
  unfold Chip.enterRunning
  exact (((does_onUnit c _).andThen (does_collect _) (n := [.unit])).andThen (does_mark _ _)
    (n := [.unit, .mirror])).andThen (does_onUnit _ _)

theorem does_writeOutEnds (i : MirrorItem) (c : Chip) : Chip.Does [.unit, .mirror] c (c.writeOutEnds i) := by
  unfold Chip.writeOutEnds
  extract_lets left c1
  have h1 : Chip.Does [.unit] c c1 := does_onUnit c _
  exact h1.step (Chip.Does.ite
    (fun _ => Chip.Does.ite (fun _ => (does_onUnit c1 _).mono)
      (fun _ => Chip.Does.ite (fun _ => does_enterRunning c1) (fun _ => .refl _ _)))
    (fun _ => .refl _ _))

theorem does_mirrorWord (c : Chip) (w : OwnWrite) (h : c.mirrorWord = some w) :
    Chip.Does [.unit, .mirror] c w.after := by
  unfold Chip.mirrorWord at h
  split at h
  · cases h
  · split at h
    · cases h
    · injection h with h
      subst h
      refine Chip.Does.ite (fun _ => ?_) (fun _ => (does_onMirror c _ id).mono)
      refine ((does_onMirror c _ id).andThen (does_writeOutEnds _ _) (n := [.unit, .mirror])).step
        (Chip.Does.ite (fun _ => (does_raise _ _).mono) (fun _ => .refl _ _))

/-! ## Own reads and writes of the other blocks -/

theorem does_rowWordWrite (c : Chip) (w : OwnWrite) (h : c.rowWordWrite = some w) :
    Chip.Does [.noticeWriter, .screens] c w.after := by
  unfold Chip.rowWordWrite at h
  split at h
  · split at h
    · injection h with h
      subst h
      exact Chip.Does.ite (fun _ => (does_onNoticeWriter c _ id).andThen (does_markRow _ _ _))
        (fun _ => (does_onNoticeWriter c _ id).mono)
    · cases h
  · cases h

theorem does_beginRowWrite (c : Chip) : Chip.Does [.noticeWriter] c c.beginRowWrite := by
  unfold Chip.beginRowWrite
  split
  · rename_i t rest _ hp
    exact does_onNoticeWriter c _ fun h => by rw [hp] at h; exact (List.nodup_cons.mp h).2
  · exact .refl _ _

theorem does_rowWord (l : LineNo) (c : Chip) (q : OwnRead) (h : c.rowWord l = some q) (w : Word) :
    Chip.Does [.lines] c (q.after w) := by
  unfold Chip.rowWord at h
  split at h
  · cases h
  · split at h
    · cases h
    · injection h with h
      subst h
      exact does_onLine c l _

theorem does_processWord (r : FitRun) (w : Word) (c : Chip) : Chip.Does fitParts c (c.processWord r w) := by
  unfold Chip.processWord
  split
  · exact (does_endRun _ _ _).andThen (does_fitTake _)
  · exact Chip.Does.ite (fun _ => (does_endRun _ _ _).andThen (does_fitTake _)) (fun _ => (does_onFit c _).mono)

theorem does_fitWord (c : Chip) (q : OwnRead) (h : c.fitWord = some q) (w : Word) :
    Chip.Does fitParts c (q.after w) := by
  unfold Chip.fitWord at h
  split at h
  · injection h with h
    subst h
    dsimp only
    exact (does_onFit c _).mono
  · simp only [Option.bind_eq_some_iff, Option.map_eq_some_iff] at h
    obtain ⟨r, _, p, _, rfl⟩ := h
    exact does_processWord r w c

theorem does_textWord (c : Chip) (q : OwnRead) (h : c.textWord = some q) (w : Word) :
    Chip.Does [.link, .mirror, .unit] c (q.after w) := by
  unfold Chip.textWord at h
  split at h
  · split at h
    · cases h
    · injection h with h
      subst h
      dsimp only
      exact Chip.Does.ite (fun _ => (does_onLink c _).andThen (does_transmit _)) (fun _ => (does_onLink c _).mono)
  · cases h

/-! ## Host writes -/

/-- The fields a host write may change. -/
def hostParts : List Part := [.path, .desks, .keys, .keyWriter, .custody] ++ fitParts

/-- What a decision may have changed. -/
def Decision.Does (l : List Part) (c : Chip) : Decision → Prop
  | .accepted d => Chip.Does l c d
  | .refused _ => True

theorem does_takeWidth (f : Fin 8) (code : Fin 256) (v : Word) (c : Chip) :
    Chip.Does fitParts c (c.takeWidth f code v) :=
  ((does_onFit c _).andThen (does_staleFonts _ _) (n := fitParts)).andThen (does_fitTake _)

theorem does_takeFontsPresent (v : Word) (c : Chip) : Chip.Does fitParts c (c.takeFontsPresent v) :=
  ((does_onFit c _).andThen (does_staleFonts _ _) (n := fitParts)).andThen (does_fitTake _)

theorem does_reportWrite (b : BlockNo) (c : Chip) : Chip.Does hostParts c (c.reportWrite b) := by
  unfold Chip.reportWrite
  split
  · exact .refl _ _
  · exact (does_onCustody c _ (nodup_joinOnce _ _)).andThen (does_staleStory _ _)

theorem does_decidePartWritten (c : Chip) : c.decidePartWritten.Does hostParts c := by
  unfold Chip.decidePartWritten
  split
  · exact Chip.Does.refl _ _
  · trivial

theorem does_decideCell (c : Chip) (o : Nat) (x : Context) (v : Word) : (c.decideCell o x v).Does hostParts c := by
  unfold Chip.decideCell
  dsimp only
  split
  · trivial
  · split
    · exact (does_onCell c _ _).mono
    · exact Chip.Does.refl _ _

theorem Decision.does_ite {l : List Part} {c : Chip} {q : Prop} [Decidable q] {d e : Decision}
    (hd : d.Does l c) (he : e.Does l c) : (if q then d else e).Does l c := by
  split
  · exact hd
  · exact he

theorem does_decideControl (c : Chip) (o : Nat) (x : Context) (v : Word) :
    (c.decideControl o x v).Does hostParts c := by
  unfold Chip.decideControl
  have hp := does_decidePartWritten c
  have hc : (Decision.accepted c).Does hostParts c := Chip.Does.refl _ _
  by_cases h4 : o < 4
  · rw [dif_pos h4]
    exact (does_onPath c _).mono
  · rw [dif_neg h4]
    refine Decision.does_ite hp (Decision.does_ite ?_ (Decision.does_ite ?_ (Decision.does_ite hp
      (Decision.does_ite (Decision.does_ite ?_ hp) (Decision.does_ite hp (Decision.does_ite hc
        (Decision.does_ite (does_decideCell c o x v) (Decision.does_ite ?_ (Decision.does_ite hc
          (Decision.does_ite ?_ (Decision.does_ite hc ?_)))))))))))
    · exact (does_takeMask v c).mono
    · exact (does_clearCauses v c).mono
    · exact (does_onPath c _).andThen (does_mark _ _)
    · exact (does_takeFontsPresent v c).mono
    · exact (does_takeDeskWord _ v c).mono
    · exact (does_takeWidth _ _ v c).mono

theorem does_decide (c : Chip) (h : HostAccess) : (c.decide h).Does hostParts c := by
  unfold Chip.decide
  split
  · exact does_decideControl c _ _ _
  · unfold Chip.decideWindow
    split
    · exact (does_markRow _ _ c).mono
    split
    · split
      · rename_i hv
        exact (does_takeIndex _ _ c hv).mono
      · trivial
    split
    · trivial
    · exact Chip.Does.refl _ _
  · unfold Chip.decideStory
    split
    · trivial
    · exact does_reportWrite _ c
  · trivial
  · exact Chip.Does.refl _ _

theorem does_recordRefusal (h : HostAccess) (r : RefusalReason) (c : Chip) :
    Chip.Does hostParts c (c.recordRefusal h r) := (does_onPath c _).andThen (does_mark _ _)

theorem does_decideWrite (h : HostAccess) (s : State) : Chip.Does hostParts s.chip (s.decideWrite h).chip := by
  unfold State.decideWrite
  have hd := does_decide s.chip h
  split
  · rename_i d e
    rw [e] at hd
    exact Chip.Does.andThen (l := hostParts) hd (does_onPath d fun p => { p with refusalIndication := false })
  · exact does_recordRefusal _ _ _

/-! ## Outcomes -/

/-- A command that touches the part alone answers a next state that differs in the part alone. -/
theorem chipEvent_next {f : Chip → Chip} {s t : State} (h : chipEvent f s = .next t) :
    t = s.withChip (if s.chip.resetAsserted then s.chip else f s.chip) := by
  unfold chipEvent at h
  injection h with h
  rw [← h]
  unfold State.withChip
  split <;> rfl

/-- Everything an own write that goes on can have done. -/
theorem ownWrite_next {r : Requester} {plan : Chip → Option OwnWrite} {s t : State}
    (h : ownWrite r plan s = .next t) :
    t = s ∨ ∃ w a, plan s.chip = some w ∧ w.address = some a ∧ a < Config.memoryWords ∧ s.Grants r ∧
      t = { s with chip := w.after.granted r, memory := s.memory.write a w.value, inProgress := none } := by
  unfold ownWrite at h
  split at h
  · injection h with h; exact Or.inl h.symm
  rename_i hr
  split at h
  · rename_i hg
    split at h
    · injection h with h; exact Or.inl h.symm
    rename_i w hw
    split at h
    · cases h
    rename_i a ha
    split at h
    · rename_i hlt
      injection h with h
      exact Or.inr ⟨w, a, hw, ha, hlt, ⟨by simpa [State.Released] using hr, hg⟩, h.symm⟩
    · cases h
  · injection h with h; exact Or.inl h.symm

/-- Everything an own read that goes on can have done. -/
theorem ownRead_next {r : Requester} {plan : Chip → Option OwnRead} {s t : State}
    (h : ownRead r plan s = .next t) :
    t = s ∨ ∃ q a, plan s.chip = some q ∧ q.address = some a ∧ a < Config.memoryWords ∧ s.Grants r ∧
      t = { s with chip := (q.after (s.memory.read a)).granted r, inProgress := none } := by
  unfold ownRead at h
  split at h
  · injection h with h; exact Or.inl h.symm
  rename_i hr
  split at h
  · rename_i hg
    split at h
    · injection h with h; exact Or.inl h.symm
    rename_i q hq
    split at h
    · cases h
    rename_i a ha
    split at h
    · rename_i hlt
      injection h with h
      exact Or.inr ⟨q, a, hq, ha, hlt, ⟨by simpa [State.Released] using hr, hg⟩, h.symm⟩
    · cases h
  · injection h with h; exact Or.inl h.symm

theorem chipEvent_does {l : List Part} {f : Chip → Chip} {s t : State} (hf : ∀ c, Chip.Does l c (f c))
    (h : chipEvent f s = .next t) : Chip.Does l s.chip t.chip := by
  rw [chipEvent_next h]
  exact Chip.Does.ite (fun _ => .refl _ _) (fun _ => hf _)

theorem ownWrite_does {l n : List Part} {r : Requester} {plan : Chip → Option OwnWrite} {s t : State}
    (hp : ∀ c w, plan c = some w → Chip.Does l c w.after) (h : ownWrite r plan s = .next t)
    (hs : ∀ p, p ∈ l ++ [.path] → p ∈ n := by decide) : Chip.Does n s.chip t.chip := by
  rcases ownWrite_next h with rfl | ⟨w, a, hw, _, _, _, rfl⟩
  · exact .refl _ _
  · exact (hp _ _ hw).andThen (does_granted _ _) hs

theorem ownRead_does {l n : List Part} {r : Requester} {plan : Chip → Option OwnRead} {s t : State}
    (hp : ∀ c q, plan c = some q → ∀ w, Chip.Does l c (q.after w)) (h : ownRead r plan s = .next t)
    (hs : ∀ p, p ∈ l ++ [.path] → p ∈ n := by decide) : Chip.Does n s.chip t.chip := by
  rcases ownRead_next h with rfl | ⟨q, a, hq, _, _, _, rfl⟩
  · exact .refl _ _
  · exact (hp _ _ hq _).andThen (does_granted _ _) hs

theorem hostWrite_does {p : Processor} {a : Address} {v : Word} {s t : State} (h : hostWrite p a v s = .next t) :
    Chip.Does hostParts s.chip t.chip := by
  unfold hostWrite at h
  injection h with h
  rw [← h]
  split
  · exact .refl _ _
  · exact does_decideWrite _ _

theorem takeCommand_does {n : Nat} {l m : List Part} {body : Chip → Reply} {s t : State}
    (hb : ∀ d, (body d).Does l d) (h : takeCommand n body s = .next t)
    (hs : ∀ p, p ∈ Part.unit :: l → p ∈ m := by decide) : Chip.Does m s.chip t.chip :=
  (chipEvent_does (fun c => does_takeCommand n l body hb c) h).mono hs

/-- A pulse at the clock taken only where it is due. -/
theorem duePulse_does {q : Chip → Bool} {s t : State}
    (h : chipEvent (fun c => if q c = true then c.clockPulse else c) s = .next t) :
    Chip.Does pulseParts s.chip t.chip :=
  chipEvent_does (fun c => Chip.Does.ite (fun _ => does_clockPulse c) (fun _ => .refl _ _)) h

/-- What every command but RESET and RESET_RELEASE may do to the part. -/
theorem exec_does (i : Instr) (s t : State) (hr : i ≠ .reset) (hl : ∀ straps, i ≠ .resetRelease straps)
    (h : exec i s = .next t) : Chip.Does (partsOf i) s.chip t.chip := by
  cases i with
  | reset => exact absurd rfl hr
  | resetRelease straps => exact absurd rfl (hl straps)
  | hostWrite p a v => exact hostWrite_does h
  | storyWrite p a v => exact hostWrite_does h
  | screenRowWrite p a v => exact hostWrite_does h
  | takeWordWrite p a v => exact hostWrite_does h
  | contextWordWrite p a v => exact hostWrite_does h
  | attentionMaskWrite p a v => exact hostWrite_does h
  | attentionClearWrite p a v => exact hostWrite_does h
  | refusalCountClear p a v => exact hostWrite_does h
  | goWordWrite p a v => exact hostWrite_does h
  | fontsPresentWrite p a v => exact hostWrite_does h
  | deskTableWrite p a v => exact hostWrite_does h
  | widthTableWrite p a v => exact hostWrite_does h
  | cellTake => exact chipEvent_does does_takeCell h
  | cellWordRead => exact ownRead_does does_cellWordRead h
  | cellResultWrite => exact ownWrite_does does_resultWrite h
  | start => exact chipEvent_does does_beginStart h
  | startConfigRead => exact ownRead_does does_configRead h
  | terminalOn => exact takeCommand_does does_terminalOn h
  | terminalOff => exact takeCommand_does does_terminalOff h
  | lineReset => exact takeCommand_does does_lineReset h
  | signOn => exact takeCommand_does does_signOn h
  | signOff => exact takeCommand_does does_signOff h
  | ackNotice => exact takeCommand_does does_ackNotice h
  | postNotice => exact takeCommand_does does_postNotice h
  | create => exact takeCommand_does does_create h
  | attach => exact takeCommand_does does_attach h
  | detach => exact takeCommand_does does_detach h
  | submit => exact takeCommand_does does_submit h
  | openStory => exact takeCommand_does does_openStory h
  | send => exact takeCommand_does does_send h
  | returnStory => exact takeCommand_does does_returnStory h
  | kill => exact takeCommand_does does_kill h
  | setStyle => exact takeCommand_does does_setStyle h
  | refit => exact takeCommand_does does_refit h
  | clockRun => exact takeCommand_does does_clockRun h
  | clockPause => exact takeCommand_does does_clockPause h
  | setClock => exact takeCommand_does does_setClock h
  | setEditions => exact takeCommand_does does_setEditions h
  | pageOpen => exact takeCommand_does does_pageOpen h
  | setClose => exact takeCommand_does does_setClose h
  | place => exact takeCommand_does does_place h
  | unplace => exact takeCommand_does does_unplace h
  | pageClear => exact takeCommand_does does_pageClear h
  | release => exact takeCommand_does does_release h
  | replate => exact takeCommand_does does_replate h
  | linkOn => exact takeCommand_does does_linkOn h
  | linkOff => exact takeCommand_does does_linkOff h
  | linkResume => exact takeCommand_does does_linkResume h
  | mirrorWriteOutBegin => exact chipEvent_does does_beginWriteOut h
  | mirrorWordWrite => exact ownWrite_does does_mirrorWord h
  | rowWordRead l => exact ownRead_does (n := [.lines, .path]) (does_rowWord l) h
  | messageSent l => exact chipEvent_does (does_messageSent l) h
  | takenAnswer l b => exact chipEvent_does (does_lineByte l b) h
  | busyAnswer l b => exact chipEvent_does (does_lineByte l b) h
  | keysAnswer l b => exact chipEvent_does (does_lineByte l b) h
  | quietAnswer l b => exact chipEvent_does (does_lineByte l b) h
  | answerBadKindOrCount l b => exact chipEvent_does (does_lineByte l b) h
  | answerWindowExpiry l => exact chipEvent_does (does_windowExpiry l) h
  | quietWindowExpiry l => exact chipEvent_does (does_quietExpiry l) h
  | keyIntakeWriteBegin => exact chipEvent_does does_beginKeyItem h
  | keyWordWrite => exact ownWrite_does does_keyWordWrite h
  | putWordWrite => exact ownWrite_does does_putWordWrite h
  | statusWordWrite => exact ownWrite_does does_statusWordWrite h
  | noticeRowWriteBegin => exact chipEvent_does does_beginRowWrite h
  | noticeRowWordWrite => exact ownWrite_does does_rowWordWrite h
  | writeReport => exact (chipEvent_does does_takeReport h).mono
  | pulse => exact (chipEvent_does does_clockPulse h).mono
  | editionClose => exact (duePulse_does (q := Chip.closeDue) h).mono
  | pageLate => exact (duePulse_does (q := Chip.lateDue) h).mono
  | leaseFirstExpiry => exact (duePulse_does (q := fun c => c.expiryDue false) h).mono
  | leaseSecondExpiry => exact (duePulse_does (q := fun c => c.expiryDue true) h).mono
  | fitWordRead => exact ownRead_does does_fitWord h
  | pageTake => exact chipEvent_does does_pageTake h
  | textWordRead => exact ownRead_does does_textWord h
  | frameSent => exact chipEvent_does does_frameSent h
  | linkPulse => exact chipEvent_does does_linkPulse h
  | frameTimeout => exact chipEvent_does (fun c => Chip.Does.ite (fun _ => does_linkPulse c) (fun _ => .refl _ _)) h
  | holdWaitEnd => exact chipEvent_does (fun c => Chip.Does.ite (fun _ => does_linkPulse c) (fun _ => .refl _ _)) h
  | holdLimitExceeded =>
    exact chipEvent_does (fun c => Chip.Does.ite (fun _ => does_linkPulse c) (fun _ => .refl _ _)) h
  | accept => exact chipEvent_does (does_answerWord 1) h
  | hold => exact chipEvent_does (does_answerWord 2) h
  | reject w => exact chipEvent_does (does_answerWord w) h
  | lineByteReceived l b => exact chipEvent_does (does_lineByte l b) h

/-! ## Memory and the queues -/

/-- Everything outside the part that a command which goes on can have done: the queue of commands is as it was, the
host writes that wait are as they were, and memory is as it was or holds one more stored word. -/
structure State.Stores (i : Instr) (s t : State) : Prop where
  pending : t.pending = s.pending
  waiting : t.busWaiting = s.busWaiting ∨ ∃ h, hostAccessOf i = some h ∧ s.chip.resetAsserted = true
  memory : t.memory = s.memory ∨
    ∃ a w, a < Config.memoryWords ∧ MayStore i s a ∧ t.memory = s.memory.write a w

theorem chipEvent_stores {i : Instr} {f : Chip → Chip} {s t : State} (h : chipEvent f s = .next t) :
    s.Stores i t := by
  rw [chipEvent_next h]
  exact ⟨rfl, Or.inl rfl, Or.inl rfl⟩

theorem ownRead_stores {i : Instr} {r : Requester} {plan : Chip → Option OwnRead} {s t : State}
    (h : ownRead r plan s = .next t) : s.Stores i t := by
  rcases ownRead_next h with rfl | ⟨_, _, _, _, _, _, rfl⟩ <;> exact ⟨rfl, Or.inl rfl, Or.inl rfl⟩

theorem ownWrite_stores {i : Instr} {r : Requester} {plan : Chip → Option OwnWrite} {s t : State}
    (hi : ∀ c, ownStoreOf i c = (plan c).bind (·.address)) (h : ownWrite r plan s = .next t) : s.Stores i t := by
  rcases ownWrite_next h with rfl | ⟨w, a, hw, ha, hlt, _, rfl⟩
  · exact ⟨rfl, Or.inl rfl, Or.inl rfl⟩
  · refine ⟨rfl, Or.inl rfl, Or.inr ⟨a, w.value, hlt, Or.inr (Or.inr (Or.inl ?_)), rfl⟩⟩
    rw [hi, hw]; exact ha

/-- A host write stores at its own address, where it stores. -/
theorem decideWrite_memory (h : HostAccess) (s : State) :
    (s.decideWrite h).memory = s.memory ∨
      (s.decideWrite h).memory = s.memory.write h.address.toNat h.value := by
  unfold State.decideWrite
  split
  · exact Or.inr rfl
  · exact Or.inl rfl

theorem decideWrite_queues (h : HostAccess) (s : State) :
    (s.decideWrite h).pending = s.pending ∧ (s.decideWrite h).busWaiting = s.busWaiting := by
  unfold State.decideWrite
  split <;> exact ⟨rfl, rfl⟩

theorem address_inside (a : Address) : a.toNat < Config.memoryWords := a.isLt

theorem hostWrite_stores {i : Instr} {p : Processor} {a : Address} {v : Word} {s t : State}
    (hi : hostAccessOf i = some ⟨p, a, v⟩) (h : hostWrite p a v s = .next t) : s.Stores i t := by
  unfold hostWrite at h
  injection h with h
  rw [← h]
  split
  · rename_i hr
    exact ⟨rfl, Or.inr ⟨_, hi, hr⟩, Or.inl rfl⟩
  · refine ⟨(decideWrite_queues _ s).1, Or.inl (decideWrite_queues _ s).2, ?_⟩
    rcases decideWrite_memory ⟨p, a, v⟩ s with e | e
    · exact Or.inl e
    · exact Or.inr ⟨_, _, address_inside a, Or.inl ⟨_, hi, rfl⟩, e⟩

/-- An abandoned host write leaves its word as it stands, or puts back the one it replaced. -/
theorem abandonAccess_memory (s : State) :
    s.abandonAccess.memory = s.memory ∨
      ∃ w, s.inProgress = some w ∧ s.abandonAccess.memory = s.memory.write w.address.toNat w.old := by
  unfold State.abandonAccess
  split
  · exact Or.inl rfl
  · rename_i w hw
    split
    · exact Or.inl rfl
    · dsimp only
      split
      · exact Or.inl rfl
      · exact Or.inr ⟨w, hw, rfl⟩

/-- A host write in progress to a word of a BUSY cell stays stored, and memory is as it was (R22, R24). -/
theorem abandonAccess_busyCell {s : State} {w : PortWrite} (hw : s.inProgress = some w)
    (hb : s.chip.inBusyCell w.address.toNat = true) : s.abandonAccess.memory = s.memory := by
  simp [State.abandonAccess, hw, hb]

/-- The words of a BUSY cell read after the abandonment as before it (R22). -/
theorem abandonAccess_keeps_busyCell {s : State} (hm : s.memory.wf = true) {a : Nat}
    (hb : s.chip.inBusyCell a = true) : s.abandonAccess.memory.read a = s.memory.read a := by
  rcases abandonAccess_memory s with e | ⟨w, hw, e⟩
  · rw [e]
  · by_cases h : w.address.toNat = a
    · rw [abandonAccess_busyCell hw (h ▸ hb)]
    · rw [e, Memory.read_write _ _ _ _ ((Memory.wf_iff _).mp hm).1, if_neg h]

/-- Nothing but memory and what the abandonment itself holds is touched by it. -/
theorem abandonAccess_queues (s : State) :
    s.abandonAccess.pending = s.pending ∧ s.abandonAccess.busWaiting = s.busWaiting ∧
      s.abandonAccess.inProgress = none ∧ s.abandonAccess.chip = s.chip := by
  unfold State.abandonAccess
  split
  · exact ⟨rfl, rfl, by assumption, rfl⟩
  · split <;> exact ⟨rfl, rfl, rfl, rfl⟩

theorem reset_stores {s t : State} (h : exec .reset s = .next t) : s.Stores .reset t := by
  injection h with h
  subst h
  refine ⟨(abandonAccess_queues s).1, Or.inl (abandonAccess_queues s).2.1, ?_⟩
  rcases abandonAccess_memory s with e | ⟨w, hw, e⟩
  · exact Or.inl e
  · exact Or.inr ⟨_, _, address_inside _, Or.inr (Or.inr (Or.inr ⟨rfl, w, hw, rfl⟩)), e⟩

theorem exec_stores (i : Instr) (s t : State) (hl : ∀ straps, i ≠ .resetRelease straps) (h : exec i s = .next t) :
    s.Stores i t := by
  cases i with
  | reset => exact reset_stores h
  | resetRelease straps => exact absurd rfl (hl straps)
  | hostWrite p a v => exact hostWrite_stores rfl h
  | storyWrite p a v => exact hostWrite_stores rfl h
  | screenRowWrite p a v => exact hostWrite_stores rfl h
  | takeWordWrite p a v => exact hostWrite_stores rfl h
  | contextWordWrite p a v => exact hostWrite_stores rfl h
  | attentionMaskWrite p a v => exact hostWrite_stores rfl h
  | attentionClearWrite p a v => exact hostWrite_stores rfl h
  | refusalCountClear p a v => exact hostWrite_stores rfl h
  | goWordWrite p a v => exact hostWrite_stores rfl h
  | fontsPresentWrite p a v => exact hostWrite_stores rfl h
  | deskTableWrite p a v => exact hostWrite_stores rfl h
  | widthTableWrite p a v => exact hostWrite_stores rfl h
  | cellResultWrite => exact ownWrite_stores (fun _ => rfl) h
  | mirrorWordWrite => exact ownWrite_stores (fun _ => rfl) h
  | keyWordWrite => exact ownWrite_stores (fun _ => rfl) h
  | putWordWrite => exact ownWrite_stores (fun _ => rfl) h
  | statusWordWrite => exact ownWrite_stores (fun _ => rfl) h
  | noticeRowWordWrite => exact ownWrite_stores (fun _ => rfl) h
  | cellWordRead => exact ownRead_stores h
  | startConfigRead => exact ownRead_stores h
  | rowWordRead l => exact ownRead_stores h
  | fitWordRead => exact ownRead_stores h
  | textWordRead => exact ownRead_stores h
  | cellTake => exact chipEvent_stores h
  | start => exact chipEvent_stores h
  | terminalOn => exact chipEvent_stores h
  | terminalOff => exact chipEvent_stores h
  | lineReset => exact chipEvent_stores h
  | signOn => exact chipEvent_stores h
  | signOff => exact chipEvent_stores h
  | ackNotice => exact chipEvent_stores h
  | postNotice => exact chipEvent_stores h
  | create => exact chipEvent_stores h
  | attach => exact chipEvent_stores h
  | detach => exact chipEvent_stores h
  | submit => exact chipEvent_stores h
  | openStory => exact chipEvent_stores h
  | send => exact chipEvent_stores h
  | returnStory => exact chipEvent_stores h
  | kill => exact chipEvent_stores h
  | setStyle => exact chipEvent_stores h
  | refit => exact chipEvent_stores h
  | clockRun => exact chipEvent_stores h
  | clockPause => exact chipEvent_stores h
  | setClock => exact chipEvent_stores h
  | setEditions => exact chipEvent_stores h
  | pageOpen => exact chipEvent_stores h
  | setClose => exact chipEvent_stores h
  | place => exact chipEvent_stores h
  | unplace => exact chipEvent_stores h
  | pageClear => exact chipEvent_stores h
  | release => exact chipEvent_stores h
  | replate => exact chipEvent_stores h
  | linkOn => exact chipEvent_stores h
  | linkOff => exact chipEvent_stores h
  | linkResume => exact chipEvent_stores h
  | mirrorWriteOutBegin => exact chipEvent_stores h
  | messageSent l => exact chipEvent_stores h
  | takenAnswer l b => exact chipEvent_stores h
  | busyAnswer l b => exact chipEvent_stores h
  | keysAnswer l b => exact chipEvent_stores h
  | quietAnswer l b => exact chipEvent_stores h
  | answerBadKindOrCount l b => exact chipEvent_stores h
  | answerWindowExpiry l => exact chipEvent_stores h
  | quietWindowExpiry l => exact chipEvent_stores h
  | keyIntakeWriteBegin => exact chipEvent_stores h
  | noticeRowWriteBegin => exact chipEvent_stores h
  | writeReport => exact chipEvent_stores h
  | pulse => exact chipEvent_stores h
  | editionClose => exact chipEvent_stores h
  | pageLate => exact chipEvent_stores h
  | leaseFirstExpiry => exact chipEvent_stores (f := fun c => if c.expiryDue false then c.clockPulse else c) h
  | leaseSecondExpiry => exact chipEvent_stores (f := fun c => if c.expiryDue true then c.clockPulse else c) h
  | pageTake => exact chipEvent_stores h
  | frameSent => exact chipEvent_stores h
  | linkPulse => exact chipEvent_stores h
  | frameTimeout => exact chipEvent_stores h
  | holdWaitEnd => exact chipEvent_stores h
  | holdLimitExceeded => exact chipEvent_stores h
  | accept => exact chipEvent_stores h
  | hold => exact chipEvent_stores h
  | reject w => exact chipEvent_stores h
  | lineByteReceived l b => exact chipEvent_stores h

/-- The release of the reset line: the control page is placed, and the writes that waited are decided one after the
other. -/
theorem resetRelease_next {straps : BitVec 4} {s t : State} (h : exec (.resetRelease straps) s = .next t) :
    t = s ∨ (s.chip.resetAsserted = true ∧
      t = s.busWaiting.foldl (fun t h => t.decideWrite h)
        { s with chip := s.chip.releaseReset straps, busWaiting := [] }) := by
  injection h with h
  rw [← h]
  split
  · rename_i hr; exact Or.inr ⟨hr, rfl⟩
  · exact Or.inl rfl

/-- Writes decided one after the other touch what one may touch. -/
theorem does_decideWrites (l : List HostAccess) : ∀ s : State,
    Chip.Does hostParts s.chip (l.foldl (fun t h => t.decideWrite h) s).chip := by
  induction l with
  | nil => exact fun s => .refl _ _
  | cons h l ih => exact fun s => (does_decideWrite h s).step (ih _)

end Sys2Proof.Machine
end

