-- ==== Sys2Proof/Laws/Host.lean ====
section
/-! SUPPORT. Host writes when the reset line is released: what an accepted and a refused write leave (R6), and the
decision at each place of R2. -/

namespace Sys2Proof.Machine

-- One theorem after another: side by side they wait for one another, a thread each.
set_option Elab.async false

theorem hostWrite_accepted {s : State} {p : Processor} {a : Address} {v : Word} {c : Chip} (hr : s.Released)
    (hd : s.chip.decide { processor := p, address := a, value := v } = .accepted c) :
    hostWrite p a v s = .next (s.acceptedWith a v c) := by
  have hr' : s.chip.resetAsserted = false := hr
  simp [hostWrite, hr', State.decideWrite, hd, State.acceptedWith]

theorem hostWrite_refused {s : State} {p : Processor} {a : Address} {v : Word} {r : RefusalReason} (hr : s.Released)
    (hd : s.chip.decide { processor := p, address := a, value := v } = .refused r) :
    hostWrite p a v s = .next (s.refusedWrite p a r) := by
  have hr' : s.chip.resetAsserted = false := hr
  simp [hostWrite, hr', State.decideWrite, hd, State.refusedWrite, Chip.recordRefusal, Chip.context]
  rfl

theorem landsAt_control {s : State} {a : Address} {o : Nat} (h : s.ControlAt a o) : s.LandsAt a (.control o) := by
  obtain ⟨base, hb, ha, ho⟩ := h
  have e : base ≤ a.toNat ∧ a.toNat < base + Config.controlPageWords := by omega
  simp [State.LandsAt, PathChecker.classify, offsetIn, hb, e]
  omega

theorem decide_control {s : State} {p : Processor} {a : Address} {v : Word} {o : Nat} (h : s.LandsAt a (.control o)) :
    s.chip.decide { processor := p, address := a, value := v } = s.chip.decideControl o (s.chip.context p) v := by
  have h' : s.chip.path.classify a.toNat = .control o := h
  simp [Chip.decide, h']

theorem decide_window {s : State} {p : Processor} {a : Address} {v : Word} {u : TerminalNo} {o : Nat}
    (h : s.LandsAt a (.window u o)) :
    s.chip.decide { processor := p, address := a, value := v } = s.chip.decideWindow u o v := by
  have h' : s.chip.path.classify a.toNat = .window u o := h
  simp [Chip.decide, h']

theorem decide_block {s : State} {p : Processor} {a : Address} {v : Word} {b : BlockNo} {w : Nat}
    (h : s.LandsAt a (.block b w)) :
    s.chip.decide { processor := p, address := a, value := v } = s.chip.decideStory b (s.chip.context p) := by
  have h' : s.chip.path.classify a.toNat = .block b w := h
  simp [Chip.decide, h']

theorem decide_directory {s : State} {p : Processor} {a : Address} {v : Word} {o : Nat}
    (h : s.LandsAt a (.directory o)) :
    s.chip.decide { processor := p, address := a, value := v } = .refused .writeProtected := by
  have h' : s.chip.path.classify a.toNat = .directory o := h
  simp [Chip.decide, h']

theorem decide_unclassified {s : State} {p : Processor} {a : Address} {v : Word} (h : s.LandsAt a .unclassified) :
    s.chip.decide { processor := p, address := a, value := v } = .accepted s.chip := by
  have h' : s.chip.path.classify a.toNat = .unclassified := h
  simp [Chip.decide, h']

/-- The cell a word of the cells lies in (R13). -/
theorem cellOf_offset {k : CellNo} {j : Nat} (hj : j < 8) : cellOf (32 + 8 * k.val + j) = k := by
  have := k.isLt
  apply Fin.ext
  simp [cellOf, Fin.ofNat]
  omega

/-- A word of a BUSY cell, by its place in the cell (R13, R22). -/
theorem inBusyCell_word {c : Chip} {k : CellNo} {base j : Nat} (hb : c.cu.cells[k].state = .busy)
    (hp : c.path.controlPage = some base) (hj : j < 8) : c.inBusyCell (base + 32 + 8 * k.val + j) = true := by
  have hk := k.isLt
  have e : c.path.classify (base + 32 + 8 * k.val + j) = .control (32 + 8 * k.val + j) := by
    unfold PathChecker.classify offsetIn
    rw [hp]
    dsimp only
    rw [if_pos (by unfold Config.controlPageWords; omega)]
    dsimp only
    congr 1
    omega
  unfold Chip.inBusyCell
  rw [e]
  dsimp only
  have h : c.cu.cells[cellOf (32 + 8 * k.val + j)].state = .busy := by simpa only [cellOf_offset hj] using hb
  simp only [Bool.and_eq_true, decide_eq_true_eq]
  exact ⟨by omega, h⟩

/-! The rows of R13's table. -/

theorem decideControl_ordinary {c : Chip} {o : Nat} {x : Context} {v : Word}
    (ho : 20 ≤ o ∧ o < 32 ∨ 96 ≤ o ∧ o < 128 ∧ o ≠ 113 ∨ 256 ≤ o ∧ o < 2048) :
    c.decideControl o x v = .accepted c := by
  have h1 : ¬ o < 4 := by omega
  have h2 : o ≠ 4 := by omega
  have h3 : o ≠ 5 := by omega
  have h4 : o ≠ 6 := by omega
  have h5 : ¬ o < 13 := by omega
  have h6 : o ≠ 13 := by omega
  have h7 : ¬ o < 20 := by omega
  have h8 : o ≠ 113 := by omega
  have h9 : o < 256 → ¬ o < 128 → False := by omega
  by_cases ha : o < 32
  · simp only [Chip.decideControl, h1, h2, h3, h4, h5, h6, h7, ha, dite_false, if_false, if_true]
  · have hb : ¬ o < 96 := by omega
    by_cases hc : o < 128
    · simp only [Chip.decideControl, h1, h2, h3, h4, h5, h6, h7, h8, ha, hb, hc, dite_false, if_false, if_true]
    · have hd : ¬ o < 256 := fun h => h9 h hc
      have he : o < 2048 := by omega
      simp only [Chip.decideControl, h1, h2, h3, h4, h5, h6, h7, h8, ha, hb, hc, hd, he, dite_false, if_false, if_true]

theorem decideControl_partWritten {c : Chip} {o : Nat} {x : Context} {v : Word}
    (ho : o = 4 ∨ 7 ≤ o ∧ o < 13 ∨ o = 13 ∧ v ≠ 0 ∨ 14 ≤ o ∧ o < 20) :
    c.decideControl o x v = c.decidePartWritten := by
  have h1 : ¬ o < 4 := by omega
  have h3 : o ≠ 5 := by omega
  have h4 : o ≠ 6 := by omega
  have h7 : o < 20 := by omega
  by_cases h2 : o = 4
  · subst h2
    simp [Chip.decideControl]
  · by_cases h5 : o < 13
    · simp only [Chip.decideControl, h1, h2, h3, h4, h5, dite_false, if_false, if_true]
    · by_cases h6 : o = 13
      · have hv : v ≠ 0 := by rcases ho with h | h | h | h <;> first | exact h.2 | omega
        simp only [Chip.decideControl, h6, hv, if_false, if_true]
        simp
      · simp only [Chip.decideControl, h1, h2, h3, h4, h5, h6, h7, dite_false, if_false, if_true]

theorem decideControl_cell {c : Chip} {k : CellNo} {j : Nat} {x : Context} {v : Word} (hj : j < 8) :
    c.decideControl (32 + 8 * k.val + j) x v = c.decideCell (32 + 8 * k.val + j) x v := by
  have := k.isLt
  have h1 : ¬ 32 + 8 * k.val + j < 4 := by omega
  have h2 : 32 + 8 * k.val + j ≠ 4 := by omega
  have h3 : 32 + 8 * k.val + j ≠ 5 := by omega
  have h4 : 32 + 8 * k.val + j ≠ 6 := by omega
  have h5 : ¬ 32 + 8 * k.val + j < 13 := by omega
  have h6 : 32 + 8 * k.val + j ≠ 13 := by omega
  have h7 : ¬ 32 + 8 * k.val + j < 20 := by omega
  have h8 : ¬ 32 + 8 * k.val + j < 32 := by omega
  have h9 : 32 + 8 * k.val + j < 96 := by omega
  simp only [Chip.decideControl, h1, h2, h3, h4, h5, h6, h7, h8, h9, dite_false, if_false, if_true]

theorem decideControl_desk {c : Chip} {k : Nat} {x : Context} {v : Word} (hk : k < 128) :
    c.decideControl (128 + k) x v = .accepted (c.takeDeskWord k v) := by
  have h1 : ¬ 128 + k < 4 := by omega
  have h2 : 128 + k ≠ 4 := by omega
  have h3 : 128 + k ≠ 5 := by omega
  have h4 : 128 + k ≠ 6 := by omega
  have h5 : ¬ 128 + k < 13 := by omega
  have h6 : 128 + k ≠ 13 := by omega
  have h7 : ¬ 128 + k < 20 := by omega
  have h8 : ¬ 128 + k < 32 := by omega
  have h9 : ¬ 128 + k < 96 := by omega
  have ha : 128 + k ≠ 113 := by omega
  have hb : ¬ 128 + k < 128 := by omega
  have hc : 128 + k < 256 := by omega
  have hd : 128 + k - 128 = k := by omega
  simp only [Chip.decideControl, h1, h2, h3, h4, h5, h6, h7, h8, h9, ha, hb, hc, hd, dite_false, if_false, if_true]

theorem decideControl_width {c : Chip} {f : Fin 8} {k : Fin 256} {x : Context} {v : Word} :
    c.decideControl (2048 + 256 * f.val + k.val) x v = .accepted (c.takeWidth f k v) := by
  have := f.isLt
  have := k.isLt
  have h1 : ¬ 2048 + 256 * f.val + k.val < 4 := by omega
  have h2 : 2048 + 256 * f.val + k.val ≠ 4 := by omega
  have h3 : 2048 + 256 * f.val + k.val ≠ 5 := by omega
  have h4 : 2048 + 256 * f.val + k.val ≠ 6 := by omega
  have h5 : ¬ 2048 + 256 * f.val + k.val < 13 := by omega
  have h6 : 2048 + 256 * f.val + k.val ≠ 13 := by omega
  have h7 : ¬ 2048 + 256 * f.val + k.val < 20 := by omega
  have h8 : ¬ 2048 + 256 * f.val + k.val < 32 := by omega
  have h9 : ¬ 2048 + 256 * f.val + k.val < 96 := by omega
  have ha : 2048 + 256 * f.val + k.val ≠ 113 := by omega
  have hb : ¬ 2048 + 256 * f.val + k.val < 128 := by omega
  have hc : ¬ 2048 + 256 * f.val + k.val < 256 := by omega
  have hd : ¬ 2048 + 256 * f.val + k.val < 2048 := by omega
  have he : Fin.ofNat 8 ((2048 + 256 * f.val + k.val - 2048) / 256) = f := by
    apply Fin.ext
    simp only [Fin.ofNat]
    omega
  have hf : Fin.ofNat 256 ((2048 + 256 * f.val + k.val - 2048) % 256) = k := by
    apply Fin.ext
    simp only [Fin.ofNat]
    omega
  simp only [Chip.decideControl, h1, h2, h3, h4, h5, h6, h7, h8, h9, ha, hb, hc, hd, he, hf, dite_false, if_false]

theorem decideControl_fonts {c : Chip} {x : Context} {v : Word} :
    c.decideControl 113 x v = .accepted (c.takeFontsPresent v) := by
  simp [Chip.decideControl]

end Sys2Proof.Machine
end

