-- ==== Sys2Proof/Laws/Posts.lean ====
section
/-! SUPPORT. What posting a notice does: to each field of the part, to each recipient's queue, and to the notices the
queues show (R61, R62). -/

namespace Sys2Proof.Machine

-- One theorem after another: side by side they wait for one another, a thread each.
set_option Elab.async false

/-- Two parts that agree in every field but the screens and the notice writer. -/
def Chip.SameButNotices (c d : Chip) : Prop :=
  d = { c with screens := d.screens, noticeWriter := d.noticeWriter }

theorem SameButNotices.trans {c d e : Chip} (h : c.SameButNotices d) (k : d.SameButNotices e) : c.SameButNotices e := by
  unfold Chip.SameButNotices at *
  rw [k, h]

theorem enterNotice_same (n : Notice) (t : TerminalNo) (c : Chip) : c.SameButNotices (c.enterNotice n t) := by
  unfold Chip.enterNotice
  dsimp only
  split <;> rfl

/-- A posting reaches the screens and the notice writer alone (R61, R65). -/
theorem post_same (k : NoticeKind) (n : Nat) (v : Option Nat) (r : Recipients) (c : Chip) :
    c.SameButNotices (c.post k n v r) := by
  unfold Chip.post
  induction c.recipients r generalizing c with
  | nil => rfl
  | cons t l ih => exact SameButNotices.trans (enterNotice_same _ t c) (ih _)

/-- A notice enters the queue of its one recipient (R62). -/
theorem enterNotice_screens (n : Notice) (t w : TerminalNo) (c : Chip) :
    (c.enterNotice n t).screens[w] = if t = w then c.screens[w].enter n else c.screens[w] := by
  have h : (c.enterNotice n t).screens = update c.screens t (·.enter n) := by
    unfold Chip.enterNotice
    dsimp only
    split <;> rfl
  rw [h, update_apply]

/-- Entered once for each terminal of a list without repetitions. -/
theorem enterAll_screens (n : Notice) (w : TerminalNo) (l : List TerminalNo) (hl : l.Nodup) (c : Chip) :
    (l.foldl (fun c t => c.enterNotice n t) c).screens[w] =
      if w ∈ l then c.screens[w].enter n else c.screens[w] := by
  induction l generalizing c with
  | nil => simp
  | cons t l ih =>
    obtain ⟨ht, hl⟩ := List.nodup_cons.mp hl
    rw [List.foldl_cons, ih hl, enterNotice_screens]
    by_cases h : t = w
    · subst h
      simp [ht]
    · simp [h, Ne.symm h]

/-- A posting enters one notice in the queue of each recipient and leaves every other screen (R61, R62). -/
theorem post_screens (k : NoticeKind) (n : Nat) (v : Option Nat) (r : Recipients) (c : Chip) (w : TerminalNo) :
    (c.post k n v r).screens[w] =
      if c.receives w r then c.screens[w].enter { kind := k, subject := n, second := v, count := 1 }
      else c.screens[w] := by
  unfold Chip.post Chip.recipients
  rw [enterAll_screens _ w _ ((List.nodup_finRange 64).filter _)]
  simp

/-- A terminal without a session is among the recipients only by its own number (R61). -/
theorem receives_signedOff {c : Chip} {w : TerminalNo} (h : c.session w = none) :
    (∀ u, c.receives w (.terminal u) = decide (w = u)) ∧ (∀ d, c.receives w (.desk d) = false) ∧
      (∀ d, c.receives w (.slotOf d) = false) ∧ c.receives w .everySlot = false := by
  simp only [Chip.receives, h, implies_true, and_self]

/-- A signed-on terminal is among the recipients by its number, its desk and its clearance (R61). -/
theorem receives_signedOn {c : Chip} {w : TerminalNo} {y : Session} (h : c.session w = some y) :
    (∀ u, c.receives w (.terminal u) = decide (w = u)) ∧ (∀ d, c.receives w (.desk d) = decide (y.desk = d)) ∧
      (∀ d, c.receives w (.slotOf d) = (decide (y.desk = d) && decide (y.clearance = .slot))) ∧
      c.receives w .everySlot = decide (y.clearance = .slot) := by
  simp only [Chip.receives, h, implies_true, and_self]

/-- An entered notice stands in the queue, unless the queue is full and shows its more mark (R62). -/
theorem enter_holds (n : Notice) (s : Screen) : (s.enter n).Holds n.kind n.subject := by
  unfold Screen.enter Screen.Holds
  split
  · rename_i h
    obtain ⟨m, hm, hn⟩ := List.any_eq_true.mp h
    simp only [Notice.matches, Bool.and_eq_true, decide_eq_true_eq] at hn
    exact Or.inr ⟨_, List.mem_map.mpr ⟨m, hm, rfl⟩, by simp [Notice.matches, Notice.merge, hn.1, hn.2]⟩
  · split
    · exact Or.inr ⟨n, by simp, rfl, rfl⟩
    · exact Or.inl rfl

/-- What a queue shows stays while notices are entered (R62). -/
theorem enter_keeps_holds (n : Notice) (s : Screen) {k : NoticeKind} {i : Nat} (h : s.Holds k i) :
    (s.enter n).Holds k i := by
  unfold Screen.Holds at *
  unfold Screen.enter
  rcases h with h | ⟨m, hm, hk, hi⟩
  · left
    split
    · exact h
    · split
      · exact h
      · rfl
  · split
    · refine Or.inr ⟨_, List.mem_map.mpr ⟨m, hm, rfl⟩, ?_⟩
      split <;> exact ⟨hk, hi⟩
    · split
      · exact Or.inr ⟨m, List.mem_append_left _ hm, hk, hi⟩
      · exact Or.inl rfl

/-- A posting shows its notice to each recipient (R61, R62). -/
theorem post_holds (k : NoticeKind) (n : Nat) (v : Option Nat) (r : Recipients) (c : Chip) (w : TerminalNo)
    (h : c.receives w r = true) : (c.post k n v r).screens[w].Holds k n := by
  rw [post_screens, if_pos h]
  exact enter_holds { kind := k, subject := n, second := v, count := 1 } _

/-- A posting hides no notice (R62). -/
theorem post_keeps_holds (k : NoticeKind) (n : Nat) (v : Option Nat) (r : Recipients) (c : Chip) (w : TerminalNo)
    {k' : NoticeKind} {i : Nat} (h : c.screens[w].Holds k' i) : (c.post k n v r).screens[w].Holds k' i := by
  rw [post_screens]
  split
  · exact enter_keeps_holds _ _ h
  · exact h

end Sys2Proof.Machine
end

