-- ==== Sys2Proof/WellFormed.lean ====
section
/-! DEFINITION. When a command is well formed: the checks on its operands that the row's own words make, whatever
the state. A control page word's offset does not depend on where the straps place the page, since the page begins
at a multiple of 262,144 (R1). The machine does not rely on these checks: a host write is decided by where it
lands, and an answer word is taken as it is (log 6). -/

namespace Sys2Proof

/-- The offset of an address from the control page position at or below it (R1). -/
def pageOffset (a : Address) : Nat := a.toNat % Config.strapStep

/-- The row's own condition on its operands. -/
def Instr.wellFormed : Instr → Bool
  | .contextWordWrite _ a _ => pageOffset a < 4
  | .attentionMaskWrite _ a _ => pageOffset a = 5
  | .attentionClearWrite _ a _ => pageOffset a = 6
  | .refusalCountClear _ a v => pageOffset a = 13 && v = 0
  | .goWordWrite _ a _ => 32 ≤ pageOffset a && pageOffset a < 96 && pageOffset a % 8 = 7
  | .fontsPresentWrite _ a _ => pageOffset a = 113
  | .deskTableWrite _ a _ => 128 ≤ pageOffset a && pageOffset a < 256
  | .widthTableWrite _ a _ => 2048 ≤ pageOffset a && pageOffset a < 4096
  | .reject answer => answer ≠ 1 && answer ≠ 2
  | .reset => true
  | .resetRelease _ => true
  | .hostWrite _ _ _ => true
  | .storyWrite _ _ _ => true
  | .screenRowWrite _ _ _ => true
  | .takeWordWrite _ _ _ => true
  | .cellTake => true
  | .cellWordRead => true
  | .cellResultWrite => true
  | .start => true
  | .startConfigRead => true
  | .terminalOn => true
  | .terminalOff => true
  | .lineReset => true
  | .signOn => true
  | .signOff => true
  | .ackNotice => true
  | .postNotice => true
  | .create => true
  | .attach => true
  | .detach => true
  | .submit => true
  | .openStory => true
  | .send => true
  | .returnStory => true
  | .kill => true
  | .setStyle => true
  | .refit => true
  | .clockRun => true
  | .clockPause => true
  | .setClock => true
  | .setEditions => true
  | .pageOpen => true
  | .setClose => true
  | .place => true
  | .unplace => true
  | .pageClear => true
  | .release => true
  | .replate => true
  | .linkOn => true
  | .linkOff => true
  | .linkResume => true
  | .mirrorWriteOutBegin => true
  | .mirrorWordWrite => true
  | .rowWordRead _ => true
  | .messageSent _ => true
  | .takenAnswer _ _ => true
  | .busyAnswer _ _ => true
  | .keysAnswer _ _ => true
  | .quietAnswer _ _ => true
  | .answerBadKindOrCount _ _ => true
  | .answerWindowExpiry _ => true
  | .quietWindowExpiry _ => true
  | .keyIntakeWriteBegin => true
  | .keyWordWrite => true
  | .putWordWrite => true
  | .statusWordWrite => true
  | .noticeRowWriteBegin => true
  | .noticeRowWordWrite => true
  | .writeReport => true
  | .pulse => true
  | .editionClose => true
  | .pageLate => true
  | .leaseFirstExpiry => true
  | .leaseSecondExpiry => true
  | .fitWordRead => true
  | .pageTake => true
  | .textWordRead => true
  | .frameSent => true
  | .linkPulse => true
  | .frameTimeout => true
  | .holdWaitEnd => true
  | .holdLimitExceeded => true
  | .accept => true
  | .hold => true
  | .lineByteReceived _ _ => true

end Sys2Proof
end

