-- ==== Sys2Proof/Tests/Slice0.lean ====
section
/-! SUPPORT. The model's own tests: the checks of WellFormed refusing ill-formed terms, the spec's worked examples, and
for each obligation with hypotheses a witness that meets them all, most of them run as well. Each test is about one
step on a small state. -/

namespace Sys2Proof.Tests

open Sys2Proof.Machine

-- One theorem after another: side by side they wait for one another, a thread each.
set_option Elab.async false

/-! ## Small states -/

/-- The part released and RUNNING, its areas placed. -/
def base : Chip :=
  { Chip.reset with
    resetAsserted := false
    path := { PathChecker.reset with
      controlPage := some 0, screenArea := some 65536, storyArea := some 1048576, directoryArea := some 262144 }
    cu := { CommandUnit.reset with service := .running } }

/-- A part with no memory behind it and nothing waiting. -/
def bare (c : Chip) : State :=
  { chip := c, memory := [], busWaiting := [], inProgress := none, abandonedCount := 0, pending := [] }

/-- Command `n` with its arguments has come to its owning block. -/
def given (n : Nat) (args : List Word) (x : Context) (c : Chip) : State :=
  bare { c with cu := { c.cu with phase := .acting, wordsRead := BitVec.ofNat 16 n :: args, context := x } }

/-- Terminal `u` signed on. -/
def signed (u : TerminalNo) (d : DeskNo) (x : Clearance) (c : Chip) : Chip :=
  c.onKeys u fun k => { k with session := some { desk := d, clearance := x } }

/-- Story `n` in a state at desk `d`. -/
def story (n : StoryNo) (st : StoryState) (d : DeskNo) (c : Chip) : Chip :=
  c.onStory n fun x => { x with state := st, desk := d }

/-- Story `n` OPEN at desk `d` with holder `u`. -/
def opened (n : StoryNo) (d : DeskNo) (u : TerminalNo) (c : Chip) : Chip :=
  ((c.onStory n fun x => { x with state := .open_, desk := d, holder := some u }).onCustody fun k =>
    { k with held := k.held.set u (k.held[u] ++ [n]) }).onDesk d fun x => { x with openCount := x.openCount + 1 }

/-- Story `n` alone in the basket of desk `d`. -/
def basketed (n : StoryNo) (d : DeskNo) (c : Chip) : Chip :=
  (story n .basket d c).onDesk d fun x => { x with basket := [n] }

/-- A fit of story 1000 in progress, its blocks given. -/
def fitting (blocks : List BlockNo) (c : Chip) : Chip :=
  (c.onStory 1000 fun x => { x with state := .set, fit := .running }).onFit fun e =>
    { e with run := some { FitRun.begin 1000 Story.free with blocks := blocks } }

/-- A visit of terminal `u` awaiting the answer to a message. -/
def awaiting (u : TerminalNo) (m : MessageKind) (received : List Byte) (c : Chip) : Chip :=
  (c.onTerminal u fun _ => { state := .suspect, misses := 1 }).onLine (lineOf u) fun e =>
    { e with
      phase := .awaiting, position := addressOf u, received := received
      visit := some { terminal := u, kind := .full, rowsSent := 0,
                      rowInHand := if m = .row then some 3 else none, awaited := m } }

/-- The next state of an outcome satisfies a condition. -/
def leaves (o : Host.Outcome State Fault Refusal) (p : State → Bool) : Bool :=
  match o with
  | .next t => p t
  | _ => false

/-- A command has ended with a result and its result words. -/
def ended (r : ResultCode) (words : List Word) (t : State) : Bool :=
  t.chip.cu.result = r && t.chip.cu.resultWords = words && (t.chip.cu.phase = .waiting || t.chip.cu.phase = .reporting)

/-- A command was refused with a result and its result words. -/
def refusedAs (r : ResultCode) (words : List Word) (t : State) : Bool :=
  ended r words t && t.chip.cu.phase = .reporting && t.chip.cu.waitSet = []

/-- The reason of the last refused host write. -/
def lastReason (t : State) : Option RefusalReason := t.chip.path.refusalRecord.map (·.reason)

/-! ## WellFormed refuses each ill-formed term -/

theorem test_wellFormed_context_word :
    (Instr.contextWordWrite 0 4 1).wellFormed = false ∧ (Instr.contextWordWrite 0 3 1).wellFormed = true := by decide

theorem test_wellFormed_mask_and_clear_words :
    (Instr.attentionMaskWrite 0 6 1).wellFormed = false ∧ (Instr.attentionMaskWrite 0 5 1).wellFormed = true ∧
      (Instr.attentionClearWrite 0 5 1).wellFormed = false ∧ (Instr.attentionClearWrite 0 6 1).wellFormed = true := by
  decide

theorem test_wellFormed_refusal_count :
    (Instr.refusalCountClear 0 14 0).wellFormed = false ∧ (Instr.refusalCountClear 0 13 1).wellFormed = false ∧
      (Instr.refusalCountClear 0 13 0).wellFormed = true := by decide

theorem test_wellFormed_go_word :
    (Instr.goWordWrite 0 31 1).wellFormed = false ∧ (Instr.goWordWrite 0 103 1).wellFormed = false ∧
      (Instr.goWordWrite 0 38 1).wellFormed = false ∧ (Instr.goWordWrite 0 39 1).wellFormed = true := by decide

theorem test_wellFormed_tables :
    (Instr.fontsPresentWrite 0 112 1).wellFormed = false ∧ (Instr.fontsPresentWrite 0 113 1).wellFormed = true ∧
      (Instr.deskTableWrite 0 127 1).wellFormed = false ∧ (Instr.deskTableWrite 0 256 1).wellFormed = false ∧
      (Instr.deskTableWrite 0 128 1).wellFormed = true ∧ (Instr.widthTableWrite 0 2047 1).wellFormed = false ∧
      (Instr.widthTableWrite 0 4096 1).wellFormed = false ∧ (Instr.widthTableWrite 0 4095 1).wellFormed = true := by
  decide

theorem test_wellFormed_answers :
    (Instr.reject 1).wellFormed = false ∧ (Instr.reject 2).wellFormed = false ∧ (Instr.reject 3).wellFormed = true := by
  decide

/-! ## The table's bits, the queue and the laws -/

theorem test_no_word_spells_a_command :
    decodeTableWord 16 7 = none ∧ ∀ s : State, s.withFetchWord 16 7 = s := ⟨rfl, fun _ => rfl⟩

theorem test_step_takes_the_front : leaves (step { bare base with pending := [.reset, .pulse] })
    (fun t => t.pending = [.pulse] && t.chip.resetAsserted) = true ∧ State.reset.pending = [] := by decide +kernel

/-- Stops: a part whose directory is not placed faults at a write-out; `base` has its areas placed. -/
theorem test_witness_stops :
    (∃ s, exec .mirrorWordWrite s = .fault .areaNotPlaced ∧ s.chip.nextGrant = some .mirrorWriter) ∧
      base.path.AreasPlaced :=
  ⟨⟨bare { base with
      path := { base.path with directoryArea := none }
      mirror := { pending := [], writing := some { item := .story 0, words := [1], offset := 0, carriesRefusal := false } } },
    rfl, by decide +kernel⟩, 0, 65536, 1048576, 262144, rfl, rfl, rfl, rfl, by decide, by decide⟩

/-- The frames: a command other than the reset line's, in canonical memory, and an address it does not store to. -/
theorem test_witness_frames :
    (bare base).Released ∧ Instr.pulse ≠ .reset ∧ (∀ straps, Instr.pulse ≠ .resetRelease straps) ∧
      (∃ t, exec .pulse (bare base) = .next t) ∧ (bare base).memory.wf = true ∧ ¬MayStore .pulse (bare base) 7 := by
  refine ⟨rfl, by decide, (by simp), ⟨_, rfl⟩, by decide +kernel, ?_⟩
  simp [MayStore, hostAccessOf, ownStoreOf]

/-- A link that awaits the answer to a frame of page 6. -/
def busyLink : SettingLink :=
  { SettingLink.reset with state := .sending, stage := some .awaiting, page := some 5, frame := some ⟨.text, [1]⟩ }

/-- A state with a notice, keys, a schedule and a page on the link, in which every law holds and a step is taken. -/
def lawful : State :=
  { bare { base with
      clock := { count := 700, running := true, closes := [some 600, some 1200], current := 2 }
      outputQueue := [4], link := busyLink
      pages := (base.pages.set 4 { Page.empty with state := .queued, plates := 1 }).set 5
        { Page.empty with state := .setting, plates := 1 }
      screens := base.screens.set 2 { Screen.reset with
        queue := [{ kind := .message, subject := 305, second := none, count := 2 }] }
      keys := base.keys.set 2 { KeyRing.reset with waiting := [0x41, 0x42] }
      links := base.links.set 2 { state := .suspect, misses := 2 } } with pending := [.pulse] }

theorem test_witness_memory_and_a_step : lawful.memory.wf = true ∧ ∃ t, step lawful = .next t :=
  ⟨by decide +kernel, _, rfl⟩

theorem test_witness_notice_law : ∀ u : TerminalNo, lawful.chip.screens[u].NoticeLaw := by
  unfold Screen.NoticeLaw; decide +kernel

theorem test_witness_ring_law : ∀ u : TerminalNo, lawful.chip.keys[u].RingLaw := by
  unfold KeyRing.RingLaw; decide +kernel

theorem test_witness_terminal_law : ∀ u : TerminalNo, lawful.chip.links[u].Lawful := by
  have h : ∀ u : TerminalNo, lawful.chip.links[u] = ⟨.off, 0⟩ ∨ lawful.chip.links[u] = ⟨.suspect, 2⟩ := by
    decide +kernel
  intro u
  rcases h u with h | h <;> simp [h, TerminalLink.Lawful]

theorem test_witness_lists_once : lawful.chip.ListsOnce := by unfold Chip.ListsOnce; decide +kernel

theorem test_witness_attention_law : lawful.chip.AttentionLaw := by unfold Chip.AttentionLaw; decide +kernel

theorem test_witness_edition_law : lawful.chip.clock.EditionLaw :=
  ⟨by decide +kernel, .inr ⟨[600, 1200], by decide +kernel, by simp⟩⟩

theorem test_witness_link_law : lawful.chip.link.Lawful := by
  show busyLink.Lawful
  unfold SettingLink.Lawful; decide +kernel

theorem test_witness_output_law : lawful.chip.OutputLaw := by unfold Chip.OutputLaw; decide +kernel

theorem test_witness_offsets_in_range : base.OffsetsInRange ∧ ∃ t, step (bare base) = .next t :=
  ⟨⟨by decide +kernel, by decide +kernel, by decide +kernel, nofun, by decide +kernel, nofun⟩, _, rfl⟩

/-- Story 4 BASKET at desk 2 and STALE, with block 8191 of its own and placed on page 96; the engine is IDLE. -/
def kept : Chip :=
  { (((basketed 4 2 base).onStory 4 fun x => { x with blocks := [8191], fit := .stale, page := some 95, hole := 20 }).onCustody
      fun k => { k with owners := k.owners.set 8191 (some 4), freeStories := 1023, freeBlocks := 8191 }).onFit
      fun e => { e with queue := [4] } with
    pages := base.pages.set 95 { Page.empty with state := .makeup, placements := [⟨4, 20⟩] } }

/-- The story of `kept`, and the others. -/
theorem kept_story (n : StoryNo) : kept.stories[n] = if n = 4 then { Story.free with
    state := .basket, desk := 2, blocks := [8191], fit := .stale, page := some 95, hole := 20 } else Story.free := by
  by_cases h : n = 4
  · subst h; decide +kernel
  · have hv : (4 : Nat) ≠ n.val := fun e => h (Fin.ext e.symm)
    simp [kept, basketed, story, base, Chip.onStory, Chip.onDesk, Chip.onCustody, Chip.onFit, update, Chip.reset, h]
    rw [Vector.getElem_set_ne _ _ (by exact hv)]
    simp

/-- All but one of the numbers. -/
theorem length_filter_ne {m : Nat} (a : Fin m) (p : Fin m → Bool) (h : ∀ n, p n = true ↔ n ≠ a) :
    ((List.finRange m).filter p).length = m - 1 := by
  have e : p = (· != a) := by funext n; rw [Bool.eq_iff_iff, h]; simp
  rw [e, ← (List.nodup_finRange m).erase_eq_filter, List.length_erase_of_mem (List.mem_finRange a), List.length_finRange]

theorem kept_owner (b : BlockNo) : kept.custody.owners[b] = if b = 8191 then some 4 else none := by
  by_cases h : b = 8191
  · subst h; decide +kernel
  · have hv : (8191 : Nat) ≠ b.val := fun e => h (Fin.ext e.symm)
    simp [kept, basketed, story, base, Chip.onStory, Chip.onDesk, Chip.onCustody, Chip.onFit, update, Chip.reset, h]
    rw [Vector.getElem_set_ne _ _ (by exact hv)]
    simp [Custody.reset]

theorem kept_page (p : PageNo) :
    kept.pages[p] = if p = 95 then { Page.empty with state := .makeup, placements := [⟨4, 20⟩] } else Page.empty := by
  revert p; decide +kernel

theorem kept_free : kept.FreeLaw := by
  refine ⟨fun n => ?_, ?_⟩
  · rw [kept_story]; split <;> simp
  · rw [length_filter_ne (4 : StoryNo)]
    · decide +kernel
    · intro n; rw [kept_story]; by_cases h : n = 4 <;> simp [h, Story.free]

theorem kept_blocks : kept.BlockLaw := by
  refine ⟨fun b n => ?_, fun n => ?_, ?_⟩
  · rw [kept_story, kept_owner]
    by_cases hn : n = 4 <;> by_cases hb : b = 8191 <;> simp [hn, hb, Story.free]
    exact fun e => hn e.symm
  · rw [kept_story]; split <;> simp [Story.free]
  · rw [length_filter_ne (8191 : BlockNo)]
    · decide +kernel
    · intro n; rw [kept_owner]; by_cases h : n = 8191 <;> simp [h]

theorem kept_baskets : kept.BasketLaw := by
  intro d
  have h : kept.desks[d].basket = if d = 2 then [4] else [] := by revert d; decide +kernel
  rw [h]
  refine ⟨by split <;> simp, by split <;> simp, fun n => ?_⟩
  rw [kept_story]
  by_cases hn : n = 4 <;> by_cases hd : d = 2 <;> simp [hn, hd, Story.free]
  exact fun e => hd e.symm

theorem kept_holders : kept.HolderLaw := by
  refine ⟨fun u => ?_, fun n => ?_, fun d => ?_⟩
  · have h : kept.custody.held[u] = [] := by revert u; decide +kernel
    rw [h]
    refine ⟨by simp, by simp, fun n => ?_⟩
    rw [kept_story]; split <;> simp [Story.free]
  · rw [kept_story]; split <;> simp [Story.free]
  · have h : kept.desks[d].openCount = 0 := by revert d; decide +kernel
    rw [h, List.filter_eq_nil_iff.mpr]
    · rfl
    · intro n _; rw [kept_story]; split <;> simp [Story.free]

theorem kept_fits : kept.FitLaw := by
  have hq : kept.fit.queue = [4] := by decide +kernel
  have hr : kept.fit.run = none := by decide +kernel
  unfold Chip.FitLaw
  rw [hq, hr]
  refine ⟨by simp, fun n => ?_, by simp, fun n => ?_⟩
  · rw [kept_story]; by_cases hn : n = 4 <;> simp [hn, Story.free]
  · rw [kept_story]; split <;> simp [Story.free]

theorem kept_placements : kept.PlacementLaw := by
  refine ⟨fun p => ?_, fun n p => ?_, fun p e => ?_, fun n => ?_⟩
  · rw [kept_page]; split <;> simp [Page.empty]
  · rw [kept_story, kept_page]
    by_cases hn : n = 4 <;> by_cases hd : p = 95 <;> simp [hn, hd, Story.free, Page.empty]
    · exact fun e => hd e.symm
    · exact fun e => hn e.symm
  · rw [kept_page]
    split
    · intro h; simp at h; subst h; rw [kept_story]; rfl
    · simp [Page.empty]
  · rw [kept_story]; split <;> simp [Story.free]

theorem kept_releases : kept.ReleaseLaw := by
  intro n
  rw [kept_story]
  by_cases hn : n = 4
  · simp only [hn, if_true, kept_page]; simp
  · simp [hn, Story.free]

/-- Custody, placements and the fit queue agree with the stories, and a step takes the command that waits. -/
theorem test_witness_story_laws : kept.StoryLaws ∧ kept.OutputLaw ∧
    leaves (step { given 18 [4] .none kept with pending := [.refit] }) (fun t =>
      t.chip.stories[4].result = some (.unmeasured .noFont) && t.chip.fit.queue = []) = true :=
  ⟨⟨kept_free, kept_blocks, kept_baskets, kept_holders, kept_fits, kept_placements, kept_releases⟩,
    by unfold Chip.OutputLaw; decide +kernel, by decide +kernel⟩

/-! ## The reset line and the areas -/

theorem test_witness_reset_line :
    State.reset.chip.resetAsserted = true ∧ State.reset.busWaiting = [] ∧
      leaves (exec (.resetRelease 15) State.reset)
        (fun t => !t.chip.resetAsserted && t.chip.path.controlPage = some 3932160) = true ∧
      leaves (exec (.goWordWrite 1 39 1) State.reset) (fun t => t.busWaiting = [⟨1, 39, 1⟩]) = true ∧
      leaves (exec (.resetRelease 0) { State.reset with busWaiting := [⟨1, 39, 1⟩] })
        (fun t => t.chip.cu.cells[0] = { state := .go, context := some .none } && t.memory = [(39, 1)]) = true := by
  decide +kernel

theorem test_witness_areas_at_their_ends :
    basesValid 0 65536 1048576 262144 = true ∧ base.path.classify 0 = .control 0 ∧
      base.path.classify 4095 = .control 4095 ∧ base.path.classify 4096 = .unclassified ∧
      base.path.classify 65536 = .window 0 0 ∧ base.path.classify 196607 = .window 63 2047 ∧
      base.path.classify 196608 = .unclassified ∧ base.path.classify 1048576 = .block 0 0 ∧
      base.path.classify 2097151 = .block 8191 127 ∧ base.path.classify 262144 = .directory 0 ∧
      base.path.classify 274303 = .directory 12159 ∧ base.path.classify 274304 = .unclassified := by decide +kernel

/-- A write-out in progress, so that the mirror writer waits at the port. -/
def writingOut (i : MirrorItem) (words : List Word) (c : Chip) : Chip :=
  c.onMirror fun m => { m with writing := some { item := i, words := words, offset := 0, carriesRefusal := false } }

theorem test_witness_port :
    (writingOut .clockCount [9] (fitting [0] base)).nextGrant = some .fitEngine ∧ base.nextGrant = none ∧
      (writingOut .clockCount [9] (fitting [0] { base with path := { base.path with lastGranted := .fitEngine } })).nextGrant =
        some .mirrorWriter ∧
      requesterOf .mirrorWordWrite = some .mirrorWriter ∧
      leaves (exec .mirrorWordWrite (bare (writingOut .clockCount [9] base)))
        (fun t => t.chip.path.lastGranted = .mirrorWriter && t.memory = [(8, 9)]) = true := by decide +kernel

/-- A host write accepted and then abandoned: the word holds one of its two values, whichever the free value says. -/
theorem test_witness_abandoned_write :
    (bare base).memory.wf = true ∧ exec (.hostWrite 0 5000 7) (bare base) = .next ((bare base).acceptedWith 5000 7 base) ∧
      ((bare base).acceptedWith 5000 7 base).inProgress = some { address := 5000, old := 0 } ∧
      ∃ t, exec .reset ((bare base).acceptedWith 5000 7 base) = .next t ∧ (t.memory = [(5000, 7)] ∨ t.memory = []) := by
  refine ⟨by decide +kernel, rfl, by decide +kernel, _, rfl, ?_⟩
  show (if Config.abandonedStores 0 then Memory.write [] 5000 7 else (Memory.write [] 5000 7).write 5000 0) = [(5000, 7)] ∨
    (if Config.abandonedStores 0 then Memory.write [] 5000 7 else (Memory.write [] 5000 7).write 5000 0) = []
  split
  · exact .inl (by decide +kernel)
  · exact .inr (by decide +kernel)

/-- An own access granted after the host write shows it complete: RESET then abandons nothing (log 5). -/
theorem test_own_access_ends_the_write :
    leaves (exec .mirrorWordWrite { bare (writingOut .clockCount [9] base) with inProgress := some ⟨5000, 3⟩ })
      (fun t => t.inProgress = none) = true ∧
      leaves (exec .reset (bare base)) (fun t => t.memory = [] && t.abandonedCount = 0) = true := by decide +kernel

/-! ## Host writes -/

theorem test_witness_ordinary_words :
    (bare base).Released ∧ (bare base).LandsAt 5000 .unclassified ∧ (bare base).LandsAt 67528 (.window 0 1992) ∧
      (bare base).LandsAt 67583 (.window 0 2047) ∧ (bare base).LandsAt 20 (.control 20) ∧
      (bare base).LandsAt 96 (.control 96) ∧ (bare base).LandsAt 127 (.control 127) ∧
      (bare base).LandsAt 256 (.control 256) ∧ (bare base).LandsAt 2047 (.control 2047) ∧
      (bare base).LandsAt 94 (.control (32 + 8 * 7 + 6)) ∧ base.cu.cells[7].state ≠ .busy ∧
      leaves (exec (.hostWrite 0 94 7) (bare base)) (fun t => t.memory = [(94, 7)]) = true ∧
      hostAccessOf (.storyWrite 1 94 7) = some ⟨1, 94, 7⟩ := by
  unfold State.Released State.LandsAt; decide +kernel

/-- Block 0 owned by story 4, which is as `st` says, under a running fit; processor 0 works for `x`. -/
def written (st : StoryState) (x : Context) : State :=
  bare (((fitting [9] (if st = .open_ then opened 4 2 7 base else story 4 st 2 (signed 7 2 .edit base))).onCustody fun k =>
    { k with owners := k.owners.set 0 (some 4) }).onPath fun p => { p with contexts := p.contexts.set 0 x })

theorem test_witness_story_writes :
    (written .intake .system).Released ∧ (written .intake .system).LandsAt 1048703 (.block 0 127) ∧
      (written .intake .system).chip.custody.owners[0] = some 4 ∧
      (written .intake .system).chip.stories[4].state = .intake ∧ base.custody.owners[0] = none ∧
      leaves (exec (.storyWrite 0 1048703 0x8000) (written .intake .system))
        (fun t => t.chip.custody.reports = [4] && t.chip.stories[4].fit = .stale && t.chip.fit.queue = [4] &&
          t.memory = [(1048703, 0x8000)]) = true ∧
      leaves (exec (.storyWrite 0 1048576 1) (bare base)) (fun t => lastReason t = some .freeBlock) = true := by
  unfold State.Released State.LandsAt; decide +kernel

theorem test_witness_story_writes_refused :
    leaves (exec (.storyWrite 0 1048576 1) (written .intake .none)) (fun t => lastReason t = some .badContext) = true ∧
      leaves (exec (.storyWrite 0 1048576 1) (written .intake (.terminal 9)))
        (fun t => lastReason t = some .badContext) = true ∧
      leaves (exec (.storyWrite 0 1048576 1) (written .intake (.terminal 7)))
        (fun t => lastReason t = some .notHolder) = true ∧
      leaves (exec (.storyWrite 0 1048576 1) (written .open_ .system))
        (fun t => lastReason t = some .notHolder) = true ∧
      leaves (exec (.storyWrite 0 1048576 1) (written .basket (.terminal 7)))
        (fun t => lastReason t = some .atRest) = true ∧
      leaves (exec (.storyWrite 0 1048576 1) (written .set .system)) (fun t => lastReason t = some .frozen) = true := by
  decide +kernel

theorem test_write_by_the_holder_is_stored :
    leaves (exec (.storyWrite 0 1048576 1) (bare (((opened 4 2 7 (signed 7 2 .edit base)).onCustody fun k =>
        { k with owners := k.owners.set 0 (some 4) }).onPath fun p => { p with contexts := p.contexts.set 0 (.terminal 7) })))
      (fun t => t.memory = [(1048576, 1)] && t.chip.custody.reports = [4]) = true := by decide +kernel

/-- A report to take, of an OPEN story with a warned lease. -/
theorem test_witness_write_report :
    leaves (exec .writeReport (bare ((((opened 4 2 7 base).onStory 4 fun x => { x with lease := some ⟨5, true⟩ }).onDesk 2
        (fun d => { d with idleLimit := 60 })).onCustody fun k => { k with reports := [4, 6] })))
      (fun t => t.chip.custody.reports = [6] && t.chip.stories[4].lease = some ⟨60, false⟩ &&
        (.story 4) ∈ t.chip.mirror.pending) = true := by decide +kernel

theorem test_witness_screen_rows :
    (bare base).Released ∧ (bare base).LandsAt 65536 (.window 0 0) ∧ (bare base).LandsAt 67375 (.window 0 1839) ∧
      leaves (exec (.screenRowWrite 2 67375 0x41) (bare base))
        (fun t => t.chip.screens[0].dirty[22] && !t.chip.screens[0].dirty[21] && t.memory = [(67375, 0x41)]) = true := by
  unfold State.Released State.LandsAt; decide +kernel

theorem test_witness_protected_words :
    (bare base).LandsAt 67376 (.window 0 1840) ∧ (bare base).LandsAt 67520 (.window 0 1984) ∧
      (bare base).LandsAt 67522 (.window 0 1986) ∧ (bare base).LandsAt 67527 (.window 0 1991) ∧
      (bare base).LandsAt 262144 (.directory 0) ∧ (bare base).LandsAt 4 (.control 4) ∧
      (bare base).LandsAt 13 (.control 13) ∧ (bare base).LandsAt 19 (.control 19) ∧ base.cu.service ≠ .stopped ∧
      leaves (exec (.hostWrite 0 13 1) (bare base)) (fun t => lastReason t = some .writeProtected) = true ∧
      leaves (exec (.hostWrite 0 262144 1) (bare base)) (fun t => lastReason t = some .writeProtected) = true ∧
      leaves (exec (.hostWrite 0 19 1) (bare { base with cu := CommandUnit.reset }))
        (fun t => t.memory = [(19, 1)]) = true := by
  unfold State.LandsAt; decide +kernel

/-- A ring with unread keys at 62, 63 and 0, the last a function key; a take write to any of 62, 63, 0 and 1 is good. -/
def ringed : Chip :=
  base.onKeys 0 fun k => { k with take := 62, put := 1, overrun := true, functionPending := some 0 }

theorem test_witness_take_words :
    (bare ringed).Released ∧ (bare ringed).LandsAt 67521 (.window 0 1985) ∧
      (ringed.keys[0].put.val + 64 - ringed.keys[0].take.val) % 64 = 3 ∧
      leaves (exec (.takeWordWrite 0 67521 2) (bare ringed)) (fun t => lastReason t = some .badIndex) = true ∧
      leaves (exec (.takeWordWrite 0 67521 61) (bare ringed)) (fun t => lastReason t = some .badIndex) = true ∧
      leaves (exec (.takeWordWrite 0 67521 0) (bare ringed))
        (fun t => t.chip.keys[0].take = 0 && t.chip.keys[0].functionPending = some 0 && !t.chip.keys[0].overrun) = true ∧
      leaves (exec (.takeWordWrite 0 67521 1) (bare ringed))
        (fun t => t.chip.keys[0].functionPending = none && (.keyState 0) ∈ t.chip.keyWriter.pending) = true := by
  unfold State.Released State.LandsAt; decide +kernel

theorem test_witness_context_words :
    (bare base).Released ∧ (bare base).ControlAt 3 3 ∧
      leaves (exec (.contextWordWrite 0 3 63) (bare base)) (fun t => t.chip.path.contexts[3] = .terminal 63) = true ∧
      leaves (exec (.contextWordWrite 0 3 65535) (bare base)) (fun t => t.chip.path.contexts[3] = .system) = true ∧
      leaves (exec (.contextWordWrite 0 3 64) (bare base)) (fun t => t.chip.path.contexts[3] = .none) = true :=
  ⟨rfl, ⟨0, rfl, by decide, by decide⟩, by decide +kernel⟩

theorem test_witness_mask_and_clear :
    (bare (base.raise .clock)).ControlAt 5 5 ∧ (bare (base.raise .clock)).ControlAt 6 6 ∧
      leaves (exec (.attentionMaskWrite 0 5 0xFF40) (bare (base.raise .clock)))
        (fun t => t.chip.cu.attentionLine && t.chip.cu.attentionMask = 0x40) = true ∧
      leaves (exec (.attentionClearWrite 0 6 0x40) (bare (base.raise .clock)))
        (fun t => t.chip.cu.attentionRaw = 0 && !t.chip.cu.attentionLine) = true ∧
      leaves (exec (.attentionClearWrite 0 6 0) (bare base)) (fun t => t.chip.mirror = base.mirror) = true :=
  ⟨⟨0, rfl, by decide, by decide⟩, ⟨0, rfl, by decide, by decide⟩, by decide +kernel⟩

/-- A part with cell 7 BUSY and a full refusal count. -/
def busyCell : Chip :=
  (base.onCell 7 fun k => { k with state := .busy }).onPath fun p => { p with refusalCount := 65535 }

theorem test_witness_refusals :
    (bare busyCell).ControlAt 13 13 ∧ (bare busyCell).ControlAt 95 (32 + 8 * 7 + 7) ∧
      busyCell.cu.cells[7].state = .busy ∧
      leaves (exec (.refusalCountClear 0 13 0) (bare busyCell)) (fun t => t.chip.path.refusalCount = 0) = true ∧
      leaves (exec (.goWordWrite 3 95 1) (bare busyCell))
        (fun t => t.chip.path.refusalCount = 65535 && t.chip.path.refusalIndication &&
          refusalWords t.chip.path.refusalRecord = [0x0803, 0, 95, 65534]) = true :=
  ⟨⟨0, rfl, by decide, by decide⟩, ⟨0, rfl, by decide, by decide⟩, by decide +kernel⟩

theorem test_witness_go_words :
    (bare base).ControlAt 39 (32 + 8 * 0 + 7) ∧ base.cu.cells[0].state ≠ .busy ∧
      leaves (exec (.goWordWrite 0 39 1) (bare base))
        (fun t => t.chip.cu.cells[0] = { state := .go, context := some .none }) = true ∧
      leaves (exec (.goWordWrite 0 39 2) (bare (base.onCell 0 fun _ => { state := .go, context := some .system })))
        (fun t => t.chip.cu.cells[0] = { state := .empty, context := none }) = true :=
  ⟨⟨0, rfl, by decide, by decide⟩, by decide +kernel⟩

/-- Story 4 has used fonts 0 and 2. -/
def usesFonts : Chip := fitting [9] ((story 4 .intake 2 base).onStory 4 fun x => { x with fontsUsed := 5 })

theorem test_witness_font_writes :
    (bare usesFonts).ControlAt 113 113 ∧ (bare usesFonts).ControlAt 4095 (2048 + 256 * 7 + 255) ∧
      usesFonts.fit.run.isSome = true ∧
      usesFonts.fontsOf 4 = 5 ∧ (usesFonts.stale 4).stories[4].fit = .stale :=
  ⟨⟨0, rfl, by decide, by decide⟩, ⟨0, rfl, by decide, by decide⟩, by decide +kernel⟩

theorem test_witness_desk_writes :
    (bare base).ControlAt 128 (128 + 8 * 0 + 0) ∧ (bare base).ControlAt 255 (128 + 8 * 15 + 7) ∧
      leaves (exec (.deskTableWrite 0 131 0x4142) (bare base))
        (fun t => t.chip.desks[0].name[6] = 0x41 && t.chip.desks[0].name[7] = 0x42) = true ∧
      leaves (exec (.deskTableWrite 0 132 0) (bare base)) (fun t => t.chip.desks[0].basketLimit = 1) = true ∧
      leaves (exec (.deskTableWrite 0 132 256) (bare base)) (fun t => t.chip.desks[0].basketLimit = 255) = true ∧
      leaves (exec (.deskTableWrite 0 133 3601) (bare base)) (fun t => t.chip.desks[0].idleLimit = 3600) = true ∧
      leaves (exec (.deskTableWrite 0 134 1) (bare base)) (fun t => t.chip.desks[0].idleAction = .recall) = true :=
  ⟨⟨0, rfl, by decide, by decide⟩, ⟨0, rfl, by decide, by decide⟩, by decide +kernel⟩

/-! ## The command unit and the mirror writer -/

/-- Cells 0 and 6 GO, cell 7 last served. -/
def twoCells : Chip :=
  (base.onCell 0 fun _ => { state := .go, context := some .system }).onCell 6 fun _ =>
    { state := .go, context := some (.terminal 4) }

theorem test_witness_cell_take :
    (bare twoCells).Released ∧ twoCells.cu.phase = .idle ∧ twoCells.cu.cells[0].state = .go ∧
      (∀ j : CellNo, twoCells.cu.cells[j].state = .go → (0 + 7 - 7) % 8 ≤ (j.val + 7 - 7) % 8) ∧
      (∀ k : CellNo, base.cu.cells[k].state ≠ .go) ∧
      leaves (exec .cellTake (bare twoCells)) (fun t => t.chip.cu.serving = some 0 && t.chip.cu.context = .system) = true ∧
      leaves (exec .cellTake (bare (twoCells.onUnit fun u => { u with lastServed := 0 })))
        (fun t => t.chip.cu.serving = some 6 && t.chip.cu.cells[6].state = .busy) = true := by
  unfold State.Released; decide +kernel

/-- A go word written 1, its cell taken at once, and RESET: the cell is EMPTY and its go word, like the cell's other words,
keeps what it held, though the write is still at the port (R22, R24). -/
theorem test_witness_busy_cell_keeps_its_words :
    ∀ k ∈ [(0 : CellNo), 7], ∀ j ∈ [0, 7],
      let s : State := { bare (base.onCell k fun _ => { state := .busy, context := some .system }) with
        memory := [(32 + 8 * k.val + j, 1)], inProgress := some ⟨BitVec.ofNat 22 (32 + 8 * k.val + j), 0⟩ }
      s.memory.wf = true ∧ leaves (exec .reset s) (fun t =>
        t.memory = [(32 + 8 * k.val + j, 1)] && t.chip.cu.cells[k].state = .empty && t.inProgress = none) = true := by
  decide +kernel

/-- The three steps of that case in a row: the go write, CELL_TAKE and RESET. -/
theorem test_go_write_take_reset :
    leaves (exec (.goWordWrite 0 39 1) (bare base)) (fun s => leaves (exec .cellTake s) (fun t =>
      t.inProgress = some ⟨39, 0⟩ && t.chip.cu.cells[0].state = .busy &&
        leaves (exec .reset t) (fun r => r.memory = [(39, 1)]))) = true := by decide +kernel

/-- Cell 5 being read, six words of it read, the first of them the number of a command. -/
def lastWord (n : Word) (service : Service) : State :=
  bare { base with cu := { base.cu with
    service := service, phase := .reading, serving := some 5, wordsRead := [n, 1, 2, 3, 4, 5] } }

theorem test_witness_cell_words :
    (lastWord 9 .running).Grants .commandUnit ∧ (lastWord 9 .running).chip.cu.serving = some 5 ∧
      (lastWord 9 .running).PageAt 0 ∧ (lastWord 9 .running).chip.cu.wordsRead.length = 6 ∧
      leaves (exec .cellWordRead (lastWord 9 .running)) (fun t => t.chip.commandDue 9) = true ∧
      leaves (exec .cellWordRead (lastWord 1 .stopped)) (fun t => t.chip.commandDue 1) = true ∧
      leaves (exec .cellWordRead (lastWord 0 .running)) (refusedAs .unknownCommand []) = true ∧
      leaves (exec .cellWordRead (lastWord 33 .stopped)) (refusedAs .unknownCommand []) = true ∧
      leaves (exec .cellWordRead (lastWord 1 .running)) (refusedAs .wrongState []) = true ∧
      leaves (exec .cellWordRead (lastWord 32 .starting)) (refusedAs .notRunning []) = true := by
  unfold State.Grants State.Released State.PageAt; decide +kernel

/-- Cell 7 reporting: two result words, `k` of them written. -/
def reporting (k : Nat) : State :=
  bare { base with cu := { base.cu with
    phase := .reporting, serving := some 7, result := .storyOpen, resultWords := [21, 22], reported := k } }

theorem test_witness_results :
    (reporting 1).Grants .commandUnit ∧ (reporting 1).PageAt 0 ∧
      leaves (exec .cellResultWrite (reporting 1)) (fun t => t.memory = [(90, 22)] && t.chip.cu.reported = 2) = true ∧
      leaves (exec .cellResultWrite (reporting 2)) (fun t =>
        t.memory = [(95, 270)] && t.chip.cu.cells[7].state = .done && t.chip.cu.phase = .idle &&
          t.chip.cu.attentionRaw = 1) = true := by
  unfold State.Grants State.Released State.PageAt; decide +kernel

/-- START reading, all but the last of its configuration words read. -/
def configuring (words : List Word) : State :=
  bare { base with
    path := { PathChecker.reset with controlPage := some 0 }
    cu := { CommandUnit.reset with
      phase := .acting, startStage := .reading, wordsRead := [1, 0, 0, 0, 0, 0, 0], configRead := words } }

/-- Words 96 to 111 of the configuration of section 2.3: the areas, then speeds, row budget, answer window. -/
def sampleConfig : List Word := [1, 0, 16, 0, 4, 0, 3, 3, 3, 3, 9, 0, 0, 0, 0, 100]

theorem test_witness_start :
    (given 1 [] .system { base with cu := CommandUnit.reset }).Serves 1 ∧ (configuring sampleConfig).Grants .commandUnit ∧
      (configuring sampleConfig).PageAt 0 ∧ sampleConfig.length = 16 ∧ basesValid 0 65536 1048576 262144 = true ∧
      leaves (exec .start (given 1 [] .none { base with cu := CommandUnit.reset }))
        (fun t => t.chip.cu.startStage = .reading) = true ∧
      leaves (exec .startConfigRead (configuring [1])) (fun t => t.chip.cu.configRead = [1, 0]) = true := by
  unfold State.Serves State.Grants State.Released State.PageAt; decide +kernel

theorem test_start_refuses_bad_bases :
    basesValid 0 65536 65536 262144 = false ∧ basesValid 0 65537 1048576 262144 = false ∧
      basesValid 0 65536 1048576 262145 = false ∧ basesValid 0 4194304 1048576 262144 = false ∧
      basesValid 3932160 65536 3145728 262144 = false ∧ basesValid 3932160 65536 1048576 3936256 = true ∧
      leaves (exec .startConfigRead (configuring [0, 0, 16, 0, 4, 0, 3, 3, 3, 3, 3, 3, 3, 3, 4, 8]))
        (refusedAs .configBad []) = true := by decide +kernel

theorem test_start_clamps_its_settings :
    ((base.takeSettings (sampleConfig ++ [0])).lines[4].speed,
      (base.takeSettings (sampleConfig ++ [0])).lines[7].rowBudget,
      (base.takeSettings (sampleConfig ++ [0])).lines[0].answerWindow,
      (base.takeSettings (sampleConfig ++ [0])).link.holdLimit) = (2, 1, 64, 1) := by decide +kernel

/-- The last word of a write-out of the refusal record, with a refusal carried and a command waiting for it. -/
def lastOfWriteOut (phase : CommandPhase) (stage : StartStage) (left : List WaitEntry) : State :=
  bare { base with
    cu := { base.cu with phase := phase, startStage := stage, waitSet := ⟨.refusal, true⟩ :: left }
    mirror := { pending := [], writing := some { item := .refusal, words := [7], offset := 4, carriesRefusal := true } } }

theorem test_witness_mirror_writer :
    (bare { base with mirror := { pending := [.refusal], writing := none } }).Released ∧
      leaves (exec .mirrorWriteOutBegin (bare { base with mirror := { pending := [.refusal, .fitCount], writing := none } }))
        (fun t => t.chip.mirror.pending = [.fitCount] && t.chip.mirror.writing =
          some { item := .refusal, words := [0, 0, 0, 0, 0], offset := 0, carriesRefusal := false }) = true ∧
      (lastOfWriteOut .waiting .notBegun []).Grants .mirrorWriter ∧ base.path.itemWord .refusal 4 = some 17 ∧
      leaves (exec .mirrorWordWrite (lastOfWriteOut .waiting .notBegun []))
        (fun t => t.memory = [(17, 7)] && t.chip.cu.phase = .reporting && t.chip.cu.attentionRaw = 8) = true ∧
      leaves (exec .mirrorWordWrite (lastOfWriteOut .waiting .notBegun [⟨.refusal, false⟩]))
        (fun t => t.chip.cu.phase = .waiting && t.chip.cu.waitSet = [⟨.refusal, false⟩]) = true ∧
      leaves (exec .mirrorWordWrite (lastOfWriteOut .acting .clearing []))
        (fun t => t.chip.cu.phase = .waiting && t.chip.cu.service = .running && t.chip.cu.result = .ok) = true := by
  unfold State.Grants State.Released; decide +kernel

/-- What stays awaited when a write-out ends, START's clearing at its end, and a refusal raised outside a command's action. -/
theorem test_witness_awaited_entries_leave :
    leaves (exec .mirrorWordWrite (lastOfWriteOut .waiting .notBegun [⟨.fitCount, true⟩, ⟨.refusal, false⟩, ⟨.refusal, true⟩]))
        (fun t => t.chip.cu.waitSet = [⟨.fitCount, true⟩, ⟨.refusal, false⟩] && t.chip.cu.attentionRaw = 8) = true ∧
      leaves (exec .mirrorWordWrite (lastOfWriteOut .waiting .notBegun [])) (fun t => t.chip.cu.waitSet = []) = true ∧
      leaves (exec .mirrorWordWrite (lastOfWriteOut .acting .clearing []))
        (fun t => t.chip.cu.waitSet = [⟨.serviceState, false⟩]) = true ∧
      leaves (exec .mirrorWordWrite (lastOfWriteOut .acting .clearing [⟨.linkState, false⟩]))
        (fun t => t.chip.cu.waitSet = [⟨.linkState, false⟩] && t.chip.cu.phase = .acting) = true := by decide +kernel

theorem test_witness_refusals_of_callers :
    (given 2 [64] .none base).Serves 2 ∧ commandNumber .terminalOn = some 2 ∧
      leaves (exec .terminalOn (given 2 [64] .none base)) (refusedAs .badArgument []) = true ∧
      leaves (exec .terminalOn (given 2 [63] .none base)) (refusedAs .noClearance []) = true ∧
      (admittedBy .openStory).map (·.system) = some false ∧ (admittedBy .openStory).map (·.terminal) = some (some .edit) ∧
      leaves (exec .openStory (given 13 [4] .system base)) (refusedAs .noClearance []) = true ∧
      leaves (exec .terminalOn (given 2 [63] (.terminal 4) (signed 4 0 .slot base))) (refusedAs .noClearance []) = true ∧
      leaves (exec .openStory (given 13 [4] (.terminal 4) (signed 4 0 .read base))) (refusedAs .noClearance []) = true ∧
      leaves (exec .openStory (given 13 [4] (.terminal 4) base)) (refusedAs .notSignedOn []) = true := by
  unfold State.Serves State.Released; decide +kernel

/-! ## Lines and terminals -/

/-- Terminal `u` in a link state, the engine of its line in a phase. -/
def lined (u : TerminalNo) (k : TerminalLink) (phase : LinePhase) : Chip :=
  (base.onTerminal u fun _ => k).onLine (lineOf u) fun e => { e with phase := phase }

theorem test_witness_terminal_on :
    (given 2 [63] .system base).Serves 2 ∧ finArg 64 ((given 2 [63] .system base).chip.cu.arg 1) = some 63 ∧
      base.links[63].state = .off ∧ base.lines[lineOf 63].phase = .idle ∧ 1 ≤ base.lines[lineOf 63].rowBudget ∧
      leaves (exec .terminalOn (given 2 [63] .system base)) (fun t =>
        ended .ok [] t && t.chip.links[63] = { state := .suspect, misses := 0 } && t.chip.lines[7].phase = .reading &&
          !t.chip.screens[63].dirty[0] && t.chip.screens[63].dirty[23]) = true ∧
      leaves (exec .terminalOn (given 2 [63] .system (lined 63 ⟨.down, 3⟩ .sending))) (refusedAs .wrongState []) = true ∧
      leaves (exec .terminalOn (given 2 [62] .system (lined 63 ⟨.up, 0⟩ .sending)))
        (fun t => t.chip.screens[62].dirty[0] && t.chip.lines[7].phase = .sending) = true := by
  unfold State.Serves State.Released; decide +kernel

theorem test_witness_terminal_off :
    (given 3 [17] .system (awaiting 17 .row [] base)).Serves 3 ∧
      finArg 64 ((given 3 [17] .system base).chip.cu.arg 1) = some 17 ∧
      leaves (exec .terminalOff (given 3 [17] .system (awaiting 17 .row [] base))) (fun t =>
        ended .ok [] t && t.chip.links[17] = { state := .off, misses := 0 } && t.chip.screens[17].dirty[3] &&
          t.chip.lines[2].phase = .quieting && t.chip.lines[2].afterQuiet = .testLine) = true ∧
      leaves (exec .terminalOff (given 3 [18] .system
        ((awaiting 17 .row [] base).onTerminal 18 fun _ => { state := .up, misses := 0 }))) (fun t =>
        t.chip.lines[2].phase = .awaiting && t.chip.links[18].state = .off) = true ∧
      leaves (exec .terminalOff (given 3 [17] .system base)) (refusedAs .wrongState []) = true := by
  unfold State.Serves State.Released; decide +kernel

theorem test_witness_line_reset :
    (given 4 [7] .system (awaiting 63 .poll [] base)).Serves 4 ∧
      finArg 8 ((given 4 [7] .system base).chip.cu.arg 1) = some 7 ∧
      leaves (exec .lineReset (given 4 [7] .system (awaiting 63 .poll [] base))) (fun t =>
        ended .ok [] t && t.chip.links[63] = { state := .suspect, misses := 0 } && t.chip.lines[7].phase = .quieting &&
          t.chip.lines[7].position = 0 && t.chip.lines[7].afterQuiet = .newSweep && t.chip.screens[63].dirty[0] &&
          t.chip.links[56].state = .off) = true := by
  unfold State.Serves State.Released; decide +kernel

/-- Line 2 reading row 22 of terminal 16, `k` words of it read. -/
def readingRow (k : Nat) : State :=
  bare (base.onLine 2 fun e =>
    { e with
      phase := .reading, rowWords := List.replicate k 0x20
      visit := some { terminal := 16, kind := .full, rowsSent := 0, rowInHand := some 22, awaited := .row } })

/-- TERMINAL OFF of the terminal whose row is being read: no other enabled, another further on, a DOWN one only. -/
theorem test_witness_terminal_off_reading :
    (given 3 [16] .system ((readingRow 5).chip.onTerminal 16 fun _ => ⟨.up, 0⟩)).Serves 3 ∧
      leaves (exec .terminalOff (given 3 [16] .system ((readingRow 5).chip.onTerminal 16 fun _ => ⟨.up, 0⟩))) (fun t =>
        t.chip.lines[2].phase = .idle && t.chip.lines[2].visit = none && t.chip.screens[16].dirty[22] &&
          t.chip.lines[2].sweepCounter = base.lines[2].sweepCounter) = true ∧
      leaves (exec .terminalOff (given 3 [16] .system
        (((readingRow 5).chip.onTerminal 16 fun _ => ⟨.up, 0⟩).onTerminal 19 fun _ => ⟨.up, 0⟩))) (fun t =>
        t.chip.lines[2].position = 3 && t.chip.lines[2].message = some .poll && t.chip.lines[2].phase = .sending) = true ∧
      leaves (exec .terminalOff (given 3 [17] .system
        (((awaiting 17 .row [] base).onLine 2 fun e => { e with phase := .reading, sweepCounter := 17 }).onTerminal 16
          fun _ => ⟨.down, 3⟩))) (fun t =>
        t.chip.lines[2].position = 0 && t.chip.lines[2].message = some .poll && t.chip.lines[2].sweepCounter = 32) = true := by
  unfold State.Serves State.Released; decide +kernel

/-- TERMINAL OFF while the engine is QUIETING: the test of the line, but for a new sweep already to follow (log 21). -/
theorem test_witness_terminal_off_quieting :
    ∀ x ∈ [(AfterQuiet.nextAddress, AfterQuiet.testLine), (.testLine, .testLine), (.newSweep, .newSweep)],
      leaves (exec .terminalOff (given 3 [17] .system ((lined 17 ⟨.up, 0⟩ .quieting).onLine 2 fun e =>
        { e with afterQuiet := x.1 }))) (fun t =>
        t.chip.lines[2].phase = .quieting && t.chip.lines[2].afterQuiet = x.2) = true := by decide +kernel

/-- LINE RESET of an IDLE engine, with and without an enabled terminal, and of a READING one. -/
theorem test_witness_line_reset_at_once :
    leaves (exec .lineReset (given 4 [7] .system base)) (fun t =>
        ended .ok [] t && t.chip.lines[7].phase = .idle && t.chip.lines[7].position = 0) = true ∧
      leaves (exec .lineReset (given 4 [7] .system (lined 63 ⟨.down, 3⟩ .idle))) (fun t =>
        t.chip.lines[7].phase = .reading && t.chip.lines[7].position = 7 && !t.chip.screens[63].dirty[0] &&
          t.chip.screens[63].dirty[23] && t.chip.links[63] = ⟨.suspect, 0⟩) = true ∧
      leaves (exec .lineReset (given 4 [2] .system
        (((readingRow 5).chip.onTerminal 19 fun _ => ⟨.up, 0⟩).onTerminal 17 fun _ => ⟨.down, 3⟩))) (fun t =>
        t.chip.lines[2].phase = .reading && t.chip.lines[2].position = 1 && t.chip.lines[2].rowWords = [] &&
          t.chip.lines[2].visit.map (·.rowInHand) = some (some 0) && t.chip.screens[16].dirty[22] &&
          t.chip.screens[19].dirty[0] && t.chip.screens[17].dirty[1] && !t.chip.screens[17].dirty[0]) = true := by
  decide +kernel

theorem test_witness_row_words :
    (readingRow 79).Grants (.line 2) ∧ 65536 + 2048 * 16 + 80 * 22 + 79 < Config.memoryWords ∧
      leaves (exec (.rowWordRead 2) { readingRow 79 with memory := [(100143, 0x41)] }) (fun t =>
        t.chip.lines[2].phase = .sending &&
          t.chip.lines[2].message = some (.row 22 (List.replicate 79 0x20 ++ [0x41]))) = true ∧
      leaves (exec (.rowWordRead 2) (readingRow 0)) (fun t => t.chip.lines[2].rowWords = [0]) = true ∧
      leaves (exec (.messageSent 2) (bare (lined 16 ⟨.up, 0⟩ .sending)))
        (fun t => t.chip.lines[2].phase = .awaiting) = true := by
  unfold State.Grants State.Released; decide +kernel

/-- The checks of a POLL to address 5: 0x11, 5 and their sum. -/
theorem test_poll_bytes : LineMessage.bytes 5 .poll = [0x11, 5, 0x16] := by decide

theorem test_witness_row_answers :
    (awaiting 21 .row [0x23, 5] base).lines[2].visit.isSome = true ∧
      (awaiting 21 .row [0x23, 5] base).links[21].state ≠ .down ∧ (0x23#8 + BitVec.ofNat 8 (21 % 8)) = 0x28 ∧
      leaves (exec (.takenAnswer 2 0x28) (bare (((awaiting 21 .row [0x23, 5] base).onLine 2 fun e =>
          { e with rowBudget := 2 }).markRow 21 23)))
        (fun t => t.chip.links[21] = { state := .up, misses := 0 } && t.chip.lines[2].phase = .reading &&
          !t.chip.screens[21].dirty[23]) = true ∧
      leaves (exec (.takenAnswer 2 0x28) (bare ((awaiting 21 .row [0x23, 5] base).markRow 21 23)))
        (fun t => t.chip.lines[2].message = some .poll && t.chip.screens[21].dirty[23]) = true ∧
      leaves (exec (.busyAnswer 2 0x29) (bare (awaiting 21 .row [0x24, 5] base)))
        (fun t => t.chip.lines[2].message = some .poll && t.chip.screens[21].dirty[3]) = true := by decide +kernel

/-- The codes of step 1 of section 5.4's sequence: text keys, a function key, a key after it, the ACK key. -/
def someKeys : List Byte := [0x48, 0x49, 0x8A, 0x41, 0xF0]

theorem test_witness_poll_answers :
    (awaiting 21 .poll [0x22, 5] base).lines[2].phase = .awaiting ∧
      leaves (exec (.quietAnswer 2 0x27) (bare ((awaiting 21 .poll [0x22, 5] base).onTerminal 23 fun _ => ⟨.up, 0⟩)))
        (fun t => t.chip.links[21].state = .up && t.chip.lines[2].position = 7) = true ∧
      ([0x21, 5, 5] ++ someKeys).foldl (· + ·) 0 = (0x77#8 : Byte) ∧
      leaves (exec (.keysAnswer 2 0x77) (bare ((((awaiting 21 .poll ([0x21, 5, 5] ++ someKeys) base).post .termDown 18 none
          (.terminal 21)).onKeys 21 fun k => { k with take := 60, put := 62 }))))
        (fun t => t.chip.keys[21].waiting = [0x48, 0x49, 0x8A] && t.chip.keys[21].functionPending = some 0 &&
          t.chip.screens[21].queue = [] && (.keyWords 21) ∈ t.chip.keyWriter.pending) = true := by decide +kernel

/-- R75's table: a text key, a function key at its ring position, the mark's hold, a full ring. -/
theorem test_witness_key_table :
    ({ KeyRing.reset with take := 60, put := 62, waiting := [1] }.takeCode 0x7F).waiting = [1, 0x7F] ∧
      ({ KeyRing.reset with take := 60, put := 62, waiting := [1] }.takeCode 0x80).functionPending = some 63 ∧
      ({ KeyRing.reset with take := 60, put := 62, waiting := [1, 2] }.takeCode 0xF1).functionPending = some 0 ∧
      { KeyRing.reset with functionPending := some 5 }.takeCode 0x41 = { KeyRing.reset with functionPending := some 5 } ∧
      { KeyRing.reset with take := 1 }.takeCode 0x80 = { KeyRing.reset with take := 1, overrun := true } := by decide

/-- Line 2 at address `a` of its sweep, its terminals in their states and the sweep counter. -/
def sweeping (a : Fin 8) (counter : Word) (k : Fin 8 → TerminalState) : Chip :=
  { base with
    lines := base.lines.set 2 { base.lines[2] with position := a, sweepCounter := counter }
    links := Vector.ofFn fun u : TerminalNo =>
      if lineOf u = 2 then { state := k (addressOf u), misses := if k (addressOf u) = .down then 3 else 0 }
      else { state := .off, misses := 0 } }

theorem test_witness_sweep_visits :
    (sweeping 2 15 fun a => if a = 5 then .up else .off).SweepComesTo 2 3 15 5 .full ∧
      (sweeping 2 16 fun a => if a = 7 then .down else .off).SweepComesTo 2 3 16 7 .probe ∧
      (sweeping 2 15 fun a => if a = 0 then .down else .off).SweepComesTo 2 0 (15 + 1) 0 .probe ∧
      ∀ b : Fin 8, 2 < b → (sweeping 2 15 fun a => if a = 7 then .down else .off).PassesAddress 2 15 b := by
  unfold Chip.SweepComesTo Chip.PassesAddress
  exact ⟨⟨by decide, by decide +kernel, by decide +kernel⟩, ⟨by decide, by decide +kernel, by decide +kernel⟩,
    ⟨by decide, by decide +kernel, by decide +kernel⟩, by decide +kernel⟩

/-- The sweep at each of its ends: a visit further on, a probe, a DOWN terminal passed, the next sweep, sixteen of them
passed at once, and no terminal enabled. -/
theorem test_witness_sweeps :
    (((sweeping 2 15 fun a => if a = 5 then .up else .off).markRow 21 6).nextAddress 2).lines[2].phase = .reading ∧
      ((sweeping 2 16 fun a => if a = 7 then .down else .off).nextAddress 2).lines[2].message = some .poll ∧
      ((sweeping 2 15 fun a => if a = 7 then .down else .off).nextAddress 2).lines[2].sweepCounter = 16 ∧
      ((sweeping 2 0xFFF1 fun a => if a = 7 then .down else .off).nextAddress 2).lines[2].sweepCounter = 0 ∧
      ((sweeping 2 0xFFFF fun _ => .off).nextAddress 2).lines[2].phase = .idle ∧
      ((sweeping 2 0xFFFF fun _ => .off).nextAddress 2).lines[2].sweepCounter = 0 := by decide +kernel

/-- A full ring discards a key and sets the overrun flag (section 5.4's second case). -/
theorem test_full_ring_overruns :
    ({ KeyRing.reset with take := 5, put := 4 }.takeCode 0x41).overrun = true ∧
      ({ KeyRing.reset with take := 5, put := 4, overrun := true }.inSpan 5) = true ∧
      ({ KeyRing.reset with take := 5, put := 4, overrun := true }.takeTo 5).overrun = false := by decide

theorem test_witness_misses :
    (awaiting 21 .row [] base).lines[2].phase = .awaiting ∧
      leaves (exec (.answerBadKindOrCount 2 0x25) (bare (awaiting 21 .row [] base)))
        (fun t => t.chip.links[21] = { state := .suspect, misses := 2 } && t.chip.lines[2].phase = .quieting &&
          t.chip.screens[21].dirty[3]) = true ∧
      leaves (exec (.answerBadKindOrCount 2 9) (bare (awaiting 21 .poll [0x21, 5] base)))
        (fun t => t.chip.lines[2].phase = .quieting) = true ∧
      leaves (exec (.lineByteReceived 2 8) (bare (awaiting 21 .poll [0x21, 5] base)))
        (fun t => t.chip.lines[2].received = [0x21, 5, 8]) = true ∧
      leaves (exec (.lineByteReceived 2 0x21) (bare base)) (fun t => t.chip.lines[2] = base.lines[2]) = true ∧
      leaves (exec (.answerWindowExpiry 2) (bare ((awaiting 21 .poll [] base).onTerminal 23 fun _ => ⟨.up, 0⟩)))
        (fun t => t.chip.links[21].misses = 2 && t.chip.lines[2].position = 7) = true ∧
      leaves (exec (.quietWindowExpiry 2) (bare (lined 23 ⟨.up, 0⟩ .quieting)))
        (fun t => t.chip.lines[2].position = 7 && t.chip.lines[2].phase = .sending) = true := by decide +kernel

theorem test_witness_bad_answers :
    leaves (exec (.takenAnswer 2 0x29) (bare (awaiting 21 .row [0x23, 5] base)))
        (fun t => t.chip.links[21].misses = 2 && t.chip.lines[2].phase = .quieting && t.chip.screens[21].dirty[3]) = true ∧
      leaves (exec (.takenAnswer 2 0x27) (bare (awaiting 21 .row [0x23, 4] base)))
        (fun t => t.chip.links[21].misses = 2) = true ∧
      leaves (exec (.quietAnswer 2 0x27) (bare (awaiting 21 .row [0x22, 5] base)))
        (fun t => t.chip.links[21].misses = 2) = true ∧
      leaves (exec (.busyAnswer 2 0x29) (bare (awaiting 21 .poll [0x24, 5] base)))
        (fun t => t.chip.links[21].misses = 2) = true ∧
      leaves (exec (.keysAnswer 2 0) (bare (awaiting 21 .poll [0x21, 5, 1, 0x41] base)))
        (fun t => t.chip.links[21].misses = 2 && t.chip.keys[21].waiting = []) = true := by decide +kernel

/-- Line 2 quiet after a cut. -/
def cutLine (after : AfterQuiet) (k : Fin 8 → TerminalState) : State :=
  bare ((sweeping 4 9 k).onLine 2 fun e => { e with phase := .quieting, afterQuiet := after })

theorem test_witness_quiet_visits :
    (cutLine .testLine fun a => if a = 6 then .suspect else .off).chip.SweepComesTo 2 5 9 6 .full ∧
      (cutLine .newSweep fun a => if a = 1 then .up else .off).chip.SweepComesTo 2 0 9 1 .full := by
  unfold Chip.SweepComesTo Chip.PassesAddress
  exact ⟨⟨by decide, by decide +kernel, by decide +kernel⟩, by decide, by decide +kernel, by decide +kernel⟩

theorem test_witness_quiet_ends :
    leaves (exec (.quietWindowExpiry 2) (cutLine .testLine fun a => if a = 6 then .suspect else .off))
        (fun t => t.chip.lines[2].position = 6 && t.chip.lines[2].sweepCounter = 9) = true ∧
      leaves (exec (.quietWindowExpiry 2) (cutLine .newSweep fun a => if a = 1 then .up else .off))
        (fun t => t.chip.lines[2].position = 1 && t.chip.lines[2].sweepCounter = 9) = true ∧
      leaves (exec (.quietWindowExpiry 2) (cutLine .testLine fun _ => .off))
        (fun t => t.chip.lines[2].phase = .idle && t.chip.lines[2].sweepCounter = 9) = true ∧
      leaves (exec (.quietWindowExpiry 2) (cutLine .newSweep fun _ => .off))
        (fun t => t.chip.lines[2].phase = .idle && t.chip.lines[2].position = 0) = true := by decide +kernel

theorem test_witness_link_states :
    (awaiting 21 .row [] base).links[21].state = .suspect ∧
      ((lined 21 ⟨.up, 0⟩ .awaiting).countMiss 21).links[21] = ⟨.suspect, 1⟩ ∧
      ((lined 21 ⟨.suspect, 2⟩ .awaiting).countMiss 21).links[21] = ⟨.down, 3⟩ ∧
      ((signed 4 1 .slot (signed 21 1 .edit (lined 21 ⟨.suspect, 2⟩ .awaiting))).countMiss 21).screens[4].queue =
        [{ kind := .termDown, subject := 21, second := none, count := 1 }] ∧
      ((lined 21 ⟨.down, 3⟩ .awaiting).countGood 21).cu.attentionRaw = 0x20 := by decide +kernel

/-! ## Notices -/

/-- A queue of terminal 9: two notices, the more mark set. -/
def noticed : Chip :=
  base.onScreen 9 fun s =>
    { s with
      more := true
      queue := [{ kind := .message, subject := 305, second := none, count := 2 },
        { kind := .arrived, subject := 12, second := some 3, count := 1 }] }

theorem test_witness_ack_notice :
    (given 7 [9] .system noticed).Serves 7 ∧ ((given 7 [9] .system noticed).chip.cu.arg 1).toNat = 9 ∧
      leaves (exec .ackNotice (given 7 [64] .system noticed)) (refusedAs .badArgument []) = true ∧
      leaves (exec .ackNotice (given 7 [9] (.terminal 9) noticed)) (refusedAs .noClearance []) = true ∧
      leaves (exec .ackNotice (given 7 [63] .system noticed)) (refusedAs .wrongState []) = true ∧
      leaves (exec .ackNotice (given 7 [9] .system noticed)) (fun t =>
        refusedAs .ok [] t && t.chip.screens[9].queue.length = 1 && !t.chip.screens[9].more &&
          9 ∈ t.chip.noticeWriter.pending) = true := by
  unfold State.Serves State.Released; decide +kernel

theorem test_witness_post_notice :
    (given 8 [999, 1, 15] .system (signed 9 15 .read noticed)).Serves 8 ∧
      leaves (exec .postNotice (given 8 [999, 1, 15] .system (signed 9 15 .read noticed))) (fun t =>
        refusedAs .ok [1] t && t.chip.screens[9].queue.length = 3) = true ∧
      leaves (exec .postNotice (given 8 [305, 0, 9] .system noticed)) (fun t =>
        refusedAs .ok [1] t && t.chip.screens[9].queue.map (·.count) = [3, 1]) = true ∧
      leaves (exec .postNotice (given 8 [1000, 0, 9] .system noticed)) (refusedAs .badArgument []) = true := by
  unfold State.Serves State.Released; decide +kernel

/-- The row of `noticed`: the head with its repeat count, spaces, and +MORE in columns 75 to 79. -/
theorem test_notice_row :
    noticed.noticeRow 9 = (chars ['M', 'E', 'S', 'S', 'A', 'G', 'E', ' ', '3', '0', '5', ' ', 'x', '2'] ++
      List.replicate 61 0x20 ++ chars ['+', 'M', 'O', 'R', 'E']).map wordOfByte ∧
    noticed.noticeText { kind := .arrived, subject := 12, second := some 3, count := 1 } =
      chars ['S', 'T', 'O', 'R', 'Y', ' ', '1', '2', ' ', 'A', 'R', 'R', 'I', 'V', 'E', 'D', ' ', 'A', 'T', ' ',
        'D', 'E', 'S', 'K', ' ', '0', '3'] := by decide +kernel

/-- A desk's name without its trailing spaces, and the name of a desk of spaces. -/
theorem test_witness_desk_names :
    base.desks[15].name.toList = [] ++ List.replicate 8 0x20#8 ∧ base.deskName 15 = ascii "DESK 15" ∧
      #v[0x43, 0x20, 0x44, 0x20, 0x20, 0x20, 0x20, 0x20].toList = ([0x43, 0x20, 0x44] : List Byte) ++ List.replicate 5 0x20#8 ∧
      (base.onDesk 2 fun d => { d with name := #v[0x43, 0x20, 0x44, 0x20, 0x20, 0x20, 0x20, 0x20] }).deskName 2 =
        [0x43, 0x20, 0x44] := by decide +kernel

/-- The notice writer about to write a word of terminal 63's row. -/
def rowWriting (words : List Word) (k : Nat) : State :=
  bare { base with noticeWriter := { pending := [], writing := some { terminal := 63, words := words, column := k } } }

theorem test_witness_notice_rows :
    (bare { noticed with noticeWriter := { pending := [9], writing := none } }).Released ∧
      leaves (exec .noticeRowWriteBegin (bare { noticed with noticeWriter := { pending := [9], writing := none } }))
        (fun t => (t.chip.noticeWriter.writing.map (·.words.length)) = some 80) = true ∧
      (rowWriting [0x41] 79).Grants .noticeWriter ∧ 65536 + 2048 * 63 + 1840 + 79 < Config.memoryWords ∧
      leaves (exec .noticeRowWordWrite (rowWriting [0x41] 79)) (fun t =>
        t.memory = [(196479, 0x41)] && t.chip.noticeWriter.writing = none && t.chip.screens[63].dirty[23]) = true ∧
      leaves (exec .noticeRowWordWrite (rowWriting [0x41, 0x42] 0)) (fun t => t.memory = [(196400, 0x41)]) = true := by
  unfold State.Grants State.Released; decide +kernel

/-! ## Keys and sessions -/

theorem test_witness_sign_on :
    (given 5 [63, 15, 2] .system base).Serves 5 ∧ base.session 63 = none ∧
      leaves (exec .signOn (given 5 [63, 15, 2] .system base)) (fun t =>
        refusedAs .ok [] t && t.chip.session 63 = some { desk := 15, clearance := .slot } &&
          t.chip.keys[63].session.isSome && Session.word (t.chip.session 63) = 0x820F) = true ∧
      leaves (exec .signOn (given 5 [63, 15, 3] .system base)) (refusedAs .badArgument []) = true ∧
      leaves (exec .signOn (given 5 [63, 15, 2] .system (signed 63 1 .read base))) (refusedAs .wrongState []) = true := by
  unfold State.Serves State.Released; decide +kernel

/-- Terminal 7, signed on, holds story 4 of desk 2 and has notices and a function key pending. -/
def holding : Chip :=
  (opened 4 2 7 (signed 7 2 .edit base)).onKeys 7 fun k => { k with functionPending := some 5 }

theorem test_witness_sign_off :
    (given 6 [7] (.terminal 7) holding).Serves 6 ∧ (holding.session 7).isSome = true ∧ holding.custody.held[7] = [4] ∧
      leaves (exec .signOff (given 6 [7] (.terminal 7) holding)) (fun t =>
        ended .ok [] t && t.chip.session 7 = none && t.chip.stories[4].state = .basket &&
          t.chip.desks[2].basket = [4] && t.chip.desks[2].openCount = 0 && t.chip.keys[7].functionPending = none) = true ∧
      leaves (exec .signOff (given 6 [8] .system holding)) (refusedAs .wrongState []) = true := by
  unfold State.Serves State.Released; decide +kernel

theorem test_witness_held_set_of_sign_off :
    ∀ n : StoryNo, n ∈ holding.custody.held[7] ↔
      holding.stories[n].state = .open_ ∧ holding.stories[n].holder = some 7 := by
  intro n
  have hh : holding.custody.held[7] = [4] := by decide +kernel
  by_cases h : n = 4
  · subst h; decide +kernel
  · have hv : (4 : Nat) ≠ n.val := fun e => h (Fin.ext e.symm)
    have hs : holding.stories[n] = Story.free := by
      simp [holding, opened, signed, base, Chip.onStory, Chip.onKeys, Chip.onDesk, Chip.onCustody, update, Chip.reset,
        Vector.getElem_set]
      exact fun e => absurd e hv
    simp [hh, hs, h, Story.free]

/-- Key intake writing an item of terminal 63, whose ring is about to wrap. -/
def ringWriting (i : KeyItem) (waiting : List Byte) : State :=
  bare { base.onKeys 63 fun k => { k with put := 63, take := 60, waiting := waiting, functionMark := true } with
    keyWriter := { pending := [], writing := some i } }

theorem test_witness_key_intake :
    (bare { base with keyWriter := { pending := [.putWord 63], writing := none } }).Released ∧
      leaves (exec .keyIntakeWriteBegin (bare { base with keyWriter := { pending := [.putWord 63], writing := none } }))
        (fun t => t.chip.keyWriter = { pending := [], writing := some (.putWord 63) }) = true ∧
      (ringWriting (.keyWords 63) [0x41]).Grants .keyIntake ∧ 65536 + 131072 ≤ Config.memoryWords ∧
      leaves (exec .keyWordWrite (ringWriting (.keyWords 63) [0x41])) (fun t =>
        t.memory = [(196543, 0x41)] && t.chip.keys[63].put = 0 && t.chip.keys[63].textMark &&
          t.chip.keyWriter = { pending := [.putWord 63], writing := none }) = true ∧
      leaves (exec .putWordWrite (ringWriting (.putWord 63) [])) (fun t =>
        t.memory = [(196544, 63)] && t.chip.cu.attentionRaw = 4 && !t.chip.keys[63].functionMark) = true ∧
      leaves (exec .statusWordWrite (ringWriting (.takeWord 63) [])) (fun t => t.memory = [(196545, 60)]) = true := by
  unfold State.Grants State.Released; decide +kernel

theorem test_status_words :
    leaves (exec .statusWordWrite (bare { ringed with keyWriter := { pending := [], writing := some (.keyState 0) } }))
      (fun t => t.memory = [(67522, 0xC000)]) = true ∧
    leaves (exec .statusWordWrite (bare { signed 0 3 .edit base with
        keyWriter := { pending := [], writing := some (.sessionWord 0) } })) (fun t => t.memory = [(67523, 0x8103)]) = true ∧
    leaves (exec .statusWordWrite (bare { lined 0 ⟨.down, 3⟩ .idle with
        keyWriter := { pending := [], writing := some (.linkWord 0) } })) (fun t => t.memory = [(67524, 0x0303)]) = true := by
  decide +kernel

/-! ## Custody -/

/-- CREATE's caller at terminal 7, an EDIT editor of desk 2; story 4 is OPEN there and terminal 7 holds it. -/
theorem test_witness_create :
    (given 9 [2, 1] (.terminal 7) (fitting [9] holding)).Serves 9 ∧ holding.stories[0].state = .free ∧
      (∃ d, (given 9 [2, 1] (.terminal 7) (fitting [9] holding)).chip.CallsAs 7 d .edit ∧ d = 2) ∧
      holding.custody.held[7].length < 2 ∧
      leaves (exec .create (given 9 [2, 1] (.terminal 7) (fitting [9] holding))) (fun t =>
        ended .ok [0] t && t.chip.stories[0].state = .open_ && t.chip.stories[0].urgent &&
          t.chip.custody.held[7] = [4, 0] && t.chip.fit.queue = [0] && t.chip.custody.freeStories = 1023) = true ∧
      leaves (exec .create (given 9 [15, 0] .system base)) (fun t =>
        ended .ok [0] t && t.chip.stories[0].state = .intake && t.chip.stories[0].desk = 15) = true :=
  ⟨⟨rfl, by decide +kernel⟩, by decide +kernel,
    ⟨2, ⟨rfl, { desk := 2, clearance := .edit }, by decide +kernel, rfl, by decide⟩, rfl⟩, by decide +kernel⟩

/-- Story 4 in intake with a list of blocks, under a running fit; block 8191 is story 6's. -/
def intaken (blocks : List BlockNo) : Chip :=
  fitting [9] (((story 4 .intake 2 base).onStory 4 fun x => { x with blocks := blocks }).onCustody fun k =>
    { k with owners := k.owners.set 8191 (some 6) })

theorem test_witness_blocks :
    (given 10 [4, 0] .system (intaken [])).Serves 10 ∧ (given 11 [4] .system (intaken [3, 5])).Serves 11 ∧
      (intaken []).stories[4].state = .intake ∧
      leaves (exec .attach (given 10 [4, 0] .system (intaken [3]))) (fun t =>
        ended .ok [] t && t.chip.custody.owners[0] = some 4 && t.chip.stories[4].blocks = [3, 0] &&
          t.chip.custody.freeBlocks = 8191 && t.chip.stories[4].fit = .stale) = true ∧
      leaves (exec .attach (given 10 [4, 8191] .system (intaken []))) (refusedAs .blockTaken []) = true ∧
      leaves (exec .attach (given 10 [4, 0] .system (intaken (List.replicate 48 1)))) (refusedAs .listFull []) = true ∧
      leaves (exec .detach (given 11 [4] .system (intaken [3, 5]))) (fun t =>
        ended .ok [5] t && t.chip.stories[4].blocks = [3] && t.chip.custody.freeBlocks = 8193) = true ∧
      leaves (exec .detach (given 11 [4] .system (intaken []))) (refusedAs .wrongState []) = true := by
  unfold State.Serves State.Released; decide +kernel

theorem test_witness_attach_by_the_holder :
    ∃ d, (given 10 [4, 0] (.terminal 7) holding).chip.CallsAs 7 d .edit ∧ holding.stories[4].state = .open_ ∧
      holding.stories[4].holder = some 7 ∧
      leaves (exec .attach (given 10 [4, 0] (.terminal 7) holding)) (ended .ok []) = true :=
  ⟨2, ⟨rfl, { desk := 2, clearance := .edit }, by decide +kernel, rfl, by decide⟩, by decide +kernel⟩

/-- Desk 15: an urgent story 8, then story 9; story 4 as `st` at desk 2. -/
def desked (st : StoryState) (urgent : Bool) : Chip :=
  (((story 4 st 2 base).onStory 4 fun x => { x with urgent := urgent }).onStory 8 fun x => { x with urgent := true }).onDesk
    15 fun d => { d with basket := [8, 9], basketLimit := 3 }

theorem test_witness_submit :
    (given 12 [4, 15] .system (desked .intake true)).Serves 12 ∧
      (∀ e : DeskNo, (4 : StoryNo) ∈ (desked .intake true).desks[e].basket →
        (desked .intake true).stories[4].state = .basket ∧ (desked .intake true).stories[4].desk = e) ∧
      (desked .intake true).desks[15].basket.length < (desked .intake true).desks[15].basketLimit ∧
      (desked .intake true).stories[8].urgent = true ∧ (desked .intake true).stories[9].urgent = false ∧
      leaves (exec .submit (given 12 [4, 15] .system (desked .intake true)))
        (fun t => ended .ok [] t && t.chip.desks[15].basket = [8, 4, 9] && t.chip.stories[4].desk = 15) = true ∧
      leaves (exec .submit (given 12 [4, 15] .system (desked .intake false)))
        (fun t => t.chip.desks[15].basket = [8, 9, 4]) = true ∧
      leaves (exec .submit (given 12 [4, 15] .system ((desked .intake true).onDesk 15 fun d => { d with basketLimit := 2 })))
        (refusedAs .basketFull []) = true := by
  unfold State.Serves State.Released; decide +kernel

theorem test_witness_send :
    (given 14 [4, 15, 1] (.terminal 7) holding).Serves 14 ∧
      (∀ e : DeskNo, (4 : StoryNo) ∈ holding.desks[e].basket → holding.stories[4].state = .basket ∧ holding.stories[4].desk = e) ∧
      (∃ d, (given 14 [4, 15, 1] (.terminal 7) holding).chip.CallsAs 7 d .edit) ∧
      leaves (exec .send (given 14 [4, 15, 1] (.terminal 7) (signed 3 15 .read holding))) (fun t =>
        ended .ok [] t && t.chip.desks[15].basket = [4] && t.chip.stories[4].version = 1 && t.chip.custody.held[7] = [] &&
          t.chip.screens[3].queue = [{ kind := .arrived, subject := 4, second := some 15, count := 1 }]) = true :=
  ⟨⟨rfl, by decide +kernel⟩, by decide +kernel,
    ⟨2, rfl, { desk := 2, clearance := .edit }, by decide +kernel, rfl, by decide⟩, by decide +kernel⟩

/-- SEND of a BASKET story within its own desk: it is left out of the count. -/
theorem test_witness_send_from_a_basket :
    (given 14 [4, 2, 0] .system (basketed 4 2 base)).Serves 14 ∧ (basketed 4 2 base).stories[4].state = .basket ∧
      (∀ e : DeskNo, (4 : StoryNo) ∈ (basketed 4 2 base).desks[e].basket →
        (basketed 4 2 base).stories[4].state = .basket ∧ (basketed 4 2 base).stories[4].desk = e) ∧
      leaves (exec .send (given 14 [4, 2, 0] .system ((basketed 4 2 base).onDesk 2 fun d => { d with basketLimit := 1 })))
        (fun t => ended .ok [] t && t.chip.desks[2].basket = [4]) = true := by
  unfold State.Serves State.Released; decide +kernel

theorem test_witness_open_and_return :
    (given 13 [4] (.terminal 7) (basketed 4 2 (signed 7 2 .edit base))).Serves 13 ∧
      (∃ d, (given 13 [4] (.terminal 7) (basketed 4 2 (signed 7 2 .edit base))).chip.CallsAs 7 d .edit ∧ d = 2) ∧
      leaves (exec .openStory (given 13 [4] (.terminal 7) (basketed 4 2 (signed 7 2 .edit base)))) (fun t =>
        ended .ok [] t && t.chip.stories[4].state = .open_ && t.chip.custody.held[7] = [4] &&
          t.chip.desks[2].basket = [] && t.chip.desks[2].openCount = 1 && t.chip.stories[4].lease = none) = true ∧
      leaves (exec .openStory (given 13 [4] (.terminal 7) ((basketed 4 2 (signed 7 2 .edit base)).onCustody fun k =>
        { k with held := k.held.set 7 [1, 2] }))) (refusedAs .listFull []) = true ∧
      (given 15 [4] .system holding).Serves 15 ∧
      leaves (exec .returnStory (given 15 [4] .system (holding.onDesk 2 fun d => { d with basket := [6] }))) (fun t =>
        ended .ok [] t && t.chip.desks[2].basket = [4, 6] && t.chip.stories[4].holder = none) = true :=
  ⟨⟨rfl, by decide +kernel⟩,
    ⟨2, ⟨rfl, { desk := 2, clearance := .edit }, by decide +kernel, rfl, by decide⟩, rfl⟩, by decide +kernel,
    by decide +kernel, ⟨rfl, by decide +kernel⟩, by decide +kernel⟩

/-- Story 4, OPEN, placed on page 96, with block 8191, STALE in the queue. -/
def killable (fit : FitState) : Chip :=
  (((holding.onStory 4 fun x => { x with blocks := [8191], page := some 95, hole := 100, fit := fit }).onPage 95 fun p =>
    { p with state := .makeup, placements := [⟨4, 100⟩, ⟨6, 50⟩] }).onCustody fun k =>
    { k with owners := k.owners.set 8191 (some 4), freeBlocks := 8191, freeStories := 1023, reports := [4] })

theorem test_witness_kill :
    (given 16 [4] .system (killable .stale)).Serves 16 ∧ (killable .stale).stories[4].state = .open_ ∧
      leaves (exec .kill (given 16 [4] .system ((fitting [9] (killable .stale)).onFit fun e => { e with queue := [4] })))
        (fun t => ended .ok [] t && t.chip.stories[4] = Story.free && t.chip.custody.owners[8191] = none &&
          t.chip.pages[95].placements = [⟨6, 50⟩] && t.chip.fit.queue = [] && t.chip.custody.freeBlocks = 8192 &&
          t.chip.custody.reports = [] &&
          t.chip.screens[7].queue = [{ kind := .killed, subject := 4, second := none, count := 1 }]) = true ∧
      leaves (exec .kill (given 16 [4] .system ((killable .running).onFit fun e =>
          { e with run := some { FitRun.begin 4 Story.free with blocks := [8191] } })))
        (fun t => ended .ok [] t && t.chip.fit.run = none) = true ∧
      leaves (exec .kill (given 16 [4] .system (story 4 .set 2 base))) (refusedAs .wrongState []) = true := by
  unfold State.Serves State.Released; decide +kernel

/-- The word that the killed run of story 4 had requested stays at the port; so does one left there before. -/
theorem test_witness_kill_of_a_run :
    leaves (exec .kill (given 16 [4] .system ((killable .running).onFit fun e =>
        { e with abandoned := [⟨7, 3⟩]
                 run := some { FitRun.begin 4 Story.free with blocks := [0, 8191], index := 255 } })))
      (fun t => ended .ok [] t && t.chip.fit.run = none && t.chip.fit.abandoned = [⟨7, 3⟩, ⟨8191, 127⟩]) = true ∧
      (killable .stale).fit.abandoned = [] := by decide +kernel

theorem test_witness_set_style :
    (given 17 [4, 7, 144, 4095, 300, 65528] .system (intaken [])).Serves 17 ∧ (65528 : Word) = BitVec.ofInt 16 (-8) ∧
      leaves (exec .setStyle (given 17 [4, 7, 144, 4095, 300, 65528] .system (intaken []))) (fun t =>
        ended .ok [] t && t.chip.stories[4].style = { font := 7, size := 144, leading := 4095, measure := 300, track := -8 } &&
          t.chip.fit.queue = [4]) = true ∧
      leaves (exec .setStyle (given 17 [4, 7, 9, 0, 300, 0] .system (intaken []))) (refusedAs .badArgument []) = true ∧
      leaves (exec .setStyle (given 17 [4, 7, 10, 0, 6, 8] .system (intaken []))) (refusedAs .badArgument []) = true := by
  unfold State.Serves State.Released; decide +kernel

theorem test_witness_refit :
    (given 18 [4] .none (intaken [])).Serves 18 ∧
      leaves (exec .refit (given 18 [4] .none (intaken []))) (fun t => ended .ok [] t && t.chip.fit.queue = [4]) = true ∧
      leaves (exec .refit (given 18 [1000] .none (intaken []))) (fun t =>
        refusedAs .ok [] t && t.chip.stories[1000].rerun) = true ∧
      leaves (exec .refit (given 18 [5] .none (intaken []))) (refusedAs .wrongState []) = true := by
  unfold State.Serves State.Released; decide +kernel

/-! ## The night clock -/

/-- A clock about to close edition 1 of two, a page about to go late. -/
def nearClose (c : Chip) : Chip :=
  ({ c with clock := { count := 599, running := true, closes := [some 600, some 1200], current := 1 } }).onPage 0 fun p =>
    { p with state := .makeup, close := some 600 }

theorem test_witness_clock_commands :
    (given 19 [] .none base).Serves 19 ∧ (given 20 [] .none (nearClose base)).Serves 20 ∧
      leaves (exec .clockRun (given 19 [] .none base)) (fun t => refusedAs .ok [0] t && t.chip.clock.running) = true ∧
      leaves (exec .clockRun (given 19 [] .none (nearClose base))) (refusedAs .wrongState [599]) = true ∧
      leaves (exec .clockPause (given 20 [] .none (nearClose base)))
        (fun t => refusedAs .ok [599] t && !t.chip.clock.running) = true ∧
      leaves (exec .clockPause (given 20 [] .none base)) (refusedAs .wrongState [0]) = true := by
  unfold State.Serves State.Released; decide +kernel

theorem test_witness_clock_is_set :
    (given 21 [600] .system (nearClose base)).Serves 21 ∧ (given 22 [600, 1200, 0, 0, 0, 0] .system base).Serves 22 ∧
      leaves (exec .setClock (given 21 [600] .system (nearClose base)))
        (fun t => ended .ok [] t && t.chip.clock.count = 600 && t.chip.clock.current = 2) = true ∧
      leaves (exec .setClock (given 21 [65535] .system (nearClose base))) (fun t => t.chip.clock.current = 2) = true ∧
      leaves (exec .setEditions (given 22 [600, 1200, 0, 0, 0, 0] .system base))
        (fun t => ended .ok [1] t && t.chip.clock.closes = [some 600, some 1200]) = true ∧
      leaves (exec .setEditions (given 22 [1, 2, 3, 4, 5, 6] .system base)) (fun t => t.chip.clock.closes.length = 6) = true ∧
      leaves (exec .setEditions (given 22 [0, 0, 0, 0, 0, 0] .system base)) (refusedAs .badArgument []) = true ∧
      leaves (exec .setEditions (given 22 [5, 5, 0, 0, 0, 0] .system base)) (refusedAs .badArgument []) = true ∧
      leaves (exec .setEditions (given 22 [5, 0, 6, 0, 0, 0] .system base)) (refusedAs .badArgument []) = true := by
  unfold State.Serves State.Released; decide +kernel

/-- Story 4 is OPEN at terminal 7 with a warned lease about to expire. -/
def leased : Chip := holding.onStory 4 fun x => { x with lease := some ⟨1, true⟩ }

/-- The premise of the pulses: leases stand on OPEN stories. -/
theorem test_witness_leases_on_open_stories :
    ∀ n : StoryNo, leased.stories[n].lease.isSome = true → leased.stories[n].state = .open_ := by
  intro n hl
  by_cases h : n = 4
  · subst h; decide +kernel
  · have hv : (4 : Nat) ≠ n.val := fun e => h (Fin.ext e.symm)
    have hs : leased.stories[n].lease = none := by
      simp [leased, holding, opened, signed, base, Chip.onStory, Chip.onKeys, Chip.onDesk, Chip.onCustody, update,
        Chip.reset, Vector.getElem_set, Story.free]
      split
      · rename_i e; exact absurd e hv
      · rfl
    rw [hs] at hl
    cases hl

theorem test_witness_pulses :
    (bare (nearClose base)).Released ∧ (nearClose base).clock.running = true ∧ (nearClose base).clock.count ≠ 65535 ∧
      (nearClose base).clock.closes[0]? = some (some ((nearClose base).clock.count + 1)) ∧
      (nearClose base).pages[0].close = some ((nearClose base).clock.count + 1) ∧ (nearClose base).closeDue = true ∧
      (nearClose base).lateDue = true ∧
      ∀ i ∈ [Instr.pulse, .editionClose, .pageLate, .leaseFirstExpiry, .leaseSecondExpiry],
        leaves (exec i (bare { base with clock := { base.clock with running := true, count := 65535 } }))
            (fun t => t.chip.clock.count = 65535) = true ∧
          leaves (exec i (bare base)) (fun t => t.chip.clock = base.clock) = true := by
  unfold State.Released; decide +kernel

/-- The premises under which a running pulse makes no page late and lets no lease expire, as PAGE_LATE finds it. -/
theorem test_witness_no_expiry_due :
    (bare { base with clock := { base.clock with running := true, count := 7 } }).Released ∧
      (∀ p : PageNo, base.pages[p].close = none) ∧
      leaves (exec .pageLate (bare { base with clock := { base.clock with running := true, count := 7 } }))
        (fun t => t.chip.clock.count = 7) = true := by
  unfold State.Released
  exact ⟨rfl, by decide +kernel, by decide +kernel⟩

/-- What a pulse does to one story's lease (R121 to R124), apart from the others. -/
theorem test_leases_count_down :
    ((holding.onStory 4 fun x => { x with lease := some ⟨2, true⟩ }).countLease 4).stories[4].lease = some ⟨1, true⟩ ∧
      (((holding.onStory 4 fun x => { x with lease := some ⟨1, false⟩ }).onDesk 2 fun d =>
        { d with idleLimit := 3600 }).countLease 4).stories[4].lease = some ⟨3600, true⟩ ∧
      ((holding.onStory 4 fun x => { x with lease := some ⟨0, true⟩ }).countLease 4).stories[4].lease = none ∧
      (((holding.onStory 4 fun x => { x with lease := some ⟨1, true⟩ }).onDesk 2 fun d =>
        { d with idleAction := .recall }).countLease 4).desks[2].basket = [4] := by decide +kernel

/-- What an expiry posts: IDLE to the holder, the second time too under NOTIFY, and RECALLED to the former one; a full queue
shows its more mark instead (R122 b, R123 a, R124, R62). -/
theorem test_expiries_warn_and_recall :
    ((holding.onStory 4 fun x => { x with lease := some ⟨1, false⟩ }).countLease 4).screens[7].queue =
        [{ kind := .idle, subject := 4, second := none, count := 1 }] ∧
      (leased.countLease 4).screens[7].queue = [{ kind := .idle, subject := 4, second := none, count := 1 }] ∧
      ((leased.onDesk 2 fun d => { d with idleAction := .recall }).countLease 4).screens[7].queue =
        [{ kind := .recalled, subject := 4, second := none, count := 1 }] ∧
      ((leased.onScreen 7 fun x => { x with
        queue := [1, 2, 3, 5].map fun i => { kind := .idle, subject := i, second := none, count := 1 } }).countLease 4).screens[7].more =
          true := by decide +kernel

/-- What a pulse does to the edition and to a page, apart from the leases. -/
theorem test_editions_close_and_pages_go_late :
    ((signed 3 0 .slot (nearClose base)).closeEdition 1).clock.current = 2 ∧
      ((signed 3 0 .slot (nearClose base)).closeEdition 1).screens[3].queue =
        [{ kind := .editionClosed, subject := 1, second := none, count := 1 }] ∧
      ((nearClose base).closeEdition 2).clock.current = 1 ∧ ((nearClose base).makeLate 0).pages[0].late = true ∧
      ((nearClose base).makeLate 0).cu.attentionRaw = 0x40 ∧
      ((signed 3 0 .slot (nearClose base)).makeLate 0).screens[3].queue =
        [{ kind := .late, subject := 1, second := none, count := 1 }] ∧
      ((signed 3 1 .slot (nearClose base)).makeLate 0).screens[3].queue = [] := by decide +kernel

/-! ## Copyfitting -/

/-- A run of story 4 over block 0, at word `k` of it; memory holds the word. -/
def fitAt (k : Nat) (c : Chip) : Chip :=
  (c.onStory 4 fun x => { x with state := .set, fit := .running }).onFit fun e =>
    { e with run := some { FitRun.begin 4 Story.free with blocks := [0], index := k } }

theorem test_witness_fit_words :
    (bare (fitAt 127 base)).Grants .fitEngine ∧ 1048576 + 127 < Config.memoryWords ∧
      leaves (exec .fitWordRead { bare (fitAt 0 base) with memory := [(1048576, 0x8000)] }) (fun t =>
        t.chip.fit.run = none && t.chip.stories[4].fit = .current &&
          t.chip.stories[4].result.map (·.status) = some .unplaced) = true ∧
      leaves (exec .fitWordRead (bare (fitAt 0 base))) (fun t => t.chip.fit.run.map (·.index) = some 1) = true ∧
      leaves (exec .fitWordRead (bare (fitAt 127 base)))
        (fun t => t.chip.stories[4].result.map (·.status) = some .unterminated) = true ∧
      leaves (exec .fitWordRead { bare (fitAt 0 base) with memory := [(1048576, 0x9008)] }) (fun t =>
        t.chip.stories[4].result.map (·.status) = some .noFont) = true := by
  unfold State.Grants State.Released; decide +kernel

/-- Story 4 STALE and alone in the queue with one block, the engine IDLE, font 0 present if `font`. -/
def queued (font : Bool) (blocks : List BlockNo) : Chip :=
  ((story 4 .set 2 base).onStory 4 fun x => { x with fit := .stale, hole := 72, blocks := blocks }).onFit fun e =>
    { e with queue := [4], mask := if font then 1 else 0 }

theorem test_witness_fit_takes :
    (queued true [0]).fit.run = none ∧ (queued true [0]).fit.queue = [4] ∧ (queued true [0]).Readable 4 ∧
      ((queued true [0]).fitTake.fit.run.map fun r => (r.story, r.measure8, r.hole, r.fonts)) =
        some (4, 128 * Story.free.style.measure, 72, 1) ∧
      (queued true []).fitTake.stories[4].result = some (.unmeasured .unterminated) ∧
      (queued false [0]).fitTake.stories[4].result = some (.unmeasured .noFont) ∧
      leaves (exec .refit (given 18 [4] .none ((queued true [0]).onFit fun e => { e with queue := [] })))
        (fun t => t.chip.stories[4].fit = .stale) = true ∧
      leaves (exec .refit (given 18 [4] .none (((queued true [0]).onFit fun e => { e with queue := [] }).onStory 4
          fun x => { x with fit := .current })))
        (fun t => t.chip.stories[4].fit = .running && t.chip.fit.queue = [] && t.chip.fit.run.isSome) = true := by
  unfold Chip.Readable; decide +kernel

theorem test_witness_abandoned_words :
    (bare (base.onFit fun e => { e with abandoned := [⟨8191, 127⟩, ⟨0, 0⟩] })).Grants .fitEngine ∧
      leaves (exec .fitWordRead (bare ((fitAt 0 base).onFit fun e => { e with abandoned := [⟨8191, 127⟩] })))
        (fun t => t.chip.fit = (fitAt 0 base).fit && t.chip.path.lastGranted = .fitEngine) = true := by
  unfold State.Grants State.Released; decide +kernel

/-- The end of a run takes the next story of the queue. -/
theorem test_witness_next_run :
    ((queued true [0]).onStory 4 fun x => { x with blocks := [5] }).Readable 4 ∧
      leaves (exec .fitWordRead { bare (((queued true [5]).onStory 1000 fun x => { x with state := .set, fit := .running }).onFit
          fun e => { e with run := some { FitRun.begin 1000 Story.free with blocks := [0] } }) with memory := [(1048576, 0x8000)] })
        (fun t => t.chip.fit.queue = [] && t.chip.fit.run.map (·.story) = some 4 && t.chip.stories[1000].fit = .current) = true := by
  unfold Chip.Readable; decide +kernel

/-- The end of a run posts OVERSET to the holder of an OPEN story with overset lines, and no other end does (R148 b). -/
theorem test_witness_overset_posts :
    ∀ x ∈ [(StoryState.open_, 7, [{ kind := .overset, subject := 4, second := some 7, count := 1 }]), (.open_, 0, []),
        (.set, 7, ([] : List Notice))],
      leaves (exec .fitWordRead { bare (((fitAt 0 (opened 4 2 7 (signed 7 2 .edit base))).onStory 4 fun y =>
          { y with state := x.1 }).onFit fun e => { e with run := e.run.map fun r => { r with overset := x.2.1 } }) with
            memory := [(1048576, 0x8000)] })
        (fun t => t.chip.fit.run = none && t.chip.screens[7].queue = x.2.2) = true := by decide +kernel

/-- The premises of the end of a run, and of the clause on a line's end, at their boundaries. -/
theorem test_witness_fit_arithmetic :
    (fitAt 0 base).fit.queue = [] ∧ (fitAt 0 base).stories[4].rerun = false ∧
      ((fitAt 0 base).onStory 4 fun x => { x with rerun := true }).stories[4].rerun = true ∧
      ({ FitRun.begin 4 Story.free with lines := 65535, overset := 63, hole := 71, depth := 0 } : FitRun).endLine.overset = 63 ∧
      ({ FitRun.begin 4 Story.free with lines := 65535, hole := 144 } : FitRun).endLine.lines = 65535 ∧
      ({ FitRun.begin 4 Story.free with hole := 144 } : FitRun).endLine.cut = none ∧
      ({ FitRun.begin 4 Story.free with hole := 143 } : FitRun).endLine.cut = some 0 := by decide +kernel

/-- The passes of the fit loop: at a break, before the word, after it. -/
theorem test_witness_fit_loop :
    let r : FitRun := { FitRun.begin 4 Story.free with measure8 := 100, width := 150, index := 9, lineStart := 2 }
    (r.breakOnce 40 9).width = 40 ∧ (r.breakOnce 40 9).lineStart = 9 ∧ (r.breakOnce 40 9).forced = 1 ∧
      (r.breakOnce 150 9).width = 0 ∧ (r.breakOnce 150 9).lineStart = 10 ∧
      ({ r with break_ := some ⟨90, 110, 7⟩ }.breakOnce 40 9).width = 40 ∧
      ({ r with break_ := some ⟨90, 110, 7⟩ }.breakOnce 40 9).lineStart = 7 ∧
      (FitRun.loop 130 9 fitPasses { r with break_ := some ⟨20, 20, 3⟩ }).lines = 2 := by decide +kernel

/-- Section 8.7's widths of font 0, the one font present. -/
def caseFont : FitEngine :=
  let widths : List (Char × Byte) := [(' ', 16), ('C', 40), ('I', 18), ('T', 36), ('Y', 40), ('H', 46), ('A', 42), ('L', 34),
    ('V', 42), ('O', 46), ('E', 38), ('S', 34), ('-', 22)]
  { FitEngine.reset with
    mask := 1
    widths := FitEngine.reset.widths.set 0
      (widths.foldl (fun v x => v.set (x.1.toNat % 256) x.2 (Nat.mod_lt _ (by decide))) (Vector.replicate 256 0)) }

/-- Copy words of plain characters. -/
def copy (l : List Char) : List Word := (chars l).map wordOfByte

/-- The copy words of a story processed from its first, with font 0 selected; the result when the run stops. -/
def fitCase (r : FitRun) : List Word → Option FitResult
  | [] => none
  | w :: l =>
    match caseFont.process w r with
    | (q, none) => fitCase { q with index := q.index + 1 } l
    | (q, some stop) => some ((q.finish stop).result stop)

/-- Case 1 of section 8.7: CITY / HALL / VOTE / SET. -/
theorem test_fit_case_overset_headline :
    fitCase { FitRun.begin 40 Story.free with size := 18, leading := 0, measure8 := 5120, hole := 256 }
        (copy ['C', 'I', 'T', 'Y', ' ', 'H', 'A', 'L', 'L', ' ', 'V', 'O', 'T', 'E', ' ', 'S', 'E', 'T'] ++ [0x8000]) =
      some { status := .overset, lines := 4, depth := 576, deep := false, overset := 3, cut := some 5, forced := 0,
             spaceLeft := none } := by decide +kernel

/-- Case 2 of section 8.7: a character wider than the measure. -/
theorem test_fit_case_wide_character :
    fitCase { FitRun.begin 52 Story.free with size := 36, leading := 0, measure8 := 1280, hole := 1000 }
        (copy ['I', 'H', 'I'] ++ [0x8000]) =
      some { status := .fits, lines := 3, depth := 864, deep := false, overset := 0, cut := none, forced := 2,
             spaceLeft := some 136 } := by decide +kernel

/-- Case 3 of section 8.7: a hyphen break and a narrowed measure; its variant b with MEASURE 20. -/
theorem test_fit_case_hyphen_and_measure :
    fitCase { FitRun.begin 61 Story.free with size := 18, leading := 160, measure8 := 5120, hole := 320 }
        (copy ['C', 'I', 'T', 'Y'] ++ [0xF000] ++ copy ['H', 'A', 'L', 'L', 'S', ' ', 'V', 'O'] ++ [0xD00C] ++
          copy ['T', 'E'] ++ [0x8000]) =
      some { status := .overset, lines := 4, depth := 640, deep := false, overset := 2, cut := some 11, forced := 1,
             spaceLeft := none } ∧
    (fitCase { FitRun.begin 61 Story.free with size := 18, leading := 160, measure8 := 5120, hole := 320 }
        (copy ['C', 'I', 'T', 'Y'] ++ [0xF000] ++ copy ['H', 'A', 'L', 'L', 'S', ' ', 'V', 'O'] ++ [0xD014] ++
          copy ['T', 'E'] ++ [0x8000])).map (fun r => (r.lines, r.forced)) = some (4, 1) := by decide +kernel

/-! ## Pages -/

/-- Page 96 in makeup at desk 3 with its placements; story 4 CURRENT and FITS. -/
def madeUp (l : List Placement) : Chip :=
  ((story 4 .basket 3 base).onStory 4 fun x =>
    { x with result := some { status := .fits, lines := 1, depth := 9, deep := false, overset := 0, cut := none, forced := 0,
                              spaceLeft := some 7 } }).onPage 95 fun p => { p with state := .makeup, desk := 3, placements := l }

theorem test_witness_page_commands :
    (given 23 [96, 15, 65535] .system base).Serves 23 ∧ base.pages[95].state = .empty ∧
      leaves (exec .pageOpen (given 23 [96, 15, 65535] .system base)) (fun t =>
        ended .ok [] t && t.chip.pages[95].state = .makeup && t.chip.pages[95].desk = 15 && t.chip.pages[95].close = none) = true ∧
      leaves (exec .pageOpen (given 23 [1, 0, 0] .system base)) (fun t => t.chip.pages[0].close = some 0) = true ∧
      leaves (exec .pageOpen (given 23 [97, 0, 0] .system base)) (refusedAs .badArgument []) = true ∧
      leaves (exec .pageOpen (given 23 [96, 0, 0] .system (madeUp []))) (refusedAs .wrongState []) = true ∧
      leaves (exec .setClose (given 24 [96, 600] .system (madeUp []))) (fun t =>
        ended .ok [] t && t.chip.pages[95].close = some 600) = true ∧
      leaves (exec .pageClear (given 27 [96] .system (madeUp []))) (fun t =>
        ended .ok [] t && t.chip.pages[95] = Page.empty) = true ∧
      leaves (exec .pageClear (given 27 [96] .system (madeUp [⟨4, 16⟩]))) (refusedAs .wrongState []) = true := by
  unfold State.Serves State.Released; decide +kernel

/-- The caller of a page command: SYSTEM, or a SLOT editor of the page's desk. -/
theorem test_witness_page_callers :
    (given 24 [96, 600] .system (madeUp [])).chip.CallsForPages 3 ∧
      (∃ u, (given 24 [96, 600] (.terminal 7) (signed 7 3 .slot (madeUp []))).chip.CallsAs u 3 .slot) ∧
      leaves (exec .setClose (given 24 [96, 600] (.terminal 7) (signed 7 3 .slot (madeUp [])))) (ended .ok []) = true :=
  ⟨.inl rfl, ⟨7, rfl, { desk := 3, clearance := .slot }, by decide +kernel, rfl, by decide⟩, by decide +kernel⟩

theorem test_witness_place :
    (given 25 [96, 4, 16] .system (fitting [9] (madeUp []))).Serves 25 ∧ (madeUp []).stories[4].page = none ∧
      leaves (exec .place (given 25 [96, 4, 32767] .system (fitting [9] (madeUp (List.replicate 15 ⟨6, 16⟩))))) (fun t =>
        ended .ok [16] t && t.chip.pages[95].placements.length = 16 && t.chip.stories[4].page = some 95 &&
          t.chip.stories[4].hole = 32767 && t.chip.fit.queue = [4]) = true ∧
      leaves (exec .place (given 25 [96, 4, 16] .system (madeUp (List.replicate 16 ⟨6, 16⟩)))) (refusedAs .pageFull []) = true ∧
      leaves (exec .place (given 25 [96, 4, 16] .system ((madeUp []).onStory 4 fun x => { x with page := some 0 })))
        (refusedAs .alreadyPlaced []) = true ∧
      leaves (exec .place (given 25 [96, 4, 15] .system (madeUp []))) (refusedAs .badArgument []) = true := by
  unfold State.Serves State.Released; decide +kernel

theorem test_witness_unplace :
    (given 26 [96, 4] .system (fitting [9] (madeUp [⟨4, 16⟩, ⟨6, 20⟩]))).Serves 26 ∧ (madeUp []).stories[4].state ≠ .free ∧
      leaves (exec .unplace (given 26 [96, 4] .system (fitting [9] (madeUp [⟨4, 16⟩, ⟨6, 20⟩])))) (fun t =>
        ended .ok [1] t && t.chip.pages[95].placements = [⟨6, 20⟩] && t.chip.fit.queue = [4]) = true ∧
      leaves (exec .unplace (given 26 [96, 4] .system (madeUp [⟨6, 20⟩]))) (refusedAs .wrongState []) = true := by
  unfold State.Serves State.Released; decide +kernel

/-- PLACE and UNPLACE of a story that waits in the queue: it moves to the tail of its new class. -/
theorem test_witness_class_moves :
    let c := (fitting [9] (madeUp [⟨6, 20⟩])).onStory 4 fun x => { x with fit := .stale }
    let p := (c.onStory 6 fun x => { x with page := some 95, fit := .stale }).onStory 5 fun x => { x with fit := .stale }
    leaves (exec .place (given 25 [96, 4, 16] .system (p.onFit fun e => { e with queue := [6, 4, 5] })))
        (fun t => t.chip.fit.queue = [6, 4, 5] && !t.chip.cu.waitSet.any (·.item = .fitCount)) = true ∧
      leaves (exec .place (given 25 [96, 4, 16] .system (p.onFit fun e => { e with queue := [6, 5, 4] })))
        (fun t => t.chip.fit.queue = [6, 4, 5]) = true ∧
      leaves (exec .unplace (given 26 [96, 6] .system (p.onFit fun e => { e with queue := [6, 4, 5] })))
        (fun t => t.chip.fit.queue = [4, 5, 6] && t.chip.stories[6].page = none) = true := by decide +kernel

/-- A page released before stands in the queue, and story 4 is placed on page 96. -/
def releasable (plates : Byte) : Chip :=
  { ((basketed 4 3 (madeUp [⟨4, 16⟩])).onPage 95 fun p => { p with plates := plates }).onPage 1 fun p =>
      { p with state := .queued, plates := 1 } with outputQueue := [1] }

theorem test_witness_release :
    (given 28 [96, 0] .system (releasable 0)).Serves 28 ∧ (releasable 0).stories[4].fitsFor false = true ∧
      (releasable 0).stories[4].state ≠ .open_ ∧ (releasable 0).stories[4].fit = .current ∧
      (95 : PageNo) ∉ (releasable 0).outputQueue ∧ (releasable 0).pages[1].plates.toNat ≤ 1 ∧
      leaves (exec .release (given 28 [96, 0] .system (signed 3 3 .read (releasable 0)))) (fun t =>
        ended .ok [1, 1] t && t.chip.outputQueue = [1, 95] && t.chip.stories[4].state = .set &&
          t.chip.desks[3].basket = [] &&
          t.chip.screens[3].queue = [{ kind := .released, subject := 96, second := none, count := 1 }]) = true ∧
      leaves (exec .release (given 28 [96, 0] .system (releasable 255)))
        (fun t => ended .ok [255, 1] t && t.chip.outputQueue = [95, 1]) = true := by
  unfold State.Serves State.Released; decide +kernel

theorem test_witness_release_refused :
    leaves (exec .release (given 28 [96, 0] .system (madeUp []))) (refusedAs .emptyPage []) = true ∧
      leaves (exec .release (given 28 [96, 0] .system { releasable 0 with outputQueue := List.replicate 16 1 }))
        (refusedAs .queueFull []) = true ∧
      leaves (exec .release (given 28 [96, 0] .system ((releasable 0).onStory 4 fun x => { x with state := .open_ })))
        (refusedAs .storyOpen [4]) = true ∧
      leaves (exec .release (given 28 [96, 0] .system ((releasable 0).onStory 4 fun x => { x with fit := .stale })))
        (refusedAs .notFit [4]) = true ∧
      leaves (exec .release (given 28 [96, 1] .system ((releasable 0).onStory 4 fun x => { x with result := none })))
        (refusedAs .notFit [4]) = true := by decide +kernel

/-- Page 96 out of makeup, its story SET. -/
def replatable (st : PageState) : Chip :=
  { ((story 4 .set 3 (madeUp [⟨4, 16⟩])).onPage 95 fun p => { p with state := st, plates := 2 }) with
    outputQueue := if st = .queued then [1, 95] else [1]
    link := if st = .setting then
        { SettingLink.reset with state := .holding, page := some 95, position := some .pageClose }
      else SettingLink.reset }

theorem test_witness_replate :
    (given 29 [96] .system (replatable .queued)).Serves 29 ∧ (replatable .queued).stories[4].state = .set ∧
      leaves (exec .replate (given 29 [96] .system (replatable .queued))) (fun t =>
        ended .ok [2] t && t.chip.pages[95].state = .makeup && t.chip.outputQueue = [1] && t.chip.desks[3].basket = [4]) = true ∧
      leaves (exec .replate (given 29 [96] .system (replatable .setting))) (fun t =>
        t.chip.link.abandoning = some 95 && t.chip.link.page = none && t.chip.link.stage = some .transmitting) = true ∧
      leaves (exec .replate (given 29 [96] .system (replatable .set))) (fun t =>
        t.chip.stories[4].state = .basket && t.chip.link = SettingLink.reset) = true ∧
      leaves (exec .replate (given 29 [96] .system (replatable .makeup))) (refusedAs .wrongState []) = true := by
  unfold State.Serves State.Released; decide +kernel

/-! ## The setting link -/

/-- The link in a state, with page 96 of one story of two blocks in hand. -/
def linked (k : SettingLink) : Chip :=
  { ((madeUp [⟨4, 16⟩]).onPage 95 fun p => { p with state := .setting, plates := 1, edition := some 2 }).onStory 4 fun x =>
      { x with blocks := [0, 8191], state := .set } with link := k }

theorem test_witness_page_take :
    (bare { linked { SettingLink.reset with state := .idle } with outputQueue := [95] }).Released ∧
      leaves (exec .pageTake (bare { linked { SettingLink.reset with state := .idle } with outputQueue := [95, 1] })) (fun t =>
        t.chip.outputQueue = [1] && t.chip.link.page = some 95 && t.chip.link.position = some (.storyOpen 0) &&
          t.chip.link.frame = some { kind := .pageOpen, payload := [96, 2, 1, 0, 1] } &&
          t.chip.link.stage = some .transmitting) = true ∧
      leaves (exec .pageTake (bare { linked { SettingLink.reset with state := .fault } with outputQueue := [95] }))
        (fun t => t.chip.outputQueue = [95]) = true ∧
      leaves (exec .frameSent (bare (linked { SettingLink.reset with state := .sending, stage := some .transmitting })))
        (fun t => t.chip.link.stage = some .awaiting) = true := by
  unfold State.Released; decide +kernel

/-- The link reading word `j` of a text, with `n` words of the frame read. -/
def readingText (j n : Nat) : State :=
  bare (linked { SettingLink.reset with
    state := .sending, stage := some .reading, page := some 95, position := some (.text 0 j), blocks := [0, 8191]
    frame := some { kind := .text, payload := List.replicate n 0 } })

theorem test_witness_text_words :
    (readingText 255 3).Grants .linkEngine ∧ 1048576 + 128 * 8191 + 127 < Config.memoryWords ∧
      leaves (exec .textWordRead (readingText 255 3)) (fun t =>
        t.chip.link.stage = some .transmitting && t.chip.link.position = some .pageClose) = true ∧
      leaves (exec .textWordRead (readingText 63 63)) (fun t =>
        t.chip.link.stage = some .transmitting && t.chip.link.position = some (.text 0 64)) = true ∧
      leaves (exec .textWordRead (readingText 62 62)) (fun t => t.chip.link.stage = some .reading) = true ∧
      leaves (exec .textWordRead { readingText 0 0 with memory := [(1048576, 0x8000)] }) (fun t =>
        t.chip.link.position = some .pageClose && t.chip.link.frame = some { kind := .text, payload := [0x8000] }) = true := by
  unfold State.Grants State.Released; decide +kernel

/-- The link awaiting the answer to a frame, what follows it, and the page withdrawn, if any. -/
def answering (f : Frame) (next : Option FramePosition) (withdrawn : Bool) : State :=
  bare (linked { SettingLink.reset with
    state := .sending, stage := some .awaiting, position := next, frame := some f, tries := 2, wordsSent := 10
    page := if withdrawn then none else some 95, abandoning := if withdrawn then some 95 else none, offMark := withdrawn })

theorem test_witness_accepts :
    leaves (exec .accept (answering ⟨.pageOpen, []⟩ (some (.storyOpen 0)) false)) (fun t =>
        t.chip.link.frame = some ⟨.storyOpen, [4, 0, 18, 0, 132, 0, 16]⟩ && t.chip.link.position = some (.text 0 0) &&
          t.chip.link.tries = 0) = true ∧
      leaves (exec .accept (answering ⟨.storyOpen, []⟩ (some (.text 0 0)) false)) (fun t =>
        t.chip.link.stage = some .reading && t.chip.link.frame = some ⟨.text, []⟩) = true ∧
      leaves (exec .accept (answering ⟨.text, [1, 2]⟩ (some .pageClose) false)) (fun t =>
        t.chip.link.frame = some ⟨.pageClose, [96, 12]⟩) = true ∧
      leaves (exec .accept (answering ⟨.pageClose, [96, 10]⟩ (some .pageClose) false)) (fun t =>
        t.chip.pages[95].state = .set && t.chip.link.state = .idle && t.chip.cu.attentionRaw = 0x10) = true ∧
      leaves (exec .accept (answering ⟨.abandon, [96]⟩ none true)) (fun t =>
        t.chip.link.state = .off && t.chip.link.abandoning = none && !t.chip.link.offMark) = true ∧
      leaves (exec .accept (answering ⟨.text, [1]⟩ none true)) (fun t =>
        t.chip.link.frame = some ⟨.abandon, [96]⟩ && t.chip.link.stage = some .transmitting) = true ∧
      leaves (exec .accept (bare (linked { SettingLink.reset with state := .idle })))
        (fun t => t.chip.link = { SettingLink.reset with state := .idle }) = true := by decide +kernel

theorem test_witness_failures :
    leaves (exec .hold (answering ⟨.text, [1]⟩ (some .pageClose) false)) (fun t => t.chip.link.state = .holding) = true ∧
      leaves (exec .linkPulse (answering ⟨.text, [1]⟩ (some .pageClose) false)) (fun t => t.chip.link.answerWait = 1) = true ∧
      leaves (exec (.reject 3) (bare ((answering ⟨.text, [1]⟩ (some .pageClose) false).chip.onLink fun k => { k with tries := 1 })))
        (fun t => t.chip.link.tries = 2 && t.chip.link.stage = some .transmitting) = true ∧
      leaves (exec (.reject 0) (answering ⟨.text, [1]⟩ (some .pageClose) false)) (fun t =>
        t.chip.link.state = .fault && t.chip.pages[95].state = .queued && t.chip.outputQueue = [95] &&
          t.chip.cu.attentionRaw = 0x10) = true ∧
      leaves (exec .frameTimeout (bare ((answering ⟨.text, [1]⟩ (some .pageClose) false).chip.onLink fun k =>
        { k with answerWait := 1 }))) (fun t => t.chip.link.state = .fault) = true := by decide +kernel

/-- The frame in flight of a withdrawn page: whatever the answer, and at its timeout, ABANDON is sent (R183). -/
theorem test_witness_withdrawn_frames :
    ∀ i ∈ [Instr.hold, .reject 3, .reject 0, .linkPulse, .frameTimeout],
      leaves (exec i (bare ((answering ⟨.text, [1]⟩ none true).chip.onLink fun k => { k with answerWait := 1, holds := 3 })))
        (fun t => t.chip.link.frame = some ⟨.abandon, [96]⟩ && t.chip.link.stage = some .transmitting &&
          t.chip.link.state = .sending && t.chip.link.tries = 0 && t.chip.link.holds = 0 && t.chip.link.offMark) = true := by
  decide +kernel

/-- An ABANDON frame held, failed, and failed for the third time, which gives no page back (R179 b, R184). -/
theorem test_witness_abandon_fails :
    leaves (exec .hold (answering ⟨.abandon, [96]⟩ none true)) (fun t => t.chip.link.state = .holding) = true ∧
      leaves (exec (.reject 3) (bare ((answering ⟨.abandon, [96]⟩ none true).chip.onLink fun k => { k with tries := 1 })))
        (fun t => t.chip.link.tries = 2 && t.chip.link.frame = some ⟨.abandon, [96]⟩) = true ∧
      ∀ i ∈ [Instr.reject 3, .linkPulse, .frameTimeout],
        leaves (exec i (bare (signed 5 1 .slot ((answering ⟨.abandon, [96]⟩ none true).chip.onLink fun k =>
            { k with answerWait := 1 }))))
          (fun t => t.chip.link = { SettingLink.reset with state := .fault } && t.chip.outputQueue = [] &&
            t.chip.pages[95].state = .setting && t.chip.cu.attentionRaw = 0x10 &&
            t.chip.screens[5].queue = [{ kind := .linkFault, subject := 96, second := none, count := 1 }]) = true := by
  decide +kernel

/-- The link holding a frame of page 96 with a hold limit of 4. -/
def held (holds : Nat) : State :=
  bare (linked { SettingLink.reset with state := .holding, page := some 95, holds := holds, holdLimit := 4 })

theorem test_witness_holds :
    (held 3).chip.link.holds + 1 ≤ (held 3).chip.link.holdLimit ∧ (held 4).chip.link.holdLimit < (held 4).chip.link.holds + 1 ∧
      leaves (exec .holdWaitEnd (held 3)) (fun t => t.chip.link.holds = 4 && t.chip.link.stage = some .transmitting) = true ∧
      leaves (exec .holdLimitExceeded (held 3)) (fun t => t.chip.link.state = .holding) = true ∧
      leaves (exec .holdLimitExceeded (held 4)) (fun t =>
        t.chip.link.state = .fault && t.chip.pages[95].state = .queued) = true ∧
      leaves (exec .linkPulse (held 4)) (fun t => t.chip.link.state = .fault) = true := by decide +kernel

/-- The ABANDON of page 96 held beyond the limit (R184 b). -/
theorem test_witness_abandon_held_too_long :
    ∀ i ∈ [Instr.linkPulse, .holdLimitExceeded],
      leaves (exec i (bare ((held 4).chip.onLink fun k => { k with page := none, abandoning := some 95, offMark := true })))
        (fun t => t.chip.link.state = .fault && t.chip.link.abandoning = none && !t.chip.link.offMark &&
          t.chip.pages[95].state = .setting && t.chip.outputQueue = []) = true := by decide +kernel

theorem test_witness_link_commands :
    (given 30 [] .system base).Serves 30 ∧
      leaves (exec .linkOn (given 30 [] .system base)) (fun t =>
        ended .ok [] t && t.chip.link.state = .idle && t.chip.cu.phase = .waiting) = true ∧
      leaves (exec .linkOn (given 30 [] .system (held 1).chip)) (refusedAs .wrongState []) = true ∧
      leaves (exec .linkResume (given 32 [] .system (linked { SettingLink.reset with state := .fault })))
        (fun t => ended .ok [] t && t.chip.link.state = .idle) = true ∧
      leaves (exec .linkResume (given 32 [] .system base)) (refusedAs .wrongState []) = true ∧
      leaves (exec .linkOff (given 31 [] .system (linked { SettingLink.reset with state := .idle })))
        (fun t => ended .ok [] t && t.chip.link.state = .off) = true ∧
      leaves (exec .linkOff (given 31 [] .system (held 1).chip)) (fun t =>
        ended .ok [] t && t.chip.link.offMark && t.chip.pages[95].state = .queued &&
          t.chip.link.frame = some ⟨.abandon, [96]⟩) = true ∧
      leaves (exec .linkOff (given 31 [] .system ((answering ⟨.text, []⟩ none true).chip.onLink fun k => { k with offMark := false })))
        (fun t => ended .ok [] t && t.chip.link.offMark && t.chip.pages[95].state = .setting) = true := by
  unfold State.Serves State.Released; decide +kernel

/-- The words of a frame: kind, length, payload, and their sum (section 11.6). -/
theorem test_frame_words : Frame.words ⟨.pageClose, [96, 65535]⟩ = [4, 2, 96, 65535, 101] := by decide

end Sys2Proof.Tests
end

section
/-! SUPPORT. Host writes to the rows of a screen window (R9) and to the context words of the control page (R4): the
operations they hand on to, the decision at the path checker, and the two statements. -/

namespace Sys2Proof.Machine

/-! ## The commands -/

theorem exec_screenRowWrite (p : Processor) (a : Address) (v : Word) (s : State) :
    exec (.screenRowWrite p a v) s = hostWrite p a v s := rfl

theorem exec_contextWordWrite (p : Processor) (a : Address) (v : Word) (s : State) :
    exec (.contextWordWrite p a v) s = hostWrite p a v s := rfl

/-! ## Rows of a window (R9, R57) -/

/-- The screen state of every terminal after a row of one of them is marked (R57). -/
theorem markRow_screens (c : Chip) (t w : TerminalNo) (r : Fin 24) :
    (c.markRow t r).screens[w] =
      if t = w then { c.screens[w] with dirty := c.screens[w].dirty.set r true } else c.screens[w] :=
  update_apply c.screens t w _

/-- A set of dirty rows after one row joins it (R57). -/
theorem dirty_set (d : Vector Bool 24) (r k : Fin 24) : (d.set r true)[k] = (d[k] || decide (k = r)) := by
  rw [Fin.getElem_fin, Vector.getElem_set]
  by_cases h : k = r
  · simp [h]
  · have hv : r.val ≠ k.val := fun e => h (Fin.ext e.symm)
    simp [h, hv]

/-- The row number of an offset in rows 0 to 22 is in range as it stands (R9). -/
theorem eq_rowOf_iff {o : Nat} (ho : o < 1840) (k : Fin 24) : k = Fin.ofNat 24 (o / 80) ↔ k.val = o / 80 := by
  have hrow : (Fin.ofNat 24 (o / 80)).val = o / 80 := Nat.mod_eq_of_lt (by omega)
  rw [Fin.ext_iff, hrow]

/-- A write to rows 0 to 22 is accepted from any context, and its row is marked (R9). -/
theorem decideWindow_row {c : Chip} {t : TerminalNo} {o : Nat} {v : Word} (ho : o < 1840) :
    c.decideWindow t o v = .accepted (c.markRow t (Fin.ofNat 24 (o / 80))) :=
  if_pos ho

/-- Settles O21: the write is decided by `decideWindow_row`, and `markRow_screens` reads off what the mark changes. -/
theorem screenRowWritesMarkTheRow : Obligations.ScreenRowWritesMarkTheRow := by
  intro s p a v u o hr hland ho
  have hdecide := (decide_window (p := p) (v := v) hland).trans (decideWindow_row ho)
  have hown := markRow_screens s.chip u u (Fin.ofNat 24 (o / 80))
  rw [if_pos rfl] at hown
  refine ⟨_, (exec_screenRowWrite p a v s).trans (hostWrite_accepted hr hdecide), rfl,
    fun r => ?dirty, (congrArg Screen.queue hown :), (congrArg Screen.more hown :), fun w hw => ?others, rfl⟩
  case dirty =>
    calc (s.chip.markRow u (Fin.ofNat 24 (o / 80))).screens[u].dirty[r]
      _ = (s.chip.screens[u].dirty.set (Fin.ofNat 24 (o / 80)) true)[r] := by rw [hown]
      _ = (s.chip.screens[u].dirty[r] || decide (r = Fin.ofNat 24 (o / 80))) := dirty_set ..
      _ = (s.chip.screens[u].dirty[r] || decide (r.val = o / 80)) := by rw [decide_eq_decide.mpr (eq_rowOf_iff ho r)]
  case others => exact (markRow_screens ..).trans (if_neg (Ne.symm hw))

/-! ## Context words (R4) -/

/-- A value 0 to 63 names a terminal. -/
theorem contextOf_terminal {v : Word} {u : TerminalNo} (h : v.toNat = u.val) : contextOf v = .terminal u := by
  have hlt : v.toNat < 64 := h ▸ u.isLt
  have hu : (⟨v.toNat, hlt⟩ : TerminalNo) = u := Fin.ext h
  rw [contextOf, dif_pos hlt, hu]

/-- The value 65535 names SYSTEM. -/
theorem contextOf_system : contextOf 65535 = .system := rfl

/-- Any other value names NONE. -/
theorem contextOf_none {v : Word} (h : 64 ≤ v.toNat) (hv : v ≠ 65535) : contextOf v = .none := by
  rw [contextOf, dif_neg (Nat.not_lt.mpr h), if_neg hv]

/-- A write to a context word is accepted from any context, and the processor of its offset takes the value (R4). -/
theorem decideControl_context {c : Chip} {q : Processor} {x : Context} {v : Word} :
    c.decideControl q.val x v =
      .accepted (c.onPath fun k => { k with contexts := update k.contexts q fun _ => contextOf v }) :=
  dif_pos q.isLt

/-- Settles O24: the write is decided by `decideControl_context`; the three values are the cases of `contextOf`. -/
theorem contextWordsSetContexts : Obligations.ContextWordsSetContexts := by
  intro s p q a v hr hat
  have hdecide := (decide_control (p := p) (v := v) (landsAt_control hat)).trans decideControl_context
  have hown : (update s.chip.path.contexts q fun _ => contextOf v)[q] = contextOf v := update_self ..
  refine ⟨_, (exec_contextWordWrite p a v s).trans (hostWrite_accepted hr hdecide), rfl,
    fun u hu => ?terminal, fun hv => ?system, fun hv => ?none, fun r hne => ?others, rfl⟩
  case terminal => exact hown.trans (contextOf_terminal hu)
  case system => exact hown.trans (hv ▸ contextOf_system)
  case none => exact hown.trans (contextOf_none hv.1 hv.2)
  case others => exact update_ne _ _ (Ne.symm hne)

end Sys2Proof.Machine
end

section
/-! SUPPORT. Commands as their owning block takes them: the outcome of a refusal and of a completed action (R26, R28),
and what the checks of a ranged argument and of a caller that must be SYSTEM find (R26, R27). Then ACK NOTICE: its
answer case by case, what removing the head leaves (R63, R70), and the statement. -/

namespace Sys2Proof.Machine

/-! ## The outcome of a command that is due (R26, R28) -/

/-- A due command is answered by its owning block. -/
theorem takeCommand_due {n : Nat} {body : Chip → Reply} {s : State} (hs : s.Serves n) :
    takeCommand n body s = .next (s.withChip (s.chip.answer body)) := by
  obtain ⟨hr, hd⟩ := hs
  have hline : ¬s.chip.resetAsserted = true := ne_true_of_eq_false hr
  unfold takeCommand chipEvent
  dsimp only
  rw [if_neg hline, if_pos hd]
  rfl

/-- A refusal moves the command unit alone (R26). -/
theorem takeCommand_refused {n : Nat} {body : Chip → Reply} {s : State} {r : ResultCode} {words : List Word}
    (hs : s.Serves n) (hb : body s.chip.collect = .refused r words) :
    takeCommand n body s = .next (s.refusedWith r words) := by
  rw [takeCommand_due hs, Chip.answer, hb]
  rfl

/-- A completed action leaves the part as the owning block made it, the action ended (R28). -/
theorem takeCommand_done {n : Nat} {body : Chip → Reply} {s : State} {d : Chip} {words : List Word}
    (hs : s.Serves n) (hb : body s.chip.collect = .done d words) :
    takeCommand n body s = .next (s.withChip (d.onUnit (·.endAction .ok words))) := by
  rw [takeCommand_due hs, Chip.answer, hb]

theorem endAction_ended (d : Chip) (r : ResultCode) (words : List Word) :
    (d.onUnit (·.endAction r words)).Ended r words :=
  ⟨rfl, rfl, rfl, rfl⟩

/-- An action that awaits no item reports at once (R28 b). -/
theorem endAction_reports {d : Chip} (r : ResultCode) (words : List Word) (h : d.cu.waitSet = []) :
    (d.onUnit (·.endAction r words)).cu.phase = .reporting :=
  if_pos h

/-! ## Arguments and callers (R26, R27) -/

theorem finArg_outside {n : Nat} {w : Word} (h : n ≤ w.toNat) : finArg n w = none :=
  dif_neg (Nat.not_lt.mpr h)

theorem finArg_inside {n : Nat} {w : Word} {i : Fin n} (h : w.toNat = i.val) : finArg n w = some i := by
  have hlt : w.toNat < n := h ▸ i.isLt
  rw [finArg, dif_pos hlt]
  exact congrArg some (Fin.ext h)

theorem callerFault_systemOnly_system {c : Chip} (h : c.cu.context = .system) : c.callerFault .systemOnly = none := by
  rw [Chip.callerFault, h]
  rfl

/-- A command for SYSTEM alone answers NO_CLEARANCE to a terminal, signed on or not, and to a context NONE (R27). -/
theorem callerFault_systemOnly_other {c : Chip} (h : c.cu.context ≠ .system) :
    c.callerFault .systemOnly = some .noClearance := by
  unfold Chip.callerFault
  cases hx : c.cu.context with
  | terminal u => rfl
  | system => exact absurd hx h
  | none => rfl

/-! ## The answers of ACK NOTICE (R70) -/

theorem exec_ackNotice (s : State) : exec .ackNotice s = takeCommand 7 Chip.ackNotice s := rfl

theorem ackNotice_outside {c : Chip} (h : 64 ≤ (c.cu.arg 1).toNat) : c.ackNotice = .refused .badArgument [] := by
  rw [Chip.ackNotice, finArg_outside h]
  rfl

theorem ackNotice_stranger {c : Chip} {u : TerminalNo} (hu : (c.cu.arg 1).toNat = u.val)
    (hx : c.cu.context ≠ .system) : c.ackNotice = .refused .noClearance [] := by
  rw [Chip.ackNotice, finArg_inside hu]
  dsimp only
  rw [callerFault_systemOnly_other hx]
  rfl

/-- To SYSTEM the answer turns on whether the queue is empty. -/
theorem ackNotice_system {c : Chip} {u : TerminalNo} (hu : (c.cu.arg 1).toNat = u.val) (hx : c.cu.context = .system) :
    c.ackNotice = if c.screens[u].queue = [] then .refused .wrongState [] else .done (c.acknowledge u) [] := by
  rw [Chip.ackNotice, finArg_inside hu]
  dsimp only
  rw [callerFault_systemOnly_system hx]
  rfl

/-! ## The head removed (R63) -/

/-- An acknowledgement of a queue that holds a notice removes the head, clears the more mark, and makes a notice-row
write pending. -/
theorem acknowledge_held {c : Chip} {u : TerminalNo} (h : c.screens[u].queue ≠ []) :
    c.acknowledge u = (c.onScreen u fun x => { x with queue := x.queue.tail, more := false }).pendRow u :=
  if_neg h

/-- The screen state of every terminal after the head of one queue is removed. -/
theorem acknowledge_screens {c : Chip} {u : TerminalNo} (h : c.screens[u].queue ≠ []) (w : TerminalNo) :
    (c.acknowledge u).screens[w] =
      if u = w then { c.screens[w] with queue := c.screens[w].queue.tail, more := false } else c.screens[w] := by
  rw [acknowledge_held h]
  exact update_apply ..

theorem acknowledge_pending {c : Chip} {u : TerminalNo} (h : c.screens[u].queue ≠ []) :
    u ∈ (c.acknowledge u).noticeWriter.pending := by
  rw [acknowledge_held h]
  exact (mem_joinOnce ..).mpr (Or.inr rfl)

/-- An acknowledgement reaches neither the command unit nor the mirror writer, so the command awaits nothing. -/
theorem acknowledge_marks_nothing (c : Chip) (u : TerminalNo) :
    (c.acknowledge u).cu = c.cu ∧ (c.acknowledge u).mirror = c.mirror := by
  unfold Chip.acknowledge
  split <;> exact ⟨rfl, rfl⟩

/-- Settles O42: the refusals are the cases of `ackNotice`; the removal is read off by `acknowledge_screens`. -/
theorem ackNoticeRemovesTheHead : Obligations.AckNoticeRemovesTheHead := by
  intro s hs
  rw [exec_ackNotice]
  refine ⟨fun hout => takeCommand_refused hs (ackNotice_outside hout), fun u hu =>
    ⟨fun hx => takeCommand_refused hs (ackNotice_stranger hu hx), fun hx hq => ?empty,
      fun head rest hx hq => ?held⟩⟩
  case empty => exact takeCommand_refused hs ((ackNotice_system (c := s.chip.collect) hu hx).trans (if_pos hq))
  case held =>
    have hne : s.chip.collect.screens[u].queue ≠ [] := fun he => List.cons_ne_nil head rest (hq.symm.trans he)
    have hdone : s.chip.collect.ackNotice = .done (s.chip.collect.acknowledge u) [] :=
      (ackNotice_system (c := s.chip.collect) hu hx).trans (if_neg hne)
    obtain ⟨hunit, hmirror⟩ := acknowledge_marks_nothing s.chip.collect u
    have hwait : (s.chip.collect.acknowledge u).cu.waitSet = [] := congrArg CommandUnit.waitSet hunit
    refine ⟨_, takeCommand_done hs hdone, rfl, ?screen, fun w hw => ?others, acknowledge_pending hne,
      endAction_ended .., endAction_reports _ _ hwait, hmirror⟩
    case screen =>
      calc (s.chip.collect.acknowledge u).screens[u]
        _ = { s.chip.screens[u] with queue := s.chip.screens[u].queue.tail, more := false } :=
          (acknowledge_screens hne u).trans (if_pos rfl)
        _ = { s.chip.screens[u] with queue := rest, more := false } := by rw [hq, List.tail_cons]
    case others => exact (acknowledge_screens hne w).trans (if_neg (Ne.symm hw))

end Sys2Proof.Machine
end

section
/-! SUPPORT. CLOCK RUN and CLOCK PAUSE (R116): the answer of each command in each run state, what a change of the run
state leaves unchanged, the pulse a PAUSED clock takes (R115), and the statement. -/

namespace Sys2Proof.Machine

/-! ## The commands -/

theorem exec_clockRun (s : State) : exec .clockRun s = takeCommand 19 Chip.clockRun s := rfl

theorem exec_clockPause (s : State) : exec .clockPause s = takeCommand 20 Chip.clockPause s := rfl

theorem exec_pulse (s : State) : exec .pulse s = chipEvent Chip.clockPulse s := rfl

/-! ## The answers by run state (R116) -/

theorem clockRun_running {c : Chip} (h : c.clock.running = true) :
    c.clockRun = .refused .wrongState [c.clock.count] :=
  if_pos h

theorem clockRun_paused {c : Chip} (h : c.clock.running = false) :
    c.clockRun = .done (c.onClock fun k => { k with running := true }) [c.clock.count] :=
  if_neg (ne_true_of_eq_false h)

theorem clockPause_running {c : Chip} (h : c.clock.running = true) :
    c.clockPause = .done (c.onClock fun k => { k with running := false }) [c.clock.count] :=
  if_pos h

theorem clockPause_paused {c : Chip} (h : c.clock.running = false) :
    c.clockPause = .refused .wrongState [c.clock.count] :=
  if_neg (ne_true_of_eq_false h)

/-- A due command answered by a change of the run state reports the count at once: the change marks no item, so the
command awaits nothing, and beside the command unit only the run state differs. -/
theorem takeCommand_setsRunState {n : Nat} {body : Chip → Reply} {s : State} {b : Bool} (hs : s.Serves n)
    (hb : body s.chip.collect =
      .done (s.chip.collect.onClock fun k => { k with running := b }) [s.chip.clock.count]) :
    ∃ t, takeCommand n body s = .next t ∧ t.memory = s.memory ∧ t.chip.Ended .ok [s.chip.clock.count] ∧
      t.chip.cu.phase = .reporting ∧
      t.chip = { s.chip with cu := t.chip.cu, clock := { s.chip.clock with running := b } } := by
  have hwait : (s.chip.collect.onClock fun k => { k with running := b }).cu.waitSet = [] := rfl
  exact ⟨_, takeCommand_done hs hb, rfl, endAction_ended .., endAction_reports _ _ hwait, rfl⟩

/-! ## A pulse to a PAUSED clock (R115) -/

theorem clockPulse_paused {c : Chip} (h : c.clock.running = false) : c.clockPulse = c := by
  have hruns : c.clock.runs = false := by rw [NightClock.runs, h, Bool.false_and]
  exact if_neg (ne_true_of_eq_false hruns)

/-- An event that would leave the part as it is leaves the state as it is, on either side of the reset line. -/
theorem chipEvent_unchanged {f : Chip → Chip} {s : State} (h : f s.chip = s.chip) : chipEvent f s = .next s := by
  rw [chipEvent, h, ite_self]

/-- Settles O50: the outcomes are the answers by run state, and `clockPulse_paused` is the pulse to a PAUSED clock. -/
theorem clockRunsAndPauses : Obligations.ClockRunsAndPauses := by
  intro s
  rw [exec_clockRun, exec_clockPause, exec_pulse]
  refine ⟨fun hs => ⟨fun h => ?runRefused, fun h => ?runs⟩, fun hs => ⟨fun h => ?pauseRefused, fun h => ?pauses⟩,
    fun h => ?pulse⟩
  case runRefused => exact takeCommand_refused hs (clockRun_running (c := s.chip.collect) h)
  case runs => exact takeCommand_setsRunState hs (clockRun_paused (c := s.chip.collect) h)
  case pauseRefused => exact takeCommand_refused hs (clockPause_paused (c := s.chip.collect) h)
  case pauses => exact takeCommand_setsRunState hs (clockPause_running (c := s.chip.collect) h)
  case pulse => exact chipEvent_unchanged (clockPulse_paused h)

end Sys2Proof.Machine
end

section
/-! SUPPORT. What a step does, from what each command does: the laws that hold field by field, the frame, and memory. Then
the statements on the step, the frames and those laws. -/

namespace Sys2Proof.Machine

/-! ## The step -/

/-- A step idles, or runs a command on a state that differs from the given one in the queue alone. -/
theorem step_next {s t : State} (h : step s = .next t) :
    t = s ∨ ∃ i rest, exec i { s with pending := rest } = .next t := by
  unfold step at h
  split at h
  · injection h with h; exact Or.inl h.symm
  · exact Or.inr ⟨_, _, h⟩

theorem step_cons (c : Instr) (rest : List Instr) (s : State) :
    step { s with pending := c :: rest } = exec c { s with pending := rest } := rfl

theorem step_nil {s : State} (h : s.pending = []) : step s = .next s := by
  rw [step, h]

/-- Settles O1: the two branches of `step`. -/
theorem stepTakesTheFrontCommand : Obligations.StepTakesTheFrontCommand :=
  ⟨step_cons, fun _ h => step_nil h⟩

/-! ## The commands of the reset line -/

/-- RESET leaves the part at its start values (R20). -/
theorem reset_chip {s t : State} (h : exec .reset s = .next t) : t.chip = Chip.reset := by
  injection h with h
  rw [← h]

/-- The release of the line is nothing, or a part with the control page placed on which waiting writes are decided. -/
theorem resetRelease_does {straps : BitVec 4} {s t : State} (h : exec (.resetRelease straps) s = .next t) :
    t.chip = s.chip ∨ Chip.Does hostParts (s.chip.releaseReset straps) t.chip := by
  rcases resetRelease_next h with rfl | ⟨_, rfl⟩
  · exact Or.inl rfl
  · exact Or.inr (does_decideWrites s.busWaiting { s with chip := s.chip.releaseReset straps, busWaiting := [] })

/-- A property of the part that holds at reset, that the release keeps, and that every change `Chip.Does` describes
keeps, is kept by every step. -/
theorem step_keeps {Q : Chip → Prop} (hreset : Q Chip.reset)
    (hrelease : ∀ straps c, Q c → Q (Chip.releaseReset straps c))
    (hdoes : ∀ l c d, Chip.Does l c d → Q c → Q d) {s t : State} (hs : Q s.chip) (h : step s = .next t) : Q t.chip := by
  rcases step_next h with rfl | ⟨i, rest, hi⟩
  · exact hs
  · by_cases hr : i = .reset
    · subst hr
      rw [reset_chip hi]
      exact hreset
    · by_cases hl : ∃ straps, i = .resetRelease straps
      · obtain ⟨straps, rfl⟩ := hl
        rcases resetRelease_does hi with e | hd
        · rw [e]; exact hs
        · exact hdoes _ _ _ hd (hrelease straps _ hs)
      · exact hdoes _ _ _ (exec_does i _ t hr (fun straps e => hl ⟨straps, e⟩) hi) hs

/-! ## The laws at reset -/

theorem reset_attentionLaw : Chip.reset.AttentionLaw := rfl

theorem reset_screen (u : TerminalNo) : Chip.reset.screens[u] = Screen.reset := Vector.getElem_replicate ..

theorem reset_keys (u : TerminalNo) : Chip.reset.keys[u] = KeyRing.reset := Vector.getElem_replicate ..

theorem reset_links (u : TerminalNo) : Chip.reset.links[u] = TerminalLink.reset := Vector.getElem_replicate ..

theorem reset_noticeLaw (u : TerminalNo) : Chip.reset.screens[u].NoticeLaw := by
  rw [reset_screen]
  simp [Screen.NoticeLaw, Screen.reset]

theorem reset_ringLaw (u : TerminalNo) : Chip.reset.keys[u].RingLaw := by
  rw [reset_keys]
  unfold KeyRing.RingLaw
  decide

theorem reset_terminalLaw (u : TerminalNo) : Chip.reset.links[u].Lawful := by
  rw [reset_links]
  rfl

theorem reset_listsOnce : Chip.reset.ListsOnce := by
  simp [Chip.ListsOnce, Chip.reset, MirrorWriter.reset, Custody.reset]

/-! ## The laws that hold field by field -/

/-- Settles O6: `Chip.Does` keeps the attention law. -/
theorem stepKeepsAttentionLaw : Obligations.StepKeepsAttentionLaw := fun _ _ =>
  step_keeps reset_attentionLaw (fun _ _ => id) (fun _ _ _ hd => hd.attention)

/-- Settles O7: `Chip.Does` keeps the notice law. -/
theorem stepKeepsNoticeLaw : Obligations.StepKeepsNoticeLaw := fun _ _ =>
  step_keeps (Q := fun c => ∀ u : TerminalNo, c.screens[u].NoticeLaw) reset_noticeLaw (fun _ _ => id)
    (fun _ _ _ hd => hd.notices)

/-- Settles O8: `Chip.Does` keeps the ring law. -/
theorem stepKeepsRingLaw : Obligations.StepKeepsRingLaw := fun _ _ =>
  step_keeps (Q := fun c => ∀ u : TerminalNo, c.keys[u].RingLaw) reset_ringLaw (fun _ _ => id)
    (fun _ _ _ hd => hd.rings)

/-- Settles O9: `Chip.Does` keeps the terminal law. -/
theorem stepKeepsTerminalLaw : Obligations.StepKeepsTerminalLaw := fun _ _ =>
  step_keeps (Q := fun c => ∀ u : TerminalNo, c.links[u].Lawful) reset_terminalLaw (fun _ _ => id)
    (fun _ _ _ hd => hd.terminals)

/-- The first half of O10: `Chip.Does` keeps the pending lists free of repeats. -/
theorem step_keeps_listsOnce {s t : State} : s.chip.ListsOnce → step s = .next t → t.chip.ListsOnce :=
  step_keeps reset_listsOnce (fun _ _ => id) (fun _ _ _ hd => hd.once)

/-! ## The frame -/

/-- Settles O3: the frame is `exec_does`, and what stands outside the part is `exec_stores`. -/
theorem commandsKeepTheirFrame : Obligations.CommandsKeepTheirFrame := by
  intro i s t hr hl h
  have hdoes := exec_does i s t hr hl h
  have hstores := exec_stores i s t hl h
  refine ⟨hdoes.frame, hdoes.asserted, hstores.pending, fun hreleased => ?_⟩
  rcases hstores.waiting with e | ⟨_, _, hasserted⟩
  · exact e
  · exact absurd (hreleased.symm.trans hasserted) Bool.false_ne_true

/-! ## Memory -/

/-- Waiting writes decided one after the other keep memory's form, and every word none of them addresses. -/
theorem decideWrites_memory (l : List HostAccess) : ∀ s : State, s.memory.wf = true →
    (l.foldl (fun t h => t.decideWrite h) s).memory.wf = true ∧
      ∀ a, (∀ h ∈ l, a ≠ h.address.toNat) →
        (l.foldl (fun t h => t.decideWrite h) s).memory.read a = s.memory.read a := by
  induction l with
  | nil => exact fun s hs => ⟨hs, fun _ _ => rfl⟩
  | cons h l ih =>
    intro s hs
    have hone : (s.decideWrite h).memory.wf = true ∧
        ∀ a, a ≠ h.address.toNat → (s.decideWrite h).memory.read a = s.memory.read a := by
      rcases decideWrite_memory h s with e | e
      · rw [e]; exact ⟨hs, fun _ _ => rfl⟩
      · rw [e]
        exact ⟨Memory.wf_write _ _ _ hs (address_inside _), fun a ha => by
          rw [Memory.read_write _ _ _ _ ((Memory.wf_iff _).mp hs).1, if_neg (Ne.symm ha)]⟩
    obtain ⟨hwf, hread⟩ := ih (s.decideWrite h) hone.1
    exact ⟨hwf, fun a ha => (hread a fun k hk => ha k (List.mem_cons_of_mem _ hk)).trans
      (hone.2 a (ha h List.mem_cons_self))⟩

/-- What every command does to memory: its form stays, and so does every word it may not store to. -/
theorem exec_memory (i : Instr) (s t : State) (hs : s.memory.wf = true) (h : exec i s = .next t) :
    t.memory.wf = true ∧ ∀ a, ¬MayStore i s a → t.memory.read a = s.memory.read a := by
  by_cases hl : ∃ straps, i = .resetRelease straps
  · obtain ⟨straps, rfl⟩ := hl
    rcases resetRelease_next h with rfl | ⟨_, rfl⟩
    · exact ⟨hs, fun _ _ => rfl⟩
    · obtain ⟨hwf, hread⟩ := decideWrites_memory s.busWaiting
        { s with chip := s.chip.releaseReset straps, busWaiting := [] } hs
      exact ⟨hwf, fun a ha => hread a fun k hk e => ha (Or.inr (Or.inl ⟨straps, rfl, k, hk, e⟩))⟩
  · rcases (exec_stores i s t (fun straps e => hl ⟨straps, e⟩) h).memory with e | ⟨a, w, ha, hmay, e⟩
    · rw [e]; exact ⟨hs, fun _ _ => rfl⟩
    · rw [e]
      refine ⟨Memory.wf_write _ _ _ hs ha, fun b hb => ?_⟩
      have hne : a ≠ b := fun e => hb (e ▸ hmay)
      rw [Memory.read_write _ _ _ _ ((Memory.wf_iff _).mp hs).1, if_neg hne]

/-- Settles O4, by `exec_memory`. -/
theorem commandsKeepOtherMemory : Obligations.CommandsKeepOtherMemory := fun i s t hs h =>
  (exec_memory i s t hs h).2

/-- Settles O5, by `exec_memory`. -/
theorem stepKeepsMemoryForm : Obligations.StepKeepsMemoryForm := by
  intro s t hs h
  rcases step_next h with rfl | ⟨i, rest, hi⟩
  · exact hs
  · exact (exec_memory i { s with pending := rest } t hs hi).1

end Sys2Proof.Machine
end

section
/-! SUPPORT. The setting link's own fields through every command that touches them (R170, R183), and the statement. -/

namespace Sys2Proof.Machine

/-! ## Raising a cause and posting a notice, field by field -/

/-- A cause raised touches the command unit and the mirror writer alone. -/
@[simp] theorem raise_fields (c : Chip) (n : Cause) :
    (c.raise n).resetAsserted = c.resetAsserted ∧ (c.raise n).path = c.path ∧ (c.raise n).lines = c.lines ∧
      (c.raise n).links = c.links ∧ (c.raise n).screens = c.screens ∧ (c.raise n).noticeWriter = c.noticeWriter ∧
      (c.raise n).keys = c.keys ∧ (c.raise n).keyWriter = c.keyWriter ∧ (c.raise n).stories = c.stories ∧
      (c.raise n).desks = c.desks ∧ (c.raise n).custody = c.custody ∧ (c.raise n).clock = c.clock ∧
      (c.raise n).fit = c.fit ∧ (c.raise n).pages = c.pages ∧ (c.raise n).outputQueue = c.outputQueue ∧
      (c.raise n).link = c.link := by
  have h := does_raise n c
  exact ⟨h.asserted, h.frame .path (by decide), h.frame .lines (by decide), h.frame .links (by decide),
    h.frame .screens (by decide), h.frame .noticeWriter (by decide), h.frame .keys (by decide),
    h.frame .keyWriter (by decide), h.frame .stories (by decide), h.frame .desks (by decide),
    h.frame .custody (by decide), h.frame .clock (by decide), h.frame .fit (by decide), h.frame .pages (by decide),
    h.frame .outputQueue (by decide), h.frame .link (by decide)⟩

/-- A posting touches the screens and the notice writer alone. -/
@[simp] theorem post_fields (c : Chip) (k : NoticeKind) (n : Nat) (v : Option Nat) (r : Recipients) :
    (c.post k n v r).resetAsserted = c.resetAsserted ∧ (c.post k n v r).path = c.path ∧ (c.post k n v r).cu = c.cu ∧
      (c.post k n v r).mirror = c.mirror ∧ (c.post k n v r).lines = c.lines ∧ (c.post k n v r).links = c.links ∧
      (c.post k n v r).keys = c.keys ∧ (c.post k n v r).keyWriter = c.keyWriter ∧
      (c.post k n v r).stories = c.stories ∧ (c.post k n v r).desks = c.desks ∧
      (c.post k n v r).custody = c.custody ∧ (c.post k n v r).clock = c.clock ∧ (c.post k n v r).fit = c.fit ∧
      (c.post k n v r).pages = c.pages ∧ (c.post k n v r).outputQueue = c.outputQueue ∧
      (c.post k n v r).link = c.link := by
  rw [post_same k n v r c]
  exact ⟨rfl, rfl, rfl, rfl, rfl, rfl, rfl, rfl, rfl, rfl, rfl, rfl, rfl, rfl, rfl, rfl⟩

/-! ## The operations of the link on its own fields (R170 to R184) -/

@[simp] theorem linkTo_link (st : LinkState) (stage : Option LinkStage) (c : Chip) :
    (c.linkTo st stage).link = { c.link with state := st, stage := stage } := by
  unfold Chip.linkTo
  dsimp only
  split <;> simp

@[simp] theorem transmit_link (c : Chip) :
    c.transmit.link = { c.link with state := .sending, stage := some .transmitting } := linkTo_link ..

@[simp] theorem sendFrame_link (kind : FrameKind) (payload : List Word) (c : Chip) :
    (c.sendFrame kind payload).link = { c.link with
      frame := some { kind := kind, payload := payload }, state := .sending, stage := some .transmitting } :=
  transmit_link _

@[simp] theorem giveBack_link (p : PageNo) (c : Chip) : (c.giveBack p).link = c.link :=
  (does_giveBack p c).frame .link (by decide)

@[simp] theorem completePage_link (p : PageNo) (c : Chip) : (c.completePage p).link = c.link :=
  (does_completePage p c).frame .link (by decide)

/-- The link at rest in a state: nothing in hand. -/
theorem lawful_resting {k : SettingLink} (hstate : k.state ≠ .sending ∧ k.state ≠ .holding) (hstage : k.stage = none)
    (hpage : k.page = none) (habandoning : k.abandoning = none) (hoff : k.offMark = false) (htries : k.tries ≤ 2) :
    k.Lawful := by
  simp [SettingLink.Lawful, hstate.1, hstate.2, hstage, hpage, habandoning, hoff, htries]

/-- The link at rest stays lawful in any state of rest. -/
theorem lawful_linkTo_resting {c : Chip} {st : LinkState} (h : c.link.Lawful)
    (hk : c.link.state ≠ .sending ∧ c.link.state ≠ .holding) (hst : st ≠ .sending ∧ st ≠ .holding) :
    (c.linkTo st none).link.Lawful := by
  obtain ⟨_, _, hbusy, hoff, htries, _⟩ := h
  have hidle : ¬(c.link.page.isSome ∨ c.link.abandoning.isSome) := fun e => (hbusy.mp e).elim hk.1 hk.2
  rw [not_or] at hidle
  rw [linkTo_link]
  refine lawful_resting hst rfl ?_ ?_ ?_ htries
  · simpa using hidle.1
  · simpa using hidle.2
  · exact Bool.eq_false_iff.mpr fun e => hidle.2 (hoff e)

/-- A link at work that sends a frame of the right kind. -/
theorem lawful_sending {k j : SettingLink} {f : Frame} {stage : LinkStage} (h : k.Lawful)
    (hbusy : k.page.isSome ∨ k.abandoning.isSome) (hstate : j.state = .sending) (hstage : j.stage = some stage)
    (hpage : j.page = k.page) (habandoning : j.abandoning = k.abandoning) (hoff : j.offMark = k.offMark)
    (htries : j.tries ≤ 2) (hframe : j.frame = some f) (hkind : k.page.isSome → f.kind ≠ .abandon) : j.Lawful := by
  obtain ⟨_, hone, _, hmark, _, _⟩ := h
  simp only [SettingLink.Lawful, hstate, hstage, hpage, habandoning, hoff, hframe, htries]
  simp only [Option.isSome_some, true_or, iff_true, Option.some.injEq, forall_eq', true_and]
  exact ⟨hone, hbusy, hmark, hkind⟩

/-- Nothing but fields outside the law has changed. -/
theorem lawful_congr {k j : SettingLink} (h : k.Lawful) (hstate : j.state = k.state) (hstage : j.stage = k.stage)
    (hpage : j.page = k.page) (habandoning : j.abandoning = k.abandoning) (hoff : j.offMark = k.offMark)
    (htries : j.tries ≤ 2) (hframe : j.frame = k.frame) : j.Lawful := by
  obtain ⟨h1, h2, h3, h4, _, h6⟩ := h
  simp only [SettingLink.Lawful, hstate, hstage, hpage, habandoning, hoff, hframe]
  exact ⟨h1, h2, h3, h4, htries, h6⟩

theorem lawful_tries {k : SettingLink} (h : k.Lawful) : k.tries ≤ 2 := h.2.2.2.2.1

/-- A link that sends or holds has a page in hand or an abandoning page. -/
theorem lawful_busy {k : SettingLink} (h : k.Lawful) (hs : k.state = .sending ∨ k.state = .holding) :
    k.page.isSome ∨ k.abandoning.isSome := h.2.2.1.mpr hs

/-- The frame in flight is sent, or sent again. -/
theorem lawful_transmit {k j : SettingLink} (h : k.Lawful) (hs : k.state = .sending ∨ k.state = .holding)
    (hj : j = { k with tries := j.tries, holds := j.holds, state := .sending, stage := some .transmitting })
    (htries : j.tries ≤ 2) : j.Lawful := by
  have hbusy := lawful_busy h hs
  obtain ⟨_, hone, _, hmark, _, hkind⟩ := h
  rw [hj]
  exact ⟨by simp, hone, ⟨fun _ => Or.inl rfl, fun _ => hbusy⟩, hmark, htries, hkind⟩

theorem lawful_buildNext {c : Chip} (h : c.link.Lawful) : c.buildNext.link.Lawful := by
  unfold Chip.buildNext
  split
  · exact h
  · rename_i p hp
    have hbusy : c.link.page.isSome ∨ c.link.abandoning.isSome := Or.inl (by rw [hp]; rfl)
    have htries := lawful_tries h
    have hclose : ((c.onLink fun k => { k with position := some .pageClose }).sendFrame .pageClose
        [wordOf p.number, wordOf c.link.wordsSent]).link.Lawful := by
      rw [sendFrame_link]
      exact lawful_sending h hbusy rfl rfl rfl rfl rfl htries rfl fun _ => nofun
    dsimp only
    split
    · split
      · exact hclose
      · rw [sendFrame_link]
        exact lawful_sending h hbusy rfl rfl rfl rfl rfl htries rfl fun _ => nofun
    · rw [linkTo_link]
      exact lawful_sending h hbusy rfl rfl rfl rfl rfl htries rfl fun _ => nofun
    · exact hclose

theorem lawful_textWord {c : Chip} (q : OwnRead) (h : c.link.Lawful) (hq : c.textWord = some q) (w : Word) :
    (q.after w).link.Lawful := by
  unfold Chip.textWord at hq
  split at hq
  · rename_i p i index f hstage hpage hpos hframe
    split at hq
    · cases hq
    · injection hq with hq
      subst hq
      have hsending : c.link.state = .sending := h.1.mp (by rw [hstage]; rfl)
      have hbusy : c.link.page.isSome ∨ c.link.abandoning.isSome := Or.inl (by rw [hpage]; rfl)
      have hkind : c.link.page.isSome → f.kind ≠ .abandon := fun hp => h.2.2.2.2.2 hp f hframe
      have htries := lawful_tries h
      dsimp only
      split
      · rw [transmit_link]
        exact lawful_sending h hbusy rfl rfl rfl rfl rfl htries rfl hkind
      · exact lawful_sending h hbusy hsending hstage rfl rfl rfl htries rfl hkind
  · cases hq

theorem lawful_frameSent {c : Chip} (h : c.link.Lawful) : c.frameSent.link.Lawful := by
  unfold Chip.frameSent
  split
  · rename_i hs
    obtain ⟨_, hone, hbusy, hmark, htries, hkind⟩ := h
    exact ⟨by simp [hs.1], hone, hbusy, hmark, htries, hkind⟩
  · exact h

theorem lawful_pageTake {c : Chip} (h : c.link.Lawful) : c.pageTake.link.Lawful := by
  unfold Chip.pageTake
  split
  · exact h
  · split
    · rename_i hs
      obtain ⟨_, _, hbusy, hmark, _, _⟩ := h
      have hidle : ¬(c.link.page.isSome ∨ c.link.abandoning.isSome) := by rw [hbusy, hs.1]; decide
      rw [not_or] at hidle
      simp [SettingLink.Lawful, hidle.2, hs.2]
    · exact h

/-- ABANDON is built for a page withdrawn before. -/
theorem lawful_buildAbandon {c : Chip} (h : c.link.Lawful) (hpage : c.link.page = none) :
    c.buildAbandon.link.Lawful := by
  unfold Chip.buildAbandon
  split
  · exact h
  · rename_i p hp
    rw [sendFrame_link]
    exact lawful_sending h (Or.inr (by rw [hp]; rfl)) rfl rfl rfl rfl rfl (Nat.zero_le 2) rfl
      fun hs => by rw [hpage] at hs; cases hs

/-- A page in hand is withdrawn from the link (R183). -/
theorem lawful_withdrawPage {c : Chip} {p : PageNo} (h : c.link.Lawful) (hp : c.link.page = some p) :
    (c.withdrawPage p).link.Lawful := by
  have hd : ((c.onLink fun k => { k with page := none, abandoning := some p, position := none }).link).Lawful := by
    obtain ⟨hstage, _, hbusy, _, htries, _⟩ := h
    have hs := hbusy.mp (Or.inl (by rw [hp]; rfl))
    simp [SettingLink.Lawful, htries]
    exact ⟨hstage, hs⟩
  unfold Chip.withdrawPage
  dsimp only
  split
  · exact lawful_buildAbandon hd rfl
  · exact hd

theorem lawful_endAbandon {c : Chip} (h : c.link.Lawful) (hpage : c.link.page = none) : c.endAbandon.link.Lawful := by
  unfold Chip.endAbandon
  dsimp only
  rw [linkTo_link]
  refine lawful_resting ?_ rfl hpage rfl rfl (lawful_tries (k := c.link) h)
  dsimp only
  split <;> decide

/-- A frame of a withdrawn page is in flight only with no page in hand. -/
theorem page_of_inFlightWithdrawn {k : SettingLink} (h : k.Lawful) (hk : k.inFlightWithdrawn = true) :
    k.page = none := by
  unfold SettingLink.inFlightWithdrawn at hk
  rw [Bool.and_eq_true] at hk
  obtain ⟨_, hone, _⟩ := h
  rw [← Option.not_isSome_iff_eq_none]
  exact fun hp => hone ⟨hp, hk.1⟩

@[simp] theorem linkFault_link (c : Chip) :
    c.linkFault.link = { c.link with
      state := .fault, stage := none, page := none, abandoning := none, offMark := false, position := none
      frame := none, tries := 0, holds := 0, answerWait := 0, wordsSent := 0 } := by
  unfold Chip.linkFault
  dsimp only
  rw [linkTo_link, (onLink_fields _ _).2.2.2.2.2.2.2.2.2.2.2.2.2.2.2.2.2]
  cases hp : c.link.page <;> cases ha : c.link.abandoning <;> simp

theorem lawful_linkFault (c : Chip) : c.linkFault.link.Lawful := by
  rw [linkFault_link]
  exact lawful_resting ⟨nofun, nofun⟩ rfl rfl rfl rfl (Nat.zero_le 2)

theorem lawful_frameFailed {c : Chip} (h : c.link.Lawful) (hs : c.link.state = .sending ∨ c.link.state = .holding) :
    c.frameFailed.link.Lawful := by
  unfold Chip.frameFailed
  dsimp only
  split
  · rename_i hlt
    rw [transmit_link]
    exact lawful_transmit h hs rfl (Nat.succ_le_of_lt hlt)
  · exact lawful_linkFault _

theorem lawful_frameRejected {c : Chip} (h : c.link.Lawful) (hs : c.link.state = .sending ∨ c.link.state = .holding) :
    c.frameRejected.link.Lawful := by
  unfold Chip.frameRejected
  split
  · rename_i hw
    exact lawful_buildAbandon h (page_of_inFlightWithdrawn h hw)
  · exact lawful_frameFailed h hs

@[simp] theorem completeLink_link (c : Chip) :
    c.completeLink.link =
      { c.link with page := none, position := none, wordsSent := 0, state := .idle, stage := none } := by
  unfold Chip.completeLink
  dsimp only
  rw [linkTo_link, (onLink_fields _ _).2.2.2.2.2.2.2.2.2.2.2.2.2.2.2.2.2]
  cases c.link.page <;> simp

theorem lawful_frameAccepted {c : Chip} (h : c.link.Lawful) : c.frameAccepted.link.Lawful := by
  have hd : (c.onLink fun k => { k with tries := 0, holds := 0 }).link.Lawful :=
    lawful_congr h rfl rfl rfl rfl rfl (Nat.zero_le 2) rfl
  unfold Chip.frameAccepted
  dsimp only
  generalize hc : (c.onLink fun k => { k with tries := 0, holds := 0 }) = d at hd ⊢
  split
  · rename_i hw
    exact lawful_buildAbandon hd (page_of_inFlightWithdrawn hd hw)
  · rename_i hw
    split
    · exact hd
    · rename_i f hf
      have hfree : d.link.page.isSome → f.kind ≠ .abandon := fun hp => hd.2.2.2.2.2 hp f hf
      split
      · rename_i hk
        exact lawful_endAbandon hd (Option.not_isSome_iff_eq_none.mp fun hp => hfree hp hk)
      · rename_i hk
        have hab : d.link.abandoning = none := by
          rw [← Option.not_isSome_iff_eq_none]
          intro ha
          apply hw
          simp [SettingLink.inFlightWithdrawn, ha, hf, hk]
        have hoff : d.link.offMark = false := Bool.eq_false_iff.mpr fun e => by
          have := hd.2.2.2.1 e
          rw [hab] at this
          cases this
        rw [completeLink_link]
        exact lawful_resting ⟨nofun, nofun⟩ rfl rfl hab hoff (lawful_tries (k := d.link) hd)
      · exact lawful_buildNext (lawful_congr hd rfl rfl rfl rfl rfl (lawful_tries hd) rfl)
      · exact lawful_buildNext hd

theorem lawful_frameHeld {c : Chip} (h : c.link.Lawful) (hs : c.link.state = .sending ∨ c.link.state = .holding) :
    c.frameHeld.link.Lawful := by
  unfold Chip.frameHeld
  split
  · rename_i hw
    exact lawful_buildAbandon h (page_of_inFlightWithdrawn h hw)
  · have hbusy := lawful_busy h hs
    obtain ⟨_, hone, _, hmark, htries, hkind⟩ := h
    rw [linkTo_link]
    exact ⟨by simp, hone, ⟨fun _ => Or.inr rfl, fun _ => hbusy⟩, hmark, htries, hkind⟩

theorem isAwaiting_sending {k : SettingLink} (h : k.isAwaiting = true) : k.state = .sending ∨ k.state = .holding := by
  simp only [SettingLink.isAwaiting, Bool.and_eq_true, decide_eq_true_eq] at h
  exact Or.inl h.1

theorem lawful_answerWord {c : Chip} (w : Word) (h : c.link.Lawful) : (c.answerWord w).link.Lawful := by
  unfold Chip.answerWord
  split
  · rename_i hk
    split
    · exact lawful_frameAccepted h
    · split
      · exact lawful_frameHeld h (isAwaiting_sending hk)
      · exact lawful_frameRejected h (isAwaiting_sending hk)
  · exact h

theorem lawful_linkPulse {c : Chip} (h : c.link.Lawful) : c.linkPulse.link.Lawful := by
  unfold Chip.linkPulse
  split
  · rename_i ht
    simp only [SettingLink.timesOut, Bool.and_eq_true] at ht
    exact lawful_frameRejected h (isAwaiting_sending ht.1)
  split
  · exact lawful_congr h rfl rfl rfl rfl rfl (lawful_tries h) rfl
  split
  · rename_i hh
    simp only [SettingLink.holdEnds, Bool.and_eq_true, decide_eq_true_eq] at hh
    rw [transmit_link]
    exact lawful_transmit h (Or.inr hh.1) rfl (lawful_tries (k := c.link) h)
  split
  · exact lawful_linkFault c
  · exact h

theorem lawful_turnLinkOff {c : Chip} (h : c.link.Lawful) (hs : c.link.state = .sending ∨ c.link.state = .holding) :
    c.turnLinkOff.link.Lawful := by
  unfold Chip.turnLinkOff
  have hmarked : ∀ d : Chip, d.link.Lawful → d.link.abandoning.isSome →
      (d.onLink fun k => { k with offMark := true }).link.Lawful := fun d hd ha =>
    ⟨hd.1, hd.2.1, hd.2.2.1, fun _ => ha, hd.2.2.2.2⟩
  split
  · rename_i p hp
    have hg : (c.giveBack p).link.Lawful := by rw [giveBack_link]; exact h
    have hgp : (c.giveBack p).link.page = some p := by rw [giveBack_link]; exact hp
    refine hmarked _ (lawful_withdrawPage hg hgp) ?_
    unfold Chip.withdrawPage Chip.buildAbandon
    dsimp only
    split <;> simp
  · rename_i hp
    refine hmarked _ h ?_
    rcases lawful_busy h hs with hb | hb
    · rw [hp] at hb; cases hb
    · exact hb

/-! ## The commands -/

/-- What a reply leaves in the link. -/
def Reply.LinkLawful : Reply → Prop
  | .done d _ => d.link.Lawful
  | .refused _ _ => True

theorem lawful_linkOn {c : Chip} (h : c.link.Lawful) : c.linkOn.LinkLawful := by
  unfold Chip.linkOn
  split
  · trivial
  · split
    · rename_i hs
      exact lawful_linkTo_resting h (by rw [hs]; decide) (by decide)
    · trivial

theorem lawful_linkResume {c : Chip} (h : c.link.Lawful) : c.linkResume.LinkLawful := by
  unfold Chip.linkResume
  split
  · trivial
  · split
    · rename_i hs
      exact lawful_linkTo_resting h (by rw [hs]; decide) (by decide)
    · trivial

theorem lawful_linkOff {c : Chip} (h : c.link.Lawful) : c.linkOff.LinkLawful := by
  unfold Chip.linkOff
  split
  · trivial
  split
  · trivial
  split
  · trivial
  · rename_i hs
    exact lawful_linkTo_resting h (by rw [hs]; decide) (by decide)
  · rename_i hs
    exact lawful_linkTo_resting h (by rw [hs]; decide) (by decide)
  · rename_i hs
    exact lawful_turnLinkOff h (Or.inl hs)
  · rename_i hs
    exact lawful_turnLinkOff h (Or.inr hs)

theorem returnAll_link (l : List Placement) : ∀ c : Chip,
    (l.foldl (fun c e => c.returnToHead e.story) c).link = c.link := by
  induction l with
  | nil => exact fun _ => rfl
  | cons e l ih => exact fun c => (ih _).trans ((does_returnToHead e.story c).frame .link (by decide))

theorem lawful_recallPage {c : Chip} (p : PageNo) (h : c.link.Lawful) : (c.recallPage p).link.Lawful := by
  unfold Chip.recallPage
  split
  · rw [(mark_fields _ _).2.2.2.2.2.2.2.2.2.2.2.2.2.2.2.2.2]
    exact h
  · split
    · rename_i hp
      exact lawful_withdrawPage h hp
    · exact h
  · exact h

theorem lawful_replate {c : Chip} (h : c.link.Lawful) : c.replate.LinkLawful := by
  unfold Chip.replate
  split
  · trivial
  · dsimp only
    split
    · trivial
    · rename_i p _ _ _
      show (c.replatePage p).link.Lawful
      unfold Chip.replatePage
      simpa [returnAll_link] using lawful_recallPage p h

/-- Marking several items touches the command unit and the mirror writer alone. -/
theorem markAll_link (l : List MirrorItem) (c : Chip) : (c.markAll l).link = c.link :=
  (does_markAll l c).frame .link (by decide)

theorem pendKeys_link (l : List KeyItem) (c : Chip) : (l.foldl (fun c i => c.pendKey i) c).link = c.link :=
  (Chip.Does.foldl _ (fun c i => does_pendKey i c) l c).frame .link (by decide)

theorem pendRows_link (l : List TerminalNo) (c : Chip) : (l.foldl (fun c t => c.pendRow t) c).link = c.link :=
  (Chip.Does.foldl _ (fun c t => does_pendRow t c) l c).frame .link (by decide)

theorem settingsFold_link (f : LineNo → LineEngine → LineEngine) (l : List LineNo) (c : Chip) :
    (l.foldl (fun c x => Chip.onLine x (f x) c) c).link = c.link :=
  (Chip.Does.foldl (l := [.lines]) _ (fun c x => does_onLine c x _) l c).frame .link (by decide)

theorem takeSettings_link (words : List Word) (c : Chip) :
    (c.takeSettings words).link = { c.link with holdLimit := clamp 1 255 (words.getD 16 0).toNat } := by
  unfold Chip.takeSettings
  simp only [onLink_fields, settingsFold_link]

/-- START takes the hold limit and leaves the link's other fields (R31). -/
theorem enterStarting_link (words : List Word) (c : Chip) :
    (c.enterStarting words).link = { c.link with holdLimit := clamp 1 255 (words.getD 16 0).toNat } := by
  unfold Chip.enterStarting
  simp only [pendRows_link, pendKeys_link, markAll_link, onUnit_fields, collect_fields, onPath_fields,
    takeSettings_link]

theorem lawful_validateStart {c : Chip} (words : List Word) (h : c.link.Lawful) :
    (c.validateStart words).link.Lawful := by
  unfold Chip.validateStart
  split
  · exact h
  · split
    · rw [enterStarting_link]
      exact lawful_congr h rfl rfl rfl rfl rfl (lawful_tries (k := c.link) h) rfl
    · exact h

theorem lawful_configRead {c : Chip} (q : OwnRead) (h : c.link.Lawful) (hq : c.configRead = some q) (w : Word) :
    (q.after w).link.Lawful := by
  unfold Chip.configRead at hq
  split at hq
  · injection hq with hq
    subst hq
    dsimp only
    split
    · exact h
    · exact lawful_validateStart (c := c.onUnit fun u => { u with configRead := c.cu.configRead ++ [w] }) _ h
  · cases hq

/-! ## Outcomes -/

/-- A property of the part that does not read the command unit, and that the owning block's answer has, is kept by the
command. -/
theorem takeCommand_keeps {Q : Chip → Prop} {n : Nat} {body : Chip → Reply} {s t : State}
    (hunit : ∀ (f : CommandUnit → CommandUnit) (c : Chip), Q c → Q (c.onUnit f))
    (hdone : ∀ d words, body s.chip.collect = .done d words → Q d) (hs : Q s.chip)
    (h : takeCommand n body s = .next t) : Q t.chip := by
  rw [chipEvent_next h]
  show Q (if s.chip.resetAsserted then s.chip else _)
  split
  · exact hs
  · split
    · unfold Chip.answer
      split
      · rename_i d words hb
        exact hunit _ _ (hdone d words hb)
      · exact hunit _ _ hs
    · exact hs

/-- A property of the part that an event brings about where it is due. -/
theorem chipEvent_keeps {Q : Chip → Prop} {f : Chip → Chip} {s t : State} (hf : Q (f s.chip)) (hs : Q s.chip)
    (h : chipEvent f s = .next t) : Q t.chip := by
  rw [chipEvent_next h]
  show Q (if s.chip.resetAsserted then s.chip else _)
  split
  · exact hs
  · exact hf

/-- A property of the part that an own read brings about, and that does not read the round-robin position. -/
theorem ownRead_keeps {Q : Chip → Prop} {r : Requester} {plan : Chip → Option OwnRead} {s t : State}
    (hgranted : ∀ c : Chip, Q c → Q (c.granted r))
    (hplan : ∀ q, plan s.chip = some q → ∀ w, Q (q.after w)) (hs : Q s.chip) (h : ownRead r plan s = .next t) :
    Q t.chip := by
  rcases ownRead_next h with rfl | ⟨q, a, hq, _, _, _, rfl⟩
  · exact hs
  · exact hgranted _ (hplan q hq _)

/-- A property of the part that an own write brings about, and that does not read the round-robin position. -/
theorem ownWrite_keeps {Q : Chip → Prop} {r : Requester} {plan : Chip → Option OwnWrite} {s t : State}
    (hgranted : ∀ c : Chip, Q c → Q (c.granted r))
    (hplan : ∀ w, plan s.chip = some w → Q w.after) (hs : Q s.chip) (h : ownWrite r plan s = .next t) :
    Q t.chip := by
  rcases ownWrite_next h with rfl | ⟨w, a, hw, _, _, _, rfl⟩
  · exact hs
  · exact hgranted _ (hplan w hw)

/-- An event taken only where it is due keeps what the event and its absence keep. -/
theorem keeps_ite {Q : Chip → Prop} {c d : Chip} {q : Bool} (hd : Q d) (hc : Q c) :
    Q (if q = true then d else c) := by
  split
  · exact hd
  · exact hc

/-! ## Which commands reach the link -/

/-- A command of which the link is no part leaves it as it was. -/
theorem exec_link_frame {i : Instr} {s t : State} (hi : Part.link ∉ partsOf i) (hr : i ≠ .reset)
    (hl : ∀ straps, i ≠ .resetRelease straps) (h : exec i s = .next t) : t.chip.link = s.chip.link :=
  (exec_does i s t hr hl h).frame .link hi

theorem resetRelease_link {straps : BitVec 4} {s t : State} (h : exec (.resetRelease straps) s = .next t) :
    t.chip.link = s.chip.link := by
  rcases resetRelease_does h with e | hd
  · rw [e]
  · exact hd.frame .link (by decide)

theorem reset_linkLawful : SettingLink.reset.Lawful :=
  lawful_resting ⟨nofun, nofun⟩ rfl rfl rfl rfl (Nat.zero_le 2)

/-- A reply that leaves the link lawful, as the command's outcome. -/
theorem lawful_done {d : Chip} {r : Reply} {words : List Word} (h : r.LinkLawful) (e : r = .done d words) :
    d.link.Lawful := by
  subst e
  exact h

/-- Every command keeps the link's own fields in agreement. -/
theorem exec_keeps_linkLaw (i : Instr) (s t : State) (hs : s.chip.link.Lawful) (h : exec i s = .next t) :
    t.chip.link.Lawful := by
  by_cases hi : Part.link ∈ partsOf i
  · have hcommand : ∀ {n : Nat} {body : Chip → Reply}, (body s.chip.collect).LinkLawful →
        takeCommand n body s = .next t → t.chip.link.Lawful := fun hbody =>
      takeCommand_keeps (Q := fun c => c.link.Lawful) (fun _ _ => id) (fun _ _ e => lawful_done hbody e) hs
    have hevent : ∀ {f : Chip → Chip}, (f s.chip).link.Lawful → chipEvent f s = .next t → t.chip.link.Lawful :=
      fun hf => chipEvent_keeps (Q := fun c => c.link.Lawful) hf hs
    have hread : ∀ {r : Requester} {plan : Chip → Option OwnRead},
        (∀ q, plan s.chip = some q → ∀ w, (q.after w).link.Lawful) → ownRead r plan s = .next t →
        t.chip.link.Lawful := fun hplan =>
      ownRead_keeps (Q := fun c => c.link.Lawful) (fun _ => id) hplan hs
    have hpulse := lawful_linkPulse hs
    cases i with
    | startConfigRead => exact hread (fun q hq => lawful_configRead q hs hq) h
    | replate => exact hcommand (lawful_replate (c := s.chip.collect) hs) h
    | linkOn => exact hcommand (lawful_linkOn (c := s.chip.collect) hs) h
    | linkOff => exact hcommand (lawful_linkOff (c := s.chip.collect) hs) h
    | linkResume => exact hcommand (lawful_linkResume (c := s.chip.collect) hs) h
    | pageTake => exact hevent (lawful_pageTake hs) h
    | textWordRead => exact hread (fun q hq => lawful_textWord q hs hq) h
    | frameSent => exact hevent (lawful_frameSent hs) h
    | linkPulse => exact hevent hpulse h
    | frameTimeout => exact hevent (keeps_ite (Q := fun c => c.link.Lawful) hpulse hs) h
    | holdWaitEnd => exact hevent (keeps_ite (Q := fun c => c.link.Lawful) hpulse hs) h
    | holdLimitExceeded => exact hevent (keeps_ite (Q := fun c => c.link.Lawful) hpulse hs) h
    | accept => exact hevent (lawful_answerWord 1 hs) h
    | hold => exact hevent (lawful_answerWord 2 hs) h
    | reject w => exact hevent (lawful_answerWord w hs) h
    | _ => simp [partsOf, fitParts, lineParts] at hi
  · by_cases hr : i = .reset
    · subst hr
      rw [reset_chip h]
      exact reset_linkLawful
    · by_cases hl : ∃ straps, i = .resetRelease straps
      · obtain ⟨straps, rfl⟩ := hl
        rw [resetRelease_link h]
        exact hs
      · rw [exec_link_frame hi hr (fun straps e => hl ⟨straps, e⟩) h]
        exact hs

/-- Settles O12, by `exec_keeps_linkLaw`. -/
theorem stepKeepsLinkLaw : Obligations.StepKeepsLinkLaw := by
  intro s t hs h
  rcases step_next h with rfl | ⟨i, rest, hi⟩
  · exact hs
  · exact exec_keeps_linkLaw i { s with pending := rest } t hs hi

end Sys2Proof.Machine
end

section
/-! SUPPORT. The current edition as R118 gives it, through pulses and the commands of the clock, and the statement that
every step keeps the edition law. -/

namespace Sys2Proof.Machine

/-! ## The current edition (R118) -/

/-- The predicate by which `currentEdition` looks for the edition still open. -/
def closesAfter (count : Word) (x : Option Word) : Bool :=
  match x with
  | some v => decide (count < v)
  | none => false

theorem currentEdition_eq (closes : List (Option Word)) (count : Word) :
    currentEdition closes count =
      match closes.findIdx? (closesAfter count) with
      | some i => i + 1
      | none => closes.length := rfl

/-- The first edition whose close time is above the count is the current one. -/
theorem currentEdition_first {closes : List (Option Word)} {count x : Word} {i : Nat} (hi : closes[i]? = some (some x))
    (hx : count < x) (hbefore : ∀ j, j < i → ∀ y, closes[j]? = some (some y) → y ≤ count) :
    currentEdition closes count = i + 1 := by
  obtain ⟨hlt, he⟩ := List.getElem?_eq_some_iff.mp hi
  have hfind : closes.findIdx? (closesAfter count) = some i := by
    rw [List.findIdx?_eq_some_iff_getElem]
    refine ⟨hlt, by rw [he]; exact decide_eq_true hx, fun j hj hp => ?_⟩
    have hjlt := Nat.lt_trans hj hlt
    cases hy : closes[j] with
    | none => rw [hy] at hp; cases hp
    | some y =>
      rw [hy] at hp
      have hle := hbefore j hj y (List.getElem?_eq_some_iff.mpr ⟨hjlt, hy⟩)
      exact absurd (of_decide_eq_true hp) (BitVec.not_lt.mpr hle)
  rw [currentEdition_eq, hfind]

/-- With no close time above the count the last edition is the current one. -/
theorem currentEdition_last {closes : List (Option Word)} {count : Word} (h : ∀ x, some x ∈ closes → x ≤ count) :
    currentEdition closes count = closes.length := by
  have hfind : closes.findIdx? (closesAfter count) = none := by
    rw [List.findIdx?_eq_none_iff]
    intro x hx
    cases x with
    | none => rfl
    | some y => exact decide_eq_false (BitVec.not_lt.mpr (h y hx))
  rw [currentEdition_eq, hfind]

/-- Below 65,535 the count rises by 1. -/
theorem count_add_one {n : Word} (h : n ≠ 65535) : (n + 1).toNat = n.toNat + 1 := by
  have hn : n.toNat ≠ 65535 := fun e => h (BitVec.eq_of_toNat_eq e)
  have := n.isLt
  rw [BitVec.toNat_add]
  show (n.toNat + 1) % 65536 = _
  omega

/-- A count that no close time is leaves the current edition. -/
theorem currentEdition_of_no_close {closes : List (Option Word)} {count : Word} (hc : count ≠ 65535)
    (h : some (count + 1) ∉ closes) : currentEdition closes (count + 1) = currentEdition closes count := by
  have hsame : ∀ x ∈ closes, closesAfter (count + 1) x = closesAfter count x := by
    intro x hx
    cases x with
    | none => rfl
    | some v =>
      have hv : v.toNat ≠ count.toNat + 1 := fun e =>
        h ((BitVec.eq_of_toNat_eq ((count_add_one hc).trans e.symm) : count + 1 = v) ▸ hx)
      unfold closesAfter
      simp only [BitVec.lt_def, count_add_one hc]
      exact decide_eq_decide.mpr (by omega)
  have hfind : ∀ l : List (Option Word), (∀ x ∈ l, closesAfter (count + 1) x = closesAfter count x) →
      l.findIdx? (closesAfter (count + 1)) = l.findIdx? (closesAfter count) := by
    intro l hl
    induction l with
    | nil => rfl
    | cons x l ih =>
      rw [List.findIdx?_cons, List.findIdx?_cons, hl x List.mem_cons_self,
        ih fun y hy => hl y (List.mem_cons_of_mem _ hy)]
  rw [currentEdition_eq, currentEdition_eq, hfind closes hsame]

/-- The edition whose close time a count is stands in the schedule. -/
theorem closing_some {k : NightClock} {count : Word} {e : Nat} (h : k.closing count = some e) :
    ∃ i, e = i + 1 ∧ k.closes[i]? = some (some count) := by
  unfold NightClock.closing at h
  rw [Option.map_eq_some_iff] at h
  obtain ⟨i, hi, rfl⟩ := h
  obtain ⟨hlt, hp, _⟩ := List.findIdx?_eq_some_iff_getElem.mp hi
  exact ⟨i, rfl, List.getElem?_eq_some_iff.mpr ⟨hlt, of_decide_eq_true hp⟩⟩

theorem closing_none {k : NightClock} {count : Word} (h : k.closing count = none) : some count ∉ k.closes := by
  unfold NightClock.closing at h
  rw [Option.map_eq_none_iff, List.findIdx?_eq_none_iff] at h
  intro hm
  have := h _ hm
  simp at this

/-- Close times that rise strictly: one before another is below it. -/
theorem rising_lt {l : List Word} (h : l.Pairwise (· < ·)) {i j : Nat} {x y : Word} (hij : i < j)
    (hx : (l.map some)[i]? = some (some x)) (hy : (l.map some)[j]? = some (some y)) : x < y := by
  simp only [List.getElem?_map, Option.map_eq_some_iff, Option.some.injEq, exists_eq_right] at hx hy
  obtain ⟨hi, rfl⟩ := List.getElem?_eq_some_iff.mp hx
  obtain ⟨hj, rfl⟩ := List.getElem?_eq_some_iff.mp hy
  exact List.pairwise_iff_getElem.mp h i j hi hj hij

/-- The count comes onto the close time of edition `i + 1`: the next edition is current, or the last one stays so. -/
theorem currentEdition_of_close {l : List Word} {count : Word} {i : Nat} (hc : count ≠ 65535)
    (hl : l.Pairwise (· < ·)) (hi : (l.map some)[i]? = some (some (count + 1))) :
    currentEdition (l.map some) (count + 1) =
      if i + 1 < l.length then i + 2 else currentEdition (l.map some) count := by
  have hlt : i < (l.map some).length := (List.getElem?_eq_some_iff.mp hi).1
  have hbelow : ∀ j, j < i → ∀ y, (l.map some)[j]? = some (some y) → y < count + 1 := fun j hj y hy =>
    rising_lt hl hj hy hi
  have hstep := count_add_one hc
  split
  · rename_i hnext
    have hn : (l.map some)[i + 1]? = some (some l[i + 1]) := by simp [hnext]
    refine currentEdition_first hn (rising_lt hl (Nat.lt_succ_self i) hi hn) fun j hj y hy => ?_
    rcases Nat.lt_succ_iff_lt_or_eq.mp hj with h | h
    · exact BitVec.le_of_lt (hbelow j h y hy)
    · subst h
      rw [hy] at hi
      injection hi with hi
      injection hi with hi
      exact hi ▸ BitVec.le_refl _
  · rename_i hlast
    rw [List.length_map] at hlt
    have hend : i + 1 = (l.map some).length := by rw [List.length_map]; omega
    have hold : currentEdition (l.map some) count = i + 1 := by
      refine currentEdition_first hi ?_ fun j hj y hy => ?_
      · rw [BitVec.lt_def]; omega
      · have := hbelow j hj y hy
        rw [BitVec.lt_def] at this
        rw [BitVec.le_def]
        omega
    rw [hold, hend]
    refine currentEdition_last fun x hx => ?_
    obtain ⟨j, hj, hxj⟩ := List.mem_iff_getElem.mp hx
    have hxj' : (l.map some)[j]? = some (some x) := List.getElem?_eq_some_iff.mpr ⟨hj, hxj⟩
    rcases Nat.lt_trichotomy j i with h | h | h
    · exact BitVec.le_of_lt (hbelow j h x hxj')
    · subst h
      rw [hxj'] at hi
      injection hi with hi
      injection hi with hi
      exact hi ▸ BitVec.le_refl _
    · omega

/-! ## Pulses (R115, R120) -/

/-- A close moves the current edition, unless it is the last (R120). -/
theorem closeEdition_clock (e : Nat) (c : Chip) :
    (c.closeEdition e).clock =
      if e < c.clock.closes.length then { c.clock with current := e + 1 } else c.clock := by
  unfold Chip.closeEdition
  dsimp only
  simp only [raise_fields, post_fields]
  split <;> simp

@[simp] theorem comparePages_clock (c : Chip) : c.comparePages.clock = c.clock :=
  (does_comparePages c).frame .clock (by decide)

@[simp] theorem countLeases_clock (c : Chip) : c.countLeases.clock = c.clock :=
  (does_countLeases c).frame .clock (by decide)

/-- The edition whose close time a count is closes, if there is one (R120). -/
def Chip.closeAt (count : Word) (c : Chip) : Chip :=
  match c.clock.closing count with
  | some e => c.closeEdition e
  | none => c

/-- A running pulse in its four parts: count, edition, pages, leases (R115). -/
theorem runningPulse_eq (c : Chip) :
    c.runningPulse = (Chip.closeAt (c.clock.count + 1)
      ((c.onClock fun k => { k with count := c.clock.count + 1 }).mark .clockCount)).comparePages.countLeases := rfl

theorem closeAt_none {count : Word} {c : Chip} (h : c.clock.closing count = none) : c.closeAt count = c := by
  rw [Chip.closeAt, h]

theorem closeAt_some {count : Word} {c : Chip} {e : Nat} (h : c.clock.closing count = some e) :
    c.closeAt count = c.closeEdition e := by
  rw [Chip.closeAt, h]

/-- The clock after the close of the edition whose close time a count is, if there is one. -/
theorem closeAt_clock (count : Word) (c : Chip) :
    (c.closeAt count).clock =
      match c.clock.closing count with
      | some e => if e < c.clock.closes.length then { c.clock with current := e + 1 } else c.clock
      | none => c.clock := by
  cases h : c.clock.closing count with
  | none => rw [closeAt_none h]
  | some e => rw [closeAt_some h, closeEdition_clock]

/-- The clock after a running pulse: the count raised, the current edition moved by a close (R115, R120). -/
theorem runningPulse_clock (c : Chip) :
    c.runningPulse.clock =
      match c.clock.closing (c.clock.count + 1) with
      | some e =>
        if e < c.clock.closes.length then { c.clock with count := c.clock.count + 1, current := e + 1 }
        else { c.clock with count := c.clock.count + 1 }
      | none => { c.clock with count := c.clock.count + 1 } := by
  rw [runningPulse_eq, countLeases_clock, comparePages_clock, closeAt_clock]
  simp only [mark_fields, onClock_fields]
  rfl

theorem runs_iff (k : NightClock) : k.runs = true ↔ k.running = true ∧ k.count ≠ 65535 := by
  simp [NightClock.runs]

theorem editionLaw_clockPulse {c : Chip} (h : c.clock.EditionLaw) : c.clockPulse.clock.EditionLaw := by
  unfold Chip.clockPulse
  split
  · rename_i hr
    obtain ⟨hcurrent, hcloses⟩ := h
    have hcount := ((runs_iff _).mp hr).2
    rw [runningPulse_clock]
    split
    · rename_i e he
      obtain ⟨i, rfl, hi⟩ := closing_some he
      obtain hnone | ⟨l, hl, hne, hlen, hpos, hrise⟩ := hcloses
      · exfalso
        rw [hnone] at hi
        cases i <;> simp at hi
      · have hnew := currentEdition_of_close hcount hrise (hl ▸ hi)
        have hlength : c.clock.closes.length = l.length := by rw [hl, List.length_map]
        rw [hlength]
        split
        · rename_i hlt
          rw [if_pos hlt] at hnew
          exact ⟨by rw [← hnew, ← hl], Or.inr ⟨l, hl, hne, hlen, hpos, hrise⟩⟩
        · rename_i hge
          rw [if_neg hge, ← hl] at hnew
          exact ⟨hcurrent.trans hnew.symm, Or.inr ⟨l, hl, hne, hlen, hpos, hrise⟩⟩
    · rename_i hn
      exact ⟨hcurrent.trans (currentEdition_of_no_close hcount (closing_none hn)).symm, hcloses⟩
  · exact h

/-! ## The commands of the clock (R116, R117, R119) -/

/-- What a reply leaves in the clock. -/
def Reply.EditionLaw : Reply → Prop
  | .done d _ => d.clock.EditionLaw
  | .refused _ _ => True

theorem editionLaw_clockRun {c : Chip} (h : c.clock.EditionLaw) : c.clockRun.EditionLaw := by
  unfold Chip.clockRun
  split
  · trivial
  · exact h

theorem editionLaw_clockPause {c : Chip} (h : c.clock.EditionLaw) : c.clockPause.EditionLaw := by
  unfold Chip.clockPause
  split
  · exact h
  · trivial

@[simp] theorem loadClock_clock (v : Word) (c : Chip) :
    (c.loadClock v).clock = { c.clock with count := v, current := currentEdition c.clock.closes v } := by
  unfold Chip.loadClock
  simp

@[simp] theorem takeSchedule_clock (l : List Word) (c : Chip) :
    (c.takeSchedule l).clock =
      { c.clock with closes := l.map some, current := currentEdition (l.map some) c.clock.count } := by
  unfold Chip.takeSchedule
  simp

theorem editionLaw_setClock {c : Chip} (h : c.clock.EditionLaw) : c.setClock.EditionLaw := by
  unfold Chip.setClock
  split
  · trivial
  · show ((c.loadClock _).clock).EditionLaw
    rw [loadClock_clock]
    exact ⟨rfl, h.2⟩

/-- A schedule that is taken rises strictly from times above 0 (R119). -/
theorem closesArg_some {words l : List Word} (h : closesArg words = some l) :
    l ≠ [] ∧ l.length ≤ words.length ∧ (∀ v ∈ l, v ≠ 0) ∧ l.Pairwise (· < ·) := by
  unfold closesArg at h
  dsimp only at h
  split at h
  · rename_i hc
    injection h with h
    subst h
    exact ⟨hc.1, List.Sublist.length_le (List.takeWhile_sublist _),
      fun v hv => of_decide_eq_true (List.all_eq_true.mp (List.all_takeWhile (p := fun x => decide (x ≠ 0))) v hv), hc.2.1⟩
  · cases h

theorem editionLaw_setEditions (c : Chip) : c.setEditions.EditionLaw := by
  unfold Chip.setEditions
  split
  · trivial
  · rename_i l hl
    obtain ⟨hne, hlen, hpos, hrise⟩ := closesArg_some hl
    split
    · trivial
    · show ((c.takeSchedule l).clock).EditionLaw
      rw [takeSchedule_clock]
      exact ⟨rfl, Or.inr ⟨l, rfl, hne, hlen, hpos, hrise⟩⟩

/-! ## The step -/

theorem reset_editionLaw : NightClock.reset.EditionLaw := ⟨rfl, Or.inl rfl⟩

theorem editionLaw_done {d : Chip} {r : Reply} {words : List Word} (h : r.EditionLaw) (e : r = .done d words) :
    d.clock.EditionLaw := by
  subst e
  exact h

/-- Every command keeps the edition law. -/
theorem exec_keeps_editionLaw (i : Instr) (s t : State) (hs : s.chip.clock.EditionLaw) (h : exec i s = .next t) :
    t.chip.clock.EditionLaw := by
  by_cases hi : Part.clock ∈ partsOf i
  · have hcommand : ∀ {n : Nat} {body : Chip → Reply}, (body s.chip.collect).EditionLaw →
        takeCommand n body s = .next t → t.chip.clock.EditionLaw := fun hbody =>
      takeCommand_keeps (Q := fun c => c.clock.EditionLaw) (fun _ _ => id) (fun _ _ e => editionLaw_done hbody e) hs
    have hevent : ∀ {f : Chip → Chip}, (f s.chip).clock.EditionLaw → chipEvent f s = .next t →
        t.chip.clock.EditionLaw := fun hf =>
      chipEvent_keeps (Q := fun c => c.clock.EditionLaw) hf hs
    have hpulse := editionLaw_clockPulse hs
    have hdue : ∀ q : Chip → Bool, chipEvent (fun c => if q c = true then c.clockPulse else c) s = .next t →
        t.chip.clock.EditionLaw := fun q =>
      hevent (f := fun c => if q c = true then c.clockPulse else c)
        (keeps_ite (Q := fun c => c.clock.EditionLaw) hpulse hs)
    cases i with
    | clockRun => exact hcommand (editionLaw_clockRun (c := s.chip.collect) hs) h
    | clockPause => exact hcommand (editionLaw_clockPause (c := s.chip.collect) hs) h
    | setClock => exact hcommand (editionLaw_setClock (c := s.chip.collect) hs) h
    | setEditions => exact hcommand (editionLaw_setEditions s.chip.collect) h
    | pulse => exact hevent hpulse h
    | editionClose => exact hdue (fun c => c.closeDue) h
    | pageLate => exact hdue (fun c => c.lateDue) h
    | leaseFirstExpiry => exact hdue (fun c => c.expiryDue false) h
    | leaseSecondExpiry => exact hdue (fun c => c.expiryDue true) h
    | _ => simp [partsOf, fitParts, lineParts, linkParts] at hi
  · by_cases hr : i = .reset
    · subst hr
      rw [reset_chip h]
      exact reset_editionLaw
    · by_cases hl : ∃ straps, i = .resetRelease straps
      · obtain ⟨straps, rfl⟩ := hl
        rcases resetRelease_does h with e | hd
        · rw [e]; exact hs
        · rw [(hd.frame .clock (by decide) : t.chip.clock = s.chip.clock)]
          exact hs
      · rw [((exec_does i s t hr (fun straps e => hl ⟨straps, e⟩) h).frame .clock hi : t.chip.clock = s.chip.clock)]
        exact hs

/-- Settles O11, by `exec_keeps_editionLaw`. -/
theorem stepKeepsEditionLaw : Obligations.StepKeepsEditionLaw := by
  intro s t hs h
  rcases step_next h with rfl | ⟨i, rest, hi⟩
  · exact hs
  · exact exec_keeps_editionLaw i { s with pending := rest } t hs hi

end Sys2Proof.Machine
end

section
/-! SUPPORT. The output queue, the pages' states and the page in hand through every command (R163 to R166), and the
statement that every step keeps the output law. -/

namespace Sys2Proof.Machine

/-! ## Pages -/

theorem onPage_pages (c : Chip) (p q : PageNo) (f : Page → Page) :
    (c.onPage p f).pages[q] = if p = q then f c.pages[q] else c.pages[q] := update_apply ..

/-- What the law reads of two parts' pages agrees. -/
def Chip.SamePages (c d : Chip) : Prop :=
  ∀ p : PageNo, (d.pages[p].state = .queued ↔ c.pages[p].state = .queued) ∧
    (d.pages[p].state = .setting ↔ c.pages[p].state = .setting) ∧
    (c.pages[p].state = .queued → d.pages[p].plates = c.pages[p].plates)

theorem samePages_of_eq {c d : Chip} (h : d.pages = c.pages) : c.SamePages d := fun p => by
  rw [h]
  exact ⟨Iff.rfl, Iff.rfl, fun _ => rfl⟩

/-- A change of a page that keeps its state and its plate count. -/
theorem samePages_update {c d : Chip} {p : PageNo} {f : Page → Page} (h : d.pages = update c.pages p f)
    (hstate : (f c.pages[p]).state = c.pages[p].state) (hplates : (f c.pages[p]).plates = c.pages[p].plates) :
    c.SamePages d := fun q => by
  rw [h, update_apply]
  split
  · rename_i e
    subst e
    rw [hstate, hplates]
    exact ⟨Iff.rfl, Iff.rfl, fun _ => rfl⟩
  · exact ⟨Iff.rfl, Iff.rfl, fun _ => rfl⟩

/-- A change of a page that stays outside the queue and the link. -/
theorem samePages_outside {c d : Chip} {p : PageNo} {f : Page → Page} (h : d.pages = update c.pages p f)
    (hold : c.pages[p].state ≠ .queued ∧ c.pages[p].state ≠ .setting)
    (hnew : (f c.pages[p]).state ≠ .queued ∧ (f c.pages[p]).state ≠ .setting) : c.SamePages d := fun q => by
  rw [h, update_apply]
  split
  · rename_i e
    subst e
    exact ⟨iff_of_false hnew.1 hold.1, iff_of_false hnew.2 hold.2, fun e => absurd e hold.1⟩
  · exact ⟨Iff.rfl, Iff.rfl, fun _ => rfl⟩

/-- An entry a list does not hold is filtered out of it without effect. -/
theorem filter_ne_of_not_mem {α : Type} [DecidableEq α] {l : List α} {x : α} (h : x ∉ l) : l.filter (· ≠ x) = l :=
  List.filter_eq_self.mpr fun _ hy => decide_eq_true fun e => h (e ▸ hy)

/-! ## What keeps the law -/

/-- The queue's classes read the plate counts of the queue's pages alone. -/
theorem classes_congr {α : Type} {p q : α → Bool} {l : List α} (h : InClasses p l) (e : ∀ x ∈ l, q x = p x) :
    InClasses q l :=
  h.imp_of_mem fun {m n} hm hn k => by rw [e m hm, e n hn]; exact k

theorem outputLaw_classes {c : Chip} (h : c.OutputLaw) : InClasses c.replateClass c.outputQueue := h.2.2.2.2

theorem outputLaw_congr {c d : Chip} (h : c.OutputLaw) (hp : c.SamePages d) (hq : d.outputQueue = c.outputQueue)
    (hl : d.link.page = c.link.page) : d.OutputLaw := by
  obtain ⟨honce, hmem, hset, hlen, hcl⟩ := h
  refine ⟨by rw [hq]; exact honce, fun p => ?_, fun p => ?_, by rw [hq, hl]; exact hlen, ?_⟩
  · rw [hq, hmem, (hp p).1]
  · rw [hl, (hp p).2.1, hset]
  · rw [hq]
    exact classes_congr hcl fun p hm => by
      unfold Chip.replateClass
      rw [(hp p).2.2 ((hmem p).mp hm)]

/-- A page has joined the queue. -/
theorem outputLaw_inserted {c d : Chip} {p : PageNo} {f b : List PageNo} (h : c.OutputLaw) (hfb : f ++ b = c.outputQueue)
    (hq : d.outputQueue = f ++ p :: b) (hcl : InClasses d.replateClass (f ++ p :: b))
    (hnew : c.pages[p].state ≠ .queued) (hp : d.pages[p].state = .queued)
    (ho : ∀ q : PageNo, q ≠ p → d.pages[q].state = c.pages[q].state)
    (hset : ∀ q : PageNo, d.pages[q].state = .setting ↔ d.link.page = some q)
    (hlen : c.outputQueue.length + 1 + (if d.link.page.isSome then 1 else 0) ≤ 16) : d.OutputLaw := by
  obtain ⟨honce, hmem, _, _, _⟩ := h
  have hperm : (f ++ p :: b).Perm (p :: c.outputQueue) := by
    rw [← hfb]
    exact List.perm_middle
  have hout : p ∉ c.outputQueue := fun hm => hnew ((hmem p).mp hm)
  refine ⟨?_, fun q => ?_, hset, ?_, by rw [hq]; exact hcl⟩
  · rw [hq, hperm.nodup_iff]
    exact List.nodup_cons.mpr ⟨hout, honce⟩
  · rw [hq, hperm.mem_iff, List.mem_cons]
    by_cases e : q = p
    · subst e
      exact ⟨fun _ => hp, fun _ => Or.inl rfl⟩
    · rw [ho q e, ← hmem q]
      exact ⟨fun k => k.resolve_left e, Or.inr⟩
  · rw [hq, hperm.length_eq, List.length_cons]
    exact hlen

/-- A page has left the queue. -/
theorem outputLaw_removed {c d : Chip} {p : PageNo} (h : c.OutputLaw)
    (hq : d.outputQueue = c.outputQueue.filter (· ≠ p)) (hp : d.pages[p].state ≠ .queued)
    (ho : ∀ q : PageNo, q ≠ p → d.pages[q] = c.pages[q])
    (hset : ∀ q : PageNo, d.pages[q].state = .setting ↔ d.link.page = some q)
    (hlen : d.outputQueue.length + (if d.link.page.isSome then 1 else 0) ≤ 16) : d.OutputLaw := by
  obtain ⟨honce, hmem, _, _, hcl⟩ := h
  refine ⟨by rw [hq]; exact honce.filter _, fun q => ?_, hset, hlen, ?_⟩
  · rw [hq, List.mem_filter, decide_eq_true_eq]
    by_cases e : q = p
    · subst e
      exact iff_of_false (fun k => k.2 rfl) hp
    · rw [ho q e, ← hmem q]
      exact ⟨And.left, fun k => ⟨k, e⟩⟩
  · rw [hq]
    refine classes_congr (p := c.replateClass) (List.Pairwise.filter _ hcl) fun q hm => ?_
    have e : q ≠ p := of_decide_eq_true (List.mem_filter.mp hm).2
    unfold Chip.replateClass
    rw [ho q e]

/-- The link's page is no longer in hand, and is neither QUEUED nor SETTING. -/
theorem outputLaw_putDown {c d : Chip} {p : PageNo} (h : c.OutputLaw) (hc : c.link.page = some p)
    (hq : d.outputQueue = c.outputQueue) (hl : d.link.page = none)
    (hp : d.pages[p].state ≠ .queued ∧ d.pages[p].state ≠ .setting)
    (ho : ∀ q : PageNo, q ≠ p → d.pages[q] = c.pages[q]) : d.OutputLaw := by
  have hout : p ∉ c.outputQueue := fun hm => by
    have hstate := (h.2.1 p).mp hm
    rw [(h.2.2.1 p).mpr hc] at hstate
    cases hstate
  have hsame : d.outputQueue = c.outputQueue.filter (· ≠ p) := by
    rw [hq, filter_ne_of_not_mem hout]
  refine outputLaw_removed h hsame hp.1 ho (fun q => ?_) ?_
  · rw [hl]
    by_cases e : q = p
    · subst e
      exact iff_of_false hp.2 nofun
    · rw [ho q e, h.2.2.1 q, hc]
      exact iff_of_false (fun k => e (Option.some.inj k).symm) nofun
  · rw [hq, hl]
    exact Nat.le_trans (Nat.add_le_add_left (Nat.zero_le _) _) h.2.2.2.1

/-! ## Joining the queue (R163, R164) -/

/-- A page at the head of its class, the queue taken apart in its two classes. -/
theorem queueHead_queue {c : Chip} {p : PageNo} {front back : List PageNo} (hq : c.outputQueue = front ++ back)
    (hf : ∀ q ∈ front, c.replateClass q = true) (hb : ∀ q ∈ back, c.replateClass q = false) :
    (c.queueHead p).outputQueue = if c.replateClass p then p :: (front ++ back) else front ++ p :: back := by
  obtain ⟨ht, hd⟩ := classes_split hf hb
  unfold Chip.queueHead
  dsimp only
  rw [hq, ht, hd]

/-- A page at the tail of its class. -/
theorem queueTail_queue {c : Chip} {p : PageNo} {front back : List PageNo} (hq : c.outputQueue = front ++ back)
    (hf : ∀ q ∈ front, c.replateClass q = true) (hb : ∀ q ∈ back, c.replateClass q = false) :
    (c.queueTail p).outputQueue = if c.replateClass p then front ++ p :: back else front ++ back ++ [p] := by
  obtain ⟨ht, hd⟩ := classes_split hf hb
  unfold Chip.queueTail
  dsimp only
  rw [hq, ht, hd]

theorem queueHead_inserts {c : Chip} (p : PageNo) (h : InClasses c.replateClass c.outputQueue) :
    ∃ f b, f ++ b = c.outputQueue ∧ (c.queueHead p).outputQueue = f ++ p :: b ∧
      InClasses c.replateClass (f ++ p :: b) := by
  obtain ⟨front, back, hq, hf, hb⟩ := classes_parts h
  rw [queueHead_queue hq hf hb]
  by_cases k : c.replateClass p = true
  · rw [if_pos k]
    exact ⟨[], front ++ back, hq.symm, rfl, List.pairwise_cons.mpr ⟨fun _ _ _ => k, hq ▸ h⟩⟩
  · rw [if_neg k]
    exact ⟨front, back, hq.symm, rfl, classes_insert p hf hb⟩

theorem queueTail_inserts {c : Chip} (p : PageNo) (h : InClasses c.replateClass c.outputQueue) :
    ∃ f b, f ++ b = c.outputQueue ∧ (c.queueTail p).outputQueue = f ++ p :: b ∧
      InClasses c.replateClass (f ++ p :: b) := by
  obtain ⟨front, back, hq, hf, hb⟩ := classes_parts h
  rw [queueTail_queue hq hf hb]
  by_cases k : c.replateClass p = true
  · rw [if_pos k]
    exact ⟨front, back, hq.symm, rfl, classes_insert p hf hb⟩
  · rw [if_neg k]
    refine ⟨front ++ back, [], by rw [List.append_nil, hq], rfl, List.pairwise_append.mpr ⟨hq ▸ h, ?_, ?_⟩⟩
    · exact List.pairwise_singleton ..
    · intro m _ n hn e
      rw [List.mem_singleton.mp hn] at e
      exact absurd e k

/-! ## The operations of the link (R164 to R184) -/

theorem giveBack_pages (p q : PageNo) (c : Chip) :
    (c.giveBack p).pages[q] = if p = q then { c.pages[q] with state := .queued } else c.pages[q] := by
  unfold Chip.giveBack
  simp only [mark_fields]
  exact onPage_pages ..

theorem giveBack_queue (p : PageNo) (c : Chip) :
    (c.giveBack p).outputQueue = ((c.onPage p fun x => { x with state := .queued }).queueHead p).outputQueue := by
  unfold Chip.giveBack
  simp only [mark_fields]

/-- A page given back keeps its class, as every page does (R163). -/
theorem replateClass_onState (c : Chip) (p : PageNo) (st : PageState) :
    (c.onPage p fun x => { x with state := st }).replateClass = c.replateClass := by
  funext q
  unfold Chip.replateClass
  rw [onPage_pages]
  split <;> rfl

theorem giveBack_replateClass (p : PageNo) (c : Chip) : (c.giveBack p).replateClass = c.replateClass := by
  funext q
  unfold Chip.replateClass
  rw [giveBack_pages]
  split <;> rfl

/-- The page in hand goes back to the queue, and the link has none in hand (R164). -/
theorem outputLaw_givenBack {c d : Chip} {p : PageNo} (h : c.OutputLaw) (hp : c.link.page = some p)
    (hpages : d.pages = (c.giveBack p).pages) (hqueue : d.outputQueue = (c.giveBack p).outputQueue)
    (hlink : d.link.page = none) : d.OutputLaw := by
  have hsetting : c.pages[p].state = .setting := (h.2.2.1 p).mpr hp
  have hclass : d.replateClass = c.replateClass := by
    rw [← giveBack_replateClass p c]
    unfold Chip.replateClass
    rw [hpages]
  have hinserts := queueHead_inserts (c := c.onPage p fun x => { x with state := .queued }) p
    (by rw [replateClass_onState]; exact outputLaw_classes h)
  rw [replateClass_onState] at hinserts
  obtain ⟨f, b, hfb, hq, hcl⟩ := hinserts
  have hpage : ∀ q : PageNo, d.pages[q].state = if p = q then .queued else c.pages[q].state := fun q => by
    rw [hpages, giveBack_pages]
    split <;> rfl
  refine outputLaw_inserted h hfb (hqueue.trans ((giveBack_queue p c).trans hq)) (by rw [hclass]; exact hcl) ?_ ?_
    (fun q e => ?_) (fun q => ?_) ?_
  · rw [hsetting]; decide
  · rw [hpage, if_pos rfl]
  · rw [hpage, if_neg (Ne.symm e)]
  · rw [hpage, hlink]
    split
    · exact iff_of_false nofun nofun
    · rename_i e
      rw [h.2.2.1 q, hp]
      exact iff_of_false (fun k => e (Option.some.inj k)) nofun
  · have := h.2.2.2.1
    rw [hp] at this
    rw [hlink]
    simpa using this

/-- Operations of the link that reach neither the pages, nor the queue, nor the page in hand. -/
structure Chip.HoldsPages (c d : Chip) : Prop where
  pages : d.pages = c.pages
  queue : d.outputQueue = c.outputQueue
  inHand : d.link.page = c.link.page

theorem outputLaw_held {c d : Chip} (h : c.OutputLaw) (k : c.HoldsPages d) : d.OutputLaw :=
  outputLaw_congr h (samePages_of_eq k.pages) k.queue k.inHand

/-- A change that leaves the pages and the queue out, with the page in hand as it was. -/
theorem holdsPages_of_does {l : List Part} {c d : Chip} (h : Chip.Does l c d) (hl : d.link.page = c.link.page)
    (hp : Part.pages ∉ l := by decide) (hq : Part.outputQueue ∉ l := by decide) : c.HoldsPages d :=
  ⟨h.frame .pages hp, h.frame .outputQueue hq, hl⟩

theorem buildNext_holds (c : Chip) : c.HoldsPages c.buildNext := by
  refine holdsPages_of_does (does_buildNext c) ?_
  unfold Chip.buildNext
  split
  · rfl
  · dsimp only
    split
    · split <;> rw [sendFrame_link] <;> rfl
    · rw [linkTo_link]; rfl
    · rw [sendFrame_link]; rfl

theorem buildAbandon_holds (c : Chip) : c.HoldsPages c.buildAbandon := by
  refine holdsPages_of_does (does_buildAbandon c) ?_
  unfold Chip.buildAbandon
  split
  · rfl
  · rw [sendFrame_link]; rfl

theorem textWord_holds {c : Chip} {q : OwnRead} (hq : c.textWord = some q) (w : Word) : c.HoldsPages (q.after w) := by
  refine holdsPages_of_does (does_textWord c q hq w) ?_
  unfold Chip.textWord at hq
  split at hq
  · split at hq
    · cases hq
    · injection hq with hq
      subst hq
      dsimp only
      split
      · rw [transmit_link]; rfl
      · rfl
  · cases hq

theorem frameSent_holds (c : Chip) : c.HoldsPages c.frameSent := by
  refine holdsPages_of_does (does_frameSent c) ?_
  unfold Chip.frameSent
  split <;> rfl

theorem endAbandon_holds (c : Chip) : c.HoldsPages c.endAbandon := by
  refine holdsPages_of_does (does_endAbandon c) ?_
  unfold Chip.endAbandon
  rw [linkTo_link]
  rfl

theorem linkTo_holds (st : LinkState) (stage : Option LinkStage) (c : Chip) : c.HoldsPages (c.linkTo st stage) :=
  holdsPages_of_does (does_linkTo st stage c) (by rw [linkTo_link])

theorem sendFrame_pages (kind : FrameKind) (payload : List Word) (c : Chip) :
    (c.sendFrame kind payload).pages = c.pages := (does_sendFrame kind payload c).frame .pages (by decide)

theorem sendFrame_queue (kind : FrameKind) (payload : List Word) (c : Chip) :
    (c.sendFrame kind payload).outputQueue = c.outputQueue :=
  (does_sendFrame kind payload c).frame .outputQueue (by decide)

/-- A withdrawal leaves pages and queue; the link has no page in hand (R183). -/
theorem withdrawPage_page (p : PageNo) (c : Chip) : (c.withdrawPage p).link.page = none := by
  unfold Chip.withdrawPage
  dsimp only
  split
  · rw [(buildAbandon_holds _).inHand]; rfl
  · rfl

theorem withdrawPage_pages (p : PageNo) (c : Chip) :
    (c.withdrawPage p).pages = c.pages ∧ (c.withdrawPage p).outputQueue = c.outputQueue :=
  ⟨(does_withdrawPage p c).frame .pages (by decide), (does_withdrawPage p c).frame .outputQueue (by decide)⟩

/-- The pages and the queue after a fault: the page in hand, if any, given back (R179 a). -/
theorem linkFault_pages (c : Chip) :
    c.linkFault.pages = (match c.link.page with | some p => c.giveBack p | none => c).pages ∧
      c.linkFault.outputQueue = (match c.link.page with | some p => c.giveBack p | none => c).outputQueue := by
  unfold Chip.linkFault
  dsimp only
  rw [(linkTo_holds ..).pages, (linkTo_holds ..).queue]
  cases c.link.page with
  | some p => exact ⟨by simp, by simp⟩
  | none => cases c.link.abandoning <;> exact ⟨by simp, by simp⟩

theorem outputLaw_linkFault {c : Chip} (h : c.OutputLaw) : c.linkFault.OutputLaw := by
  obtain ⟨hpages, hqueue⟩ := linkFault_pages c
  have hlink : c.linkFault.link.page = none := by rw [linkFault_link]
  cases hp : c.link.page with
  | some p =>
    rw [hp] at hpages hqueue
    exact outputLaw_givenBack h hp hpages hqueue hlink
  | none =>
    rw [hp] at hpages hqueue
    exact outputLaw_held h ⟨hpages, hqueue, hlink.trans hp.symm⟩

theorem outputLaw_frameFailed {c : Chip} (h : c.OutputLaw) : c.frameFailed.OutputLaw := by
  have hd : (c.onLink fun k => { k with holds := 0 }).OutputLaw := outputLaw_held h ⟨rfl, rfl, rfl⟩
  unfold Chip.frameFailed
  dsimp only
  split
  · exact outputLaw_held (outputLaw_held (d := Chip.onLink _ (Chip.onLink _ c)) hd ⟨rfl, rfl, rfl⟩) (linkTo_holds ..)
  · exact outputLaw_linkFault hd

theorem outputLaw_frameRejected {c : Chip} (h : c.OutputLaw) : c.frameRejected.OutputLaw := by
  unfold Chip.frameRejected
  split
  · exact outputLaw_held h (buildAbandon_holds c)
  · exact outputLaw_frameFailed h

theorem completePage_pages (p q : PageNo) (c : Chip) (hp : c.pages[p].state = .setting) :
    (c.completePage p).pages[q] = if p = q then { c.pages[q] with state := .set } else c.pages[q] := by
  unfold Chip.completePage
  rw [if_pos hp]
  simp only [raise_fields, post_fields, mark_fields]
  exact onPage_pages ..

theorem completePage_queue (p : PageNo) (c : Chip) : (c.completePage p).outputQueue = c.outputQueue :=
  (does_completePage p c).frame .outputQueue (by decide)

theorem outputLaw_completeLink {c : Chip} (h : c.OutputLaw) : c.completeLink.OutputLaw := by
  have hlink : c.completeLink.link.page = none := by rw [completeLink_link]
  have hsame : c.completeLink.pages = (match c.link.page with | some p => c.completePage p | none => c).pages ∧
      c.completeLink.outputQueue = (match c.link.page with | some p => c.completePage p | none => c).outputQueue := by
    unfold Chip.completeLink
    dsimp only
    rw [(linkTo_holds ..).pages, (linkTo_holds ..).queue]
    exact ⟨rfl, rfl⟩
  obtain ⟨hpages, hqueue⟩ := hsame
  cases hp : c.link.page with
  | some p =>
    rw [hp] at hpages hqueue
    have hsetting : c.pages[p].state = .setting := (h.2.2.1 p).mpr hp
    refine outputLaw_putDown h hp (hqueue.trans (completePage_queue p c)) hlink ?_ fun q e => ?_
    · rw [hpages, completePage_pages _ _ _ hsetting, if_pos rfl]
      exact ⟨nofun, nofun⟩
    · rw [hpages, completePage_pages _ _ _ hsetting, if_neg (Ne.symm e)]
  | none =>
    rw [hp] at hpages hqueue
    exact outputLaw_held h ⟨hpages, hqueue, hlink.trans hp.symm⟩

theorem outputLaw_frameAccepted {c : Chip} (h : c.OutputLaw) : c.frameAccepted.OutputLaw := by
  have hd : (c.onLink fun k => { k with tries := 0, holds := 0 }).OutputLaw := outputLaw_held h ⟨rfl, rfl, rfl⟩
  unfold Chip.frameAccepted
  dsimp only
  generalize (c.onLink fun k => { k with tries := 0, holds := 0 }) = d at hd ⊢
  split
  · exact outputLaw_held hd (buildAbandon_holds d)
  split
  · exact hd
  split
  · exact outputLaw_held hd (endAbandon_holds d)
  · exact outputLaw_completeLink hd
  · exact outputLaw_held (c := Chip.onLink _ _) (outputLaw_held hd ⟨rfl, rfl, rfl⟩) (buildNext_holds _)
  · exact outputLaw_held hd (buildNext_holds d)

theorem outputLaw_frameHeld {c : Chip} (h : c.OutputLaw) : c.frameHeld.OutputLaw := by
  unfold Chip.frameHeld
  split
  · exact outputLaw_held h (buildAbandon_holds c)
  · exact outputLaw_held h (linkTo_holds ..)

theorem outputLaw_answerWord {c : Chip} (w : Word) (h : c.OutputLaw) : (c.answerWord w).OutputLaw := by
  unfold Chip.answerWord
  split
  · split
    · exact outputLaw_frameAccepted h
    · split
      · exact outputLaw_frameHeld h
      · exact outputLaw_frameRejected h
  · exact h

theorem outputLaw_linkPulse {c : Chip} (h : c.OutputLaw) : c.linkPulse.OutputLaw := by
  unfold Chip.linkPulse
  split
  · exact outputLaw_frameRejected h
  split
  · exact outputLaw_held h ⟨rfl, rfl, rfl⟩
  split
  · exact outputLaw_held (c := Chip.onLink _ _) (outputLaw_held h ⟨rfl, rfl, rfl⟩) (linkTo_holds ..)
  split
  · exact outputLaw_linkFault h
  · exact h

/-- The head of the queue comes into the hand of the IDLE link (R163, R174). -/
theorem pageTake_takes {c : Chip} {p : PageNo} {rest : List PageNo} (hq : c.outputQueue = p :: rest)
    (hs : c.link.state = .idle ∧ c.link.offMark = false) :
    c.pageTake.outputQueue = rest ∧ c.pageTake.link.page = some p ∧
      ∀ q : PageNo, c.pageTake.pages[q] = if p = q then { c.pages[q] with state := .setting } else c.pages[q] := by
  unfold Chip.pageTake
  simp only [hq, if_pos hs, sendFrame_pages, sendFrame_queue, sendFrame_link, onLink_fields, mark_fields]
  exact ⟨rfl, trivial, fun q => onPage_pages ..⟩

theorem pageTake_idle {c : Chip} (h : ¬(c.outputQueue ≠ [] ∧ c.link.state = .idle ∧ c.link.offMark = false)) :
    c.pageTake = c := by
  unfold Chip.pageTake
  split
  · rfl
  · rename_i p rest hq
    rw [if_neg fun hs => h ⟨by rw [hq]; exact List.cons_ne_nil _ _, hs⟩]

theorem outputLaw_pageTake {c : Chip} (hlink : c.link.Lawful) (h : c.OutputLaw) : c.pageTake.OutputLaw := by
  by_cases hs : c.outputQueue ≠ [] ∧ c.link.state = .idle ∧ c.link.offMark = false
  · obtain ⟨hne, hs⟩ := hs
    obtain ⟨p, rest, hq⟩ := List.exists_cons_of_ne_nil hne
    obtain ⟨hqueue, hhand, hpages⟩ := pageTake_takes hq hs
    have hlaw := h
    obtain ⟨honce, hmem, hset, hlen, _⟩ := h
    have hnone : c.link.page = none := by
      rw [← Option.not_isSome_iff_eq_none]
      intro hp
      have := hlink.2.2.1.mp (Or.inl hp)
      rw [hs.1] at this
      exact this.elim nofun nofun
    have hrest : c.pageTake.outputQueue = c.outputQueue.filter (· ≠ p) := by
      rw [hqueue, hq]
      rw [hq, List.nodup_cons] at honce
      rw [List.filter_cons_of_neg (by simp), filter_ne_of_not_mem honce.1]
    refine outputLaw_removed hlaw hrest ?_ (fun q e => by rw [hpages, if_neg (Ne.symm e)]) (fun q => ?_) ?_
    · rw [hpages, if_pos rfl]; exact nofun
    · rw [hpages, hhand]
      split
      · rename_i e
        subst e
        exact iff_of_true rfl rfl
      · rename_i e
        rw [hset, hnone]
        exact iff_of_false nofun fun k => e (Option.some.inj k)
    · rw [hq, hnone] at hlen
      rw [hqueue, hhand]
      simpa using hlen
  · rw [pageTake_idle hs]
    exact h

theorem outputLaw_turnLinkOff {c : Chip} (h : c.OutputLaw) : c.turnLinkOff.OutputLaw := by
  unfold Chip.turnLinkOff
  split
  · rename_i p hp
    obtain ⟨hpages, hqueue⟩ := withdrawPage_pages p (c.giveBack p)
    exact outputLaw_givenBack h hp hpages hqueue (withdrawPage_page p _)
  · exact outputLaw_held h ⟨rfl, rfl, rfl⟩

/-! ## The page commands (R154 to R158, R161, R166) -/

theorem does_freezeAll (l : List Placement) (c : Chip) :
    Chip.Does [.stories, .desks, .mirror, .unit] c (l.foldl (fun c e => c.freeze e.story) c) :=
  Chip.Does.foldl (fun (c : Chip) (e : Placement) => c.freeze e.story) (fun c e => does_freeze e.story c) l c

theorem does_returnAll (l : List Placement) (c : Chip) :
    Chip.Does custodyParts c (l.foldl (fun c e => c.returnToHead e.story) c) :=
  Chip.Does.foldl (fun (c : Chip) (e : Placement) => c.returnToHead e.story)
    (fun c e => does_returnToHead e.story c) l c

theorem returnAll_pages (l : List Placement) (c : Chip) :
    (l.foldl (fun c e => c.returnToHead e.story) c).pages = c.pages := (does_returnAll l c).frame .pages (by decide)

theorem returnAll_queue (l : List Placement) (c : Chip) :
    (l.foldl (fun c e => c.returnToHead e.story) c).outputQueue = c.outputQueue :=
  (does_returnAll l c).frame .outputQueue (by decide)

theorem recallPage_pages (p : PageNo) (c : Chip) : (c.recallPage p).pages = c.pages :=
  (does_recallPage p c).frame .pages (by decide)

/-- The page as RELEASE leaves it, stamped with the clock (R161). -/
def Page.released (k : NightClock) (x : Page) : Page :=
  { x with stamp := some k.count, edition := some k.current, state := .queued
           plates := if x.plates = 255 then 255 else x.plates + 1 }

/-- A released page's entry, and the queue with the page at the tail of its class (R161). -/
theorem releasePage_pages (p : PageNo) (c : Chip) :
    (∀ q : PageNo, (c.releasePage p).pages[q] = if p = q then c.pages[q].released c.clock else c.pages[q]) ∧
      (c.releasePage p).outputQueue = ((c.onPage p fun x => x.released c.clock).queueTail p).outputQueue ∧
      (c.releasePage p).link = c.link := by
  unfold Chip.releasePage
  have hd := does_freezeAll c.pages[p].placements c
  dsimp only
  generalize c.pages[p].placements.foldl (fun c e => c.freeze e.story) c = d at hd ⊢
  have hpages : d.pages = c.pages := hd.frame .pages (by decide)
  have hqueue : d.outputQueue = c.outputQueue := hd.frame .outputQueue (by decide)
  have hclock : d.clock = c.clock := hd.frame .clock (by decide)
  have hlink : d.link = c.link := hd.frame .link (by decide)
  have hclass : ∀ f : Page → Page, (d.onPage p f).replateClass = (c.onPage p f).replateClass := fun f => by
    funext q
    unfold Chip.replateClass
    rw [onPage_pages, onPage_pages, hpages]
  simp only [post_fields, mark_fields]
  refine ⟨fun q => ?_, ?_, ?_⟩
  · refine (onPage_pages ..).trans ?_
    rw [hpages, hclock]
    rfl
  · unfold Chip.queueTail
    dsimp only
    rw [hclass, hclock]
    simp only [onPage_fields, hqueue]
    rfl
  · exact hlink

/-- A placement of a page on the way out: RELEASE found the queue and the link below 16 pages (R160). -/
theorem releaseFault_none {c : Chip} {p : PageNo} {force : Bool} (h : c.releaseFault p force = none) :
    c.releasedPages < 16 := by
  unfold Chip.releaseFault at h
  dsimp only at h
  split at h
  · cases h
  · split at h
    · cases h
    · exact Nat.lt_of_not_le ‹_›

/-- In states of the law the pages on the way out number the queue and the page in hand. -/
theorem releasedPages_eq {c : Chip} (h : c.OutputLaw) :
    c.releasedPages = c.outputQueue.length + (if c.link.page.isSome then 1 else 0) := by
  unfold Chip.releasedPages
  congr 1
  have hiff : ((List.finRange 96).any fun p => decide (c.pages[p].state = .setting)) = c.link.page.isSome := by
    rw [Bool.eq_iff_iff, List.any_eq_true, Option.isSome_iff_exists]
    constructor
    · rintro ⟨p, _, hp⟩
      exact ⟨p, (h.2.2.1 p).mp (of_decide_eq_true hp)⟩
    · rintro ⟨p, hp⟩
      exact ⟨p, List.mem_finRange p, decide_eq_true ((h.2.2.1 p).mpr hp)⟩
  rw [hiff]

theorem outputLaw_releasePage {c : Chip} {p : PageNo} (h : c.OutputLaw) (hp : c.pages[p].state = .makeup)
    (hroom : c.releasedPages < 16) : (c.releasePage p).OutputLaw := by
  obtain ⟨hpages, hqueue, hlink⟩ := releasePage_pages p c
  have hother : ∀ q : PageNo, q ≠ p → (c.onPage p fun x => x.released c.clock).replateClass q = c.replateClass q :=
    fun q e => by
      unfold Chip.replateClass
      rw [onPage_pages, if_neg (Ne.symm e)]
  have hout : ∀ q ∈ c.outputQueue, q ≠ p := fun q hm e => by
    subst e
    have := (h.2.1 q).mp hm
    rw [hp] at this
    cases this
  have hinserts := queueTail_inserts (c := c.onPage p fun x => x.released c.clock) p
    (classes_congr (p := c.replateClass) (outputLaw_classes h) fun q hm => hother q (hout q hm))
  obtain ⟨f, b, hfb, hq, hcl⟩ := hinserts
  have hclass : (c.releasePage p).replateClass = (c.onPage p fun x => x.released c.clock).replateClass := by
    funext q
    unfold Chip.replateClass
    rw [hpages, onPage_pages]
  refine outputLaw_inserted h hfb (hqueue.trans hq) (by rw [hclass]; exact hcl) (by rw [hp]; exact nofun)
    (by rw [hpages, if_pos rfl]; rfl) (fun q e => by rw [hpages, if_neg (Ne.symm e)]) (fun q => ?_) ?_
  · rw [hpages, hlink, ← h.2.2.1 q]
    split
    · rename_i e
      subst e
      rw [hp]
      exact iff_of_false nofun nofun
    · exact Iff.rfl
  · rw [releasedPages_eq h] at hroom
    rw [hlink]
    omega

/-- The pages after REPLATE: the one taken back is in makeup (R166). -/
theorem replatePage_pages (p q : PageNo) (c : Chip) :
    (c.replatePage p).pages[q] = if p = q then { c.pages[q] with state := .makeup } else c.pages[q] := by
  unfold Chip.replatePage
  simp only [mark_fields, returnAll_pages]
  rw [onPage_pages]
  simp only [recallPage_pages]

theorem replatePage_queue (p : PageNo) (c : Chip) :
    (c.replatePage p).outputQueue = (c.recallPage p).outputQueue ∧ (c.replatePage p).link = (c.recallPage p).link := by
  unfold Chip.replatePage
  simp only [mark_fields, returnAll_queue, returnAll_link, onPage_fields, and_self]

theorem outputLaw_replatePage {c : Chip} {p : PageNo} (h : c.OutputLaw)
    (hp : c.pages[p].state = .queued ∨ c.pages[p].state = .setting ∨ c.pages[p].state = .set) :
    (c.replatePage p).OutputLaw := by
  obtain ⟨hqueue, hlink⟩ := replatePage_queue p c
  have hnew : (c.replatePage p).pages[p].state ≠ .queued ∧ (c.replatePage p).pages[p].state ≠ .setting := by
    rw [replatePage_pages, if_pos rfl]
    exact ⟨nofun, nofun⟩
  have hother : ∀ q : PageNo, q ≠ p → (c.replatePage p).pages[q] = c.pages[q] := fun q e => by
    rw [replatePage_pages, if_neg (Ne.symm e)]
  rcases hp with hs | hs | hs
  · have hrecall : c.recallPage p = (c.unqueue p).mark .outputCount := by rw [Chip.recallPage, hs]
    rw [hrecall] at hqueue hlink
    have hqueue' : (c.replatePage p).outputQueue = c.outputQueue.filter (· ≠ p) := by
      rw [hqueue]
      simp only [mark_fields]
      rfl
    have hlink' : (c.replatePage p).link = c.link := by
      rw [hlink]
      simp only [mark_fields]
      rfl
    refine outputLaw_removed h hqueue' hnew.1 hother (fun q => ?_) ?_
    · rw [hlink', ← h.2.2.1 q]
      by_cases e : q = p
      · subst e
        rw [hs]
        exact iff_of_false hnew.2 nofun
      · rw [hother q e]
    · rw [hqueue', hlink']
      exact Nat.le_trans (Nat.add_le_add_right (List.length_filter_le ..) _) h.2.2.2.1
  · have hhand : c.link.page = some p := (h.2.2.1 p).mp hs
    have hrecall : c.recallPage p = c.withdrawPage p := by rw [Chip.recallPage, hs]; exact if_pos hhand
    rw [hrecall] at hqueue hlink
    exact outputLaw_putDown h hhand (hqueue.trans (withdrawPage_pages p c).2)
      (by rw [hlink, withdrawPage_page]) hnew hother
  · have hrecall : c.recallPage p = c := by rw [Chip.recallPage, hs]
    rw [hrecall] at hqueue hlink
    refine outputLaw_congr h (fun q => ?_) hqueue (by rw [hlink])
    by_cases e : q = p
    · subst e
      rw [hs]
      exact ⟨iff_of_false hnew.1 nofun, iff_of_false hnew.2 nofun, nofun⟩
    · rw [hother q e]
      exact ⟨Iff.rfl, Iff.rfl, fun _ => rfl⟩

/-! ## The commands -/

/-- What a reply leaves in the queue and the pages. -/
def Reply.OutputLaw : Reply → Prop
  | .done d _ => d.OutputLaw
  | .refused _ _ => True

/-- A page command that found the page in a state its rule allows. -/
theorem pageFault_none {c : Chip} {b : Bool} {d : DeskNo} (h : c.pageFault b d = none) : b = true := by
  unfold Chip.pageFault at h
  split at h
  · cases h
  · split at h
    · cases h
    · rename_i hb
      simpa using hb

theorem removeFrom_pages (p : PageNo) (s : StoryNo) (c : Chip) :
    (c.removeFrom p s).pages =
      update c.pages p (fun x => { x with placements := x.placements.filter (·.story ≠ s) }) := by
  unfold Chip.removeFrom
  simp only [mark_fields, onStory_fields, onPage_fields]

theorem removeFrom_samePages (p : PageNo) (s : StoryNo) (c : Chip) : c.SamePages (c.removeFrom p s) :=
  samePages_update (removeFrom_pages p s c) rfl rfl

/-- A change that leaves the queue and the link out, and of the pages what the law does not read. -/
theorem outputLaw_of_does {l : List Part} {c d : Chip} (h : c.OutputLaw) (hd : Chip.Does l c d) (hp : c.SamePages d)
    (hq : Part.outputQueue ∉ l := by decide) (hl : Part.link ∉ l := by decide) : d.OutputLaw :=
  outputLaw_congr h hp (hd.frame .outputQueue hq) (congrArg SettingLink.page (hd.frame .link hl))

theorem samePages_trans {c d e : Chip} (h : c.SamePages d) (k : d.SamePages e) : c.SamePages e := fun p =>
  ⟨(k p).1.trans (h p).1, (k p).2.1.trans (h p).2.1, fun hs =>
    ((k p).2.2 ((h p).1.mpr hs)).trans ((h p).2.2 hs)⟩

theorem removePlacement_samePages (s : StoryNo) (c : Chip) : c.SamePages (c.removePlacement s) := by
  unfold Chip.removePlacement
  split
  · exact samePages_of_eq rfl
  · exact removeFrom_samePages _ s c

/-- KILL takes the story from its page's list and leaves the pages' states (R107 c). -/
theorem killStory_samePages (s : StoryNo) (c : Chip) : c.SamePages (c.killStory s) := by
  unfold Chip.killStory
  extract_lets x c1 c2 c3 c4
  have h1 : c1.pages = c.pages := by
    show (match x.state, x.holder with
      | .open_, some t => (c.post .killed s.val none (.terminal t)).leaveOpen s
      | .basket, _ => c.leaveBasket s
      | _, _ => c).pages = c.pages
    split
    · exact ((does_leaveOpen s _).frame .pages (by decide)).trans (post_fields ..).2.2.2.2.2.2.2.2.2.2.2.2.2.1
    · exact (does_leaveBasket s c).frame .pages (by decide)
    · rfl
  have h2 : c2.pages = (c1.removePlacement s).pages :=
    ((does_freeAll x.blocks _).frame .pages (by decide)).trans ((does_withdrawFit s _).frame .pages (by decide))
  have h4 : (c4.mark .freeStories).pages = c2.pages := by
    simp only [c4, c3, mark_fields, onCustody_fields, onStory_fields]
  exact samePages_trans (samePages_of_eq h1)
    (samePages_trans (removePlacement_samePages s c1) (samePages_of_eq (h4.trans h2)))

theorem placeStory_samePages (p : PageNo) (s : StoryNo) (hole : Nat) (c : Chip) :
    c.SamePages (c.placeStory p s hole) := by
  unfold Chip.placeStory
  extract_lets c1 c2
  have h1 : c1.pages = update c.pages p fun x => { x with placements := x.placements ++ [{ story := s, hole := hole }] } := by
    simp only [c1, mark_fields, onPage_fields]
  have h2 : c2.pages = c1.pages := by simp only [c2, mark_fields, onStory_fields]
  have h3 : (c2.restale s).fitTake.pages = c2.pages :=
    ((does_fitTake _).frame .pages (by decide)).trans ((does_restale s c2).frame .pages (by decide))
  exact samePages_update (h3.trans (h2.trans h1)) rfl rfl

theorem unplaceStory_samePages (p : PageNo) (s : StoryNo) (c : Chip) : c.SamePages (c.unplaceStory p s) :=
  samePages_trans (removeFrom_samePages p s c) (samePages_of_eq
    (((does_fitTake _).frame .pages (by decide)).trans ((does_restale s _).frame .pages (by decide))))

theorem outputLaw_kill {c : Chip} (h : c.OutputLaw) : c.kill.OutputLaw := by
  unfold Chip.kill
  split
  · trivial
  · dsimp only
    split
    · trivial
    · exact outputLaw_of_does h (does_killStory _ c) (killStory_samePages _ c)

theorem outputLaw_pageOpen {c : Chip} (h : c.OutputLaw) : c.pageOpen.OutputLaw := by
  unfold Chip.pageOpen
  split
  · split
    · trivial
    · rename_i p d _ _ _ hfault
      have hp : c.pages[p].state = .empty := of_decide_eq_true (pageFault_none hfault)
      refine outputLaw_congr h (samePages_outside (p := p)
          (f := fun x => { x with state := .makeup, desk := d, close := closeArg (c.cu.arg 3), late := false })
          (by simp only [mark_fields, onPage_fields]) ?_ ?_)
        (by simp only [mark_fields, onPage_fields]) (by simp only [mark_fields, onPage_fields])
      · rw [hp]; exact ⟨nofun, nofun⟩
      · exact ⟨nofun, nofun⟩
  · trivial

theorem outputLaw_setClose {c : Chip} (h : c.OutputLaw) : c.setClose.OutputLaw := by
  unfold Chip.setClose
  split
  · trivial
  · split
    · trivial
    · rename_i p _ _ _
      exact outputLaw_congr h
        (samePages_update (p := p) (f := fun x => { x with close := closeArg (c.cu.arg 2), late := false })
          (by simp only [mark_fields, onPage_fields]) rfl rfl)
        (by simp only [mark_fields, onPage_fields]) (by simp only [mark_fields, onPage_fields])

theorem outputLaw_place {c : Chip} (h : c.OutputLaw) : c.place.OutputLaw := by
  unfold Chip.place
  split
  · split
    · trivial
    split
    · trivial
    split
    · trivial
    split
    · trivial
    · exact outputLaw_of_does h (does_placeStory _ _ _ c) (placeStory_samePages _ _ _ c)
  · trivial

theorem outputLaw_unplace {c : Chip} (h : c.OutputLaw) : c.unplace.OutputLaw := by
  unfold Chip.unplace
  split
  · split
    · trivial
    split
    · exact outputLaw_of_does h (does_unplaceStory _ _ c) (unplaceStory_samePages _ _ c)
    · trivial
  · trivial

theorem outputLaw_pageClear {c : Chip} (h : c.OutputLaw) : c.pageClear.OutputLaw := by
  unfold Chip.pageClear
  split
  · trivial
  · split
    · trivial
    split
    · rename_i p _ _ hfault _
      have hp : c.pages[p].state = .makeup := of_decide_eq_true (pageFault_none hfault)
      refine outputLaw_congr h (samePages_outside (p := p) (f := fun _ => Page.empty)
          (by simp only [mark_fields, onPage_fields]) ?_ ?_)
        (by simp only [mark_fields, onPage_fields]) (by simp only [mark_fields, onPage_fields])
      · rw [hp]; exact ⟨nofun, nofun⟩
      · exact ⟨nofun, nofun⟩
    · trivial

theorem outputLaw_release {c : Chip} (h : c.OutputLaw) : c.release.OutputLaw := by
  unfold Chip.release
  split
  · split
    · trivial
    split
    · trivial
    · rename_i p force _ _ _ hfault _ hrelease
      exact outputLaw_releasePage h (of_decide_eq_true (pageFault_none hfault)) (releaseFault_none hrelease)
  · trivial

theorem outputLaw_replate {c : Chip} (h : c.OutputLaw) : c.replate.OutputLaw := by
  unfold Chip.replate
  split
  · trivial
  · dsimp only
    split
    · trivial
    · rename_i p _ _ hfault
      have hp := pageFault_none hfault
      simp only [Bool.or_eq_true, decide_eq_true_eq, or_assoc] at hp
      exact outputLaw_replatePage h hp

theorem outputLaw_linkOn {c : Chip} (h : c.OutputLaw) : c.linkOn.OutputLaw := by
  unfold Chip.linkOn
  split
  · trivial
  · split
    · exact outputLaw_held h (linkTo_holds ..)
    · trivial

theorem outputLaw_linkResume {c : Chip} (h : c.OutputLaw) : c.linkResume.OutputLaw := by
  unfold Chip.linkResume
  split
  · trivial
  · split
    · exact outputLaw_held h (linkTo_holds ..)
    · trivial

theorem outputLaw_linkOff {c : Chip} (h : c.OutputLaw) : c.linkOff.OutputLaw := by
  unfold Chip.linkOff
  split
  · trivial
  split
  · trivial
  split
  · trivial
  · exact outputLaw_held h (linkTo_holds ..)
  · exact outputLaw_held h (linkTo_holds ..)
  · exact outputLaw_turnLinkOff h
  · exact outputLaw_turnLinkOff h

/-! ## The pulse, START -/

theorem makeLate_samePages (p : PageNo) (c : Chip) : c.SamePages (c.makeLate p) :=
  samePages_update (p := p) (f := fun x => { x with late := true })
    (by unfold Chip.makeLate; simp only [raise_fields, post_fields, mark_fields, onPage_fields]) rfl rfl

theorem comparePages_samePages (c : Chip) : c.SamePages c.comparePages := by
  unfold Chip.comparePages
  generalize List.finRange 96 = l
  induction l generalizing c with
  | nil => exact samePages_of_eq rfl
  | cons p l ih =>
    refine samePages_trans ?_ (ih _)
    dsimp only
    split
    · exact makeLate_samePages p c
    · exact samePages_of_eq rfl

theorem closeAt_pages (count : Word) (c : Chip) : (c.closeAt count).pages = c.pages := by
  cases h : c.clock.closing count with
  | none => rw [closeAt_none h]
  | some e => rw [closeAt_some h]; exact (does_closeEdition e c).frame .pages (by decide)

theorem runningPulse_samePages (c : Chip) : c.SamePages c.runningPulse := by
  rw [runningPulse_eq]
  generalize hd : Chip.closeAt (c.clock.count + 1) _ = d
  have hpages : d.pages = c.pages := by
    rw [← hd, closeAt_pages]
    simp only [mark_fields, onClock_fields]
  exact samePages_trans (samePages_of_eq hpages) (samePages_trans (comparePages_samePages d)
    (samePages_of_eq ((does_countLeases _).frame .pages (by decide))))

theorem outputLaw_clockPulse {c : Chip} (h : c.OutputLaw) : c.clockPulse.OutputLaw := by
  unfold Chip.clockPulse
  split
  · exact outputLaw_of_does h (does_runningPulse c) (runningPulse_samePages c)
  · exact h

theorem configRead_page {c : Chip} {q : OwnRead} (hq : c.configRead = some q) (w : Word) :
    (q.after w).link.page = c.link.page := by
  unfold Chip.configRead at hq
  split at hq
  · injection hq with hq
    subst hq
    dsimp only
    split
    · rfl
    · unfold Chip.validateStart
      split
      · rfl
      · split
        · rw [enterStarting_link]; rfl
        · rfl
  · cases hq

/-! ## The step -/

/-- A command that reaches neither the pages, nor the queue, nor the link keeps the law. -/
theorem outputLaw_of_frame {i : Instr} {s t : State} (hs : s.chip.OutputLaw)
    (hi : Part.pages ∉ partsOf i ∧ Part.outputQueue ∉ partsOf i ∧ Part.link ∉ partsOf i) (hr : i ≠ .reset)
    (hl : ∀ straps, i ≠ .resetRelease straps) (h : exec i s = .next t) : t.chip.OutputLaw := by
  have hd := exec_does i s t hr hl h
  exact outputLaw_of_does hs hd (samePages_of_eq (hd.frame .pages hi.1)) hi.2.1 hi.2.2

theorem reset_pages (p : PageNo) : Chip.reset.pages[p] = Page.empty := Vector.getElem_replicate ..

theorem reset_outputLaw : Chip.reset.OutputLaw := by
  have hstate : ∀ p : PageNo, Chip.reset.pages[p].state = .empty := fun p => by rw [reset_pages]; rfl
  refine ⟨List.nodup_nil, fun p => ?_, fun p => ?_, Nat.zero_le 16, List.Pairwise.nil⟩
  · rw [hstate]; exact iff_of_false List.not_mem_nil nofun
  · rw [hstate]; exact iff_of_false nofun nofun

theorem outputLaw_done {d : Chip} {r : Reply} {words : List Word} (h : r.OutputLaw) (e : r = .done d words) :
    d.OutputLaw := by
  subst e
  exact h

/-- Every command keeps the output law, in states where the link's own fields agree. -/
theorem exec_keeps_outputLaw (i : Instr) (s t : State) (hlink : s.chip.link.Lawful) (hs : s.chip.OutputLaw)
    (h : exec i s = .next t) : t.chip.OutputLaw := by
  by_cases hi : Part.pages ∉ partsOf i ∧ Part.outputQueue ∉ partsOf i ∧ Part.link ∉ partsOf i
  · by_cases hr : i = .reset
    · subst hr
      rw [reset_chip h]
      exact reset_outputLaw
    · by_cases hl : ∃ straps, i = .resetRelease straps
      · obtain ⟨straps, rfl⟩ := hl
        rcases resetRelease_does h with e | hd
        · rw [e]; exact hs
        · exact outputLaw_of_does (c := s.chip.releaseReset straps) hs hd
            (samePages_of_eq (hd.frame .pages (by decide)))
      · exact outputLaw_of_frame hs hi hr (fun straps e => hl ⟨straps, e⟩) h
  · have hcommand : ∀ {n : Nat} {body : Chip → Reply}, (body s.chip.collect).OutputLaw →
        takeCommand n body s = .next t → t.chip.OutputLaw := fun hbody =>
      takeCommand_keeps (Q := Chip.OutputLaw) (fun _ _ => id) (fun _ _ e => outputLaw_done hbody e) hs
    have hevent : ∀ {f : Chip → Chip}, (f s.chip).OutputLaw → chipEvent f s = .next t → t.chip.OutputLaw :=
      fun hf => chipEvent_keeps (Q := Chip.OutputLaw) hf hs
    have hpulse : ∀ q : Chip → Bool, chipEvent (fun c => if q c = true then c.clockPulse else c) s = .next t →
        t.chip.OutputLaw := fun q =>
      hevent (f := fun c => if q c = true then c.clockPulse else c)
        (keeps_ite (Q := Chip.OutputLaw) (outputLaw_clockPulse hs) hs)
    have hlinkPulse : ∀ q : Chip → Bool, chipEvent (fun c => if q c = true then c.linkPulse else c) s = .next t →
        t.chip.OutputLaw := fun q =>
      hevent (f := fun c => if q c = true then c.linkPulse else c)
        (keeps_ite (Q := Chip.OutputLaw) (outputLaw_linkPulse hs) hs)
    have hread : ∀ {r : Requester} {plan : Chip → Option OwnRead},
        (∀ q, plan s.chip = some q → ∀ w, (q.after w).OutputLaw) → ownRead r plan s = .next t →
        t.chip.OutputLaw := fun hplan =>
      ownRead_keeps (Q := Chip.OutputLaw) (fun _ => id) hplan hs
    have hc : s.chip.collect.OutputLaw := hs
    cases i with
    | startConfigRead =>
      exact hread (fun q hq w => outputLaw_held hs
        (holdsPages_of_does (does_configRead s.chip q hq w) (configRead_page hq w))) h
    | kill => exact hcommand (outputLaw_kill hc) h
    | pageOpen => exact hcommand (outputLaw_pageOpen hc) h
    | setClose => exact hcommand (outputLaw_setClose hc) h
    | place => exact hcommand (outputLaw_place hc) h
    | unplace => exact hcommand (outputLaw_unplace hc) h
    | pageClear => exact hcommand (outputLaw_pageClear hc) h
    | release => exact hcommand (outputLaw_release hc) h
    | replate => exact hcommand (outputLaw_replate hc) h
    | linkOn => exact hcommand (outputLaw_linkOn hc) h
    | linkOff => exact hcommand (outputLaw_linkOff hc) h
    | linkResume => exact hcommand (outputLaw_linkResume hc) h
    | pulse => exact hevent (outputLaw_clockPulse hs) h
    | editionClose => exact hpulse (fun c => c.closeDue) h
    | pageLate => exact hpulse (fun c => c.lateDue) h
    | leaseFirstExpiry => exact hpulse (fun c => c.expiryDue false) h
    | leaseSecondExpiry => exact hpulse (fun c => c.expiryDue true) h
    | pageTake => exact hevent (outputLaw_pageTake hlink hs) h
    | textWordRead => exact hread (fun q hq w => outputLaw_held hs (textWord_holds hq w)) h
    | frameSent => exact hevent (outputLaw_held hs (frameSent_holds _)) h
    | linkPulse => exact hevent (outputLaw_linkPulse hs) h
    | frameTimeout => exact hlinkPulse (fun c => c.link.timesOut) h
    | holdWaitEnd => exact hlinkPulse (fun c => c.link.holdEnds) h
    | holdLimitExceeded => exact hlinkPulse (fun c => c.link.holdTooLong) h
    | accept => exact hevent (outputLaw_answerWord 1 hs) h
    | hold => exact hevent (outputLaw_answerWord 2 hs) h
    | reject w => exact hevent (outputLaw_answerWord w hs) h
    | _ => simp [partsOf, fitParts, lineParts] at hi

/-- Settles O13, by `exec_keeps_outputLaw`. -/
theorem stepKeepsOutputLaw : Obligations.StepKeepsOutputLaw := by
  intro s t hlink hs h
  rcases step_next h with rfl | ⟨i, rest, hi⟩
  · exact hs
  · exact exec_keeps_outputLaw i { s with pending := rest } t hlink hs hi

end Sys2Proof.Machine
end

section
/-! SUPPORT. What keeps the laws of the story table (R88, R89, R91, R95, R96, R132, R152, R162) when a command does not
move a story, and when it moves one: out of its basket or its holder's hands, and into another's. -/

namespace Sys2Proof.Machine

/-! ## Changes the laws do not read -/

/-- A page in this state has its stories SET (R162). -/
def Page.Out (x : Page) : Prop := x.state = .queued ∨ x.state = .setting ∨ x.state = .set

/-- Two story records agree in all that the laws read of them: a FREE record is kept whole, a lease is not made. -/
structure Story.SameInLaws (x y : Story) : Prop where
  fields : y = { x with
    style := y.style, result := y.result, fontsUsed := y.fontsUsed, version := y.version, stamp := y.stamp,
    lease := y.lease }
  lease : x.lease = none → y.lease = none
  free : x = Story.free → y = x

/-- Two page records agree in all that the laws read of them. -/
structure Page.SamePlaces (x y : Page) : Prop where
  placements : y.placements = x.placements
  empty : y.state = .empty → y = x ∨ y = Page.empty
  out : y.Out ↔ x.Out

/-- Two parts agree in all that the story laws read of them. -/
structure Chip.SameTable (c d : Chip) : Prop where
  stories : ∀ n : StoryNo, c.stories[n].SameInLaws d.stories[n]
  pages : ∀ p : PageNo, c.pages[p].SamePlaces d.pages[p]
  custody : d.custody = { c.custody with reports := d.custody.reports }
  desks : ∀ x : DeskNo, d.desks[x].basket = c.desks[x].basket ∧ d.desks[x].openCount = c.desks[x].openCount
  sessions : ∀ u, d.session u = c.session u
  fit : d.fit.queue = c.fit.queue ∧ d.fit.run = c.fit.run

theorem Story.SameInLaws.refl (x : Story) : x.SameInLaws x := ⟨rfl, id, fun _ => rfl⟩

theorem Story.SameInLaws.trans {x y z : Story} (h : x.SameInLaws y) (k : y.SameInLaws z) : x.SameInLaws z :=
  ⟨by rw [k.fields, h.fields], k.lease ∘ h.lease, fun e => by rw [k.free ((h.free e).trans e), h.free e]⟩

theorem Page.SamePlaces.refl (x : Page) : x.SamePlaces x := ⟨rfl, fun _ => Or.inl rfl, Iff.rfl⟩

theorem Page.SamePlaces.trans {x y z : Page} (h : x.SamePlaces y) (k : y.SamePlaces z) : x.SamePlaces z := by
  refine ⟨k.placements.trans h.placements, fun e => ?_, k.out.trans h.out⟩
  rcases k.empty e with rfl | hz
  · exact h.empty e
  · exact Or.inr hz

section
variable {c d e : Chip} {l : List Part}

theorem Chip.SameTable.trans (h : c.SameTable d) (k : d.SameTable e) : c.SameTable e where
  stories n := (h.stories n).trans (k.stories n)
  pages p := (h.pages p).trans (k.pages p)
  custody := by rw [k.custody, h.custody]
  desks x := ⟨(k.desks x).1.trans (h.desks x).1, (k.desks x).2.trans (h.desks x).2⟩
  sessions u := (k.sessions u).trans (h.sessions u)
  fit := ⟨k.fit.1.trans h.fit.1, k.fit.2.trans h.fit.2⟩

theorem Chip.SameTable.refl (c : Chip) : c.SameTable c where
  stories _ := .refl _
  pages _ := .refl _
  custody := rfl
  desks _ := ⟨rfl, rfl⟩
  sessions _ := rfl
  fit := ⟨rfl, rfl⟩

theorem Chip.SameTable.foldl {α : Type} (f : Chip → α → Chip) (h : ∀ c a, Chip.SameTable c (f c a)) (xs : List α) :
    ∀ c, Chip.SameTable c (xs.foldl f c) := by
  induction xs with
  | nil => exact fun c => .refl c
  | cons a xs ih => exact fun c => (h c a).trans (ih (f c a))

theorem Chip.SameTable.ite {p : Prop} [Decidable p] (hd : p → c.SameTable d) (he : ¬p → c.SameTable e) :
    c.SameTable (if p then d else e) := by
  split
  · exact hd ‹_›
  · exact he ‹_›

/-- A change that reaches none of the tables. -/
theorem sameTable_of_does (h : Chip.Does l c d)
    (hl : ∀ p ∈ [Part.stories, .pages, .custody, .desks, .keys, .fit], p ∉ l := by decide) : c.SameTable d := by
  have stories : d.stories = c.stories := h.frame .stories (hl _ (by decide))
  have pages : d.pages = c.pages := h.frame .pages (hl _ (by decide))
  have custody : d.custody = c.custody := h.frame .custody (hl _ (by decide))
  have desks : d.desks = c.desks := h.frame .desks (hl _ (by decide))
  have keys : d.keys = c.keys := h.frame .keys (hl _ (by decide))
  have fit : d.fit = c.fit := h.frame .fit (hl _ (by decide))
  exact ⟨fun n => stories ▸ .refl _, fun p => pages ▸ .refl _, by rw [custody], fun x => by rw [desks]; exact ⟨rfl, rfl⟩,
    fun u => by unfold Chip.session; rw [keys], by rw [fit]; exact ⟨rfl, rfl⟩⟩

theorem onStory_story (c : Chip) (s n : StoryNo) (f : Story → Story) :
    (c.onStory s f).stories[n] = if s = n then f c.stories[n] else c.stories[n] := update_apply ..

theorem onStory_self (c : Chip) (s : StoryNo) (f : Story → Story) : (c.onStory s f).stories[s] = f c.stories[s] := by
  rw [onStory_story, if_pos rfl]

theorem onStory_ne {c : Chip} {s n : StoryNo} (f : Story → Story) (h : n ≠ s) :
    (c.onStory s f).stories[n] = c.stories[n] := by
  rw [onStory_story, if_neg (Ne.symm h)]

theorem sameTable_onStory (c : Chip) (s : StoryNo) (f : Story → Story) (h : c.stories[s].SameInLaws (f c.stories[s])) :
    c.SameTable (c.onStory s f) where
  stories n := by
    rw [onStory_story]
    split
    · rename_i e
      exact e ▸ h
    · exact .refl _
  pages _ := .refl _
  custody := rfl
  desks _ := ⟨rfl, rfl⟩
  sessions _ := rfl
  fit := ⟨rfl, rfl⟩

theorem sameTable_onPage (c : Chip) (p : PageNo) (f : Page → Page) (h : c.pages[p].SamePlaces (f c.pages[p])) :
    c.SameTable (c.onPage p f) where
  stories _ := .refl _
  pages q := by
    rw [onPage_pages]
    split
    · rename_i e
      exact e ▸ h
    · exact .refl _
  custody := rfl
  desks _ := ⟨rfl, rfl⟩
  sessions _ := rfl
  fit := ⟨rfl, rfl⟩

theorem sameTable_mark (i : MirrorItem) (c : Chip) : c.SameTable (c.mark i) := sameTable_of_does (does_mark i c)

theorem sameTable_post (k : NoticeKind) (s : Nat) (v : Option Nat) (r : Recipients) (c : Chip) :
    c.SameTable (c.post k s v r) := sameTable_of_does (does_post k s v r c)

theorem sameTable_raise (n : Cause) (c : Chip) : c.SameTable (c.raise n) := sameTable_of_does (does_raise n c)

/-! ## The laws of the parts that agree -/

/-- The story laws but the release law: those that a move of one story keeps by itself. -/
structure Chip.TableLaws (c : Chip) : Prop where
  free : c.FreeLaw
  block : c.BlockLaw
  basket : c.BasketLaw
  holder : c.HolderLaw
  fit : c.FitLaw
  placement : c.PlacementLaw

theorem storyLaws_iff (c : Chip) : c.StoryLaws ↔ c.TableLaws ∧ c.ReleaseLaw :=
  ⟨fun ⟨free, block, basket, holder, fit, placement, release⟩ => ⟨⟨free, block, basket, holder, fit, placement⟩, release⟩,
    fun ⟨h, release⟩ => ⟨h.free, h.block, h.basket, h.holder, h.fit, h.placement, release⟩⟩

theorem releaseLaw_congr (h : c.ReleaseLaw) (hp : ∀ p : PageNo, d.pages[p].Out ↔ c.pages[p].Out)
    (hs : ∀ n : StoryNo, (d.stories[n].state = .set ↔ c.stories[n].state = .set) ∧
      d.stories[n].page = c.stories[n].page) : d.ReleaseLaw := fun n => by
  rw [(hs n).1, (hs n).2, h n]
  exact exists_congr fun p => and_congr_right fun _ => (hp p).symm

theorem holderLaw_congr (h : c.HolderLaw) (hh : d.custody.held = c.custody.held)
    (hk : ∀ u, d.session u = c.session u) (ho : ∀ x : DeskNo, d.desks[x].openCount = c.desks[x].openCount)
    (hs : ∀ n : StoryNo, c.stories[n].SameHolder d.stories[n]) : d.HolderLaw := by
  refine ⟨fun u => ?_, fun n => ?_, fun x => ?_⟩
  · have hm : ∀ n : StoryNo, d.stories[n].state = .open_ ∧ d.stories[n].holder = some u ↔
        c.stories[n].state = .open_ ∧ c.stories[n].holder = some u := fun n => by
      obtain ⟨state, holder, _, _⟩ := hs n
      rw [state, holder]
    simp only [hm, hh]
    exact h.1 u
  · obtain ⟨state, holder, desk, lease⟩ := hs n
    rw [state, holder, desk]
    simp only [hk]
    exact ⟨(h.2.1 n).1, fun e => ⟨((h.2.1 n).2 e).1, lease e ((h.2.1 n).2 e).2⟩⟩
  · show _ = howMany fun n : StoryNo => decide _
    rw [ho x, holderLaw_number h x]
    refine howMany_congr fun n => ?_
    obtain ⟨state, _, desk, _⟩ := hs n
    rw [state, desk]

theorem placementLaw_pages (h : c.PlacementLaw) (hp : ∀ p : PageNo, c.pages[p].SamePlaces d.pages[p])
    (hs : ∀ n : StoryNo, d.stories[n].page = c.stories[n].page ∧ d.stories[n].hole = c.stories[n].hole) :
    d.PlacementLaw := by
  refine placementLaw_congr h (fun q => ⟨(hp q).placements, fun e => ?_⟩) hs
  rcases (hp q).empty e with hq | hq
  · rw [hq] at e ⊢
    exact (h.1 q).2.2 e
  · exact hq

theorem Story.SameInLaws.sameBasket {x y : Story} (h : x.SameInLaws y) : x.SameBasket y := by
  rw [h.fields]
  exact ⟨rfl, rfl, rfl⟩

theorem Story.SameInLaws.sameHolder {x y : Story} (h : x.SameInLaws y) : x.SameHolder y :=
  ⟨by rw [h.fields], by rw [h.fields], by rw [h.fields], fun _ => h.lease⟩

theorem basketHolder_same (h : c.BasketLaw ∧ c.HolderLaw) (k : c.SameTable d) : d.BasketLaw ∧ d.HolderLaw :=
  ⟨(basketLaw_iff d).mpr (basketLawFor_congr ((basketLaw_iff c).mp h.1) (fun x => (k.desks x).1)
      fun n _ => (k.stories n).sameBasket),
    holderLaw_congr h.2 (by rw [k.custody]) k.sessions (fun x => (k.desks x).2) fun n => (k.stories n).sameHolder⟩

theorem tableLaws_same (h : c.TableLaws) (k : c.SameTable d) : d.TableLaws := by
  obtain ⟨basket, holder⟩ := basketHolder_same ⟨h.basket, h.holder⟩ k
  have owners : d.custody.owners = c.custody.owners := by rw [k.custody]
  have freeBlocks : d.custody.freeBlocks = c.custody.freeBlocks := by rw [k.custody]
  have freeStories : d.custody.freeStories = c.custody.freeStories := by rw [k.custody]
  have story : ∀ n : StoryNo, d.stories[n] = { c.stories[n] with
      style := d.stories[n].style, result := d.stories[n].result, fontsUsed := d.stories[n].fontsUsed,
      version := d.stories[n].version, stamp := d.stories[n].stamp, lease := d.stories[n].lease } :=
    fun n => (k.stories n).fields
  refine ⟨freeLaw_congr h.free freeStories fun n => ⟨by rw [story], fun e => (k.stories n).free (h.free.1 n e)⟩,
    blockLaw_congr h.block owners freeBlocks fun n => by rw [story], basket, holder,
    (fitLaw_iff d).mpr (fitLawFor_congr ((fitLaw_iff c).mp h.fit) k.fit.1 k.fit.2 fun n _ => ?_),
    placementLaw_pages h.placement k.pages fun n => by rw [story]; exact ⟨rfl, rfl⟩⟩
  rw [story]
  exact ⟨rfl, rfl, rfl⟩

theorem storyLaws_same (h : c.StoryLaws) (k : c.SameTable d) : d.StoryLaws := by
  obtain ⟨table, release⟩ := (storyLaws_iff c).mp h
  refine (storyLaws_iff d).mpr ⟨tableLaws_same table k, releaseLaw_congr release (fun p => (k.pages p).out) fun n => ?_⟩
  rw [(k.stories n).fields]
  exact ⟨Iff.rfl, rfl⟩

end

/-! ## One story moved -/

/-- A record moved: it may change its state, its desk, its urgency, its holder and lease, its version and its stamp. -/
def Story.Moved (x y : Story) : Prop :=
  y = { x with state := y.state, desk := y.desk, urgent := y.urgent, holder := y.holder, version := y.version,
               stamp := y.stamp, lease := y.lease }

/-- A change that moves at most the story `s`, between baskets and held sets. -/
structure Chip.Moves (s : StoryNo) (c d : Chip) : Prop where
  others : ∀ n : StoryNo, n ≠ s → d.stories[n] = c.stories[n]
  itself : c.stories[s].Moved d.stories[s]
  fit : d.fit = c.fit
  pages : d.pages = c.pages
  keys : d.keys = c.keys
  custody : d.custody = { c.custody with held := d.custody.held }

section
variable {c d e : Chip} {s : StoryNo} {l : List Part}

theorem Chip.Moves.trans (h : c.Moves s d) (k : d.Moves s e) : c.Moves s e where
  others n hn := (k.others n hn).trans (h.others n hn)
  itself := by
    have hk := k.itself
    have hh := h.itself
    unfold Story.Moved at hk hh ⊢
    rw [hk, hh]
  fit := k.fit.trans h.fit
  pages := k.pages.trans h.pages
  keys := k.keys.trans h.keys
  custody := by rw [k.custody, h.custody]

theorem moves_of_does (h : Chip.Does l c d)
    (hl : ∀ p ∈ [Part.stories, .pages, .custody, .keys, .fit], p ∉ l := by decide) : c.Moves s d := by
  have stories : d.stories = c.stories := h.frame .stories (hl _ (by decide))
  have custody : d.custody = c.custody := h.frame .custody (hl _ (by decide))
  exact ⟨fun n _ => by rw [stories], by unfold Story.Moved; rw [stories], h.frame .fit (hl _ (by decide)),
    h.frame .pages (hl _ (by decide)), h.frame .keys (hl _ (by decide)), by rw [custody]⟩

theorem moves_onStory (f : Story → Story) (h : c.stories[s].Moved (f c.stories[s])) : c.Moves s (c.onStory s f) where
  others n hn := onStory_ne f hn
  itself := by rw [onStory_self]; exact h
  fit := rfl
  pages := rfl
  keys := rfl
  custody := rfl

theorem moves_mark (i : MirrorItem) (c : Chip) : c.Moves s (c.mark i) := moves_of_does (does_mark i c)

theorem moves_leaveOpen (s : StoryNo) (c : Chip) : c.Moves s (c.leaveOpen s) := by
  unfold Chip.leaveOpen
  extract_lets d c1 c2
  have h1 : c.Moves s c1 := by
    show c.Moves s (match c.stories[s].holder with | some t => _ | none => _)
    split
    · exact ⟨fun _ _ => rfl, rfl, rfl, rfl, rfl, rfl⟩
    · exact ⟨fun _ _ => rfl, rfl, rfl, rfl, rfl, rfl⟩
  have h2 : c1.Moves s c2 := moves_onStory _ rfl
  exact h1.trans (h2.trans (((moves_of_does (does_onDesk c2 d _)).trans (moves_mark _ _)).trans (moves_mark _ _)))

theorem moves_enterOpen (s : StoryNo) (t : TerminalNo) (c : Chip) : c.Moves s (c.enterOpen s t) := by
  unfold Chip.enterOpen
  extract_lets d c1 c2
  have h1 : c.Moves s c1 := moves_onStory _ rfl
  have h2 : c1.Moves s c2 := ⟨fun _ _ => rfl, rfl, rfl, rfl, rfl, rfl⟩
  exact h1.trans (h2.trans (((moves_of_does (does_onDesk c2 d _)).trans (moves_mark _ _)).trans (moves_mark _ _)))

theorem moves_leaveBasket (s : StoryNo) (c : Chip) : c.Moves s (c.leaveBasket s) := moves_of_does (does_leaveBasket s c)

theorem moves_joinTail (s : StoryNo) (c : Chip) : c.Moves s (c.joinTail s) := moves_of_does (does_joinTail s c)

theorem moves_joinHead (s : StoryNo) (c : Chip) : c.Moves s (c.joinHead s) := moves_of_does (does_joinHead s c)

/-- What a move leaves of a record: the fields of the other laws. -/
theorem Chip.Moves.kept (h : c.Moves s d) (n : StoryNo) :
    d.stories[n].blocks = c.stories[n].blocks ∧ d.stories[n].page = c.stories[n].page ∧
      d.stories[n].hole = c.stories[n].hole ∧ c.stories[n].SameFit d.stories[n] := by
  by_cases hn : n = s
  · subst hn
    rw [h.itself]
    exact ⟨rfl, rfl, rfl, rfl, rfl, rfl⟩
  · rw [h.others n hn]
    exact ⟨rfl, rfl, rfl, rfl, rfl, rfl⟩

theorem Chip.Moves.sessions (h : c.Moves s d) (u : TerminalNo) : d.session u = c.session u := by
  unfold Chip.session
  rw [h.keys]

theorem blockLaw_moved (h : c.BlockLaw) (k : c.Moves s d) : d.BlockLaw :=
  blockLaw_congr h (by rw [k.custody]) (by rw [k.custody]) fun n => (k.kept n).1

theorem fitLaw_moved (h : c.FitLaw) (k : c.Moves s d) : d.FitLaw :=
  (fitLaw_iff d).mpr (fitLawFor_congr ((fitLaw_iff c).mp h) (by rw [k.fit]) (by rw [k.fit])
    fun n _ => (k.kept n).2.2.2)

theorem placementLaw_moved (h : c.PlacementLaw) (k : c.Moves s d) : d.PlacementLaw :=
  placementLaw_pages h (fun p => by rw [k.pages]; exact .refl _) fun n => ⟨(k.kept n).2.1, (k.kept n).2.2.1⟩

theorem freeLaw_moved (h : c.FreeLaw) (k : c.Moves s d) (hc : c.stories[s].state ≠ .free)
    (hd : d.stories[s].state ≠ .free) : d.FreeLaw := by
  refine freeLaw_congr h (by rw [k.custody]) fun n => ?_
  by_cases hn : n = s
  · subst hn
    exact ⟨iff_of_false hd hc, fun e => absurd e hc⟩
  · rw [k.others n hn]
    exact ⟨Iff.rfl, fun _ => rfl⟩

theorem tableLaws_moved (h : c.TableLaws) (k : c.Moves s d) (hc : c.stories[s].state ≠ .free)
    (hd : d.stories[s].state ≠ .free) (hb : d.BasketLaw ∧ d.HolderLaw) : d.TableLaws :=
  ⟨freeLaw_moved h.free k hc hd, blockLaw_moved h.block k, hb.1, hb.2, fitLaw_moved h.fit k,
    placementLaw_moved h.placement k⟩

/-- A move that neither freezes nor thaws the story keeps the release law. -/
theorem releaseLaw_moved (h : c.ReleaseLaw) (k : c.Moves s d) (hset : d.stories[s].state = .set ↔ c.stories[s].state = .set) :
    d.ReleaseLaw := by
  refine releaseLaw_congr h (fun p => by rw [k.pages]) fun n => ⟨?_, (k.kept n).2.1⟩
  by_cases hn : n = s
  · subst hn
    exact hset
  · rw [k.others n hn]

theorem storyLaws_moved (h : c.StoryLaws) (k : c.Moves s d) (hc : c.stories[s].state ≠ .free ∧ c.stories[s].state ≠ .set)
    (hd : d.stories[s].state ≠ .free ∧ d.stories[s].state ≠ .set) (hb : d.BasketLaw ∧ d.HolderLaw) : d.StoryLaws := by
  obtain ⟨table, release⟩ := (storyLaws_iff c).mp h
  exact (storyLaws_iff d).mpr ⟨tableLaws_moved table k hc.1 hd.1 hb, releaseLaw_moved release k (iff_of_false hd.2 hc.2)⟩

/-! ## A story in no basket and in nobody's hands -/

/-- The basket and holder laws of every story but `s`, which stands in no basket and in no held set. -/
structure Chip.Apart (s : StoryNo) (c : Chip) : Prop where
  basket : c.BasketLawFor (AllBut s fun _ => True)
  holder : c.HolderLawBut s

theorem sameHolder_others (h : c.Moves s d) (n : StoryNo) (hn : n ≠ s) : c.stories[n].SameHolder d.stories[n] := by
  rw [h.others n hn]
  exact ⟨rfl, rfl, rfl, fun _ => id⟩

theorem sameBasket_others (h : c.Moves s d) (n : StoryNo) (hn : n ≠ s) : c.stories[n].SameBasket d.stories[n] := by
  rw [h.others n hn]
  exact ⟨rfl, rfl, rfl⟩

theorem apart_home (hb : c.BasketLaw) (hh : c.HolderLaw)
    (k : c.stories[s].state ≠ .open_ ∧ c.stories[s].state ≠ .basket) : c.Apart s :=
  ⟨basketLawFor_of_other ((basketLaw_iff c).mp hb) trivial k.2, holderLawBut_of_closed hh k.1⟩

theorem apart_leaveOpen (hb : c.BasketLaw) (hh : c.HolderLaw) (k : c.stories[s].state = .open_) :
    (c.leaveOpen s).Apart s := by
  refine ⟨basketLawFor_congr (basketLawFor_of_other ((basketLaw_iff c).mp hb) trivial ?_) (fun x => ?_)
    fun n hn => sameBasket_others (moves_leaveOpen s c) n hn.2, holderLawBut_leaveOpen hh k⟩
  · rw [k]
    exact nofun
  · unfold Chip.leaveOpen
    extract_lets d c1 c2
    have h2 : c2.desks = c.desks := by
      show c1.desks = c.desks
      show (match c.stories[s].holder with | some t => _ | none => _ : Chip).desks = _
      split <;> rfl
    simp only [mark_fields, onDesk_fields, update_apply, h2]
    split <;> rfl

theorem setBasket_openCount (s : StoryNo) (before : Option StoryNo) (q : List StoryNo) (c : Chip) (x : DeskNo) :
    (c.setBasket s before q).desks[x].openCount = c.desks[x].openCount := by
  unfold Chip.setBasket
  simp only [mark_fields]
  split <;> simp only [mark_fields, onDesk_fields] <;> rw [update_apply] <;> split <;> rfl

/-- The holder law of the others reads nothing of the baskets. -/
theorem holderLawBut_setBasket (before : Option StoryNo) (q : List StoryNo) (h : c.HolderLawBut s) :
    (c.setBasket s before q).HolderLawBut s :=
  have k : c.Moves s (c.setBasket s before q) := moves_of_does (does_setBasket s before q c)
  holderLawBut_congr h (by rw [(does_setBasket s before q c).frame .custody (by decide)]) k.sessions
    (setBasket_openCount s before q c) (sameHolder_others k)

theorem apart_leaveBasket (hb : c.BasketLaw) (hh : c.HolderLaw) (k : c.stories[s].state = .basket) :
    (c.leaveBasket s).Apart s :=
  ⟨basketLawFor_leave ((basketLaw_iff c).mp hb) trivial,
    holderLawBut_setBasket _ _ (holderLawBut_of_closed hh (by rw [k]; exact nofun))⟩

theorem apart_same (h : c.Apart s) (k : c.SameTable d) : d.Apart s :=
  ⟨basketLawFor_congr h.basket (fun x => (k.desks x).1) fun n _ => (k.stories n).sameBasket,
    holderLawBut_congr h.holder (by rw [k.custody]) k.sessions (fun x => (k.desks x).2) fun n _ => (k.stories n).sameHolder⟩

theorem apart_onStory (f : Story → Story) (h : c.Apart s) : (c.onStory s f).Apart s :=
  ⟨basketLawFor_onStory f h.basket, holderLawBut_onStory f h.holder⟩

theorem laws_joinTail (h : c.Apart s) (k : c.stories[s].state = .basket)
    (m : c.stories[s].holder = none ∧ c.stories[s].lease = none) : (c.joinTail s).BasketLaw ∧ (c.joinTail s).HolderLaw := by
  have stories : (c.joinTail s).stories = c.stories := (does_joinTail s c).frame .stories (by decide)
  refine ⟨(basketLaw_iff _).mpr (basketLawFor_joinTail h.basket trivial k), holderLaw_closed (s := s)
    (holderLawBut_setBasket _ _ h.holder) ?_ ?_⟩
  · rw [stories, k]
    exact nofun
  · rw [stories]
    exact m

theorem laws_joinHead (h : c.Apart s) (k : c.stories[s].state = .basket)
    (m : c.stories[s].holder = none ∧ c.stories[s].lease = none) : (c.joinHead s).BasketLaw ∧ (c.joinHead s).HolderLaw := by
  have stories : (c.joinHead s).stories = c.stories := (does_joinHead s c).frame .stories (by decide)
  refine ⟨(basketLaw_iff _).mpr (basketLawFor_joinHead h.basket trivial k), holderLaw_closed (s := s)
    (holderLawBut_setBasket _ _ h.holder) ?_ ?_⟩
  · rw [stories, k]
    exact nofun
  · rw [stories]
    exact m

theorem laws_enterOpen {t : TerminalNo} {y : Session} (h : c.Apart s) (ht : c.custody.held[t].length < 2)
    (hy : c.session t = some y) (hd : y.desk = c.stories[s].desk) :
    (c.enterOpen s t).BasketLaw ∧ (c.enterOpen s t).HolderLaw := by
  refine ⟨(basketLaw_iff _).mpr (basketLawFor_other (s := s) (basketLawFor_congr h.basket (fun x => ?_)
    fun n hn => sameBasket_others (moves_enterOpen s t c) n hn.2) ?_), holderLaw_enterOpen h.holder ht hy hd⟩
  · unfold Chip.enterOpen
    simp only [mark_fields, onDesk_fields, onStory_fields, onCustody_fields, update_apply]
    split <;> rfl
  · rw [(enterOpen_same t).1, update_apply, if_pos rfl]
    exact nofun

theorem laws_home (h : c.Apart s) (k : c.stories[s].state ≠ .open_ ∧ c.stories[s].state ≠ .basket)
    (m : c.stories[s].holder = none ∧ c.stories[s].lease = none) : c.BasketLaw ∧ c.HolderLaw :=
  ⟨(basketLaw_iff c).mpr (basketLawFor_other h.basket k.2), holderLaw_closed h.holder k.1 m⟩

end

end Sys2Proof.Machine
end

section
/-! SUPPORT. The story laws under the custody commands that move a story, under FREE stories taken, and under the fit. -/

namespace Sys2Proof.Machine

/-- The story laws of what a command answers with. -/
def Reply.StoryLaws : Reply → Prop
  | .done d _ => d.StoryLaws
  | .refused _ _ => True

section
variable {c d : Chip} {s : StoryNo}

/-! ## Records moved by the operations of custody -/

theorem leaveOpen_self (s : StoryNo) (c : Chip) :
    (c.leaveOpen s).stories[s] = { c.stories[s] with holder := none, lease := none } := by
  unfold Chip.leaveOpen
  extract_lets d c1 c2
  have h1 : c1.stories = c.stories := by
    show (match c.stories[s].holder with | some t => _ | none => _ : Chip).stories = _
    split <;> rfl
  simp only [mark_fields, onDesk_fields]
  rw [onStory_self, h1]

theorem leaveBasket_stories (s : StoryNo) (c : Chip) : (c.leaveBasket s).stories = c.stories :=
  (does_leaveBasket s c).frame .stories (by decide)

theorem joinTail_stories (s : StoryNo) (c : Chip) : (c.joinTail s).stories = c.stories :=
  (does_joinTail s c).frame .stories (by decide)

theorem joinHead_stories (s : StoryNo) (c : Chip) : (c.joinHead s).stories = c.stories :=
  (does_joinHead s c).frame .stories (by decide)

theorem enterOpen_self (s : StoryNo) (t : TerminalNo) (c : Chip) :
    (c.enterOpen s t).stories[s] = { c.stories[s] with
      state := .open_, holder := some t, lease := c.armedLease c.stories[s].desk } := by
  rw [(enterOpen_same t).1, update_apply, if_pos rfl]

theorem post_stories (k : NoticeKind) (n : Nat) (v : Option Nat) (r : Recipients) (c : Chip) :
    (c.post k n v r).stories = c.stories := (does_post k n v r c).frame .stories (by decide)

theorem not_open_closed (h : c.HolderLaw) (k : c.stories[s].state ≠ .open_) :
    c.stories[s].holder = none ∧ c.stories[s].lease = none := (h.2.1 s).2 k

/-! ## Moves whole -/

theorem moves_returnToHead (s : StoryNo) (c : Chip) : c.Moves s (c.returnToHead s) := by
  unfold Chip.returnToHead
  extract_lets c1
  have h1 : c.Moves s c1 := by
    show c.Moves s (if c.stories[s].state = .open_ then c.leaveOpen s else c)
    split
    · exact moves_leaveOpen s c
    · exact moves_of_does (.refl [] c)
  exact h1.trans ((moves_onStory (fun x => { x with state := .basket }) rfl).trans (moves_joinHead s _))

theorem returnToHead_state (s : StoryNo) (c : Chip) : (c.returnToHead s).stories[s].state = .basket := by
  unfold Chip.returnToHead
  extract_lets c1
  rw [joinHead_stories, onStory_self]

/-- R93: a story that stands in no basket returns to one. -/
theorem tableLaws_returnToHead (h : c.TableLaws) (k : c.stories[s].state ≠ .free ∧ c.stories[s].state ≠ .basket) :
    (c.returnToHead s).TableLaws := by
  refine tableLaws_moved h (moves_returnToHead s c) k.1 (by rw [returnToHead_state]; exact nofun) ?_
  unfold Chip.returnToHead
  extract_lets c1
  have h1 : c1.Apart s ∧ c1.stories[s].holder = none ∧ c1.stories[s].lease = none := by
    show Chip.Apart s (if c.stories[s].state = .open_ then c.leaveOpen s else c) ∧ _
    by_cases ho : c.stories[s].state = .open_
    · have e : c1 = c.leaveOpen s := if_pos ho
      rw [if_pos ho, e, leaveOpen_self]
      exact ⟨apart_leaveOpen h.basket h.holder ho, rfl, rfl⟩
    · have e : c1 = c := if_neg ho
      rw [if_neg ho, e]
      exact ⟨apart_home h.basket h.holder ⟨ho, k.2⟩, not_open_closed h.holder ho⟩
  obtain ⟨apart, closed⟩ := h1
  refine laws_joinHead (apart_onStory _ apart) ?_ ?_
  · rw [onStory_self]
  · rw [onStory_self]
    exact closed

theorem storyLaws_returnToHead (h : c.StoryLaws) (k : c.stories[s].state = .open_) :
    (c.returnToHead s).StoryLaws := by
  obtain ⟨table, release⟩ := (storyLaws_iff c).mp h
  exact (storyLaws_iff _).mpr ⟨tableLaws_returnToHead table (by rw [k]; exact ⟨nofun, nofun⟩),
    releaseLaw_moved release (moves_returnToHead s c) (by rw [returnToHead_state, k]; exact iff_of_false nofun nofun)⟩

theorem moves_freeze (s : StoryNo) (c : Chip) : c.Moves s (c.freeze s) := by
  unfold Chip.freeze
  extract_lets c1
  have h1 : c.Moves s c1 := by
    show c.Moves s (if c.stories[s].state = .basket then c.leaveBasket s else c)
    split
    · exact moves_leaveBasket s c
    · exact moves_of_does (.refl [] c)
  exact h1.trans ((moves_onStory (fun x => { x with state := .set }) rfl).trans (moves_mark _ _))

theorem freeze_state (s : StoryNo) (c : Chip) : (c.freeze s).stories[s].state = .set := by
  unfold Chip.freeze
  extract_lets c1
  simp only [mark_fields]
  rw [onStory_self]

/-- R110 a: a story that nobody holds is frozen. -/
theorem tableLaws_freeze (h : c.TableLaws) (k : c.stories[s].state ≠ .free ∧ c.stories[s].state ≠ .open_) :
    (c.freeze s).TableLaws := by
  refine tableLaws_moved h (moves_freeze s c) k.1 (by rw [freeze_state]; exact nofun) ?_
  unfold Chip.freeze
  extract_lets c1
  have h1 : c1.Apart s ∧ c1.stories = c.stories := by
    show Chip.Apart s (if c.stories[s].state = .basket then c.leaveBasket s else c) ∧ _
    by_cases hb : c.stories[s].state = .basket
    · have e : c1 = c.leaveBasket s := if_pos hb
      rw [if_pos hb, e]
      exact ⟨apart_leaveBasket h.basket h.holder hb, leaveBasket_stories s c⟩
    · have e : c1 = c := if_neg hb
      rw [if_neg hb, e]
      exact ⟨apart_home h.basket h.holder ⟨k.2, hb⟩, rfl⟩
  obtain ⟨apart, stories⟩ := h1
  have frozen := apart_onStory (fun x => { x with state := .set }) apart
  have laws := laws_home frozen (by rw [onStory_self]; exact ⟨nofun, nofun⟩)
    (by rw [onStory_self, stories]; exact not_open_closed h.holder k.2)
  exact basketHolder_same laws (sameTable_mark _ _)

/-! ## SUBMIT, OPEN, SEND, RETURN (R103 to R106) -/

theorem custodyFault_none {a : Admits} {b r : Bool} (h : c.custodyFault a b r = none) : b = true ∧ r = true := by
  unfold Chip.custodyFault at h
  split at h
  · cases h
  · cases b <;> cases r <;> simp_all

theorem storyLaws_submit (h : c.StoryLaws) : c.submit.StoryLaws := by
  obtain ⟨table, release⟩ := (storyLaws_iff c).mp h
  unfold Chip.submit
  split
  · rename_i s d _ _
    split
    · trivial
    · rename_i hfault
      have intake : c.stories[s].state = .intake := of_decide_eq_true (custodyFault_none hfault).1
      split
      · trivial
      · have moves := moves_onStory (c := c) (s := s) (fun x => { x with desk := d, state := .basket }) rfl
        refine storyLaws_moved (s := s) h (moves.trans (moves_joinTail s _)) (by rw [intake]; exact ⟨nofun, nofun⟩) ?_
          (laws_joinTail (apart_onStory _ (apart_home table.basket table.holder (by rw [intake]; exact ⟨nofun, nofun⟩)))
            (by rw [onStory_self]) ?_)
        · rw [joinTail_stories, onStory_self]
          exact ⟨nofun, nofun⟩
        · rw [onStory_self]
          exact not_open_closed table.holder (by rw [intake]; exact nofun)
  · trivial

/-- A caller on a desk is a terminal with a session there. -/
theorem callerOnDesk_session {d : DeskNo} {low : Clearance} {t : TerminalNo} (h : c.callerOnDesk d low = true)
    (ht : c.callerTerminal = some t) : ∃ y, c.session t = some y ∧ y.desk = d := by
  unfold Chip.callerOnDesk at h
  rw [ht] at h
  dsimp only at h
  split at h
  · cases h
  · rename_i y hy
    exact ⟨y, hy, by simpa using (Bool.and_eq_true_iff.mp h).1⟩

theorem callerHoldsTwo_room {t : TerminalNo} (h : ¬c.callerHoldsTwo = true) (ht : c.callerTerminal = some t) :
    c.custody.held[t].length < 2 := by
  unfold Chip.callerHoldsTwo at h
  rw [ht] at h
  simpa using h

theorem storyLaws_openStory (h : c.StoryLaws) : c.openStory.StoryLaws := by
  obtain ⟨table, release⟩ := (storyLaws_iff c).mp h
  unfold Chip.openStory
  split
  · trivial
  · rename_i s _
    split
    · trivial
    · rename_i hfault
      obtain ⟨hstate, hdesk⟩ := custodyFault_none hfault
      have basket : c.stories[s].state = .basket := of_decide_eq_true hstate
      split
      · trivial
      · rename_i t ht
        split
        · trivial
        · rename_i hroom
          obtain ⟨y, hy, hd⟩ := callerOnDesk_session hdesk ht
          have moves := moves_leaveBasket s c
          refine storyLaws_moved (s := s) h (moves.trans (moves_enterOpen s t _)) (by rw [basket]; exact ⟨nofun, nofun⟩)
            (by rw [enterOpen_self]; exact ⟨nofun, nofun⟩)
            (laws_enterOpen (apart_leaveBasket table.basket table.holder basket) ?_ ((moves.sessions t).trans hy) ?_)
          · have held : (c.leaveBasket s).custody = c.custody := (does_leaveBasket s c).frame .custody (by decide)
            rw [held]
            exact callerHoldsTwo_room hroom ht
          · rw [leaveBasket_stories]
            exact hd

theorem storyLaws_sendStory (d : DeskNo) (urgent : Bool) (h : c.StoryLaws)
    (k : c.stories[s].state = .open_ ∨ c.stories[s].state = .basket) : (c.sendStory s d urgent).StoryLaws := by
  obtain ⟨table, release⟩ := (storyLaws_iff c).mp h
  unfold Chip.sendStory
  extract_lets c1 c2
  have h1 : c.Moves s c1 ∧ c1.Apart s ∧ c1.stories[s].holder = none ∧ c1.stories[s].lease = none := by
    by_cases ho : c.stories[s].state = .open_
    · have e : c1 = c.leaveOpen s := if_pos ho
      rw [e, leaveOpen_self]
      exact ⟨moves_leaveOpen s c, apart_leaveOpen table.basket table.holder ho, rfl, rfl⟩
    · have e : c1 = c.leaveBasket s := if_neg ho
      rw [e, leaveBasket_stories]
      exact ⟨moves_leaveBasket s c, apart_leaveBasket table.basket table.holder (k.resolve_left ho),
        not_open_closed table.holder ho⟩
  obtain ⟨moves, apart, closed⟩ := h1
  have moved : c1.Moves s c2 := moves_onStory _ rfl
  refine storyLaws_same (storyLaws_moved (s := s) h (moves.trans (moved.trans (moves_joinTail s c2))) ?_ ?_
    (laws_joinTail (apart_onStory _ apart) ?_ ?_)) (sameTable_post _ _ _ _ _)
  · rcases k with e | e <;> rw [e] <;> exact ⟨nofun, nofun⟩
  · rw [joinTail_stories, onStory_self]
    exact ⟨nofun, nofun⟩
  · rw [onStory_self]
  · rw [onStory_self]
    exact closed

theorem storyLaws_send (h : c.StoryLaws) : c.send.StoryLaws := by
  unfold Chip.send
  split
  · dsimp only
    split
    · trivial
    · rename_i hfault
      split
      · trivial
      · have hstate := (custodyFault_none hfault).1
        simp only [Bool.or_eq_true, decide_eq_true_eq] at hstate
        exact storyLaws_sendStory _ _ h hstate
  · trivial

theorem storyLaws_returnStory (h : c.StoryLaws) : c.returnStory.StoryLaws := by
  unfold Chip.returnStory
  split
  · trivial
  · split
    · trivial
    · rename_i hfault
      exact storyLaws_returnToHead h (of_decide_eq_true (custodyFault_none hfault).1)

end

end Sys2Proof.Machine
end

section
/-! SUPPORT. The story laws under the fit: what no fit touches, staling, runs, and the commands that give a story its
record, its blocks and its style. -/

namespace Sys2Proof.Machine

section
variable {c d e : Chip} {s m : StoryNo} {P : StoryNo → Prop}

/-! ## Stories a fit leaves alone -/

theorem recordFit_other {stop : FitStop} {r : FitRun} (h : m ≠ r.story) :
    (c.recordFit stop r).stories[m] = c.stories[m] := by
  unfold Chip.recordFit
  extract_lets c1 c2
  have h1 : c1.stories[m] = c.stories[m] := by
    simp only [c1, mark_fields]
    exact onStory_ne _ h
  have h2 : c2.stories[m] = c.stories[m] := by
    unfold c2
    split
    · simp only [raise_fields]
      exact h1
    · exact h1
  split
  · split
    · simp only [post_stories]
      exact h2
    · exact h2
  · exact h2

theorem endRun_other {stop : FitStop} {r : FitRun} (h : m ≠ r.story) :
    (c.endRun stop r).stories[m] = c.stories[m] := by
  unfold Chip.endRun
  extract_lets c1
  split
  · unfold Chip.discardFit Chip.joinFitQueue
    simp only [mark_fields, onFit_fields]
    exact onStory_ne _ h
  · exact recordFit_other (by rw [finish_story]; exact h)

theorem startRun_other {rest : List StoryNo} (h : m ≠ s) : (c.startRun s rest).stories[m] = c.stories[m] := by
  unfold Chip.startRun
  extract_lets c1 c2
  have h2 : c2.stories[m] = c.stories[m] := by
    simp only [c2, c1, mark_fields]
    rw [onStory_ne _ h]
    simp only [mark_fields, onFit_fields]
  have hr := selectFont_story c2.fit c2.stories[s].style.font.val (FitRun.begin s c2.stories[s])
  split
  · rename_i r stop e
    rw [e] at hr
    rw [endRun_other (by rw [hr]; exact h), h2]
  · rename_i r e
    rw [e] at hr
    split
    · rw [endRun_other (by rw [hr]; exact h), h2]
    · exact h2

theorem takeFits_busy (n : Nat) (h : ¬(c.cu.service = .running ∧ c.fit.run = none)) : c.takeFits n = c := by
  cases n with
  | zero => rfl
  | succ n => exact if_neg h

theorem takeFits_nil (n : Nat) (h : c.fit.queue = []) : c.takeFits n = c := by
  cases n with
  | zero => rfl
  | succ n =>
    unfold Chip.takeFits
    rw [h]
    split <;> rfl

theorem takeFits_cons {rest : List StoryNo} (n : Nat) (h : c.cu.service = .running ∧ c.fit.run = none)
    (hq : c.fit.queue = s :: rest) : c.takeFits (n + 1) = (c.startRun s rest).takeFits n := by
  show (if _ then _ else _) = _
  rw [if_pos h, hq]

/-- The engine takes STALE stories alone: a CURRENT one stays as it is (R136). -/
theorem takeFits_current (n : Nat) : ∀ {c : Chip}, c.FitLawFor P → c.stories[m].fit = .current →
    (c.takeFits n).stories[m] = c.stories[m] := by
  induction n with
  | zero => exact fun _ _ => rfl
  | succ n ih =>
    intro c h hm
    by_cases hidle : c.cu.service = .running ∧ c.fit.run = none
    · cases hq : c.fit.queue with
      | nil => simp only [takeFits_nil _ hq]
      | cons s rest =>
        have hs : s ∈ c.fit.queue := hq ▸ List.mem_cons_self
        have hstale : c.stories[s].fit = .stale := (h.stale s (h.inside s hs)).mp hs
        have hne : m ≠ s := by
          rintro rfl
          rw [hm] at hstale
          cases hstale
        have hother := startRun_other (c := c) (rest := rest) hne
        simp only [takeFits_cons n hidle hq]
        rw [ih (fitLawFor_startRun h hidle.2 hq) (by rw [hother]; exact hm), hother]
    · simp only [takeFits_busy _ hidle]

theorem fitTake_free (h : c.FitLawFor P) (hm : c.stories[m] = Story.free) : c.fitTake.stories[m] = Story.free := by
  unfold Chip.fitTake
  rw [takeFits_current _ h (by rw [hm]; rfl), hm]

theorem stale_free (hm : c.stories[m] = Story.free) : (c.stale s).stories[m] = Story.free := by
  by_cases e : m = s
  · subst e
    rw [stale_self, hm]
    rfl
  · rw [stale_other s m c e, hm]

theorem staleFonts_free (fonts : Byte) (hm : c.stories[m] = Story.free) :
    (c.staleFonts fonts).stories[m] = Story.free := by
  rw [staleFonts_story, hm]
  split <;> rfl

theorem restale_free (hm : c.stories[m] = Story.free) : (c.restale s).stories[m] = Story.free := by
  unfold Chip.restale
  split
  · exact hm
  · exact stale_free hm

/-! ## The laws under a fit -/

/-- The story laws but the fit law. -/
structure Chip.LawsButFit (c : Chip) : Prop where
  free : c.FreeLaw
  block : c.BlockLaw
  basket : c.BasketLaw
  holder : c.HolderLaw
  placement : c.PlacementLaw
  release : c.ReleaseLaw

theorem storyLaws_butFit (c : Chip) : c.StoryLaws ↔ c.LawsButFit ∧ c.FitLaw :=
  ⟨fun ⟨free, block, basket, holder, fit, placement, release⟩ => ⟨⟨free, block, basket, holder, placement, release⟩, fit⟩,
    fun ⟨h, fit⟩ => ⟨h.free, h.block, h.basket, h.holder, fit, h.placement, h.release⟩⟩

/-- A change of the fit engine: FREE records stay FREE, the others keep their fields outside the fit. -/
structure Chip.Refits (c d : Chip) : Prop where
  does : Chip.Does fitParts c d
  fits : Chip.FitDoes c d
  free : ∀ n : StoryNo, c.stories[n] = Story.free → d.stories[n] = Story.free

theorem Chip.Refits.trans (h : c.Refits d) (k : d.Refits e) : c.Refits e :=
  ⟨h.does.andThen k.does, h.fits.andThen k.fits, fun n hn => k.free n (h.free n hn)⟩

theorem Chip.Refits.story (k : c.Refits d) (n : StoryNo) : d.stories[n] = { c.stories[n] with
    fit := d.stories[n].fit, rerun := d.stories[n].rerun, result := d.stories[n].result,
    fontsUsed := d.stories[n].fontsUsed } := k.fits.outside n

theorem Chip.Refits.sameBasket (k : c.Refits d) (n : StoryNo) : c.stories[n].SameBasket d.stories[n] := by
  rw [k.story]
  exact ⟨rfl, rfl, rfl⟩

theorem Chip.Refits.sameHolder (k : c.Refits d) (n : StoryNo) : c.stories[n].SameHolder d.stories[n] := by
  rw [k.story]
  exact ⟨rfl, rfl, rfl, fun _ => id⟩

theorem Chip.Refits.custody (k : c.Refits d) : d.custody = c.custody := k.does.frame .custody (by decide)

theorem Chip.Refits.desks (k : c.Refits d) : d.desks = c.desks := k.does.frame .desks (by decide)

theorem Chip.Refits.pages (k : c.Refits d) : d.pages = c.pages := k.does.frame .pages (by decide)

theorem Chip.Refits.sessions (k : c.Refits d) (u : TerminalNo) : d.session u = c.session u := by
  unfold Chip.session
  rw [show d.keys = c.keys from k.does.frame .keys (by decide)]

theorem freeLaw_refits (h : c.FreeLaw) (k : c.Refits d) : d.FreeLaw :=
  freeLaw_congr h (by rw [k.custody]) fun n => ⟨by rw [k.story], fun e => by
    have hfree := h.1 n e
    rw [k.free n hfree, hfree]⟩

theorem blockLaw_refits (h : c.BlockLaw) (k : c.Refits d) : d.BlockLaw :=
  blockLaw_congr h (by rw [k.custody]) (by rw [k.custody]) fun n => by rw [k.story]

theorem placementLaw_refits (h : c.PlacementLaw) (k : c.Refits d) : d.PlacementLaw :=
  placementLaw_pages h (fun p => by rw [k.pages]; exact .refl _) fun n => by rw [k.story]; exact ⟨rfl, rfl⟩

theorem releaseLaw_refits (h : c.ReleaseLaw) (k : c.Refits d) : d.ReleaseLaw :=
  releaseLaw_congr h (fun p => by rw [k.pages]) fun n => by rw [k.story]; exact ⟨Iff.rfl, rfl⟩

theorem apart_refits (h : c.Apart s) (k : c.Refits d) : d.Apart s :=
  ⟨basketLawFor_congr h.basket (fun x => by rw [k.desks]) fun n _ => k.sameBasket n,
    holderLawBut_congr h.holder (by rw [k.custody]) k.sessions (fun x => by rw [k.desks]) fun n _ => k.sameHolder n⟩

theorem butFit_refits (h : c.LawsButFit) (k : c.Refits d) : d.LawsButFit :=
  ⟨freeLaw_refits h.free k, blockLaw_refits h.block k,
    (basketLaw_iff d).mpr (basketLawFor_congr ((basketLaw_iff c).mp h.basket) (fun x => by rw [k.desks])
      fun n _ => k.sameBasket n),
    holderLaw_congr h.holder (by rw [k.custody]) k.sessions (fun x => by rw [k.desks]) k.sameHolder,
    placementLaw_refits h.placement k, releaseLaw_refits h.release k⟩

theorem storyLaws_refits (h : c.LawsButFit) (k : c.Refits d) (fit : d.FitLaw) : d.StoryLaws :=
  (storyLaws_butFit d).mpr ⟨butFit_refits h k, fit⟩

theorem refits_fitTake (h : c.FitLawFor P) : c.Refits c.fitTake :=
  ⟨does_fitTake c, fit_fitTake c, fun _ => fitTake_free h⟩

theorem refits_stale (s : StoryNo) (c : Chip) : c.Refits (c.stale s) :=
  ⟨(does_stale s c).mono, fit_stale s c, fun _ => stale_free⟩

theorem refits_restale (s : StoryNo) (c : Chip) : c.Refits (c.restale s) :=
  ⟨(does_restale s c).mono, fit_restale s c, fun _ => restale_free⟩

theorem storyLaws_fitTake (h : c.StoryLaws) : c.fitTake.StoryLaws := by
  obtain ⟨others, fit⟩ := (storyLaws_butFit c).mp h
  have law := (fitLaw_iff c).mp fit
  exact storyLaws_refits others (refits_fitTake law) ((fitLaw_iff _).mpr (fitLawFor_fitTake law))

theorem storyLaws_stale (h : c.StoryLaws) : (c.stale s).StoryLaws := by
  obtain ⟨others, fit⟩ := (storyLaws_butFit c).mp h
  exact storyLaws_refits others (refits_stale s c)
    ((fitLaw_iff _).mpr (fitLawFor_stale ((fitLaw_iff c).mp fit) trivial))

theorem storyLaws_staleStory (h : c.StoryLaws) : (c.staleStory s).StoryLaws := storyLaws_fitTake (storyLaws_stale h)

theorem storyLaws_staleFonts (fonts : Byte) (h : c.StoryLaws) : (c.staleFonts fonts).StoryLaws := by
  obtain ⟨others, fit⟩ := (storyLaws_butFit c).mp h
  exact storyLaws_refits others ⟨(does_staleFonts fonts c).mono, fit_staleFonts fonts c, fun _ => staleFonts_free fonts⟩
    (fitLaw_staleFonts fonts fit)

/-- A story that is not FREE is placed or unplaced, and finds its class in the queue (R134). -/
theorem storyLaws_restaled (h : d.LawsButFit) (hc : c.FitLaw) (hq : d.fit = c.fit)
    (ho : ∀ n : StoryNo, n ≠ s → d.stories[n] = c.stories[n])
    (hf : d.stories[s].fit = c.stories[s].fit) (hm : d.stories[s].rerun = c.stories[s].rerun) :
    (d.restale s).fitTake.StoryLaws := by
  have law := fitLawFor_restale ((fitLaw_iff c).mp hc) trivial hq ho hf hm
  exact storyLaws_fitTake (storyLaws_refits h (refits_restale s d) ((fitLaw_iff _).mpr law))

/-! ## Runs (R137, R148) -/

theorem refits_onFit (f : FitEngine → FitEngine) (c : Chip)
    (h : (f c.fit).widths = c.fit.widths ∧ (f c.fit).mask = c.fit.mask) : c.Refits (c.onFit f) :=
  ⟨(does_onFit c f).mono, .of_same rfl rfl rfl h.1 h.2, fun _ => id⟩

theorem refits_endRun {stop : FitStop} {r : FitRun} (h : c.stories[r.story] ≠ Story.free) : c.Refits (c.endRun stop r) :=
  ⟨does_endRun stop r c, fit_endRun stop r c, fun n hn => by
    refine (endRun_other ?_).trans hn
    rintro rfl
    exact h hn⟩

theorem storyLaws_processWord {r : FitRun} (w : Word) (h : c.StoryLaws) (k : c.fit.run = some r) :
    (c.processWord r w).StoryLaws := by
  obtain ⟨others, fit⟩ := (storyLaws_butFit c).mp h
  have law := (fitLaw_iff c).mp fit
  have hp := process_story c.fit w r
  have ends : ∀ (stop : FitStop) (q : FitRun), q.story = r.story → c.Refits (c.endRun stop q).fitTake := by
    intro stop q e
    have h1 := fitLawFor_of_run (d := c.onFit fun e => { e with run := none }) law k rfl rfl rfl
    rw [← e] at h1
    have h2 := fitLawFor_endRun (c := c.onFit fun e => { e with run := none }) stop q rfl h1 trivial
    refine (refits_endRun fun hq => ?_).trans (refits_fitTake h2)
    have running : c.stories[q.story].fit = .running := (law.running _ trivial).mpr ⟨r, k, e.symm⟩
    rw [hq] at running
    cases running
  refine storyLaws_refits others ?_ (fitLaw_processWord w fit k)
  unfold Chip.processWord
  split
  · rename_i q stop e
    exact ends stop q (by rw [← hp, e])
  · rename_i q e
    split
    · exact ends .exhausted q (by rw [← hp, e])
    · exact refits_onFit _ c ⟨rfl, rfl⟩

theorem storyLaws_fitWord {q : OwnRead} (h : c.StoryLaws) (hq : c.fitWord = some q) (w : Word) :
    (q.after w).StoryLaws := by
  cases ha : c.fit.abandoned with
  | cons p rest =>
    rw [fitWord_abandoned c p rest ha] at hq
    injection hq with hq
    subst hq
    exact storyLaws_same h ⟨fun _ => .refl _, fun _ => .refl _, rfl, fun _ => ⟨rfl, rfl⟩, fun _ => rfl, rfl, rfl⟩
  | nil =>
    unfold Chip.fitWord at hq
    rw [ha] at hq
    obtain ⟨r, hr, hq⟩ := Option.bind_eq_some_iff.mp hq
    obtain ⟨p, _, hq⟩ := Option.map_eq_some_iff.mp hq
    subst hq
    exact storyLaws_processWord w h hr

/-! ## The tables (R130, R131), SET STYLE and REFIT (R108, R135) -/

theorem sameTable_onFit (f : FitEngine → FitEngine) (c : Chip)
    (h : (f c.fit).queue = c.fit.queue ∧ (f c.fit).run = c.fit.run) : c.SameTable (c.onFit f) :=
  ⟨fun _ => .refl _, fun _ => .refl _, rfl, fun _ => ⟨rfl, rfl⟩, fun _ => rfl, h⟩

theorem storyLaws_takeWidth (f : Fin 8) (code : Fin 256) (v : Word) (h : c.StoryLaws) :
    (c.takeWidth f code v).StoryLaws :=
  storyLaws_fitTake (storyLaws_staleFonts _ (storyLaws_same h (sameTable_onFit _ c ⟨rfl, rfl⟩)))

theorem storyLaws_takeFontsPresent (v : Word) (h : c.StoryLaws) : (c.takeFontsPresent v).StoryLaws :=
  storyLaws_fitTake (storyLaws_staleFonts _ (storyLaws_same h (sameTable_onFit _ c ⟨rfl, rfl⟩)))

theorem storyLaws_refit (h : c.StoryLaws) : c.refit.StoryLaws := by
  unfold Chip.refit
  split
  · trivial
  · split
    · trivial
    · exact storyLaws_staleStory h

theorem storyLaws_setStyle (h : c.StoryLaws) : c.setStyle.StoryLaws := by
  unfold Chip.setStyle
  split
  · rename_i s style _ _
    dsimp only
    split
    · trivial
    · rename_i hfault
      have hstate := (custodyFault_none hfault).1
      refine storyLaws_staleStory (storyLaws_same h (sameTable_onStory c s _ ⟨rfl, id, fun e => ?_⟩))
      rw [e] at hstate
      cases hstate
  · trivial

end

end Sys2Proof.Machine
end

section
/-! SUPPORT. The story laws when a story's blocks change (R101, R102), when a FREE story is taken (R100), and when a story
is killed (R107). -/

namespace Sys2Proof.Machine

section
variable {c d : Chip} {s : StoryNo}

/-! ## Blocks given and taken (R101, R102) -/

theorem storyLaws_blocks (h : c.StoryLaws) (hfree : c.stories[s].state ≠ .free)
    (hs : d.stories[s] = { c.stories[s] with blocks := d.stories[s].blocks })
    (hn : ∀ n : StoryNo, n ≠ s → d.stories[n] = c.stories[n])
    (hc : d.custody = { c.custody with owners := d.custody.owners, freeBlocks := d.custody.freeBlocks })
    (hd : Chip.Does [.stories, .custody, .mirror, .unit] c d) (hb : d.BlockLaw) : d.StoryLaws := by
  obtain ⟨table, release⟩ := (storyLaws_iff c).mp h
  have desks : d.desks = c.desks := hd.frame .desks (by decide)
  have pages : d.pages = c.pages := hd.frame .pages (by decide)
  have keys : d.keys = c.keys := hd.frame .keys (by decide)
  have fit : d.fit = c.fit := hd.frame .fit (by decide)
  have story : ∀ n : StoryNo, d.stories[n] = { c.stories[n] with blocks := d.stories[n].blocks } := fun n => by
    by_cases e : n = s
    · subst e
      exact hs
    · rw [hn n e]
  refine (storyLaws_iff d).mpr ⟨⟨freeLaw_congr table.free (by rw [hc]) fun n => ⟨by rw [story], fun e => ?_⟩, hb,
    (basketLaw_iff d).mpr (basketLawFor_congr ((basketLaw_iff c).mp table.basket) (fun x => by rw [desks]) fun n _ => ?_),
    holderLaw_congr table.holder (by rw [hc]) (fun u => by unfold Chip.session; rw [keys]) (fun x => by rw [desks])
      fun n => ?_,
    (fitLaw_iff d).mpr (fitLawFor_congr ((fitLaw_iff c).mp table.fit) (by rw [fit]) (by rw [fit]) fun n _ => ?_),
    placementLaw_pages table.placement (fun p => by rw [pages]; exact .refl _)
      fun n => by rw [story]; exact ⟨rfl, rfl⟩⟩,
    releaseLaw_congr release (fun p => by rw [pages]) fun n => by rw [story]; exact ⟨Iff.rfl, rfl⟩⟩
  · refine hn n ?_
    rintro rfl
    exact hfree e
  · rw [story]
    exact ⟨rfl, rfl, rfl⟩
  · rw [story]
    exact ⟨rfl, rfl, rfl, fun _ => id⟩
  · rw [story]
    exact ⟨rfl, rfl, rfl⟩

theorem blockFault_notFree (h : c.blockFault s = none) : c.stories[s].state ≠ .free := fun e => by
  have hstate := (custodyFault_none h).1
  rw [e] at hstate
  cases hstate

theorem storyLaws_attach (h : c.StoryLaws) : c.attach.StoryLaws := by
  obtain ⟨table, release⟩ := (storyLaws_iff c).mp h
  unfold Chip.attach
  split
  · rename_i s b _ _
    split
    · trivial
    · rename_i hfault
      split
      · trivial
      · rename_i howner
        split
        · trivial
        · rename_i hroom
          extract_lets c1 c2
          have stories : (c2.mark .freeBlocks).stories = update c.stories s fun x => { x with blocks := x.blocks ++ [b] } := by
            simp only [c2, c1, mark_fields, onStory_fields, onCustody_fields]
          have custody : (c2.mark .freeBlocks).custody = { c.custody with
              owners := c.custody.owners.set b (some s), freeBlocks := c.custody.freeBlocks - 1 } := by
            simp only [c2, c1, mark_fields, onStory_fields, onCustody_fields]
          have hdoes : Chip.Does [.stories, .custody, .mirror, .unit] c (c2.mark .freeBlocks) :=
            (((does_onCustody c _ id).andThen (does_onStory c1 s _) (n := [.stories, .custody])).andThen
              (does_mark _ _) (n := [.stories, .custody, .mirror, .unit])).andThen (does_mark _ _)
          have self : (c2.mark .freeBlocks).stories[s] = { c.stories[s] with blocks := c.stories[s].blocks ++ [b] } := by
            simp only [stories, update_apply, if_true]
          have others : ∀ n : StoryNo, n ≠ s → (c2.mark .freeBlocks).stories[n] = c.stories[n] := fun n e => by
            simp only [stories]
            exact update_ne _ _ (Ne.symm e)
          refine storyLaws_staleStory (storyLaws_blocks h (blockFault_notFree hfault) (by rw [self]) others
            (by rw [custody]) hdoes (blockLaw_attach table.block (s := s) (b := b) ?_ (by omega) (by rw [custody])
              (by rw [custody]) (by rw [self]) fun n e => by rw [others n e]))
          simpa using howner
  · trivial

theorem storyLaws_detach (h : c.StoryLaws) : c.detach.StoryLaws := by
  obtain ⟨table, release⟩ := (storyLaws_iff c).mp h
  unfold Chip.detach
  split
  · trivial
  · rename_i s _
    split
    · trivial
    · rename_i hfault
      split
      · trivial
      · rename_i b hlast
        extract_lets c1 c2
        have stories : (c2.mark .freeBlocks).stories = update c.stories s fun x => { x with blocks := x.blocks.dropLast } := by
          simp only [c2, c1, mark_fields, onStory_fields, onCustody_fields]
        have custody : (c2.mark .freeBlocks).custody = { c.custody with
            owners := c.custody.owners.set b none, freeBlocks := c.custody.freeBlocks + 1 } := by
          simp only [c2, c1, mark_fields, onStory_fields, onCustody_fields]
        have hdoes : Chip.Does [.stories, .custody, .mirror, .unit] c (c2.mark .freeBlocks) :=
          (((does_onStory c s _).andThen (does_mark _ _) (n := [.stories, .mirror, .unit])).andThen
            (does_onCustody c1 _ id) (n := [.stories, .custody, .mirror, .unit])).andThen (does_mark _ _)
        have self : (c2.mark .freeBlocks).stories[s] = { c.stories[s] with blocks := c.stories[s].blocks.dropLast } := by
          simp only [stories, update_apply, if_true]
        have others : ∀ n : StoryNo, n ≠ s → (c2.mark .freeBlocks).stories[n] = c.stories[n] := fun n e => by
          simp only [stories]
          exact update_ne _ _ (Ne.symm e)
        exact storyLaws_staleStory (storyLaws_blocks h (blockFault_notFree hfault) (by rw [self]) others
          (by rw [custody]) hdoes (blockLaw_detach table.block hlast (by rw [custody])
            (by rw [custody]) (by rw [self]) fun n e => by rw [others n e]))

/-! ## A FREE story taken (R100) -/

theorem storyLaws_createStory {k : DeskNo} (urgent : Bool) (h : c.StoryLaws) (hs : c.stories[s].state = .free)
    (hcaller : ∀ t, c.callerTerminal = some t → c.custody.held[t].length < 2 ∧ ∃ y, c.session t = some y ∧ y.desk = k) :
    (c.createStory s k urgent).StoryLaws := by
  obtain ⟨table, release⟩ := (storyLaws_iff c).mp h
  have hfree : c.stories[s] = Story.free := table.free.1 s hs
  unfold Chip.createStory
  extract_lets c1 c2 c3
  have m1 : c.Moves s c1 :=
    (moves_onStory (fun x => { x with desk := k, urgent := urgent, stamp := c.clock.count }) rfl).trans (moves_mark _ _)
  have self1 : c1.stories[s] = { c.stories[s] with desk := k, urgent := urgent, stamp := c.clock.count } := by
    simp only [c1, mark_fields]
    rw [onStory_self]
  have custody1 : c1.custody = c.custody := by simp only [c1, mark_fields, onStory_fields]
  have apart1 : c1.Apart s := apart_same (apart_onStory _ (apart_home table.basket table.holder
    (by rw [hs]; exact ⟨nofun, nofun⟩))) (sameTable_mark _ _)
  have caller1 : c1.callerTerminal = c.callerTerminal := by
    unfold Chip.callerTerminal
    simp only [c1, mark_fields, onStory_fields]
  have h2 : c1.Moves s c2 ∧ (c2.BasketLaw ∧ c2.HolderLaw) ∧ c2.stories[s].state ≠ .free ∧ c2.stories[s].state ≠ .set := by
    cases ht : c.callerTerminal with
    | some t =>
      have e2 : c2 = c1.enterOpen s t := by
        unfold c2
        rw [caller1, ht]
      obtain ⟨room, y, hy, hd⟩ := hcaller t ht
      rw [e2, enterOpen_self]
      exact ⟨moves_enterOpen s t c1, laws_enterOpen apart1 (by rw [custody1]; exact room)
        ((m1.sessions t).trans hy) (by rw [self1]; exact hd), nofun, nofun⟩
    | none =>
      have e2 : c2 = c1.onStory s fun x => { x with state := .intake } := by
        unfold c2
        rw [caller1, ht]
      rw [e2, onStory_self]
      refine ⟨moves_onStory _ rfl, laws_home (apart_onStory _ apart1) ?_ ?_, nofun, nofun⟩
      · rw [onStory_self]
        exact ⟨nofun, nofun⟩
      · rw [onStory_self, self1]
        exact not_open_closed table.holder (by rw [hs]; exact nofun)
  obtain ⟨m2, ⟨basket, holder⟩, hfree2, hset2⟩ := h2
  have moves : c.Moves s c2 := m1.trans m2
  have stories3 : c3.stories = c2.stories := by simp only [c3, mark_fields, onCustody_fields]
  have custody3 : c3.custody = { c2.custody with freeStories := c2.custody.freeStories - 1 } := by
    simp only [c3, mark_fields, onCustody_fields]
  have does3 : Chip.Does [.custody, .mirror, .unit] c2 c3 := (does_onCustody c2 _ id).andThen (does_mark _ _)
  have desks3 : c3.desks = c2.desks := does3.frame .desks (by decide)
  have pages3 : c3.pages = c2.pages := does3.frame .pages (by decide)
  have keys3 : c3.keys = c2.keys := does3.frame .keys (by decide)
  have fit3 : c3.fit = c2.fit := does3.frame .fit (by decide)
  have release2 : c2.ReleaseLaw := releaseLaw_moved release moves (iff_of_false hset2 (by rw [hs]; exact nofun))
  refine storyLaws_staleStory ((storyLaws_iff c3).mpr ⟨⟨?_, ?_, ?_, ?_, ?_, ?_⟩, ?_⟩)
  · exact freeLaw_taken table.free hs (by simp only [stories3]; exact hfree2) (by rw [custody3, moves.custody])
      fun n hn => by simp only [stories3]; exact moves.others n hn
  · exact blockLaw_congr (blockLaw_moved table.block moves) (by rw [custody3]) (by rw [custody3])
      fun n => by simp only [stories3]
  · exact (basketLaw_iff c3).mpr (basketLawFor_congr ((basketLaw_iff c2).mp basket) (fun x => by rw [desks3])
      fun n _ => by simp only [stories3]; exact ⟨rfl, rfl, rfl⟩)
  · exact holderLaw_congr holder (by rw [custody3]) (fun u => by unfold Chip.session; rw [keys3])
      (fun x => by rw [desks3]) fun n => by simp only [stories3]; exact ⟨rfl, rfl, rfl, fun _ => id⟩
  · exact (fitLaw_iff c3).mpr (fitLawFor_same ((fitLaw_iff c2).mp (fitLaw_moved table.fit moves)) stories3 fit3)
  · exact placementLaw_pages (placementLaw_moved table.placement moves) (fun p => by rw [pages3]; exact .refl _)
      fun n => by simp only [stories3]; exact ⟨trivial, trivial⟩
  · exact releaseLaw_congr release2 (fun p => by rw [pages3]) fun n => by
      simp only [stories3]
      exact ⟨trivial, trivial⟩

theorem callerSystem_noTerminal (h : c.callerSystem = true) : c.callerTerminal = none := by
  unfold Chip.callerTerminal
  rw [show c.cu.context = .system from of_decide_eq_true h]

theorem lowestFree_free (h : c.lowestFree = some s) : c.stories[s].state = .free := by
  have := List.find?_some h
  exact of_decide_eq_true this

theorem storyLaws_create (h : c.StoryLaws) : c.create.StoryLaws := by
  unfold Chip.create
  split
  · rename_i k urgent _ _
    split
    · trivial
    · rename_i hfault
      split
      · trivial
      · rename_i s hs
        split
        · trivial
        · rename_i hroom
          refine storyLaws_createStory urgent h (lowestFree_free hs) fun t ht => ⟨callerHoldsTwo_room hroom ht, ?_⟩
          rcases Bool.or_eq_true_iff.mp (custodyFault_none hfault).2 with hsystem | hdesk
          · rw [callerSystem_noTerminal hsystem] at ht
            cases ht
          · exact callerOnDesk_session hdesk ht
  · trivial

/-! ## A story killed (R107) -/

/-- The laws of every story but `s`, which stands in no basket, held set, placement list, queue or run. -/
structure Chip.Cleared (s : StoryNo) (c : Chip) : Prop where
  free : c.FreeLaw
  block : c.BlockLaw
  apart : c.Apart s
  fit : c.FitLawFor (AllBut s fun _ => True)
  placement : c.PlacementLaw
  unplaced : c.stories[s].page = none ∧ c.stories[s].hole = 0
  release : c.ReleaseLaw
  notFree : c.stories[s].state ≠ .free

/-- R107 e, f: the blocks of a cleared story are freed, and it takes the FREE values. -/
theorem storyLaws_cleared (h : c.Cleared s) (hs : d.stories = update c.stories s fun _ => Story.free)
    (hc : d.custody = { c.custody with
      owners := c.stories[s].blocks.foldl (fun (m : Vector (Option StoryNo) 8192) (b : BlockNo) => m.set b none)
        c.custody.owners
      freeBlocks := c.custody.freeBlocks + c.stories[s].blocks.length
      freeStories := c.custody.freeStories + 1, reports := d.custody.reports })
    (hd : Chip.Does [.stories, .custody, .mirror, .unit] c d) : d.StoryLaws := by
  have desks : d.desks = c.desks := hd.frame .desks (by decide)
  have pages : d.pages = c.pages := hd.frame .pages (by decide)
  have keys : d.keys = c.keys := hd.frame .keys (by decide)
  have fit : d.fit = c.fit := hd.frame .fit (by decide)
  have self : d.stories[s] = Story.free := by simp only [hs, update_apply, if_true]
  have others : ∀ n : StoryNo, n ≠ s → d.stories[n] = c.stories[n] := fun n e => by
    simp only [hs]
    exact update_ne _ _ (Ne.symm e)
  have hfit : d.FitLawFor (AllBut s fun _ => True) :=
    fitLawFor_congr h.fit (by rw [fit]) (by rw [fit]) fun n hn => by rw [others n hn.2]; exact ⟨rfl, rfl, rfl⟩
  have hbasket : d.BasketLawFor (AllBut s fun _ => True) :=
    basketLawFor_congr h.apart.basket (fun x => by rw [desks]) fun n hn => by
      rw [others n hn.2]
      exact ⟨rfl, rfl, rfl⟩
  have hholder : d.HolderLawBut s :=
    holderLawBut_congr h.apart.holder (by rw [hc]) (fun u => by unfold Chip.session; rw [keys]) (fun x => by rw [desks])
      fun n hn => by
        rw [others n hn]
        exact ⟨rfl, rfl, rfl, fun _ => id⟩
  have page : ∀ n : StoryNo, d.stories[n].page = c.stories[n].page ∧ d.stories[n].hole = c.stories[n].hole := fun n => by
    by_cases e : n = s
    · subst e
      rw [self, h.unplaced.1, h.unplaced.2]
      exact ⟨rfl, rfl⟩
    · rw [others n e]
      exact ⟨rfl, rfl⟩
  refine ⟨freeLaw_freed h.free h.notFree self (by rw [hc]) others,
    blockLaw_killed h.block (by rw [hc]) (by rw [hc]) (by rw [self]; rfl) fun n e => by rw [others n e],
    (basketLaw_iff d).mpr (basketLawFor_other hbasket (by rw [self]; exact nofun)),
    holderLaw_closed hholder (by rw [self]; exact nofun) (by rw [self]; exact ⟨rfl, rfl⟩),
    (fitLaw_iff d).mpr (fitLawFor_current hfit trivial (by rw [self]; rfl) (by rw [self]; rfl)),
    placementLaw_pages h.placement (fun p => by rw [pages]; exact .refl _) page,
    releaseLaw_congr h.release (fun p => by rw [pages]) fun n => ⟨?_, (page n).1⟩⟩
  by_cases e : n = s
  · subst e
    refine iff_of_false (by rw [self]; exact nofun) fun hset => ?_
    obtain ⟨p, hp, _⟩ := (h.release n).mp hset
    rw [h.unplaced.1] at hp
    cases hp
  · rw [others n e]

/-- A killed story leaves the fit, once it has left its page (R107 c, d). -/
theorem fitLawFor_withdrawn (h : c.FitLaw) (hq : d.fit = c.fit)
    (ho : ∀ n : StoryNo, n ≠ s → c.stories[n].SameFit d.stories[n]) (hf : d.stories[s].fit = c.stories[s].fit) :
    (d.withdrawFit s).FitLawFor (AllBut s fun _ => True) := by
  have law := (fitLaw_iff c).mp h
  have ho' : ∀ n : StoryNo, AllBut s (fun _ => True) n → c.stories[n].SameFit d.stories[n] := fun n hn => ho n hn.2
  unfold Chip.withdrawFit
  rw [hf]
  split
  · exact fitLawFor_congr (fitLawFor_of_current law trivial ‹_›) (by rw [hq]) (by rw [hq]) ho'
  · exact fitLawFor_mark _ (fitLawFor_congr (fitLawFor_of_stale law trivial ‹_› rfl) (by simp only [onFit_fields, hq])
      (by simp only [onFit_fields, hq]) ho')
  · obtain ⟨r, hr, e⟩ := (law.running s trivial).mp ‹_›
    subst e
    have apart := fitLawFor_of_run (d := c.onFit (·.abandon)) law hr rfl rfl rfl
    exact fitLawFor_fitTake (fitLawFor_congr apart (by simp only [onFit_fields, hq])
      (by simp only [onFit_fields, hq]) ho')

theorem refits_withdrawn (h : c.FitLaw) (hq : d.fit = c.fit)
    (ho : ∀ n : StoryNo, n ≠ s → c.stories[n].SameFit d.stories[n]) (hf : d.stories[s].fit = c.stories[s].fit) :
    d.Refits (d.withdrawFit s) := by
  have law := (fitLaw_iff c).mp h
  refine ⟨does_withdrawFit s d, fit_withdrawFit s d, fun n hn => ?_⟩
  unfold Chip.withdrawFit
  split
  · exact hn
  · simp only [mark_fields, onFit_fields]
    exact hn
  · rename_i hrun
    obtain ⟨r, hr, e⟩ := (law.running s trivial).mp (hf ▸ hrun)
    subst e
    have apart := fitLawFor_of_run (d := c.onFit (·.abandon)) law hr rfl rfl rfl
    have apart' : (d.onFit (·.abandon)).FitLawFor (AllBut r.story fun _ => True) :=
      fitLawFor_congr apart (by simp only [onFit_fields, hq]) (by simp only [onFit_fields, hq]) fun n hn => ho n hn.2
    exact fitTake_free apart' hn

theorem removePlacement_story (h : c.PlacementLaw) (s n : StoryNo) :
    (c.removePlacement s).stories[n] = if s = n then { c.stories[n] with hole := 0, page := none } else c.stories[n] := by
  unfold Chip.removePlacement
  split
  · rename_i hp
    split
    · rename_i e
      subst e
      have hole := h.2.2.2 s hp
      rw [← hole, ← hp]
    · rfl
  · unfold Chip.removeFrom
    simp only [mark_fields, onStory_fields, onPage_fields]
    exact update_apply ..

theorem placementLaw_removePlacement (h : c.PlacementLaw) (s : StoryNo) : (c.removePlacement s).PlacementLaw := by
  have story := removePlacement_story h s
  cases hp : c.stories[s].page with
  | none =>
    have e : c.removePlacement s = c := by
      unfold Chip.removePlacement
      rw [hp]
    rw [e]
    exact h
  | some p =>
    have e : c.removePlacement s = c.removeFrom p s := by
      unfold Chip.removePlacement
      rw [hp]
    have pages := removeFrom_pages p s c
    rw [← e] at pages
    refine placementLaw_removed h hp (by rw [pages, update_apply, if_pos rfl]) (by rw [pages, update_apply, if_pos rfl])
      (fun q hq => by simp only [pages]; exact update_ne _ _ (Ne.symm hq)) (by rw [story, if_pos rfl]; exact ⟨rfl, rfl⟩)
      fun n hn => by rw [story, if_neg (Ne.symm hn)]; exact ⟨rfl, rfl⟩

theorem removePlacement_pageState (s : StoryNo) (p : PageNo) (c : Chip) :
    (c.removePlacement s).pages[p].state = c.pages[p].state := by
  unfold Chip.removePlacement
  split
  · rfl
  · simp only [removeFrom_pages, update_apply]
    split <;> rfl

/-- R107 c, d: a story in no basket and no held set leaves its page and the fit. -/
theorem cleared_withdrawn {c1 : Chip} (h : c.StoryLaws) (m : c.Moves s c1) (apart : c1.Apart s)
    (hc : c.stories[s].state ≠ .free ∧ c.stories[s].state ≠ .set)
    (hd : c1.stories[s].state ≠ .free ∧ c1.stories[s].state ≠ .set) :
    ((c1.removePlacement s).withdrawFit s).Cleared s := by
  obtain ⟨table, release⟩ := (storyLaws_iff c).mp h
  have placement1 := placementLaw_moved table.placement m
  have fit1 := fitLaw_moved table.fit m
  have story := removePlacement_story placement1 s
  have does : Chip.Does [.pages, .stories, .mirror, .unit] c1 (c1.removePlacement s) := (does_removePlacement s c1).mono
  have custody : (c1.removePlacement s).custody = c1.custody := does.frame .custody (by decide)
  have desks : (c1.removePlacement s).desks = c1.desks := does.frame .desks (by decide)
  have keys : (c1.removePlacement s).keys = c1.keys := does.frame .keys (by decide)
  have fit : (c1.removePlacement s).fit = c1.fit := does.frame .fit (by decide)
  have others : ∀ n : StoryNo, n ≠ s → (c1.removePlacement s).stories[n] = c1.stories[n] := fun n hn => by
    rw [story, if_neg (Ne.symm hn)]
  have self : (c1.removePlacement s).stories[s] = { c1.stories[s] with hole := 0, page := none } := by
    rw [story, if_pos rfl]
  have sameFit : ∀ n : StoryNo, n ≠ s → c1.stories[n].SameFit (c1.removePlacement s).stories[n] := fun n hn => by
    rw [others n hn]
    exact ⟨rfl, rfl, rfl⟩
  have refits := refits_withdrawn fit1 fit sameFit (by rw [self])
  have state : ∀ n : StoryNo, (c1.removePlacement s).stories[n].state = c1.stories[n].state := fun n => by
    rw [story]
    split <;> rfl
  have free : (c1.removePlacement s).FreeLaw :=
    freeLaw_congr (freeLaw_moved table.free m hc.1 hd.1) (by rw [custody]) fun n => ⟨by rw [state], fun hn => by
      refine others n ?_
      rintro rfl
      exact hd.1 hn⟩
  have block : (c1.removePlacement s).BlockLaw :=
    blockLaw_congr (blockLaw_moved table.block m) (by rw [custody]) (by rw [custody]) fun n => by
      rw [story]
      split <;> rfl
  have apartP : (c1.removePlacement s).Apart s :=
    ⟨basketLawFor_congr apart.basket (fun x => by rw [desks]) fun n hn => by
        rw [others n hn.2]
        exact ⟨rfl, rfl, rfl⟩,
      holderLawBut_congr apart.holder (by rw [custody]) (fun u => by unfold Chip.session; rw [keys])
        (fun x => by rw [desks]) fun n hn => by
          rw [others n hn]
          exact ⟨rfl, rfl, rfl, fun _ => id⟩⟩
  have releaseP : (c1.removePlacement s).ReleaseLaw := fun n => by
    simp only [removePlacement_pageState]
    by_cases e : n = s
    · subst e
      rw [self]
      exact iff_of_false hd.2 fun ⟨p, hp, _⟩ => nomatch hp
    · rw [others n e]
      exact releaseLaw_moved release m (iff_of_false hd.2 hc.2) n
  refine ⟨freeLaw_refits free refits, blockLaw_refits block refits, apart_refits apartP refits,
    fitLawFor_withdrawn fit1 fit sameFit (by rw [self]), placementLaw_refits (placementLaw_removePlacement placement1 s) refits,
    ?_, releaseLaw_refits releaseP refits, ?_⟩
  · rw [refits.story, self]
    exact ⟨rfl, rfl⟩
  · rw [refits.story, state]
    exact hd.1

theorem freeAll_fields (l : List BlockNo) (c : Chip) :
    (c.freeAll l).stories = c.stories ∧ (c.freeAll l).custody = { c.custody with
      owners := l.foldl (fun (m : Vector (Option StoryNo) 8192) (b : BlockNo) => m.set b none) c.custody.owners
      freeBlocks := c.custody.freeBlocks + l.length } := by
  unfold Chip.freeAll
  extract_lets c1
  split
  · exact ⟨rfl, rfl⟩
  · simp only [mark_fields]
    exact ⟨rfl, rfl⟩

theorem storyLaws_killStory (h : c.StoryLaws)
    (hs : c.stories[s].state = .intake ∨ c.stories[s].state = .basket ∨ c.stories[s].state = .open_) :
    (c.killStory s).StoryLaws := by
  obtain ⟨table, release⟩ := (storyLaws_iff c).mp h
  have hc : c.stories[s].state ≠ .free ∧ c.stories[s].state ≠ .set := by
    rcases hs with e | e | e <;> rw [e] <;> exact ⟨nofun, nofun⟩
  unfold Chip.killStory
  extract_lets x c1 c2 c3 c4
  have h1 : c.Moves s c1 ∧ c1.Apart s ∧ c1.stories[s].state = c.stories[s].state := by
    rcases hs with e | e | e
    · have e1 : c1 = c := by
        show (match x.state, x.holder with | .open_, some t => _ | .basket, _ => _ | _, _ => _) = c
        rw [show x.state = .intake from e]
      rw [e1]
      exact ⟨moves_of_does (.refl [] c), apart_home table.basket table.holder (by rw [e]; exact ⟨nofun, nofun⟩), rfl⟩
    · have e1 : c1 = c.leaveBasket s := by
        show (match x.state, x.holder with | .open_, some t => _ | .basket, _ => _ | _, _ => _) = _
        rw [show x.state = .basket from e]
      rw [e1, leaveBasket_stories]
      exact ⟨moves_leaveBasket s c, apart_leaveBasket table.basket table.holder e, rfl⟩
    · obtain ⟨t, _, ht, _, _⟩ := (table.holder.2.1 s).1 e
      have e1 : c1 = (c.post .killed s.val none (.terminal t)).leaveOpen s := by
        show (match x.state, x.holder with | .open_, some t => _ | .basket, _ => _ | _, _ => _) = _
        rw [show x.state = .open_ from e, show x.holder = some t from ht]
      have posted : c.Moves s (c.post .killed s.val none (.terminal t)) := moves_of_does (does_post _ _ _ _ _)
      have laws := tableLaws_same table (sameTable_post .killed s.val none (.terminal t) c)
      rw [e1, leaveOpen_self]
      simp only [post_stories]
      exact ⟨posted.trans (moves_leaveOpen s _),
        apart_leaveOpen laws.basket laws.holder (by simp only [post_stories]; exact e), trivial⟩
  obtain ⟨moves, apart, state⟩ := h1
  have cleared := cleared_withdrawn h moves apart hc (by rw [state]; exact hc)
  have blocks : ((c1.removePlacement s).withdrawFit s).stories[s].blocks = x.blocks := by
    have fitted : _ = _ := (fit_withdrawFit s (c1.removePlacement s)).outside s
    rw [fitted, removePlacement_story (placementLaw_moved table.placement moves), if_pos rfl]
    exact (moves.kept s).1
  have freed := freeAll_fields x.blocks ((c1.removePlacement s).withdrawFit s)
  refine storyLaws_cleared (d := c4.mark .freeStories) cleared ?_ ?_ ?_
  · simp only [c4, c3, mark_fields, onCustody_fields, onStory_fields]
    rw [show c2.stories = _ from freed.1]
  · simp only [c4, c3, mark_fields, onCustody_fields, onStory_fields]
    rw [show c2.custody = _ from freed.2, blocks]
  · have freedDoes : Chip.Does [.custody, .mirror, .unit] _ c2 := does_freeAll x.blocks _
    have taken : Chip.Does [.stories, .mirror, .unit] c2 c3 := (does_onStory c2 s _).andThen (does_mark _ _)
    have counted : Chip.Does [.custody] c3 c4 := does_onCustody c3 _ fun h => List.Pairwise.filter _ h
    exact (((freedDoes.andThen taken (n := [.stories, .custody, .mirror, .unit])).andThen counted
      (n := [.stories, .custody, .mirror, .unit])).andThen (does_mark _ _))

theorem storyLaws_kill (h : c.StoryLaws) : c.kill.StoryLaws := by
  unfold Chip.kill
  split
  · trivial
  · dsimp only
    split
    · trivial
    · rename_i hfault
      have hstate := (custodyFault_none hfault).1
      simp only [Bool.or_eq_true, decide_eq_true_eq, or_assoc] at hstate
      exact storyLaws_killStory h hstate

end

end Sys2Proof.Machine
end

section
/-! SUPPORT. The story laws under the page commands, at the setting link and at the clock's pulse. -/

namespace Sys2Proof.Machine

section
variable {c d : Chip} {s : StoryNo} {p : PageNo}

/-! ## Placements (R156, R157) -/

theorem page_of_free (h : c.FreeLaw) (hs : c.stories[s].state = .free) : c.stories[s].page = none := by
  rw [h.1 s hs]
  rfl

/-- A story that is not FREE takes another page and hole: the laws that read neither stay. -/
theorem lawsButFit_replaced (h : c.StoryLaws) (hfree : c.stories[s].state ≠ .free)
    (hs : d.stories[s] = { c.stories[s] with page := d.stories[s].page, hole := d.stories[s].hole })
    (hn : ∀ n : StoryNo, n ≠ s → d.stories[n] = c.stories[n])
    (hd : Chip.Does [.stories, .pages, .mirror, .unit] c d) (hp : d.PlacementLaw) (hr : d.ReleaseLaw) : d.LawsButFit := by
  obtain ⟨table, release⟩ := (storyLaws_iff c).mp h
  have custody : d.custody = c.custody := hd.frame .custody (by decide)
  have desks : d.desks = c.desks := hd.frame .desks (by decide)
  have keys : d.keys = c.keys := hd.frame .keys (by decide)
  have story : ∀ n : StoryNo, d.stories[n] =
      { c.stories[n] with page := d.stories[n].page, hole := d.stories[n].hole } := fun n => by
    by_cases e : n = s
    · subst e
      exact hs
    · rw [hn n e]
  refine ⟨freeLaw_congr table.free (by rw [custody]) fun n => ⟨by rw [story], fun e => hn n ?_⟩,
    blockLaw_congr table.block (by rw [custody]) (by rw [custody]) fun n => by rw [story],
    (basketLaw_iff d).mpr (basketLawFor_congr ((basketLaw_iff c).mp table.basket) (fun x => by rw [desks]) fun n _ => ?_),
    holderLaw_congr table.holder (by rw [custody]) (fun u => by unfold Chip.session; rw [keys]) (fun x => by rw [desks])
      fun n => ?_, hp, hr⟩
  · rintro rfl
    exact hfree e
  · rw [story]
    exact ⟨rfl, rfl, rfl⟩
  · rw [story]
    exact ⟨rfl, rfl, rfl, fun _ => id⟩

theorem placed_not_out (h : c.ReleaseLaw) (hs : c.stories[s].page = some p) (hp : c.pages[p].state = .makeup) :
    c.stories[s].state ≠ .set := fun hset => by
  obtain ⟨q, hq, hout⟩ := (h s).mp hset
  rw [hs] at hq
  injection hq with hq
  subst hq
  rw [hp] at hout
  rcases hout with e | e | e <;> cases e

theorem storyLaws_placeStory {hole : Nat} (h : c.StoryLaws) (hpage : c.stories[s].page = none)
    (hs : c.stories[s].state ≠ .free ∧ c.stories[s].state ≠ .set) (hp : c.pages[p].state = .makeup)
    (hroom : c.pages[p].placements.length < 16) : (c.placeStory p s hole).StoryLaws := by
  obtain ⟨table, release⟩ := (storyLaws_iff c).mp h
  unfold Chip.placeStory
  extract_lets c1 c2
  have pages : c2.pages = update c.pages p fun x => { x with placements := x.placements ++ [{ story := s, hole := hole }] } := by
    simp only [c2, c1, mark_fields, onStory_fields, onPage_fields]
  have stories : c2.stories = update c.stories s fun x => { x with page := some p, hole := hole } := by
    simp only [c2, c1, mark_fields, onStory_fields, onPage_fields]
  have does : Chip.Does [.stories, .pages, .mirror, .unit] c c2 :=
    (((does_onPage c p _).andThen (does_mark _ _) (n := [.pages, .mirror, .unit])).andThen
      (does_onStory c1 s _) (n := [.stories, .pages, .mirror, .unit])).andThen (does_mark _ _)
  have fit : c2.fit = c.fit := does.frame .fit (by decide)
  have self : c2.stories[s] = { c.stories[s] with page := some p, hole := hole } := by
    simp only [stories, update_apply, if_true]
  have others : ∀ n : StoryNo, n ≠ s → c2.stories[n] = c.stories[n] := fun n e => by
    simp only [stories]
    exact update_ne _ _ (Ne.symm e)
  have page : ∀ q : PageNo, c2.pages[q].state = c.pages[q].state := fun q => by
    simp only [pages, update_apply]
    split <;> rfl
  have placement : c2.PlacementLaw := placementLaw_placed (hole := hole) table.placement hpage hroom
    (by simp only [pages, update_apply, if_true]) (by rw [page, hp]; exact nofun)
    (fun q e => by simp only [pages]; exact update_ne _ _ (Ne.symm e)) (by rw [self]; exact ⟨rfl, rfl⟩)
    fun n e => by rw [others n e]; exact ⟨rfl, rfl⟩
  have releases : c2.ReleaseLaw := fun n => by
    simp only [page]
    by_cases e : n = s
    · subst e
      rw [self]
      refine iff_of_false hs.2 fun ⟨q, hq, hout⟩ => ?_
      injection hq with hq
      subst hq
      rw [hp] at hout
      rcases hout with e | e | e <;> cases e
    · rw [others n e]
      exact release n
  exact storyLaws_restaled (lawsButFit_replaced h hs.1 (by rw [self]) others does placement releases) table.fit fit others
    (by rw [self]) (by rw [self])

theorem storyLaws_place (h : c.StoryLaws) : c.place.StoryLaws := by
  unfold Chip.place
  split
  · rename_i p s hole _ _ _
    split
    · trivial
    · rename_i hfault
      have makeup : c.pages[p].state = .makeup := of_decide_eq_true (pageFault_none hfault)
      split
      · trivial
      · rename_i hstate
        split
        · trivial
        · rename_i hpage
          split
          · trivial
          · rename_i hroom
            exact storyLaws_placeStory h (by simpa using hpage) (not_or.mp hstate) makeup (Nat.lt_of_not_le hroom)
  · trivial

theorem storyLaws_unplaceStory (h : c.StoryLaws) (hpage : c.stories[s].page = some p)
    (hp : c.pages[p].state = .makeup) : (c.unplaceStory p s).StoryLaws := by
  obtain ⟨table, release⟩ := (storyLaws_iff c).mp h
  have pages := removeFrom_pages p s c
  have stories : (c.removeFrom p s).stories = update c.stories s fun x => { x with hole := 0, page := none } := by
    unfold Chip.removeFrom
    simp only [mark_fields, onStory_fields, onPage_fields]
  have does : Chip.Does [.stories, .pages, .mirror, .unit] c (c.removeFrom p s) := (does_removeFrom p s c).mono
  have fit : (c.removeFrom p s).fit = c.fit := does.frame .fit (by decide)
  have self : (c.removeFrom p s).stories[s] = { c.stories[s] with hole := 0, page := none } := by
    simp only [stories, update_apply, if_true]
  have others : ∀ n : StoryNo, n ≠ s → (c.removeFrom p s).stories[n] = c.stories[n] := fun n e => by
    simp only [stories]
    exact update_ne _ _ (Ne.symm e)
  have page : ∀ q : PageNo, (c.removeFrom p s).pages[q].state = c.pages[q].state := fun q => by
    simp only [pages, update_apply]
    split <;> rfl
  have placement : (c.removeFrom p s).PlacementLaw := placementLaw_removed table.placement hpage
    (by simp only [pages, update_apply, if_true]) (page p)
    (fun q e => by simp only [pages]; exact update_ne _ _ (Ne.symm e)) (by rw [self]; exact ⟨rfl, rfl⟩)
    fun n e => by rw [others n e]; exact ⟨rfl, rfl⟩
  have releases : (c.removeFrom p s).ReleaseLaw := fun n => by
    simp only [page]
    by_cases e : n = s
    · subst e
      rw [self]
      exact iff_of_false (placed_not_out release hpage hp) fun ⟨q, hq, _⟩ => nomatch hq
    · rw [others n e]
      exact release n
  have notFree : c.stories[s].state ≠ .free := fun e => by
    rw [page_of_free table.free e] at hpage
    cases hpage
  exact storyLaws_restaled (lawsButFit_replaced h notFree (by rw [self]) others does placement releases) table.fit fit
    others (by rw [self]) (by rw [self])

theorem storyLaws_unplace (h : c.StoryLaws) : c.unplace.StoryLaws := by
  obtain ⟨table, release⟩ := (storyLaws_iff c).mp h
  unfold Chip.unplace
  split
  · rename_i p s _ _
    split
    · trivial
    · rename_i hfault
      split
      · rename_i hany
        obtain ⟨e, he, hstory⟩ := List.any_eq_true.mp hany
        exact storyLaws_unplaceStory h ((table.placement.2.1 s p).mpr ⟨e, he, of_decide_eq_true hstory⟩)
          (of_decide_eq_true (pageFault_none hfault))
      · trivial
  · trivial

/-! ## PAGE OPEN, SET CLOSE, PAGE CLEAR (R154, R155, R158) -/

theorem empty_page (h : c.PlacementLaw) (hp : c.pages[p].state = .empty) : c.pages[p].placements = [] := by
  rw [(h.1 p).2.2 hp]
  rfl

theorem storyLaws_pageOpen (h : c.StoryLaws) : c.pageOpen.StoryLaws := by
  unfold Chip.pageOpen
  split
  · rename_i p d _ _
    split
    · trivial
    · rename_i hfault
      have empty : c.pages[p].state = .empty := of_decide_eq_true (pageFault_none hfault)
      refine storyLaws_same h ((sameTable_onPage c p _ ⟨rfl, fun e => PageState.noConfusion e, iff_of_false ?_ ?_⟩).trans
        (sameTable_mark _ _))
      · rintro (e | e | e) <;> cases e
      · unfold Page.Out
        rw [empty]
        rintro (e | e | e) <;> cases e
  · trivial

theorem storyLaws_setClose (h : c.StoryLaws) : c.setClose.StoryLaws := by
  unfold Chip.setClose
  split
  · trivial
  · rename_i p _
    split
    · trivial
    · rename_i hfault
      have hstate := pageFault_none hfault
      refine storyLaws_same h ((sameTable_onPage c p _ ⟨rfl, fun e => ?_, Iff.rfl⟩).trans (sameTable_mark _ _))
      rw [show c.pages[p].state = .empty from e] at hstate
      cases hstate

theorem storyLaws_pageClear (h : c.StoryLaws) : c.pageClear.StoryLaws := by
  unfold Chip.pageClear
  split
  · trivial
  · rename_i p _
    split
    · trivial
    · rename_i hfault
      split
      · rename_i hlist
        have makeup : c.pages[p].state = .makeup := of_decide_eq_true (pageFault_none hfault)
        refine storyLaws_same h ((sameTable_onPage c p (fun _ => Page.empty) ⟨hlist.symm, fun _ => Or.inr rfl,
          iff_of_false ?_ ?_⟩).trans (sameTable_mark _ _))
        · rintro (e | e | e) <;> cases e
        · unfold Page.Out
          rw [makeup]
          rintro (e | e | e) <;> cases e
      · trivial

/-! ## RELEASE and REPLATE (R161, R166) -/

theorem tableLaws_onPage (f : Page → Page) (h : c.TableLaws) (hf : (f c.pages[p]).placements = c.pages[p].placements)
    (he : (f c.pages[p]).state ≠ .empty) : (c.onPage p f).TableLaws := by
  refine ⟨h.free, h.block, h.basket, h.holder, h.fit, placementLaw_congr h.placement (fun q => ?_) fun n => ⟨rfl, rfl⟩⟩
  rw [onPage_pages]
  split
  · rename_i e
    subst e
    exact ⟨hf, fun k => absurd k he⟩
  · exact ⟨rfl, (h.placement.1 q).2.2⟩

/-- Stories nobody holds are frozen one after the other (R161). -/
theorem tableLaws_freezeAll (l : List Placement) : ∀ {c : Chip}, c.TableLaws →
    (∀ e ∈ l, c.stories[e.story].state ≠ .free ∧ c.stories[e.story].state ≠ .open_) →
    (l.foldl (fun c e => c.freeze e.story) c).TableLaws ∧ ∀ n : StoryNo,
      ((l.foldl (fun c e => c.freeze e.story) c).stories[n].state = .set ↔
        (∃ e ∈ l, e.story = n) ∨ c.stories[n].state = .set) ∧
      (l.foldl (fun c e => c.freeze e.story) c).stories[n].page = c.stories[n].page := by
  induction l with
  | nil => exact fun h _ => ⟨h, fun n => ⟨by simp, rfl⟩⟩
  | cons e l ih =>
    intro c h hl
    have moves := moves_freeze e.story c
    have state : ∀ n : StoryNo, (c.freeze e.story).stories[n].state =
        if n = e.story then .set else c.stories[n].state := fun n => by
      split
      · rename_i k
        subst k
        exact freeze_state _ c
      · rw [moves.others n ‹_›]
    obtain ⟨laws, story⟩ := ih (tableLaws_freeze h (hl e List.mem_cons_self)) fun k hk => by
      rw [state]
      split
      · exact ⟨nofun, nofun⟩
      · exact hl k (List.mem_cons_of_mem _ hk)
    refine ⟨laws, fun n => ⟨(story n).1.trans ?_, (story n).2.trans (moves.kept n).2.1⟩⟩
    rw [state]
    by_cases k : n = e.story
    · subst k
      simp
    · simp [k, Ne.symm k]

theorem storyLaws_releasePage (h : c.StoryLaws)
    (hopen : ∀ e ∈ c.pages[p].placements, c.stories[e.story].state ≠ .open_) : (c.releasePage p).StoryLaws := by
  obtain ⟨table, release⟩ := (storyLaws_iff c).mp h
  have hl : ∀ e ∈ c.pages[p].placements, c.stories[e.story].state ≠ .free ∧ c.stories[e.story].state ≠ .open_ :=
    fun e he => by
      refine ⟨fun hfree => ?_, hopen e he⟩
      have placed := (table.placement.2.1 e.story p).mpr ⟨e, he, rfl⟩
      rw [page_of_free table.free hfree] at placed
      cases placed
  obtain ⟨frozen, story⟩ := tableLaws_freezeAll c.pages[p].placements table hl
  have pages : (c.pages[p].placements.foldl (fun c e => c.freeze e.story) c).pages = c.pages :=
    (does_freezeAll _ c).frame .pages (by decide)
  unfold Chip.releasePage
  extract_lets c1 c2
  have laws2 : c2.TableLaws := tableLaws_onPage _ frozen rfl nofun
  have release2 : c2.ReleaseLaw := fun n => by
    have page : ∀ q : PageNo, c2.pages[q].state = if p = q then .queued else c.pages[q].state := fun q => by
      refine (congrArg Page.state (onPage_pages ..)).trans ?_
      split
      · rfl
      · rw [show c1.pages = c.pages from pages]
    refine (story n).1.trans ?_
    rw [show c2.stories[n].page = c.stories[n].page from (story n).2, release n, ← table.placement.2.1 n p]
    simp only [page]
    constructor
    · rintro (hp | ⟨q, hq, hout⟩)
      · exact ⟨p, hp, by simp⟩
      · refine ⟨q, hq, ?_⟩
        split
        · exact Or.inl rfl
        · exact hout
    · rintro ⟨q, hq, hout⟩
      by_cases e : p = q
      · subst e
        exact Or.inl hq
      · rw [if_neg e] at hout
        exact Or.inr ⟨q, hq, hout⟩
  have done : Chip.Does [.outputQueue, .mirror, .unit, .screens, .noticeWriter] c2
      ((((c2.queueTail p).mark (.page p)).mark .outputCount).post .released p.number none (.desk c2.pages[p].desk)) :=
    ((((does_queueTail p c2).andThen (does_mark _ _) (n := [.outputQueue, .mirror, .unit])).andThen (does_mark _ _)
      (n := [.outputQueue, .mirror, .unit])).andThen (does_post _ _ _ _ _))
  exact storyLaws_same ((storyLaws_iff c2).mpr ⟨laws2, release2⟩) (sameTable_of_does done)

theorem releaseFault_notOpen {force : Bool} (h : c.releaseFault p force = none) :
    ∀ e ∈ c.pages[p].placements, c.stories[e.story].state ≠ .open_ := by
  unfold Chip.releaseFault at h
  dsimp only at h
  split at h
  · cases h
  split at h
  · cases h
  split at h
  · cases h
  · rename_i hnone
    intro e he
    simpa using List.find?_eq_none.mp hnone e he

theorem storyLaws_release (h : c.StoryLaws) : c.release.StoryLaws := by
  unfold Chip.release
  split
  · split
    · trivial
    split
    · trivial
    · rename_i hrelease
      exact storyLaws_releasePage h (releaseFault_notOpen hrelease)
  · trivial

/-- SET stories return to their baskets one after the other (R166 e). -/
theorem tableLaws_returnAll (l : List Placement) : ∀ {c : Chip}, c.TableLaws → (l.map (·.story)).Nodup →
    (∀ e ∈ l, c.stories[e.story].state = .set) →
    (l.foldl (fun c e => c.returnToHead e.story) c).TableLaws ∧ ∀ n : StoryNo,
      ((l.foldl (fun c e => c.returnToHead e.story) c).stories[n].state = .set ↔
        (¬∃ e ∈ l, e.story = n) ∧ c.stories[n].state = .set) ∧
      (l.foldl (fun c e => c.returnToHead e.story) c).stories[n].page = c.stories[n].page := by
  induction l with
  | nil => exact fun h _ _ => ⟨h, fun n => ⟨by simp, rfl⟩⟩
  | cons e l ih =>
    intro c h hnodup hl
    have moves := moves_returnToHead e.story c
    have hset := hl e List.mem_cons_self
    obtain ⟨hnot, hrest⟩ := List.nodup_cons.mp hnodup
    obtain ⟨laws, story⟩ := ih (tableLaws_returnToHead h (by rw [hset]; exact ⟨nofun, nofun⟩)) hrest fun k hk => by
      have hne : k.story ≠ e.story := fun x => hnot (List.mem_map.mpr ⟨k, hk, x⟩)
      rw [moves.others _ hne]
      exact hl k (List.mem_cons_of_mem _ hk)
    refine ⟨laws, fun n => ⟨(story n).1.trans ?_, (story n).2.trans (moves.kept n).2.1⟩⟩
    by_cases k : n = e.story
    · subst k
      rw [returnToHead_state]
      simp
    · rw [moves.others n k]
      simp [Ne.symm k]

theorem sameTable_recallPage (p : PageNo) (c : Chip) : c.SameTable (c.recallPage p) := sameTable_of_does (does_recallPage p c)

theorem storyLaws_replatePage (h : c.StoryLaws) (hp : c.pages[p].Out) : (c.replatePage p).StoryLaws := by
  obtain ⟨table, release⟩ := (storyLaws_iff _).mp (storyLaws_same h (sameTable_recallPage p c))
  have pages : (c.recallPage p).pages = c.pages := recallPage_pages p c
  unfold Chip.replatePage
  extract_lets c1
  have laws1 : c1.TableLaws := tableLaws_onPage _ table rfl nofun
  have hlist : c1.pages[p].placements = (c.recallPage p).pages[p].placements := by
    refine (congrArg Page.placements (onPage_pages ..)).trans ?_
    rw [if_pos rfl]
  have hset : ∀ e ∈ c1.pages[p].placements, c1.stories[e.story].state = .set := fun e he => by
    rw [hlist] at he
    exact (release e.story).mpr ⟨p, (table.placement.2.1 e.story p).mpr ⟨e, he, rfl⟩, by rw [pages]; exact hp⟩
  obtain ⟨laws, story⟩ := tableLaws_returnAll c1.pages[p].placements laws1 (laws1.placement.1 p).2.1 hset
  refine storyLaws_same ((storyLaws_iff _).mpr ⟨laws, fun n => ?_⟩) (sameTable_mark _ _)
  have page : ∀ q : PageNo, (c1.pages[p].placements.foldl (fun c e => c.returnToHead e.story) c1).pages[q].state =
      if p = q then .makeup else (c.recallPage p).pages[q].state := fun q => by
    simp only [returnAll_pages]
    refine (congrArg Page.state (onPage_pages ..)).trans ?_
    split <;> rfl
  refine (story n).1.trans ?_
  rw [(story n).2, ← laws1.placement.2.1 n p]
  show (c.recallPage p).stories[n].page ≠ some p ∧ (c.recallPage p).stories[n].state = .set ↔
    ∃ q, (c.recallPage p).stories[n].page = some q ∧ _
  rw [release n]
  simp only [page]
  constructor
  · rintro ⟨hne, q, hq, hout⟩
    have e : p ≠ q := fun e => hne (e ▸ hq)
    exact ⟨q, hq, by simpa only [if_neg e] using hout⟩
  · rintro ⟨q, hq, hout⟩
    by_cases e : p = q
    · subst e
      simp at hout
    · rw [if_neg e] at hout
      exact ⟨fun k => e (Option.some.inj (k.symm.trans hq)), q, hq, hout⟩

theorem storyLaws_replate (h : c.StoryLaws) : c.replate.StoryLaws := by
  unfold Chip.replate
  split
  · trivial
  · dsimp only
    split
    · trivial
    · rename_i hfault
      have hp := pageFault_none hfault
      simp only [Bool.or_eq_true, decide_eq_true_eq, or_assoc] at hp
      exact storyLaws_replatePage h hp

end

end Sys2Proof.Machine
end

section
/-! SUPPORT. The story laws at the setting link, at a pulse, under keys and sessions, under host writes, and so at every
step. -/

namespace Sys2Proof.Machine

section
variable {c d : Chip} {s : StoryNo} {p : PageNo}

/-! ## The setting link (R164, R165, R174 to R184) -/

/-- The page the link has in hand is SETTING. -/
def Chip.HandSetting (c : Chip) : Prop := ∀ p, c.link.page = some p → c.pages[p].state = .setting

theorem handSetting_of_outputLaw (h : c.OutputLaw) : c.HandSetting := fun p => (h.2.2.1 p).mpr

/-- Pages pass between QUEUED, SETTING and SET with their stories SET. -/
theorem sameTable_pageState (st : PageState) (hp : c.pages[p].Out) (hst : st = .queued ∨ st = .setting ∨ st = .set) :
    c.SameTable (c.onPage p fun x => { x with state := st }) := by
  refine sameTable_onPage c p _ ⟨rfl, fun e => ?_, iff_of_true hst hp⟩
  rw [show st = .empty from e] at hst
  rcases hst with k | k | k <;> cases k

theorem sameTable_giveBack (hp : c.pages[p].state = .setting) : c.SameTable (c.giveBack p) :=
  ((sameTable_pageState .queued (Or.inr (Or.inl hp)) (Or.inl rfl)).trans (sameTable_of_does (does_queueHead p _))).trans
    ((sameTable_mark _ _).trans (sameTable_mark _ _))

theorem sameTable_completePage (p : PageNo) (c : Chip) : c.SameTable (c.completePage p) := by
  unfold Chip.completePage
  refine Chip.SameTable.ite (fun hp => ?_) fun _ => .refl c
  exact ((sameTable_pageState .set (Or.inr (Or.inl hp)) (Or.inr (Or.inr rfl))).trans (sameTable_mark _ _)).trans
    ((sameTable_post _ _ _ _ _).trans (sameTable_raise _ _))

theorem sameTable_onLink (f : SettingLink → SettingLink) (c : Chip) : c.SameTable (c.onLink f) :=
  sameTable_of_does (does_onLink c f)

theorem sameTable_linkTo (st : LinkState) (stage : Option LinkStage) (c : Chip) : c.SameTable (c.linkTo st stage) :=
  sameTable_of_does (does_linkTo st stage c)

theorem sameTable_linkFault (h : c.HandSetting) : c.SameTable c.linkFault := by
  unfold Chip.linkFault
  extract_lets named c1 c2 c3
  have h1 : c.SameTable c1 := by
    show c.SameTable (match c.link.page with | some p => c.giveBack p | none => c)
    split
    · exact sameTable_giveBack (h _ ‹_›)
    · exact .refl c
  have h2 : c1.SameTable c2 := by
    show c1.SameTable (match named with | some p => c1.post .linkFault p.number none .everySlot | none => c1)
    clear_value named
    split
    · exact sameTable_post _ _ _ _ _
    · exact .refl c1
  exact ((h1.trans h2).trans (sameTable_raise _ c2)).trans ((sameTable_onLink _ c3).trans (sameTable_linkTo _ _ _))

theorem sameTable_frameFailed (h : c.HandSetting) : c.SameTable c.frameFailed := by
  unfold Chip.frameFailed
  extract_lets c1
  have h1 : c.SameTable c1 := sameTable_onLink _ c
  refine h1.trans (Chip.SameTable.ite (fun _ => ?_) fun _ => sameTable_linkFault (c := c1) h)
  exact (sameTable_onLink _ c1).trans (sameTable_of_does (does_transmit _))

theorem sameTable_frameRejected (h : c.HandSetting) : c.SameTable c.frameRejected :=
  Chip.SameTable.ite (fun _ => sameTable_of_does (does_buildAbandon c)) fun _ => sameTable_frameFailed h

theorem sameTable_completeLink (c : Chip) : c.SameTable c.completeLink := by
  unfold Chip.completeLink
  extract_lets c1
  have h1 : c.SameTable c1 := by
    show c.SameTable (match c.link.page with | some p => c.completePage p | none => c)
    split
    · exact sameTable_completePage _ c
    · exact .refl c
  exact h1.trans ((sameTable_onLink _ c1).trans (sameTable_linkTo _ _ _))

theorem sameTable_frameAccepted (c : Chip) : c.SameTable c.frameAccepted := by
  unfold Chip.frameAccepted
  extract_lets c1
  have h1 : c.SameTable c1 := sameTable_onLink _ c
  refine h1.trans (Chip.SameTable.ite (fun _ => sameTable_of_does (does_buildAbandon c1)) fun _ => ?_)
  split
  · exact .refl c1
  · split
    · exact sameTable_of_does (does_endAbandon c1)
    · exact sameTable_completeLink c1
    · exact (sameTable_onLink _ c1).trans (sameTable_of_does (does_buildNext _))
    · exact sameTable_of_does (does_buildNext c1)

theorem sameTable_answerWord (w : Word) (h : c.HandSetting) : c.SameTable (c.answerWord w) :=
  Chip.SameTable.ite (fun _ => Chip.SameTable.ite (fun _ => sameTable_frameAccepted c)
    fun _ => Chip.SameTable.ite (fun _ => sameTable_of_does (does_frameHeld c)) fun _ => sameTable_frameRejected h)
    fun _ => .refl c

theorem sameTable_linkPulse (h : c.HandSetting) : c.SameTable c.linkPulse :=
  Chip.SameTable.ite (fun _ => sameTable_frameRejected h) fun _ =>
    Chip.SameTable.ite (fun _ => sameTable_onLink _ c) fun _ =>
      Chip.SameTable.ite (fun _ => (sameTable_onLink _ c).trans (sameTable_of_does (does_transmit _))) fun _ =>
        Chip.SameTable.ite (fun _ => sameTable_linkFault h) fun _ => .refl c

theorem sameTable_pageTake (h : c.OutputLaw) : c.SameTable c.pageTake := by
  by_cases ht : c.outputQueue ≠ [] ∧ c.link.state = .idle ∧ c.link.offMark = false
  · obtain ⟨hq, hidle⟩ := ht
    obtain ⟨p, rest, hq⟩ := List.exists_cons_of_ne_nil hq
    have hp : c.pages[p].state = .queued := (h.2.1 p).mp (hq ▸ List.mem_cons_self)
    unfold Chip.pageTake
    rw [hq]
    refine Chip.SameTable.ite (fun _ => ?_) fun _ => .refl c
    have h1 : c.SameTable { c with outputQueue := rest } := sameTable_of_does (does_outputQueue c rest)
    have h2 := sameTable_pageState (c := { c with outputQueue := rest }) .setting (Or.inl hp) (Or.inr (Or.inl rfl))
    exact ((h1.trans h2).trans ((sameTable_mark _ _).trans (sameTable_mark _ _))).trans
      ((sameTable_onLink _ _).trans (sameTable_of_does (does_sendFrame _ _ _)))
  · rw [pageTake_idle ht]
    exact .refl c

theorem sameTable_turnLinkOff (h : c.HandSetting) : c.SameTable c.turnLinkOff := by
  unfold Chip.turnLinkOff
  extract_lets c1
  have h1 : c.SameTable c1 := by
    show c.SameTable (match c.link.page with | some p => (c.giveBack p).withdrawPage p | none => c)
    split
    · exact (sameTable_giveBack (h _ ‹_›)).trans (sameTable_of_does (does_withdrawPage _ _))
    · exact .refl c
  exact h1.trans (sameTable_onLink _ c1)

theorem storyLaws_linkOff (h : c.StoryLaws) (hand : c.HandSetting) : c.linkOff.StoryLaws := by
  unfold Chip.linkOff
  split
  · trivial
  split
  · trivial
  split
  · trivial
  · exact storyLaws_same h (sameTable_linkTo _ _ c)
  · exact storyLaws_same h (sameTable_linkTo _ _ c)
  · exact storyLaws_same h (sameTable_turnLinkOff hand)
  · exact storyLaws_same h (sameTable_turnLinkOff hand)

/-! ## The pulse (R115, R121 to R124, R159) -/

theorem sameTable_makeLate {count : Word} (h : c.pages[p].goesLate count = true) : c.SameTable (c.makeLate p) := by
  refine ((sameTable_onPage c p (fun x => { x with late := true }) ⟨rfl, fun e => ?_, Iff.rfl⟩).trans
    (sameTable_mark _ _)).trans ((sameTable_post _ _ _ _ _).trans (sameTable_raise _ _))
  unfold Page.goesLate at h
  rw [show c.pages[p].state = .empty from e] at h
  simp at h

theorem sameTable_comparePages (c : Chip) : c.SameTable c.comparePages := by
  unfold Chip.comparePages
  generalize List.finRange 96 = l
  exact Chip.SameTable.foldl (fun (c : Chip) (p : PageNo) => if c.pages[p].goesLate c.clock.count then c.makeLate p else c)
    (fun c _ => Chip.SameTable.ite (fun h => sameTable_makeLate h) fun _ => .refl c) l c

/-- A lease stands on OPEN stories alone (R97). -/
theorem open_of_lease (h : c.HolderLaw) (hl : c.stories[s].lease.isSome) : c.stories[s].state = .open_ := by
  refine Classical.byContradiction fun hne => ?_
  rw [(not_open_closed h hne).2] at hl
  cases hl

/-- The lease of a story that has one takes another value. -/
theorem sameTable_lease (f : Story → Story) (hl : c.stories[s].lease.isSome)
    (hf : f c.stories[s] = { c.stories[s] with lease := (f c.stories[s]).lease }) : c.SameTable (c.onStory s f) := by
  refine sameTable_onStory c s f ⟨by rw [hf], fun e => ?_, fun e => ?_⟩
  · rw [e] at hl
    cases hl
  · rw [e] at hl
    cases hl

theorem storyLaws_warnHolder (h : c.StoryLaws) (hl : c.stories[s].lease.isSome) : (c.warnHolder s).StoryLaws := by
  unfold Chip.warnHolder
  extract_lets limit c1
  have h1 : c.SameTable c1 ∧ c1.stories = c.stories := by
    cases hh : c.stories[s].holder with
    | some t =>
      have e : c1 = c.post .idle s.val none (.terminal t) := by
        unfold c1
        rw [hh]
      rw [e]
      exact ⟨sameTable_post _ _ _ _ _, post_stories ..⟩
    | none =>
      have e : c1 = c := by
        unfold c1
        rw [hh]
      rw [e]
      exact ⟨.refl c, rfl⟩
  exact storyLaws_same h (h1.1.trans (sameTable_lease _ (by simp only [h1.2]; exact hl) rfl))

theorem storyLaws_recallStory (h : c.StoryLaws) (hs : c.stories[s].state = .open_) : (c.recallStory s).StoryLaws := by
  unfold Chip.recallStory
  extract_lets holder c1
  have h1 : c1.StoryLaws := storyLaws_returnToHead h hs
  clear_value holder
  split
  · exact storyLaws_same h1 (sameTable_post _ _ _ _ _)
  · exact h1

theorem storyLaws_expireLease (warned : Bool) (h : c.StoryLaws) (hl : c.stories[s].lease.isSome) :
    (c.expireLease s warned).StoryLaws := by
  unfold Chip.expireLease
  split
  · exact storyLaws_recallStory h (open_of_lease ((storyLaws_iff c).mp h).1.holder hl)
  · exact storyLaws_warnHolder h hl

theorem storyLaws_countLease (h : c.StoryLaws) (s : StoryNo) : (c.countLease s).StoryLaws := by
  unfold Chip.countLease
  split
  · exact h
  · rename_i l hl
    extract_lets c1
    have laws : c1.StoryLaws := storyLaws_same h (sameTable_lease _ (by rw [hl]; rfl) rfl)
    split
    · refine storyLaws_expireLease _ laws ?_
      rw [onStory_self]
      rfl
    · exact laws

theorem storyLaws_countLeases (h : c.StoryLaws) : c.countLeases.StoryLaws := by
  unfold Chip.countLeases
  generalize List.finRange 1024 = l
  induction l generalizing c with
  | nil => exact h
  | cons s l ih => exact ih (storyLaws_countLease h s)

theorem sameTable_closeAt (count : Word) (c : Chip) : c.SameTable (c.closeAt count) := by
  cases h : c.clock.closing count with
  | none =>
    rw [closeAt_none h]
    exact .refl c
  | some e =>
    rw [closeAt_some h]
    exact sameTable_of_does (does_closeEdition e c)

theorem storyLaws_clockPulse (h : c.StoryLaws) : c.clockPulse.StoryLaws := by
  unfold Chip.clockPulse
  split
  · rw [runningPulse_eq]
    exact storyLaws_countLeases (storyLaws_same h (((sameTable_of_does (does_onClock c _)).trans (sameTable_mark _ _)).trans
      ((sameTable_closeAt _ _).trans (sameTable_comparePages _))))
  · exact h

/-! ## Keys and sessions (R75 to R85) -/

theorem sameTable_onKeys (t : TerminalNo) (f : KeyRing → KeyRing) (c : Chip)
    (h : (f c.keys[t]).session = c.keys[t].session) : c.SameTable (c.onKeys t f) where
  stories _ := .refl _
  pages _ := .refl _
  custody := rfl
  desks _ := ⟨rfl, rfl⟩
  sessions u := by
    unfold Chip.session
    simp only [onKeys_fields, update_apply]
    split
    · rename_i e
      subst e
      exact h
    · rfl
  fit := ⟨rfl, rfl⟩

theorem takeCode_session (b : Byte) (k : KeyRing) : (k.takeCode b).session = k.session := by
  unfold KeyRing.takeCode
  split
  · rfl
  · split <;> rfl

theorem sameTable_takeCode (t : TerminalNo) (c : Chip) (b : Byte) : c.SameTable (c.takeCode t b) :=
  Chip.SameTable.ite (fun _ => sameTable_of_does (does_acknowledge t c))
    fun _ => sameTable_onKeys t _ c (takeCode_session b _)

theorem sameTable_rearm (c : Chip) (s : StoryNo) : c.SameTable (c.rearm s) :=
  sameTable_onStory c s _ ⟨rfl, fun e => by dsimp only; rw [e]; rfl, fun e => by
    have hl : c.stories[s].lease = none := by rw [e]; rfl
    rw [hl, Option.map_none, ← hl]⟩

theorem sameTable_keysAnswer (t : TerminalNo) (codes : List Byte) (c : Chip) : c.SameTable (c.keysAnswer t codes) := by
  unfold Chip.keysAnswer
  extract_lets before c1 c2 c3
  have h1 : c.SameTable c1 := Chip.SameTable.foldl _ (sameTable_takeCode t) codes c
  have h2 : c1.SameTable c2 := Chip.SameTable.ite (fun _ => .refl c1) fun _ => sameTable_of_does (does_pendKey _ c1)
  have h3 : c2.SameTable c3 := Chip.SameTable.ite (fun _ => .refl c2) fun _ => sameTable_of_does (does_pendKey _ c2)
  exact ((h1.trans h2).trans h3).trans (Chip.SameTable.foldl (fun c s => c.rearm s) sameTable_rearm _ c3)

theorem sameTable_goodAnswer (l : LineNo) (k : AnswerKind) (bytes : List Byte) (v : Visit) (c : Chip) :
    c.SameTable (c.goodAnswer l k bytes v) := by
  unfold Chip.goodAnswer
  extract_lets c1
  have h1 : c.SameTable c1 := sameTable_of_does (does_countGood _ c)
  refine h1.trans ?_
  split
  · exact (sameTable_keysAnswer _ _ c1).trans (sameTable_of_does (does_endVisit l _))
  · exact sameTable_of_does (does_endVisit l c1)
  · exact (sameTable_of_does (does_onLine c1 l _)).trans (sameTable_of_does (does_visitStep l _))
  · exact (sameTable_of_does (does_giveRowBack v c1)).trans (sameTable_of_does (does_onLine _ l _))

theorem sameTable_lineByte (l : LineNo) (b : Byte) (c : Chip) : c.SameTable (c.lineByte l b) := by
  unfold Chip.lineByte
  refine Chip.SameTable.ite (fun _ => ?_) fun _ => .refl c
  dsimp only
  split
  · exact sameTable_of_does (does_missed l c)
  · exact sameTable_of_does (does_onLine c l _)
  · unfold Chip.judge
    split
    · exact .refl c
    · exact Chip.SameTable.ite (fun _ => sameTable_goodAnswer _ _ _ _ c) fun _ => sameTable_of_does (does_missed l c)

theorem sameTable_keyWordWrite {w : OwnWrite} (hw : c.keyWordWrite = some w) : c.SameTable w.after := by
  unfold Chip.keyWordWrite at hw
  split at hw
  · rename_i t _
    split at hw
    · cases hw
    · injection hw with hw
      subst hw
      refine (sameTable_onKeys t _ c ?_).trans ((sameTable_of_does (does_pendKey _ _)).trans
        (Chip.SameTable.ite (fun _ => sameTable_of_does (does_endKeyItem _)) fun _ => .refl _))
      rfl
  · cases hw

theorem sameTable_putWordWrite {w : OwnWrite} (hw : c.putWordWrite = some w) : c.SameTable w.after := by
  unfold Chip.putWordWrite at hw
  split at hw
  · injection hw with hw
    subst hw
    refine ((sameTable_onKeys _ _ c ?_).trans (Chip.SameTable.ite (fun _ => sameTable_raise _ _) fun _ => .refl _)).trans
      ((Chip.SameTable.ite (fun _ => sameTable_raise _ _) fun _ => .refl _).trans (sameTable_of_does (does_endKeyItem _)))
    rfl
  · cases hw

/-- The session of a terminal that holds no story takes another value. -/
theorem storyLaws_onSession (t : TerminalNo) (f : KeyRing → KeyRing) (h : c.StoryLaws)
    (hs : ∀ n : StoryNo, c.stories[n].state = .open_ → c.stories[n].holder ≠ some t) : (c.onKeys t f).StoryLaws := by
  obtain ⟨free, block, basket, ⟨held, holder, number⟩, fit, placement, release⟩ := h
  refine ⟨free, block, basket, ⟨held, fun n => ⟨fun hopen => ?_, (holder n).2⟩, number⟩, fit, placement, release⟩
  obtain ⟨u, y, hu, hy, hd⟩ := (holder n).1 hopen
  refine ⟨u, y, hu, ?_, hd⟩
  have hne : t ≠ u := fun e => hs n hopen (e ▸ hu)
  unfold Chip.session at hy ⊢
  simp only [onKeys_fields, update_apply]
  rw [if_neg hne]
  exact hy

theorem storyLaws_signOn (h : c.StoryLaws) : c.signOn.StoryLaws := by
  obtain ⟨table, _⟩ := (storyLaws_iff c).mp h
  unfold Chip.signOn
  split
  · rename_i t _ _ _ _ _
    split
    · trivial
    split
    · trivial
    · rename_i hnone
      refine storyLaws_same (storyLaws_onSession t _ h fun n hopen hn => ?_) (sameTable_of_does (does_pendKey _ _))
      obtain ⟨u, y, hu, hy, _⟩ := (table.holder.2.1 n).1 hopen
      rw [hn] at hu
      injection hu with hu
      subst hu
      rw [hy] at hnone
      exact hnone rfl
  · trivial

/-- OPEN stories return one after the other (R85 a). -/
theorem storyLaws_returnHeld (l : List StoryNo) : ∀ {c : Chip}, c.StoryLaws → l.Nodup →
    (∀ s ∈ l, c.stories[s].state = .open_) →
    (l.foldl (fun c s => c.returnToHead s) c).StoryLaws ∧
      ∀ n : StoryNo, (l.foldl (fun c s => c.returnToHead s) c).stories[n].state = .open_ →
        n ∉ l ∧ (l.foldl (fun c s => c.returnToHead s) c).stories[n] = c.stories[n] := by
  induction l with
  | nil => exact fun h _ _ => ⟨h, fun n _ => ⟨List.not_mem_nil, rfl⟩⟩
  | cons s l ih =>
    intro c h hnodup hl
    obtain ⟨hnot, hrest⟩ := List.nodup_cons.mp hnodup
    have moves := moves_returnToHead s c
    obtain ⟨laws, story⟩ := ih (storyLaws_returnToHead h (hl s List.mem_cons_self)) hrest fun k hk => by
      have hne : k ≠ s := fun e => hnot (e ▸ hk)
      rw [moves.others k hne]
      exact hl k (List.mem_cons_of_mem _ hk)
    refine ⟨laws, fun n hopen => ?_⟩
    obtain ⟨hn, same⟩ := story n hopen
    have hne : n ≠ s := by
      rintro rfl
      have hstate := returnToHead_state n c
      rw [← same] at hstate
      exact nomatch hopen.symm.trans hstate
    exact ⟨fun hm => (List.mem_cons.mp hm).elim hne hn, same.trans (moves.others n hne)⟩

theorem storyLaws_endSession (t : TerminalNo) (h : c.StoryLaws) : (c.endSession t).StoryLaws := by
  obtain ⟨table, _⟩ := (storyLaws_iff c).mp h
  unfold Chip.endSession
  extract_lets held c1 marked c2
  have hheld : ∀ n : StoryNo, n ∈ held ↔ c.stories[n].state = .open_ ∧ c.stories[n].holder = some t := fun n => by
    rw [← (table.holder.1 t).2.2 n]
    simp [held]
  obtain ⟨laws, story⟩ := storyLaws_returnHeld held h ((List.nodup_finRange 1024).filter _) fun s hs => ((hheld s).mp hs).1
  have returned : c1.StoryLaws := storyLaws_same laws (sameTable_of_does (does_emptyQueue t _))
  have stories : c1.stories = (held.foldl (fun c s => c.returnToHead s) c).stories :=
    (does_emptyQueue t _).frame .stories (by decide)
  have ended : c2.StoryLaws := by
    refine storyLaws_same (storyLaws_onSession t _ returned fun n hopen hn => ?_) (sameTable_of_does (does_pendKey _ _))
    simp only [stories] at hopen hn
    obtain ⟨hnot, same⟩ := story n hopen
    rw [same] at hopen hn
    exact hnot ((hheld n).mpr ⟨hopen, hn⟩)
  split
  · exact storyLaws_same ended (sameTable_of_does (does_pendKey _ _))
  · exact ended

theorem storyLaws_signOff (h : c.StoryLaws) : c.signOff.StoryLaws := by
  unfold Chip.signOff
  split
  · trivial
  · split
    · trivial
    · exact storyLaws_endSession _ h

theorem storyLaws_takeReport (h : c.StoryLaws) : c.takeReport.StoryLaws := by
  unfold Chip.takeReport
  split
  · exact h
  · rename_i s rest _
    extract_lets c1 c2
    have taken : c.SameTable c1 :=
      ⟨fun _ => .refl _, fun _ => .refl _, rfl, fun _ => ⟨rfl, rfl⟩, fun _ => rfl, rfl, rfl⟩
    refine storyLaws_same h (taken.trans (Chip.SameTable.ite (fun _ => .refl c1) fun hfree => ?_))
    have stamped : c1.SameTable c2 :=
      (sameTable_onStory c1 s _ ⟨rfl, id, fun e => absurd (by rw [e]; rfl) hfree⟩).trans (sameTable_mark _ _)
    exact stamped.trans (Chip.SameTable.ite (fun _ => sameTable_rearm c2 s) fun _ => .refl c2)

end

end Sys2Proof.Machine
end

section
/-! SUPPORT. The story laws under host writes, and the proof of O10: every command keeps them in states of the output
law. -/

namespace Sys2Proof.Machine

section
variable {c d : Chip}

/-! ## Host writes -/

/-- The story laws of what a decision accepts. -/
def Decision.StoryLaws : Decision → Prop
  | .accepted d => d.StoryLaws
  | .refused _ => True

theorem takeWord_kept (k : Nat) (v : Word) (d : Desk) :
    (d.takeWord k v).basket = d.basket ∧ (d.takeWord k v).openCount = d.openCount := by
  unfold Desk.takeWord
  split
  · exact ⟨rfl, rfl⟩
  · split
    · exact ⟨rfl, rfl⟩
    · split
      · exact ⟨rfl, rfl⟩
      · split <;> exact ⟨rfl, rfl⟩

theorem sameTable_takeDeskWord (k : Nat) (v : Word) (c : Chip) : c.SameTable (c.takeDeskWord k v) where
  stories _ := .refl _
  pages _ := .refl _
  custody := rfl
  desks x := by
    unfold Chip.takeDeskWord
    simp only [onDesk_fields, update_apply]
    split
    · exact takeWord_kept _ _ _
    · exact ⟨rfl, rfl⟩
  sessions _ := rfl
  fit := ⟨rfl, rfl⟩

theorem storyLaws_reportWrite (b : BlockNo) (h : c.StoryLaws) : (c.reportWrite b).StoryLaws := by
  unfold Chip.reportWrite
  split
  · exact h
  · exact storyLaws_staleStory (storyLaws_same h
      ⟨fun _ => .refl _, fun _ => .refl _, rfl, fun _ => ⟨rfl, rfl⟩, fun _ => rfl, rfl, rfl⟩)

theorem Decision.storyLaws_ite {q : Prop} [Decidable q] {d e : Decision} (hd : d.StoryLaws) (he : e.StoryLaws) :
    (if q then d else e).StoryLaws := by
  split
  · exact hd
  · exact he

theorem storyLaws_decidePartWritten (h : c.StoryLaws) : c.decidePartWritten.StoryLaws := Decision.storyLaws_ite h trivial

theorem storyLaws_decideCell (o : Nat) (x : Context) (v : Word) (h : c.StoryLaws) : (c.decideCell o x v).StoryLaws := by
  unfold Chip.decideCell
  exact Decision.storyLaws_ite trivial
    (Decision.storyLaws_ite (storyLaws_same h (sameTable_of_does (does_onCell c _ _))) h)

theorem storyLaws_decideControl (o : Nat) (x : Context) (v : Word) (h : c.StoryLaws) :
    (c.decideControl o x v).StoryLaws := by
  have hp := storyLaws_decidePartWritten h
  have hc : (Decision.accepted c).StoryLaws := h
  unfold Chip.decideControl
  by_cases h4 : o < 4
  · rw [dif_pos h4]
    exact storyLaws_same h (sameTable_of_does (does_onPath c _))
  · rw [dif_neg h4]
    refine Decision.storyLaws_ite hp (Decision.storyLaws_ite ?_ (Decision.storyLaws_ite ?_ (Decision.storyLaws_ite hp
      (Decision.storyLaws_ite (Decision.storyLaws_ite ?_ hp) (Decision.storyLaws_ite hp (Decision.storyLaws_ite hc
        (Decision.storyLaws_ite (storyLaws_decideCell o x v h) (Decision.storyLaws_ite ?_ (Decision.storyLaws_ite hc
          (Decision.storyLaws_ite ?_ (Decision.storyLaws_ite hc ?_)))))))))))
    · exact storyLaws_same h (sameTable_of_does (does_takeMask v c))
    · exact storyLaws_same h (sameTable_of_does (does_clearCauses v c))
    · exact storyLaws_same h ((sameTable_of_does (does_onPath c _)).trans (sameTable_mark _ _))
    · exact storyLaws_takeFontsPresent v h
    · exact storyLaws_same h (sameTable_takeDeskWord _ v c)
    · exact storyLaws_takeWidth _ _ v h

theorem takeTo_session (n : Fin 64) (k : KeyRing) : (k.takeTo n).session = k.session := rfl

theorem storyLaws_decideWindow (t : TerminalNo) (o : Nat) (v : Word) (h : c.StoryLaws) :
    (c.decideWindow t o v).StoryLaws := by
  unfold Chip.decideWindow
  split
  · exact storyLaws_same h (sameTable_of_does (does_markRow _ _ c))
  · refine Decision.storyLaws_ite (Decision.storyLaws_ite ?_ trivial) (Decision.storyLaws_ite trivial h)
    exact storyLaws_same h ((sameTable_onKeys t _ c (takeTo_session _ _)).trans
      (Chip.SameTable.ite (fun _ => .refl _) fun _ => sameTable_of_does (does_pendKey _ _)))

theorem storyLaws_decide (k : HostAccess) (h : c.StoryLaws) : (c.decide k).StoryLaws := by
  unfold Chip.decide
  split
  · exact storyLaws_decideControl _ _ _ h
  · exact storyLaws_decideWindow _ _ _ h
  · unfold Chip.decideStory
    split
    · trivial
    · exact storyLaws_reportWrite _ h
  · trivial
  · exact h

theorem storyLaws_decideWrite (k : HostAccess) {s : State} (h : s.chip.StoryLaws) :
    (s.decideWrite k).chip.StoryLaws := by
  have hd := storyLaws_decide k h
  unfold State.decideWrite
  split
  · rename_i d e
    rw [e] at hd
    exact storyLaws_same (c := d) hd (sameTable_of_does (does_onPath d fun p => { p with refusalIndication := false }))
  · exact storyLaws_same h (sameTable_of_does ((does_onPath s.chip _).andThen (does_mark _ _)
      (n := [.path, .mirror, .unit])))

theorem storyLaws_decideWrites (l : List HostAccess) : ∀ {s : State}, s.chip.StoryLaws →
    (l.foldl (fun t h => t.decideWrite h) s).chip.StoryLaws := by
  induction l with
  | nil => exact fun h => h
  | cons k l ih => exact fun h => ih (storyLaws_decideWrite k h)

theorem storyLaws_hostWrite {p : Processor} {a : Address} {v : Word} {s t : State} (h : s.chip.StoryLaws)
    (e : hostWrite p a v s = .next t) : t.chip.StoryLaws := by
  unfold hostWrite at e
  injection e with e
  rw [← e]
  split
  · exact h
  · exact storyLaws_decideWrite _ h

end

/-! ## Reset -/

theorem reset_story (n : StoryNo) : Chip.reset.stories[n] = Story.free := Vector.getElem_replicate ..

theorem reset_desk (x : DeskNo) : Chip.reset.desks[x] = Desk.reset := Vector.getElem_replicate ..

theorem reset_owner (b : BlockNo) : Chip.reset.custody.owners[b] = none := Vector.getElem_replicate ..

theorem reset_held (u : TerminalNo) : Chip.reset.custody.held[u] = [] := Vector.getElem_replicate ..

theorem howMany_all {m : Nat} {p : Fin m → Bool} (h : ∀ n, p n = true) : howMany p = m := by
  unfold howMany
  rw [List.filter_eq_self.mpr fun n _ => h n, List.length_finRange]

theorem howMany_none {m : Nat} {p : Fin m → Bool} (h : ∀ n, p n = false) : howMany p = 0 := by
  unfold howMany
  rw [List.filter_eq_nil_iff.mpr fun n _ => by rw [h n]; exact nofun, List.length_nil]

theorem reset_storyLaws : Chip.reset.StoryLaws := by
  have state : ∀ n : StoryNo, Chip.reset.stories[n].state = .free := fun n => by rw [reset_story]; rfl
  have fit : ∀ n : StoryNo, Chip.reset.stories[n].fit = .current := fun n => by rw [reset_story]; rfl
  have page : ∀ n : StoryNo, Chip.reset.stories[n].page = none := fun n => by rw [reset_story]; rfl
  refine ⟨⟨fun n _ => reset_story n, ?_⟩, ⟨fun b n => ?_, fun n => ?_, ?_⟩, fun x => ?_,
    ⟨fun u => ?_, fun n => ⟨fun e => ?_, fun _ => ?_⟩, fun x => ?_⟩,
    ⟨List.nodup_nil, fun n => ?_, List.Pairwise.nil, fun n => ⟨?_, fun e => ?_⟩⟩,
    ⟨fun p => ?_, fun n p => ?_, fun p e he => ?_, fun n _ => ?_⟩, fun n => ?_⟩
  · show 1024 = howMany fun n : StoryNo => decide _
    rw [howMany_all fun n => decide_eq_true (state n)]
  · rw [reset_owner, reset_story]
    exact iff_of_false nofun List.not_mem_nil
  · rw [reset_story]
    exact ⟨List.nodup_nil, Nat.zero_le 48⟩
  · show 8192 = howMany fun b : BlockNo => decide _
    rw [howMany_all fun b => decide_eq_true (reset_owner b)]
  · rw [reset_desk]
    exact ⟨List.nodup_nil, List.Pairwise.nil, fun n => iff_of_false List.not_mem_nil fun h => by
      rw [state] at h
      exact nomatch h.1⟩
  · rw [reset_held]
    exact ⟨List.nodup_nil, Nat.zero_le 2, fun n => iff_of_false List.not_mem_nil fun h => by
      rw [state] at h
      exact nomatch h.1⟩
  · rw [state] at e
    cases e
  · rw [reset_story]
    exact ⟨rfl, rfl⟩
  · show _ = howMany fun n : StoryNo => decide _
    rw [reset_desk, howMany_none fun n => decide_eq_false fun h => ?_]
    · rfl
    · rw [state] at h
      exact nomatch h.1
  · rw [fit]
    exact iff_of_false List.not_mem_nil nofun
  · rw [fit]
    exact iff_of_false nofun fun ⟨r, hr, _⟩ => nomatch hr
  · rw [reset_story] at e
    cases e
  · rw [reset_pages]
    exact ⟨Nat.zero_le 16, List.nodup_nil, fun _ => rfl⟩
  · rw [page, reset_pages]
    exact iff_of_false nofun fun ⟨e, he, _⟩ => List.not_mem_nil he
  · rw [reset_pages] at he
    exact absurd he List.not_mem_nil
  · rw [reset_story]
    rfl
  · rw [state, page]
    exact iff_of_false nofun fun ⟨p, hp, _⟩ => nomatch hp

/-! ## The step -/

/-- The parts the story laws read. -/
def tableParts : List Part := [.stories, .pages, .custody, .desks, .keys, .fit]

theorem storyLaws_done {d : Chip} {r : Reply} {words : List Word} (h : r.StoryLaws) (e : r = .done d words) :
    d.StoryLaws := by
  subst e
  exact h

/-- Every command keeps the story laws, in states of the output law. -/
theorem exec_keeps_storyLaws (i : Instr) (s t : State) (hout : s.chip.OutputLaw) (hs : s.chip.StoryLaws)
    (h : exec i s = .next t) : t.chip.StoryLaws := by
  by_cases hl : ∃ straps, i = .resetRelease straps
  · obtain ⟨straps, rfl⟩ := hl
    rcases resetRelease_next h with rfl | ⟨_, rfl⟩
    · exact hs
    · exact storyLaws_decideWrites s.busWaiting
        (s := { s with chip := s.chip.releaseReset straps, busWaiting := [] }) hs
  by_cases hr : i = .reset
  · subst hr
    rw [reset_chip h]
    exact reset_storyLaws
  by_cases hi : ∀ p ∈ tableParts, p ∉ partsOf i
  · exact storyLaws_same hs (sameTable_of_does (exec_does i s t hr (fun straps e => hl ⟨straps, e⟩) h) hi)
  have hcommand : ∀ {n : Nat} {body : Chip → Reply}, (body s.chip.collect).StoryLaws →
      takeCommand n body s = .next t → t.chip.StoryLaws := fun hbody =>
    takeCommand_keeps (Q := Chip.StoryLaws) (fun c f k => storyLaws_same k ⟨fun _ => .refl _, fun _ => .refl _, rfl,
      fun _ => ⟨rfl, rfl⟩, fun _ => rfl, rfl, rfl⟩) (fun _ _ e => storyLaws_done hbody e) hs
  have hevent : ∀ {f : Chip → Chip}, (f s.chip).StoryLaws → chipEvent f s = .next t → t.chip.StoryLaws :=
    fun hf => chipEvent_keeps (Q := Chip.StoryLaws) hf hs
  have hsame : ∀ {f : Chip → Chip}, s.chip.SameTable (f s.chip) → chipEvent f s = .next t → t.chip.StoryLaws :=
    fun hf => hevent (storyLaws_same hs hf)
  have hpulse : ∀ q : Chip → Bool, chipEvent (fun c => if q c = true then c.clockPulse else c) s = .next t →
      t.chip.StoryLaws := fun q =>
    hevent (f := fun c => if q c = true then c.clockPulse else c)
      (keeps_ite (Q := Chip.StoryLaws) (storyLaws_clockPulse hs) hs)
  have hlinkPulse : ∀ q : Chip → Bool, chipEvent (fun c => if q c = true then c.linkPulse else c) s = .next t →
      t.chip.StoryLaws := fun q =>
    hevent (f := fun c => if q c = true then c.linkPulse else c)
      (keeps_ite (Q := Chip.StoryLaws) (storyLaws_same hs (sameTable_linkPulse (handSetting_of_outputLaw hout))) hs)
  have hwrite : ∀ {r : Requester} {plan : Chip → Option OwnWrite}, (∀ {w}, plan s.chip = some w → s.chip.SameTable w.after) →
      ownWrite r plan s = .next t → t.chip.StoryLaws := fun hplan =>
    ownWrite_keeps (Q := Chip.StoryLaws) (fun c k => storyLaws_same k (sameTable_of_does (does_granted c _)))
      (fun w hw => storyLaws_same hs (hplan hw)) hs
  have hread : ∀ {r : Requester} {plan : Chip → Option OwnRead},
      (∀ q, plan s.chip = some q → ∀ w, (q.after w).StoryLaws) → ownRead r plan s = .next t → t.chip.StoryLaws :=
    fun hplan => ownRead_keeps (Q := Chip.StoryLaws) (fun c k => storyLaws_same k (sameTable_of_does (does_granted c _)))
      hplan hs
  have hc : s.chip.collect.StoryLaws := storyLaws_same hs (sameTable_of_does (does_collect s.chip))
  have hand := handSetting_of_outputLaw hout
  cases i with
  | hostWrite p a v | storyWrite p a v | screenRowWrite p a v | takeWordWrite p a v | contextWordWrite p a v
  | attentionMaskWrite p a v | attentionClearWrite p a v | refusalCountClear p a v | goWordWrite p a v
  | fontsPresentWrite p a v | deskTableWrite p a v | widthTableWrite p a v => exact storyLaws_hostWrite hs h
  | signOn => exact hcommand (storyLaws_signOn hc) h
  | signOff => exact hcommand (storyLaws_signOff hc) h
  | create => exact hcommand (storyLaws_create hc) h
  | attach => exact hcommand (storyLaws_attach hc) h
  | detach => exact hcommand (storyLaws_detach hc) h
  | submit => exact hcommand (storyLaws_submit hc) h
  | openStory => exact hcommand (storyLaws_openStory hc) h
  | send => exact hcommand (storyLaws_send hc) h
  | returnStory => exact hcommand (storyLaws_returnStory hc) h
  | kill => exact hcommand (storyLaws_kill hc) h
  | setStyle => exact hcommand (storyLaws_setStyle hc) h
  | refit => exact hcommand (storyLaws_refit hc) h
  | pageOpen => exact hcommand (storyLaws_pageOpen hc) h
  | setClose => exact hcommand (storyLaws_setClose hc) h
  | place => exact hcommand (storyLaws_place hc) h
  | unplace => exact hcommand (storyLaws_unplace hc) h
  | pageClear => exact hcommand (storyLaws_pageClear hc) h
  | release => exact hcommand (storyLaws_release hc) h
  | replate => exact hcommand (storyLaws_replate hc) h
  | linkOff => exact hcommand (storyLaws_linkOff hc hand) h
  | takenAnswer l b | busyAnswer l b | keysAnswer l b | quietAnswer l b | answerBadKindOrCount l b
  | lineByteReceived l b => exact hsame (sameTable_lineByte l b s.chip) h
  | keyWordWrite => exact hwrite sameTable_keyWordWrite h
  | putWordWrite => exact hwrite sameTable_putWordWrite h
  | writeReport => exact hevent (storyLaws_takeReport hs) h
  | pulse => exact hevent (storyLaws_clockPulse hs) h
  | editionClose => exact hpulse (fun c => c.closeDue) h
  | pageLate => exact hpulse (fun c => c.lateDue) h
  | leaseFirstExpiry => exact hpulse (fun c => c.expiryDue false) h
  | leaseSecondExpiry => exact hpulse (fun c => c.expiryDue true) h
  | fitWordRead => exact hread (fun q hq w => storyLaws_fitWord hs hq w) h
  | pageTake => exact hsame (sameTable_pageTake hout) h
  | linkPulse => exact hsame (sameTable_linkPulse hand) h
  | frameTimeout => exact hlinkPulse (fun c => c.link.timesOut) h
  | holdWaitEnd => exact hlinkPulse (fun c => c.link.holdEnds) h
  | holdLimitExceeded => exact hlinkPulse (fun c => c.link.holdTooLong) h
  | accept => exact hsame (sameTable_answerWord 1 hand) h
  | hold => exact hsame (sameTable_answerWord 2 hand) h
  | reject w => exact hsame (sameTable_answerWord w hand) h
  | resetRelease straps => exact absurd ⟨straps, rfl⟩ hl
  | rowWordRead l | messageSent l | answerWindowExpiry l | quietWindowExpiry l =>
    exact absurd (by simp [tableParts, partsOf, lineParts]) hi
  | _ => exact absurd (by decide) hi

/-- Settles O10: the lists by `Chip.Does`, the story laws by `exec_keeps_storyLaws`. -/
theorem stepKeepsListsOnce : Obligations.StepKeepsListsOnce := by
  refine ⟨fun _ _ => step_keeps_listsOnce, fun s t hout hs h => ?_⟩
  rcases step_next h with rfl | ⟨i, rest, hi⟩
  · exact hs
  · exact exec_keeps_storyLaws i { s with pending := rest } t hout hs hi

end Sys2Proof.Machine
end

section
/-! SUPPORT. The state after reset (O14), the reset line (O15, O16), the area map (O17), and the grants of the port
(O18). -/

namespace Sys2Proof.Machine

/-! ## The state after reset -/

/-- Settles O14, by the law of each part at reset. -/
theorem resetSatisfiesTheLaws : Obligations.ResetSatisfiesTheLaws := by
  have chip : State.reset.chip = Chip.reset := rfl
  unfold Obligations.ResetSatisfiesTheLaws
  rw [chip]
  exact ⟨Memory.wf_nil, reset_attentionLaw, reset_noticeLaw, reset_ringLaw, reset_terminalLaw, reset_listsOnce,
    reset_editionLaw, reset_linkLawful, reset_outputLaw, reset_storyLaws⟩

/-! ## RESET (R20) -/

theorem exec_reset (s : State) : exec .reset s = .next { s.abandonAccess with chip := Chip.reset } := rfl

/-- What becomes of memory when a host write in progress is abandoned (R20, R22). -/
theorem abandonAccess_word {s : State} {w : PortWrite} (h : s.inProgress = some w) :
    s.abandonAccess.memory = s.memory ∨ (s.chip.inBusyCell w.address.toNat = false ∧
      s.abandonAccess.memory = s.memory.write w.address.toNat w.old) := by
  unfold State.abandonAccess
  rw [h]
  dsimp only
  split
  · exact Or.inl rfl
  · rename_i hbusy
    dsimp only
    split
    · exact Or.inl rfl
    · exact Or.inr ⟨by simpa using hbusy, rfl⟩

theorem abandonAccess_none {s : State} (h : s.inProgress = none) : s.abandonAccess = s := by
  unfold State.abandonAccess
  rw [h]

theorem abandonAccess_rest (s : State) :
    s.abandonAccess.inProgress = none ∧ s.abandonAccess.busWaiting = s.busWaiting ∧
      s.abandonAccess.pending = s.pending := by
  unfold State.abandonAccess
  split
  · rename_i h
    exact ⟨h, rfl, rfl⟩
  · split <;> exact ⟨rfl, rfl, rfl⟩

theorem read_write_self (m : Memory) (a : Address) (v : Word) (h : m.wf = true) : (m.write a.toNat v).read a.toNat = v := by
  rw [Memory.read_write _ _ _ _ ((Memory.wf_iff _).mp h).1, if_pos rfl]

theorem read_write_other (m : Memory) {a b : Nat} (v : Word) (h : m.wf = true) (hne : b ≠ a) :
    (m.write a v).read b = m.read b := by
  rw [Memory.read_write _ _ _ _ ((Memory.wf_iff _).mp h).1, if_neg (Ne.symm hne)]

/-- An abandoned host write leaves its word at either value, and no other word changed. -/
theorem reset_abandons {s r : State} {a : Address} {v : Word} {c : Chip} (hw : s.memory.wf = true)
    (h : exec .reset (s.acceptedWith a v c) = .next r) :
    (r.memory.read a.toNat = v ∨ r.memory.read a.toNat = s.memory.read a.toNat) ∧
      (∀ b, b ≠ a.toNat → r.memory.read b = s.memory.read b) ∧ r.chip.path.refusalIndication = false := by
  rw [exec_reset] at h
  injection h with h
  subst h
  have hwf := Memory.wf_write _ _ v hw (address_inside a)
  rcases abandonAccess_word (s := s.acceptedWith a v c) rfl with e | ⟨_, e⟩
  · exact ⟨Or.inl (by rw [e]; exact read_write_self _ a v hw),
      fun b hb => by rw [e]; exact read_write_other _ v hw hb, rfl⟩
  · exact ⟨Or.inr (by rw [e]; exact read_write_self _ a _ hwf),
      fun b hb => by rw [e]; exact (read_write_other _ _ hwf hb).trans (read_write_other _ v hw hb), rfl⟩

/-- The words of a BUSY cell outlast an abandoned write to them (R22). -/
theorem reset_keepsBusyCell {s r : State} {k : CellNo} {base j : Nat} (hw : s.memory.wf = true)
    (hb : s.chip.cu.cells[k].state = .busy) (hp : s.chip.path.controlPage = some base) (hj : j < 8)
    (h : exec .reset s = .next r) :
    r.memory.read (base + 32 + 8 * k.val + j) = s.memory.read (base + 32 + 8 * k.val + j) := by
  rw [exec_reset] at h
  injection h with h
  subst h
  dsimp only
  cases hin : s.inProgress with
  | none => rw [abandonAccess_none hin]
  | some w =>
    rcases abandonAccess_word hin with e | ⟨hbusy, e⟩
    · rw [e]
    · rw [e]
      refine read_write_other _ _ hw fun k => ?_
      rw [← k, inBusyCell_word hb hp hj] at hbusy
      cases hbusy

theorem reset_cell (k : CellNo) : Chip.reset.cu.cells[k] = { state := .empty, context := none } := Vector.getElem_replicate ..

theorem reset_context (p : Processor) : Chip.reset.path.contexts[p] = .none := Vector.getElem_replicate ..

theorem reset_line (l : LineNo) : Chip.reset.lines[l] = LineEngine.reset := Vector.getElem_replicate ..

theorem reset_width (f : Fin 8) (k : Fin 256) : Chip.reset.fit.widths[f][k] = 0 := by
  have table : Chip.reset.fit.widths[f] = Vector.replicate 256 0 := Vector.getElem_replicate ..
  rw [table]
  exact Vector.getElem_replicate ..

theorem reset_dirty (u : TerminalNo) (r : Fin 24) : Chip.reset.screens[u].dirty[r] = false := by
  rw [reset_screen]
  exact Vector.getElem_replicate ..

/-- Settles O15: the access in progress by `reset_abandons` and `reset_keepsBusyCell`, the values by the definition of
each block's start. -/
theorem resetReturnsStartValues : Obligations.ResetReturnsStartValues := by
  refine ⟨fun s r p a v c hw _ h => reset_abandons hw h, fun s r k base j hw hb hp hj h => reset_keepsBusyCell hw hb hp hj h,
    fun s => ⟨_, exec_reset s, fun h => by rw [abandonAccess_none h], fun w h => ?_, ?_⟩⟩
  · rcases abandonAccess_word h with e | ⟨_, e⟩
    · exact Or.inl e
    · exact Or.inr e
  obtain ⟨inProgress, busWaiting, pending⟩ := abandonAccess_rest s
  refine ⟨inProgress, rfl, rfl, busWaiting, pending, rfl, rfl, rfl, reset_context, rfl, rfl, rfl, rfl, reset_cell, rfl, rfl,
    rfl, rfl, rfl, rfl, rfl, fun l => ?_, reset_dirty, fun u => ?_, rfl, rfl, reset_story, reset_owner, rfl, rfl, rfl,
    fun d => ?_, rfl, rfl, rfl, rfl, reset_width, rfl, rfl, rfl, rfl, reset_pages, rfl, rfl, rfl, rfl, rfl, rfl, rfl, rfl,
    rfl, rfl, rfl, rfl, rfl⟩
  · dsimp only
    rw [reset_line]
    exact ⟨rfl, rfl, rfl, rfl, rfl, rfl, rfl⟩
  · dsimp only
    unfold Chip.session
    rw [reset_links, reset_screen, reset_keys, reset_held]
    exact ⟨rfl, rfl, rfl, rfl, rfl, rfl, rfl, rfl, rfl, rfl, rfl, rfl⟩
  · dsimp only
    rw [reset_desk]
    rfl

/-! ## While the line is asserted (R20) -/

section
variable {s : State} (hr : s.chip.resetAsserted = true)
include hr

theorem chipEvent_asserted (f : Chip → Chip) : chipEvent f s = .next s := by
  rw [chipEvent, if_pos hr]

theorem ownRead_asserted (r : Requester) (plan : Chip → Option OwnRead) : ownRead r plan s = .next s := if_pos hr

theorem ownWrite_asserted (r : Requester) (plan : Chip → Option OwnWrite) : ownWrite r plan s = .next s := if_pos hr

theorem hostWrite_asserted (p : Processor) (a : Address) (v : Word) :
    hostWrite p a v s = .next { s with busWaiting := s.busWaiting ++ [⟨p, a, v⟩] } := by
  unfold hostWrite
  dsimp only
  rw [if_pos hr]

/-- While the line is asserted a host write waits, and every other command leaves the state as it is. -/
theorem exec_asserted (i : Instr) (hi : i ≠ .reset) (hl : ∀ straps, i ≠ .resetRelease straps) :
    exec i s = .next (match hostAccessOf i with
      | some h => { s with busWaiting := s.busWaiting ++ [h] }
      | none => s) := by
  cases i with
  | reset => exact absurd rfl hi
  | resetRelease straps => exact absurd rfl (hl straps)
  | hostWrite p a v | storyWrite p a v | screenRowWrite p a v | takeWordWrite p a v | contextWordWrite p a v
  | attentionMaskWrite p a v | attentionClearWrite p a v | refusalCountClear p a v | goWordWrite p a v
  | fontsPresentWrite p a v | deskTableWrite p a v | widthTableWrite p a v => exact hostWrite_asserted hr p a v
  | cellWordRead | startConfigRead | rowWordRead | fitWordRead | textWordRead => exact ownRead_asserted hr _ _
  | cellResultWrite | mirrorWordWrite | keyWordWrite | putWordWrite | statusWordWrite | noticeRowWordWrite =>
    exact ownWrite_asserted hr _ _
  | leaseFirstExpiry => exact chipEvent_asserted hr (fun c => if c.expiryDue false = true then c.clockPulse else c)
  | leaseSecondExpiry => exact chipEvent_asserted hr (fun c => if c.expiryDue true = true then c.clockPulse else c)
  | _ => exact chipEvent_asserted hr _

end

/-- The part once the line is released and the control page placed (R1). -/
def State.releasedAt (s : State) (straps : BitVec 4) : State :=
  { s with chip := s.chip.releaseReset straps, busWaiting := [] }

theorem exec_resetRelease {s : State} (straps : BitVec 4) (hr : s.chip.resetAsserted = true) :
    exec (.resetRelease straps) s = .next (s.busWaiting.foldl (fun t h => t.decideWrite h) (s.releasedAt straps)) := by
  show Host.Outcome.next _ = _
  rw [if_pos hr]
  rfl

theorem hostWrite_released {s : State} (hr : s.chip.resetAsserted = false) (h : HostAccess) :
    hostWrite h.processor h.address h.value s = .next (s.decideWrite h) := by
  unfold hostWrite
  dsimp only
  rw [if_neg (ne_true_of_eq_false hr)]

/-- Settles O16: `exec_asserted`, and the release on no waiting write and on one. -/
theorem resetLineHoldsAndReleases : Obligations.ResetLineHoldsAndReleases := by
  refine ⟨fun i s hr => exec_asserted hr i, fun s straps hr r e => ?_⟩
  have released : s.releasedAt straps = { r with busWaiting := [] } := by
    rw [e]
    rfl
  refine ⟨fun hwait => ?_, fun h hwait => ?_⟩
  · have same : ({ r with busWaiting := [] } : State) = r := by
      rw [← hwait, e]
      rfl
    rw [exec_resetRelease straps hr, hwait, List.foldl_nil, released, same]
  · rw [exec_resetRelease straps hr, hwait, List.foldl_cons, List.foldl_nil, ← released]
    exact (hostWrite_released (s := s.releasedAt straps) rfl h).symm

/-! ## The area map (R1, R2) -/

theorem offsetIn_inside {base size a : Nat} (h : base ≤ a ∧ a < base + size) :
    offsetIn (some base) size a = some (a - base) := if_pos h

theorem offsetIn_outside {base size a : Nat} (h : ¬(base ≤ a ∧ a < base + size)) :
    offsetIn (some base) size a = none := if_neg h

theorem overlap_false {a n b m : Nat} (h : overlap a n b m = false) : a + n ≤ b ∨ b + m ≤ a := by
  unfold overlap at h
  rw [Bool.and_eq_false_iff, decide_eq_false_iff_not, decide_eq_false_iff_not] at h
  omega

/-- Valid bases stand apart (R1). -/
theorem basesValid_apart {control screen story directory : Nat} (h : basesValid control screen story directory = true) :
    (control + 4096 ≤ screen ∨ screen + 131072 ≤ control) ∧ (control + 4096 ≤ story ∨ story + 1048576 ≤ control) ∧
      (control + 4096 ≤ directory ∨ directory + 12160 ≤ control) ∧
      (screen + 131072 ≤ story ∨ story + 1048576 ≤ screen) ∧
      (screen + 131072 ≤ directory ∨ directory + 12160 ≤ screen) ∧
      (story + 1048576 ≤ directory ∨ directory + 12160 ≤ story) := by
  simp only [basesValid, Bool.and_eq_true, Bool.not_eq_true'] at h
  obtain ⟨⟨⟨⟨⟨⟨_, cs⟩, ct⟩, cd⟩, st⟩, sd⟩, td⟩ := h
  exact ⟨overlap_false cs, overlap_false ct, overlap_false cd, overlap_false st, overlap_false sd, overlap_false td⟩

/-- Settles O17, by `basesValid_apart`: at most one of the four areas holds the address. -/
theorem addressesAreClassifiedByArea : Obligations.AddressesAreClassifiedByArea := by
  intro p control screen story directory hcontrol hscreen hstory hdirectory hvalid a
  obtain ⟨cs, ct, cd, st, sd, td⟩ := basesValid_apart hvalid
  unfold PathChecker.classify
  rw [hcontrol, hscreen, hstory, hdirectory]
  unfold Config.controlPageWords Config.screenAreaWords Config.storyAreaWords Config.directoryAreaWords
    Config.windowWords Config.blockWords
  refine ⟨fun h => ?_, fun t o ho e => ?_, fun b w hw e => ?_, fun h => ?_, fun h1 h2 h3 h4 => ?_⟩
  · rw [offsetIn_inside h]
  · have ht := t.isLt
    rw [offsetIn_outside (by omega), offsetIn_inside (by omega)]
    dsimp only
    rw [show a - screen = 2048 * t.val + o by omega, show (2048 * t.val + o) / 2048 = t.val by omega,
      show (2048 * t.val + o) % 2048 = o by omega]
    simp
  · have hb := b.isLt
    rw [offsetIn_outside (by omega), offsetIn_outside (by omega), offsetIn_inside (by omega)]
    dsimp only
    rw [show a - story = 128 * b.val + w by omega, show (128 * b.val + w) / 128 = b.val by omega,
      show (128 * b.val + w) % 128 = w by omega]
    simp
  · rw [offsetIn_outside (by omega), offsetIn_outside (by omega), offsetIn_outside (by omega), offsetIn_inside h]
  · rw [offsetIn_outside h1, offsetIn_outside h2, offsetIn_outside h3, offsetIn_outside h4]

/-! ## The grants (R17) -/

/-- The own requesters in the order of the next grant: from the one after the one last granted, wrapping. -/
def PathChecker.round (p : PathChecker) : List Requester :=
  Requester.order.drop (p.lastGranted.place + 1) ++ Requester.order.take (p.lastGranted.place + 1)

theorem nextGrant_eq (c : Chip) : c.nextGrant = c.path.round.find? c.requests := rfl

theorem mem_order (r : Requester) : r ∈ Requester.order := by
  cases r with
  | line l =>
    revert l
    decide
  | _ => decide

theorem mem_round (p : PathChecker) (r : Requester) : r ∈ p.round := by
  unfold PathChecker.round
  rw [List.mem_append, or_comm, ← List.mem_append, List.take_append_drop]
  exact mem_order r

/-- The place of the turn is the place in the round. -/
theorem round_turns (p : PathChecker) : p.round.Pairwise fun q r => p.turn q ≤ p.turn r := by
  unfold PathChecker.round PathChecker.turn
  generalize p.lastGranted = last
  cases last with
  | line l =>
    revert l
    decide
  | _ => decide

theorem nextGrant_first {c : Chip} {r : Requester} (h : c.nextGrant = some r) :
    c.requests r = true ∧ ∀ q, c.requests q = true → c.path.turn r ≤ c.path.turn q := by
  rw [nextGrant_eq, List.find?_eq_some_iff_append] at h
  obtain ⟨hr, front, back, hround, hfront⟩ := h
  refine ⟨hr, fun q hq => ?_⟩
  have hmem := mem_round c.path q
  have hturns := round_turns c.path
  rw [hround] at hmem hturns
  rcases List.mem_append.mp hmem with hm | hm
  · have := hfront q hm
    rw [hq] at this
    cases this
  · rcases List.mem_cons.mp hm with rfl | hm
    · exact Nat.le_refl _
    · exact (List.pairwise_cons.mp (List.pairwise_append.mp hturns).2.1).1 q hm

theorem nextGrant_none (c : Chip) : c.nextGrant = none ↔ ∀ r, c.requests r = false := by
  rw [nextGrant_eq, List.find?_eq_none]
  exact ⟨fun h r => by simpa using h r (mem_round c.path r), fun h r _ => by rw [h r]; exact nofun⟩

theorem ownRead_granted {r : Requester} {plan : Chip → Option OwnRead} {s t : State} (h : ownRead r plan s = .next t) :
    t = s ∨ s.Grants r ∧ t.chip.path.lastGranted = r := by
  rcases ownRead_next h with e | ⟨q, a, _, _, _, hg, e⟩
  · exact Or.inl e
  · exact Or.inr ⟨hg, by rw [e]; rfl⟩

theorem ownWrite_granted {r : Requester} {plan : Chip → Option OwnWrite} {s t : State} (h : ownWrite r plan s = .next t) :
    t = s ∨ s.Grants r ∧ t.chip.path.lastGranted = r := by
  rcases ownWrite_next h with e | ⟨q, a, _, _, _, hg, e⟩
  · exact Or.inl e
  · exact Or.inr ⟨hg, by rw [e]; rfl⟩

/-- Settles O18: the round has the requesters in the order of their turns. -/
theorem portGrantsRoundRobin : Obligations.PortGrantsRoundRobin := by
  refine ⟨nextGrant_none, fun c r => nextGrant_first, fun i r s t hi h => ?_⟩
  cases i with
  | cellWordRead | startConfigRead | rowWordRead | fitWordRead | textWordRead =>
    injection hi with hi
    subst hi
    exact ownRead_granted h
  | cellResultWrite | mirrorWordWrite | keyWordWrite | putWordWrite | statusWordWrite | noticeRowWordWrite =>
    injection hi with hi
    subst hi
    exact ownWrite_granted h
  | _ => cases hi

end Sys2Proof.Machine
end

section
/-! SUPPORT. Host writes by the area they land in: ordinary and part-written words, story blocks, take words, the
control page's words, the tables (O19, O20, O22, O23, O25 to O29). -/

namespace Sys2Proof.Machine

section
variable {c : Chip} {s : State} {p : Processor} {a : Address} {v : Word}

/-! ## Ordinary and part-written words (R10 to R13, R19) -/

theorem exec_hostWrite (p : Processor) (a : Address) (v : Word) (s : State) :
    exec (.hostWrite p a v) s = hostWrite p a v s := rfl

theorem decideWindow_ordinary {u : TerminalNo} {o : Nat} (ho : 1992 ≤ o) : c.decideWindow u o v = .accepted c := by
  rw [Chip.decideWindow, if_neg (by omega), if_neg (by omega), if_neg (by omega)]

theorem decideWindow_partWritten {u : TerminalNo} {o : Nat} (ho : 1840 ≤ o ∧ o < 1985 ∨ 1986 ≤ o ∧ o < 1992) :
    c.decideWindow u o v = .refused .writeProtected := by
  rw [Chip.decideWindow, if_neg (by omega), if_neg (by omega), if_pos (by omega)]

/-- A word of a cell that is not BUSY, other than the go word, is ordinary (R13). -/
theorem decideCell_ordinary {k : CellNo} {j : Nat} {x : Context} (hj : j < 7) (hk : c.cu.cells[k].state ≠ .busy) :
    c.decideCell (32 + 8 * k.val + j) x v = .accepted c := by
  simp only [Chip.decideCell, cellOf_offset (show j < 8 by omega)]
  rw [if_neg hk, if_neg (by omega)]

theorem decideCell_busy {k : CellNo} {j : Nat} {x : Context} (hj : j < 8) (hk : c.cu.cells[k].state = .busy) :
    c.decideCell (32 + 8 * k.val + j) x v = .refused .cellBusy := by
  simp only [Chip.decideCell, cellOf_offset hj]
  exact if_pos hk

theorem decideCell_go {k : CellNo} {x : Context} (hk : c.cu.cells[k].state ≠ .busy) :
    c.decideCell (32 + 8 * k.val + 7) x v = .accepted (c.onCell k (·.takeGo x v)) := by
  simp only [Chip.decideCell, cellOf_offset (show 7 < 8 by omega)]
  rw [if_neg hk, if_pos (by omega)]

/-- Settles O19: the decision accepts the part as it is, and every host-write row is the same host write. -/
theorem ordinaryWordsAreStored : Obligations.OrdinaryWordsAreStored := by
  refine ⟨fun s p a v hr hland => ?_, fun i h s hi => ?_⟩
  · rw [exec_hostWrite]
    refine hostWrite_accepted hr ?_
    rcases hland with hout | ⟨u, o, ho, hwindow⟩ | ⟨o, hcontrol, ho⟩
    · exact decide_unclassified hout
    · exact (decide_window hwindow).trans (decideWindow_ordinary ho)
    · refine (decide_control hcontrol).trans ?_
      rcases ho with ho | ho | ho | ⟨k, j, hj, rfl, hk⟩
      · exact decideControl_ordinary (Or.inl ho)
      · exact decideControl_ordinary (Or.inr (Or.inl ho))
      · exact decideControl_ordinary (Or.inr (Or.inr ho))
      · exact (decideControl_cell (by omega)).trans (decideCell_ordinary hj hk)
  · cases i with
    | hostWrite p a v | storyWrite p a v | screenRowWrite p a v | takeWordWrite p a v | contextWordWrite p a v
    | attentionMaskWrite p a v | attentionClearWrite p a v | refusalCountClear p a v | goWordWrite p a v
    | fontsPresentWrite p a v | deskTableWrite p a v | widthTableWrite p a v =>
      injection hi with hi
      subst hi
      rfl
    | _ => cases hi

/-- Settles O22, by the decision in each area. -/
theorem partWrittenWordsAreProtected : Obligations.PartWrittenWordsAreProtected := by
  intro s p a v hr
  rw [exec_hostWrite]
  refine ⟨fun hland => hostWrite_refused hr ?_, fun o hland ho => ⟨fun hrun => hostWrite_refused hr ?_,
    fun hstop => hostWrite_accepted hr ?_⟩⟩
  · rcases hland with ⟨u, o, hwindow, ho⟩ | ⟨o, hdirectory⟩
    · exact (decide_window hwindow).trans (decideWindow_partWritten ho)
    · exact decide_directory hdirectory
  · exact ((decide_control hland).trans (decideControl_partWritten ho)).trans (if_neg hrun)
  · exact ((decide_control hland).trans (decideControl_partWritten ho)).trans (if_pos hstop)

/-! ## Story blocks (R7, R8, R109) -/

theorem exec_storyWrite (p : Processor) (a : Address) (v : Word) (s : State) :
    exec (.storyWrite p a v) s = hostWrite p a v s := rfl

theorem decideStory_refused {b : BlockNo} {x : Context} {r : RefusalReason} (h : c.storyFault b x = some r) :
    c.decideStory b x = .refused r := by
  rw [Chip.decideStory, h]

theorem decideStory_accepted {b : BlockNo} {x : Context} (h : c.storyFault b x = none) :
    c.decideStory b x = .accepted (c.reportWrite b) := by
  rw [Chip.decideStory, h]

theorem storyFault_unowned {b : BlockNo} {x : Context} (hn : c.custody.owners[b] = none) :
    c.storyFault b x = some .freeBlock := by
  rw [Chip.storyFault, hn]

theorem storyFault_badContext {b : BlockNo} {n : StoryNo} {x : Context} (hn : c.custody.owners[b] = some n)
    (hx : c.badContext x = true) : c.storyFault b x = some .badContext := by
  rw [Chip.storyFault, hn]
  exact if_pos hx

section
variable {b : BlockNo} {n : StoryNo} {x : Context} (hn : c.custody.owners[b] = some n) (hx : c.badContext x = false)
include hn hx

theorem storyFault_intake (hs : c.stories[n].state = .intake) :
    c.storyFault b x = if x = .system then none else some .notHolder := by
  simp only [Chip.storyFault, hn, hs, hx, Bool.false_eq_true, if_false]

theorem storyFault_atRest (hs : c.stories[n].state = .basket) : c.storyFault b x = some .atRest := by
  simp only [Chip.storyFault, hn, hs, hx, Bool.false_eq_true, if_false]

theorem storyFault_frozen (hs : c.stories[n].state = .set) : c.storyFault b x = some .frozen := by
  simp only [Chip.storyFault, hn, hs, hx, Bool.false_eq_true, if_false]

theorem storyFault_notHolder (hs : c.stories[n].state = .open_)
    (hu : ∀ u, x = .terminal u → c.stories[n].holder ≠ some u) : c.storyFault b x = some .notHolder := by
  simp only [Chip.storyFault, hn, hs, hx, Bool.false_eq_true, if_false]
  match x, hu with
  | .none, _ => rfl
  | .system, _ => rfl
  | .terminal u, hu =>
    cases hh : c.stories[n].holder with
    | none => rfl
    | some h => exact if_neg fun e => hu u rfl (hh.trans (congrArg some e.symm))

theorem storyFault_holder {u : TerminalNo} (hs : c.stories[n].state = .open_) (hu : c.stories[n].holder = some u)
    (hp : x = .terminal u) : c.storyFault b x = none := by
  subst hp
  simp only [Chip.storyFault, hn, hs, hx, hu, Bool.false_eq_true, if_false, if_true]

end

theorem reportWrite_owned {b : BlockNo} {n : StoryNo} (hn : c.custody.owners[b] = some n) :
    c.reportWrite b = (c.onCustody fun k => { k with reports := joinOnce k.reports n }).staleStory n := by
  rw [Chip.reportWrite, hn]

/-- What an accepted story write leaves: the report, and the story staled (R8). -/
theorem reportWrite_effect {b : BlockNo} {n : StoryNo} (hn : c.custody.owners[b] = some n)
    (hfree : c.stories[n].state ≠ .free) :
    (c.reportWrite b).custody.owners = c.custody.owners ∧
      (c.reportWrite b).custody.reports = joinOnce c.custody.reports n ∧
      (∀ m : StoryNo, c.stories[m].SameOutsideFit (c.reportWrite b).stories[m]) ∧
      (c.fit.run.isSome = true → (c.reportWrite b).HasStaled n c.stories[n] c.fit.queue ∧
        ∀ m : StoryNo, m ≠ n → (c.reportWrite b).stories[m] = c.stories[m]) := by
  rw [reportWrite_owned hn]
  have custody : ((c.onCustody fun k => { k with reports := joinOnce k.reports n }).staleStory n).custody =
      { c.custody with reports := joinOnce c.custody.reports n } :=
    (does_staleStory n (c.onCustody fun k => { k with reports := joinOnce k.reports n })).frame .custody (by decide)
  refine ⟨by rw [custody], by rw [custody], fun m => ?_, fun hrun => ?_⟩
  · exact (fit_staleStory n (c.onCustody fun k => { k with reports := joinOnce k.reports n })).outside m
  · exact staleStory_hasStaled n (c.onCustody fun k => { k with reports := joinOnce k.reports n }) hrun hfree

theorem exec_writeReport (s : State) : exec .writeReport s = chipEvent Chip.takeReport s := rfl

theorem chipEvent_released {f : Chip → Chip} (hr : s.Released) : chipEvent f s = .next (s.withChip (f s.chip)) := by
  rw [chipEvent, if_neg (ne_true_of_eq_false hr)]
  rfl

/-- The record of a story of which custody takes a report (R109). -/
def Chip.reported (c : Chip) (n : StoryNo) : Story :=
  { c.stories[n] with
    stamp := c.clock.count
    lease := if c.stories[n].state = .open_ then c.stories[n].lease.map fun _ =>
        { remaining := c.desks[c.stories[n].desk].idleLimit, warned := false }
      else c.stories[n].lease }

/-- The report taken off the list, the story stamped and marked. -/
def Chip.stamped (n : StoryNo) (rest : List StoryNo) (c : Chip) : Chip :=
  ((c.onCustody fun k => { k with reports := rest }).onStory n fun x => { x with stamp := c.clock.count }).mark (.story n)

theorem stamped_self (n : StoryNo) (rest : List StoryNo) (c : Chip) :
    (c.stamped n rest).stories[n] = { c.stories[n] with stamp := c.clock.count } := by
  have e : (c.stamped n rest).stories = update c.stories n fun x => { x with stamp := c.clock.count } := by
    simp only [Chip.stamped, mark_fields, onStory_fields, onCustody_fields]
  exact (congrArg (fun l : Vector Story 1024 => l[n]) e).trans (update_self ..)

theorem stamped_others {n m : StoryNo} (rest : List StoryNo) (c : Chip) (h : m ≠ n) :
    (c.stamped n rest).stories[m] = c.stories[m] := by
  simp only [Chip.stamped, mark_fields]
  exact onStory_ne _ h

theorem stamped_fields (n : StoryNo) (rest : List StoryNo) (c : Chip) :
    (c.stamped n rest).custody = { c.custody with reports := rest } ∧ (c.stamped n rest).desks = c.desks ∧
      MirrorItem.story n ∈ (c.stamped n rest).mirror.pending := by
  simp only [Chip.stamped, mark_fields, onStory_fields, onCustody_fields]
  exact ⟨trivial, trivial, (mem_mark_pending ..).mpr (Or.inr rfl)⟩

theorem takeReport_open {n : StoryNo} {rest : List StoryNo} (h : c.custody.reports = n :: rest)
    (hopen : c.stories[n].state = .open_) : c.takeReport = (c.stamped n rest).rearm n := by
  have hfree : c.stories[n].state ≠ .free := by
    rw [hopen]
    nofun
  simp only [Chip.takeReport, h]
  exact (if_neg hfree).trans (if_pos ((congrArg Story.state (stamped_self n rest c)).trans hopen))

theorem takeReport_atRest {n : StoryNo} {rest : List StoryNo} (h : c.custody.reports = n :: rest)
    (hfree : c.stories[n].state ≠ .free) (hopen : c.stories[n].state ≠ .open_) :
    c.takeReport = c.stamped n rest := by
  simp only [Chip.takeReport, h]
  exact (if_neg hfree).trans (if_neg fun e => hopen ((congrArg Story.state (stamped_self n rest c)).symm.trans e))

/-- Custody takes a report of a story that is not FREE (R109). -/
theorem takeReport_effect {n : StoryNo} {rest : List StoryNo} (h : c.custody.reports = n :: rest)
    (hfree : c.stories[n].state ≠ .free) :
    c.takeReport.custody = { c.custody with reports := rest } ∧ c.takeReport.stories[n] = c.reported n ∧
      (∀ m : StoryNo, m ≠ n → c.takeReport.stories[m] = c.stories[m]) ∧
      MirrorItem.story n ∈ c.takeReport.mirror.pending := by
  obtain ⟨custody, desks, marked⟩ := stamped_fields n rest c
  by_cases hopen : c.stories[n].state = .open_
  · rw [takeReport_open h hopen]
    refine ⟨custody, ?_, fun m hm => (onStory_ne _ hm).trans (stamped_others rest c hm), marked⟩
    unfold Chip.rearm
    simp only [onStory_self, stamped_self, desks, Chip.reported, if_pos hopen]
  · rw [takeReport_atRest h hfree hopen]
    refine ⟨custody, ?_, fun m hm => stamped_others rest c hm, marked⟩
    rw [stamped_self, Chip.reported, if_neg hopen]

/-- Settles O20: the report by `takeReport_effect`; a write to a block by the first check of R7 that fails, and
`reportWrite_effect` when none does. -/
theorem storyWritesAreDecidedAndReported : Obligations.StoryWritesAreDecidedAndReported := by
  refine ⟨fun s n rest hr hreports hfree => ?_, fun s p a v b w hr hland => ?_⟩
  · obtain ⟨custody, self, others, marked⟩ := takeReport_effect hreports hfree
    exact ⟨_, (exec_writeReport s).trans (chipEvent_released hr), rfl, custody, self, others, marked⟩
  rw [exec_storyWrite]
  have refused : ∀ {r : RefusalReason}, s.chip.storyFault b (s.chip.context p) = some r →
      hostWrite p a v s = .next (s.refusedWrite p a r) := fun h =>
    hostWrite_refused hr ((decide_block hland).trans (decideStory_refused h))
  refine ⟨fun hn => refused (storyFault_unowned hn), fun n hn hfree => ⟨fun hx => ?_, fun hx => ?_⟩⟩
  · refine refused (storyFault_badContext hn ?_)
    rcases hx with hx | ⟨u, hx, hu⟩
    · exact congrArg s.chip.badContext hx
    · exact (congrArg s.chip.badContext hx).trans (Option.isNone_iff_eq_none.mpr hu)
  have good : s.chip.badContext (s.chip.context p) = false := by
    rcases hx with hx | ⟨u, hx, hu⟩
    · exact congrArg s.chip.badContext hx
    · exact (congrArg s.chip.badContext hx).trans (Option.isNone_eq_false_iff.mpr hu)
  refine ⟨fun ⟨hs, hp⟩ => refused ?_, fun ⟨hs, hu⟩ => refused (storyFault_notHolder hn good hs hu), fun hs => refused ?_,
    fun hs => refused ?_, fun hs => ?_⟩
  · exact (storyFault_intake hn good hs).trans (if_neg hp)
  · exact storyFault_atRest hn good hs
  · exact storyFault_frozen hn good hs
  have free : s.chip.storyFault b (s.chip.context p) = none := by
    rcases hs with ⟨hs, hp⟩ | ⟨hs, u, hp, hu⟩
    · exact (storyFault_intake hn good hs).trans (if_pos hp)
    · exact storyFault_holder hn good hs hu hp
  obtain ⟨owners, reports, outside, staled⟩ := reportWrite_effect hn hfree
  exact ⟨_, hostWrite_accepted hr ((decide_block hland).trans (decideStory_accepted free)), rfl, rfl, owners, reports,
    outside, staled⟩

/-! ## Take words (R11, R74) -/

theorem exec_takeWordWrite (p : Processor) (a : Address) (v : Word) (s : State) :
    exec (.takeWordWrite p a v) s = hostWrite p a v s := rfl

theorem decideWindow_take (u : TerminalNo) :
    c.decideWindow u 1985 v = if c.keys[u].inSpan v then .accepted (c.takeIndex u v) else .refused .badIndex := rfl

/-- The distance of two ring positions, by the position it leads to. -/
theorem ringDistance_eq_iff {n t : Fin 64} {k : Nat} (hk : k < 64) : (n - t).val = k ↔ n.val = (t.val + k) % 64 := by
  rw [Fin.val_sub]
  omega

theorem unread_eq (k : KeyRing) : k.unread = (k.put.val + 64 - k.take.val) % 64 := by
  rw [KeyRing.unread, Fin.val_sub]
  omega

theorem inSpan_iff {k : KeyRing} : k.inSpan v = true ↔ ∃ j, j ≤ k.unread ∧ v.toNat = (k.take.val + j) % 64 := by
  have unread_lt : k.unread < 64 := (k.put - k.take).isLt
  simp only [KeyRing.inSpan, Bool.and_eq_true, decide_eq_true_eq]
  constructor
  · rintro ⟨hv, hspan⟩
    refine ⟨_, hspan, ?_⟩
    have position := (ringDistance_eq_iff (Fin.isLt _)).mp (rfl : (Fin.ofNat 64 v.toNat - k.take).val = _)
    exact (Nat.mod_eq_of_lt hv).symm.trans position
  · rintro ⟨j, hj, hv⟩
    have hlt : v.toNat < 64 := by omega
    refine ⟨hlt, le_of_eq_of_le ((ringDistance_eq_iff (by omega)).mpr ?_) hj⟩
    exact (Nat.mod_eq_of_lt hlt).trans hv

/-- The positions a take write over `j` keys passes. -/
theorem passes_iff {k : KeyRing} {n q : Fin 64} {j : Nat} (hj : j < 64) (hn : n.val = (k.take.val + j) % 64) :
    k.passes n q = true ↔ ∃ i, i < j ∧ q.val = (k.take.val + i) % 64 := by
  rw [KeyRing.passes, (ringDistance_eq_iff hj).mpr hn, decide_eq_true_eq]
  constructor
  · exact fun h => ⟨_, h, (ringDistance_eq_iff (Fin.isLt _)).mp rfl⟩
  · rintro ⟨i, hi, hq⟩
    rwa [(ringDistance_eq_iff (by omega)).mpr hq]

theorem takeIndex_keys (u : TerminalNo) :
    (c.takeIndex u v).keys = update c.keys u (·.takeTo (Fin.ofNat 64 v.toNat)) := by
  unfold Chip.takeIndex
  dsimp only
  split
  · rfl
  · exact (does_pendKey _ _).frame .keys (by decide)

theorem takeIndex_pends {u : TerminalNo} (h : (c.takeIndex u v).keys[u].flags ≠ c.keys[u].flags) :
    KeyItem.keyState u ∈ (c.takeIndex u v).keyWriter.pending := by
  simp only [takeIndex_keys] at h
  unfold Chip.takeIndex
  simp only [onKeys_fields]
  rw [if_neg h]
  exact (mem_joinOnce ..).mpr (Or.inr rfl)

/-- Settles O23: the span by `inSpan_iff`, the positions passed by `passes_iff`. -/
theorem takeWritesMoveTheTakeIndex : Obligations.TakeWritesMoveTheTakeIndex := by
  rintro s p a v u hr hland _ rfl
  rw [exec_takeWordWrite, ← unread_eq]
  have hdecide := (decide_window (p := p) (v := v) hland).trans (decideWindow_take u)
  refine ⟨fun hout => hostWrite_refused hr (hdecide.trans (if_neg fun hspan => ?_)), fun k hk hv => ?_⟩
  · obtain ⟨j, hj, hv⟩ := inSpan_iff.mp hspan
    exact hout j hj hv
  have unread_lt : s.chip.keys[u].unread < 64 := (s.chip.keys[u].put - s.chip.keys[u].take).isLt
  have hpos : (Fin.ofNat 64 v.toNat).val = (s.chip.keys[u].take.val + k) % 64 :=
    (Nat.mod_eq_of_lt (by omega)).trans hv
  have self : (s.chip.takeIndex u v).keys[u] = s.chip.keys[u].takeTo (Fin.ofNat 64 v.toNat) := by
    rw [takeIndex_keys]
    exact update_self ..
  refine ⟨_, hostWrite_accepted hr (hdecide.trans (if_pos (inSpan_iff.mpr ⟨k, hk, hv⟩))), rfl, ?_⟩
  have show_keys : (s.acceptedWith a v (s.chip.takeIndex u v)).chip.keys = (s.chip.takeIndex u v).keys := rfl
  have show_writer : (s.acceptedWith a v (s.chip.takeIndex u v)).chip.keyWriter =
      (s.chip.takeIndex u v).keyWriter := rfl
  simp only [show_keys, show_writer]
  refine ⟨?_, ?_, fun q hq => ?_, fun hq => ?_, ?_, ?_, ?_, fun w hw => ?_, fun h => takeIndex_pends ?_⟩
  · rw [self]
    exact Nat.mod_eq_of_lt (by omega)
  · rw [self]
    rfl
  · rw [self, KeyRing.takeTo]
    simp only [hq, passes_iff (by omega : k < 64) hpos]
  · rw [self, KeyRing.takeTo]
    simp only [hq]
  · rw [self]
    rfl
  · rw [self]
    rfl
  · rw [self]
    rfl
  · simp only [takeIndex_keys]
    exact update_ne _ _ hw.symm
  · simp only [KeyRing.flags, ne_eq, Prod.mk.injEq, Classical.not_and_iff_not_or_not]
    exact h

/-! ## The attention words and the refusal words (R16, R35, R36) -/

theorem exec_attentionMaskWrite (p : Processor) (a : Address) (v : Word) (s : State) :
    exec (.attentionMaskWrite p a v) s = hostWrite p a v s := rfl

theorem exec_attentionClearWrite (p : Processor) (a : Address) (v : Word) (s : State) :
    exec (.attentionClearWrite p a v) s = hostWrite p a v s := rfl

theorem exec_refusalCountClear (p : Processor) (a : Address) (v : Word) (s : State) :
    exec (.refusalCountClear p a v) s = hostWrite p a v s := rfl

theorem decideControl_mask {x : Context} : c.decideControl 5 x v = .accepted (c.takeMask v) := rfl

theorem decideControl_clear {x : Context} : c.decideControl 6 x v = .accepted (c.clearCauses v) := rfl

theorem decideControl_count {x : Context} : c.decideControl 13 x 0 = .accepted c.clearRefusals := rfl

theorem clearCauses_none (h : v.setWidth 8 = 0#8) : c.clearCauses v = c := if_pos h

theorem clearCauses_some (h : v.setWidth 8 ≠ 0#8) :
    c.clearCauses v =
      (c.onUnit (·.setAttention (c.cu.attentionRaw &&& ~~~(v.setWidth 8)) c.cu.attentionMask)).mark .attentionRaw :=
  if_neg h

/-- The causes after a write of the clear word, with the mask as it was. -/
theorem clearCauses_raw :
    (c.clearCauses v).cu.attentionRaw = c.cu.attentionRaw &&& ~~~(v.setWidth 8) ∧
      (c.clearCauses v).cu.attentionMask = c.cu.attentionMask := by
  by_cases h : v.setWidth 8 = 0#8
  · rw [clearCauses_none h, h]
    exact ⟨(BitVec.and_allOnes).symm, rfl⟩
  · rw [clearCauses_some h]
    simp only [mark_fields]
    exact ⟨rfl, rfl⟩

/-- Settles O25, by what `takeMask` and `clearCauses` leave. -/
theorem maskAndClearWordsActAtOnce : Obligations.MaskAndClearWordsActAtOnce := by
  intro s p a v hr
  rw [exec_attentionMaskWrite, exec_attentionClearWrite]
  refine ⟨fun hat => ?_, fun hat => ?_⟩
  · exact ⟨_, hostWrite_accepted hr ((decide_control (landsAt_control hat)).trans decideControl_mask), rfl, rfl, rfl⟩
  refine ⟨_, hostWrite_accepted hr ((decide_control (landsAt_control hat)).trans decideControl_clear), rfl,
    clearCauses_raw.1, clearCauses_raw.2, fun hv => ?_, fun hv => ?_⟩
  · have e : (s.acceptedWith a v (s.chip.clearCauses v)).chip.mirror = (s.chip.clearCauses v).mirror := rfl
    have e' : (s.acceptedWith a v (s.chip.clearCauses v)).chip.cu = (s.chip.clearCauses v).cu := rfl
    rw [e, e', clearCauses_some hv]
    simp only [mark_fields]
    exact ⟨rfl, (mem_mark_pending ..).mpr (Or.inr rfl)⟩
  · exact congrArg (fun c : Chip => c.onPath fun k => { k with refusalIndication := false }) (clearCauses_none hv)

theorem refused_count (r : RefusalReason) :
    (s.refusedWrite p a r).chip.path.refusalCount.toNat = min 65535 (s.chip.path.refusalCount.toNat + 1) := by
  simp only [State.refusedWrite, mark_fields, onPath_fields]
  split
  · rename_i h
    rw [h]
    rfl
  · have ne : s.chip.path.refusalCount.toNat ≠ 65535 := fun e => by
      rename_i h
      exact h (BitVec.eq_of_toNat_eq e)
    rw [BitVec.toNat_add]
    have := s.chip.path.refusalCount.isLt
    simp
    omega

theorem refused_cells (r : RefusalReason) : (s.refusedWrite p a r).chip.cu.cells = s.chip.cu.cells := by
  simp only [State.refusedWrite, mark_fields, onPath_fields]

/-- What a refusal leaves of the record (R15). -/
theorem refused_record (r : RefusalReason) :
    (s.refusedWrite p a r).chip.path.refusalRecord =
        some { processor := p, address := a, reason := r, context := s.chip.path.contexts[p] } ∧
      (s.refusedWrite p a r).chip.path.contexts = s.chip.path.contexts ∧
      (s.refusedWrite p a r).chip.path.refusalIndication = true ∧
      MirrorItem.refusal ∈ (s.refusedWrite p a r).chip.mirror.pending := by
  simp only [State.refusedWrite, mark_fields, onPath_fields]
  exact ⟨trivial, trivial, trivial, (mem_mark_pending ..).mpr (Or.inr rfl)⟩

/-- Settles O26: word 13 by `clearRefusals`; a write at a BUSY cell is refused, and `refused_count` and
`refused_record` say what that leaves. -/
theorem refusalsAreCountedAndCleared : Obligations.RefusalsAreCountedAndCleared := by
  intro s p a hr
  refine ⟨fun hat => ?_, fun v k j hj hat hbusy => ?_⟩
  · refine ⟨_, (exec_refusalCountClear ..).trans (hostWrite_accepted hr
      ((decide_control (landsAt_control hat)).trans decideControl_count)), rfl, ?_⟩
    simp only [State.acceptedWith, Chip.clearRefusals, onPath_fields, mark_fields]
    exact ⟨trivial, (mem_mark_pending ..).mpr (Or.inr rfl)⟩
  · have hdecide := ((decide_control (p := p) (v := v) (landsAt_control hat)).trans (decideControl_cell hj)).trans
      (decideCell_busy hj hbusy)
    exact ⟨_, (exec_hostWrite ..).trans (hostWrite_refused hr hdecide), rfl, refused_cells _, refused_count _,
      refused_record _⟩

/-! ## Go words (R21) -/

theorem exec_goWordWrite (p : Processor) (a : Address) (v : Word) (s : State) :
    exec (.goWordWrite p a v) s = hostWrite p a v s := rfl

theorem takeGo_eq (x : Context) (k : Cell) :
    k.takeGo x v = if v = 1 then { state := .go, context := some x } else { state := .empty, context := none } := by
  unfold Cell.takeGo
  split <;> rfl

/-- Settles O27, by the decision at a BUSY cell and at another. -/
theorem goWordsMoveCells : Obligations.GoWordsMoveCells := by
  intro s p a v k hr hat
  rw [exec_goWordWrite]
  have hcell := (decide_control (p := p) (v := v) (landsAt_control hat)).trans (decideControl_cell (by omega))
  refine ⟨fun hbusy => hostWrite_refused hr (hcell.trans (decideCell_busy (by omega) hbusy)), fun hfree => ?_⟩
  exact ⟨_, hostWrite_accepted hr (hcell.trans (decideCell_go hfree)), rfl,
    (update_self ..).trans (takeGo_eq ..), fun j hj => update_ne _ _ hj.symm, rfl, rfl⟩

/-! ## The fonts, the widths and the desk table (R98, R130, R131) -/

theorem exec_fontsPresentWrite (p : Processor) (a : Address) (v : Word) (s : State) :
    exec (.fontsPresentWrite p a v) s = hostWrite p a v s := rfl

theorem exec_widthTableWrite (p : Processor) (a : Address) (v : Word) (s : State) :
    exec (.widthTableWrite p a v) s = hostWrite p a v s := rfl

theorem exec_deskTableWrite (p : Processor) (a : Address) (v : Word) (s : State) :
    exec (.deskTableWrite p a v) s = hostWrite p a v s := rfl

/-- What the staling of the stories that use one of `fonts` leaves, the engine then taking its queue's head. -/
theorem staleFonts_fitTake (fonts : Byte) (c : Chip) :
    ((c.staleFonts fonts).fitTake.fit.widths = c.fit.widths ∧ (c.staleFonts fonts).fitTake.fit.mask = c.fit.mask) ∧
      (∀ n : StoryNo, c.stories[n].SameOutsideFit (c.staleFonts fonts).fitTake.stories[n]) ∧
      (c.fit.run.isSome = true → ∀ n : StoryNo, (c.staleFonts fonts).fitTake.stories[n] =
        if c.fontsOf n &&& fonts ≠ 0 then c.stories[n].staled else c.stories[n]) := by
  have does := (fit_staleFonts fonts c).andThen (fit_fitTake _)
  refine ⟨does.tables, does.outside, fun hrun n => ?_⟩
  rw [fitTake_busy _ (by rwa [staleFonts_run])]
  exact staleFonts_story fonts c n

/-- The width table with one entry set. -/
def Chip.setWidth (f : Fin 8) (k : Fin 256) (x : Byte) (c : Chip) : Chip :=
  c.onFit fun e => { e with widths := update e.widths f fun t => t.set k x }

theorem takeWidth_eq (f : Fin 8) (k : Fin 256) (v : Word) (c : Chip) :
    c.takeWidth f k v = ((c.setWidth f k (v.setWidth 8)).staleFonts (fontBit f)).fitTake := rfl

theorem setWidth_self (f : Fin 8) (k : Fin 256) (x : Byte) (c : Chip) : (c.setWidth f k x).fit.widths[f][k] = x :=
  (congrArg (fun t : Vector Byte 256 => t[k]) (update_self ..)).trans (Vector.getElem_set_self ..)

theorem setWidth_other {f g : Fin 8} {k j : Fin 256} (x : Byte) (c : Chip) (h : (g, j) ≠ (f, k)) :
    (c.setWidth f k x).fit.widths[g][j] = c.fit.widths[g][j] := by
  have e : (c.setWidth f k x).fit.widths[g] = if f = g then c.fit.widths[g].set k x else c.fit.widths[g] :=
    update_apply ..
  rw [e]
  split
  · rename_i hfg
    subst hfg
    exact Vector.getElem_set_ne _ _ fun hkj => h (by rw [Fin.ext hkj])
  · rfl

/-- What an accepted write leaves of the part, other than the port. -/
theorem acceptedWith_fields (s : State) (a : Address) (v : Word) (d : Chip) :
    (s.acceptedWith a v d).chip.fit = d.fit ∧ (s.acceptedWith a v d).chip.stories = d.stories := ⟨rfl, rfl⟩

/-- Settles O28, by `staleFonts_fitTake` after the table's change. -/
theorem fontWritesTakeTablesAndStale : Obligations.FontWritesTakeTablesAndStale := by
  intro s p a v hr
  refine ⟨fun hat => ?_, fun f k hat => ?_⟩
  · refine ⟨_, (exec_fontsPresentWrite ..).trans (hostWrite_accepted hr
      ((decide_control (landsAt_control hat)).trans decideControl_fonts)), rfl, ?_⟩
    obtain ⟨⟨widths, mask⟩, outside, staled⟩ := staleFonts_fitTake (s.chip.fit.mask ^^^ v.setWidth 8)
      (s.chip.onFit fun e => { e with mask := v.setWidth 8 })
    simp only [acceptedWith_fields, Chip.takeFontsPresent]
    exact ⟨mask, widths, outside, staled⟩
  · refine ⟨_, (exec_widthTableWrite ..).trans (hostWrite_accepted hr
      ((decide_control (landsAt_control hat)).trans decideControl_width)), rfl, ?_⟩
    obtain ⟨⟨widths, mask⟩, outside, staled⟩ := staleFonts_fitTake (fontBit f) (s.chip.setWidth f k (v.setWidth 8))
    simp only [acceptedWith_fields, takeWidth_eq]
    refine ⟨?_, fun g j hne => ?_, mask, outside, staled⟩
    · exact (congrArg (fun w : Vector (Vector Byte 256) 8 => w[f][k]) widths).trans (setWidth_self ..)
    · exact (congrArg (fun w : Vector (Vector Byte 256) 8 => w[g][j]) widths).trans (setWidth_other _ _ hne)

theorem takeDeskWord_eq (d : DeskNo) {k : Nat} (hk : k < 8) :
    c.takeDeskWord (8 * d.val + k) v = c.onDesk d (Desk.takeWord k v) := by
  have hd : Fin.ofNat 16 ((8 * d.val + k) / 8) = d := Fin.ext (by
    have := d.isLt
    simp only [Fin.ofNat]
    omega)
  have hk' : (8 * d.val + k) % 8 = k := by omega
  rw [Chip.takeDeskWord, hd, hk']

theorem takeWord_name {d : Desk} {k : Nat} (h : k < 4) :
    d.takeWord k v =
      { d with
        name := (d.name.set (2 * k) (v.extractLsb' 8 8) (by omega)).set (2 * k + 1) (v.extractLsb' 0 8) (by omega) } :=
  dif_pos h

theorem clamp_eq (n : Nat) : clamp 1 255 n = if n = 0 then 1 else if 255 < n then 255 else n := by
  unfold clamp
  repeat' split
  all_goals omega

theorem min_idle (n : Nat) : min 3600 n = if 3600 < n then 3600 else n := by
  split <;> omega

/-- Settles O29, by the word's place in the desk's eight words. -/
theorem deskTableWritesTakeSettings : Obligations.DeskTableWritesTakeSettings := by
  intro s p a v d k hr hk hat
  have hd := d.isLt
  have hdecide : s.chip.decide { processor := p, address := a, value := v } =
      .accepted (s.chip.onDesk d (Desk.takeWord k v)) := by
    rw [decide_control (landsAt_control hat), Nat.add_assoc, decideControl_desk (by omega), takeDeskWord_eq d hk]
  have self : (s.acceptedWith a v (s.chip.onDesk d (Desk.takeWord k v))).chip.desks[d] =
      s.chip.desks[d].takeWord k v := update_self ..
  refine ⟨_, (exec_deskTableWrite ..).trans (hostWrite_accepted hr hdecide), rfl, fun e he => update_ne _ _ he.symm,
    rfl, fun h => ?_, fun h => ?_, fun h => ?_, fun h => ?_, fun h => ?_⟩
  · simp only [self, takeWord_name h]
    refine ⟨trivial, ?_, ?_, fun j hj hj' => ?_⟩
    · simp
    · simp
    · simp [Ne.symm hj, Ne.symm hj']
  · rw [self, h, ← clamp_eq]
    rfl
  · rw [self, h, ← min_idle]
    rfl
  · rw [self, h]
    rfl
  · rw [self, h]
    rfl

end

end Sys2Proof.Machine
end

section
/-! SUPPORT. The command unit and the mirror writer: taking a cell, reading it, the result words, START's configuration,
write-outs (O30 to O33). -/

namespace Sys2Proof.Machine

section
variable {c : Chip} {s : State}

/-! ## An own access that is served (R17) -/

theorem ownRead_served {r : Requester} {plan : Chip → Option OwnRead} {q : OwnRead} {a : Nat} (hg : s.Grants r)
    (hp : plan s.chip = some q) (ha : q.address = some a) (hlt : a < Config.memoryWords) :
    ownRead r plan s =
      .next { s with chip := (q.after (s.memory.read a)).granted r, inProgress := none } := by
  obtain ⟨hr, hgrant⟩ := hg
  have hline : ¬s.chip.resetAsserted = true := ne_true_of_eq_false hr
  unfold ownRead
  rw [if_neg hline, if_pos hgrant, hp]
  dsimp only
  rw [ha]
  exact if_pos hlt

theorem ownWrite_served {r : Requester} {plan : Chip → Option OwnWrite} {q : OwnWrite} {a : Nat} (hg : s.Grants r)
    (hp : plan s.chip = some q) (ha : q.address = some a) (hlt : a < Config.memoryWords) :
    ownWrite r plan s =
      .next { s with chip := q.after.granted r, memory := s.memory.write a q.value, inProgress := none } := by
  obtain ⟨hr, hgrant⟩ := hg
  have hline : ¬s.chip.resetAsserted = true := ne_true_of_eq_false hr
  unfold ownWrite
  rw [if_neg hline, if_pos hgrant, hp]
  dsimp only
  rw [ha]
  exact if_pos hlt

/-- A grant moves the port's round alone. -/
theorem granted_fields (c : Chip) (r : Requester) :
    (c.granted r).cu = c.cu ∧ (c.granted r).mirror = c.mirror ∧ (c.granted r).lines = c.lines ∧
      (c.granted r).links = c.links ∧ (c.granted r).screens = c.screens ∧
      (c.granted r).noticeWriter = c.noticeWriter ∧ (c.granted r).keys = c.keys ∧
      (c.granted r).keyWriter = c.keyWriter ∧ (c.granted r).stories = c.stories ∧ (c.granted r).desks = c.desks ∧
      (c.granted r).custody = c.custody ∧ (c.granted r).clock = c.clock ∧ (c.granted r).fit = c.fit ∧
      (c.granted r).pages = c.pages ∧ (c.granted r).outputQueue = c.outputQueue ∧ (c.granted r).link = c.link :=
  ⟨rfl, rfl, rfl, rfl, rfl, rfl, rfl, rfl, rfl, rfl, rfl, rfl, rfl, rfl, rfl, rfl⟩

/-- The address of a control page word, inside the array. -/
theorem controlWord_at {base o : Nat} (h : s.PageAt base) (ho : o < Config.controlPageWords) :
    s.chip.path.controlWord o = some (base + o) ∧ base + o < Config.memoryWords := by
  obtain ⟨hbase, hin⟩ := h
  exact ⟨by rw [PathChecker.controlWord, hbase, Option.map_some], by omega⟩

theorem cellOffset_lt {k : CellNo} {i : Nat} (hi : i < 8) : cellOffset k i < Config.controlPageWords := by
  have := k.isLt
  unfold cellOffset Config.controlPageWords
  omega

/-! ## Taking and reading a cell (R23, R24, R26) -/

theorem exec_cellTake (s : State) : exec .cellTake s = chipEvent Chip.takeCell s := rfl

theorem exec_cellWordRead (s : State) : exec .cellWordRead s = ownRead .commandUnit Chip.cellWordRead s := rfl

theorem mem_cellOrder (last k : CellNo) : k ∈ cellOrder last := by
  unfold cellOrder
  rw [List.mem_append, or_comm, ← List.mem_append, List.take_append_drop]
  exact List.mem_finRange k

/-- The cells stand in the order of their distance after the one last served. -/
theorem cellOrder_rises (last : CellNo) :
    (cellOrder last).Pairwise fun j k => (j.val + 7 - last.val) % 8 < (k.val + 7 - last.val) % 8 := by
  revert last
  decide

theorem nextCell_none {u : CommandUnit} (h : ∀ k : CellNo, u.cells[k].state ≠ .go) : u.nextCell = none := by
  rw [CommandUnit.nextCell, List.find?_eq_none]
  exact fun k _ hk => h k (of_decide_eq_true hk)

/-- The cell taken is the nearest GO cell after the one last served. -/
theorem nextCell_some {u : CommandUnit} {k : CellNo} (hk : u.cells[k].state = .go)
    (hfirst : ∀ j : CellNo, u.cells[j].state = .go →
      (k.val + 7 - u.lastServed.val) % 8 ≤ (j.val + 7 - u.lastServed.val) % 8) : u.nextCell = some k := by
  have hrises := cellOrder_rises u.lastServed
  obtain ⟨front, back, hsplit⟩ := List.append_of_mem (mem_cellOrder u.lastServed k)
  rw [CommandUnit.nextCell, List.find?_eq_some_iff_append]
  refine ⟨decide_eq_true hk, front, back, hsplit, fun j hj => ?_⟩
  rw [hsplit] at hrises
  have nearer := (List.pairwise_append.mp hrises).2.2 j hj k List.mem_cons_self
  rw [Bool.not_eq_true', decide_eq_false_iff_not]
  exact fun hgo => absurd (hfirst j hgo) (Nat.not_le.mpr nearer)

theorem takeCell_idle_none (h : c.cu.phase ≠ .idle ∨ ∀ k : CellNo, c.cu.cells[k].state ≠ .go) : c.takeCell = c := by
  unfold Chip.takeCell
  by_cases hidle : c.cu.phase = .idle
  · rw [if_pos hidle, nextCell_none (h.resolve_left (not_not_intro hidle))]
  · rw [if_neg hidle]

theorem takeCell_takes {k : CellNo} (hidle : c.cu.phase = .idle) (hk : c.cu.nextCell = some k) :
    c.takeCell = (c.onCell k fun x => { x with state := .busy }).onUnit fun u =>
      { u with phase := .reading, serving := some k, lastServed := k, wordsRead := []
               context := (c.cu.cells[k].context).getD .none } := by
  rw [Chip.takeCell, if_pos hidle, hk]

theorem cellWordRead_plan {k : CellNo} (hp : c.cu.phase = .reading) (hk : c.cu.serving = some k) :
    c.cellWordRead = some
      { address := c.path.controlWord (cellOffset k c.cu.wordsRead.length)
        after := fun w =>
          c.onUnit fun u =>
            let u := { u with wordsRead := u.wordsRead ++ [w] }
            if u.wordsRead.length < 7 then u else u.dispatch } := by
  unfold Chip.cellWordRead
  rw [hp, hk]

theorem check_unknown {u : CommandUnit} (h : u.number = 0 ∨ 32 < u.number) : u.check = some .unknownCommand := by
  rw [CommandUnit.check, if_pos (by omega)]

theorem check_wrongState {u : CommandUnit} (hn : u.number = 1) (hs : u.service ≠ .stopped) :
    u.check = some .wrongState := by
  rw [CommandUnit.check, if_neg (by omega), if_pos ⟨hn, hs⟩]

theorem check_notRunning {u : CommandUnit} (hn : 2 ≤ u.number ∧ u.number ≤ 32) (hs : u.service ≠ .running) :
    u.check = some .notRunning := by
  rw [CommandUnit.check, if_neg (by omega), if_neg (fun h => by omega), if_pos ⟨by omega, hs⟩]

theorem check_passes {u : CommandUnit} (h : u.number = 1 ∧ u.service = .stopped ∨
    2 ≤ u.number ∧ u.number ≤ 32 ∧ u.service = .running) : u.check = none := by
  rcases h with ⟨hn, hs⟩ | ⟨hlo, hhi, hs⟩
  · rw [CommandUnit.check, if_neg (by omega), if_neg (fun h => h.2 hs), if_neg (fun h => h.1 hn)]
  · rw [CommandUnit.check, if_neg (by omega), if_neg (fun h => by omega), if_neg (fun h => h.2 hs)]

theorem dispatch_refused {u : CommandUnit} {r : ResultCode} (h : u.check = some r) : u.dispatch = u.report r [] := by
  rw [CommandUnit.dispatch, h]

theorem dispatch_handsOn {u : CommandUnit} (h : u.check = none) :
    u.dispatch = { u with phase := .acting, startStage := .notBegun, configRead := [] } := by
  rw [CommandUnit.dispatch, h]

/-- A handed-on or refused command leaves what was read, the cells and the service state. -/
theorem dispatch_fields (u : CommandUnit) :
    u.dispatch.wordsRead = u.wordsRead ∧ u.dispatch.cells = u.cells ∧ u.dispatch.serving = u.serving ∧
      u.dispatch.service = u.service := by
  cases h : u.check with
  | none =>
    rw [dispatch_handsOn h]
    exact ⟨rfl, rfl, rfl, rfl⟩
  | some r =>
    rw [dispatch_refused h]
    exact ⟨rfl, rfl, rfl, rfl⟩

/-- The command unit with one more word of the cell. -/
def CommandUnit.withWord (u : CommandUnit) (w : Word) : CommandUnit := { u with wordsRead := u.wordsRead ++ [w] }

/-- What the seventh word decides (R26). -/
theorem dispatch_decides (u : CommandUnit) (n : Nat) (hn : n = u.number) :
    (n = 0 ∨ 32 < n → u.dispatch = u.report .unknownCommand []) ∧
      (n = 1 ∧ u.service ≠ .stopped → u.dispatch = u.report .wrongState []) ∧
      (2 ≤ n ∧ n ≤ 32 ∧ u.service ≠ .running → u.dispatch = u.report .notRunning []) ∧
      (n = 1 ∧ u.service = .stopped ∨ 2 ≤ n ∧ n ≤ 32 ∧ u.service = .running →
        u.dispatch = { u with phase := .acting, startStage := .notBegun, configRead := [] }) := by
  subst hn
  exact ⟨fun h => dispatch_refused (check_unknown h), fun ⟨h, hs⟩ => dispatch_refused (check_wrongState h hs),
    fun ⟨hlo, hhi, hs⟩ => dispatch_refused (check_notRunning ⟨hlo, hhi⟩ hs), fun h => dispatch_handsOn (check_passes h)⟩

/-- Settles O30: the taking by `nextCell_some`, the last word by `dispatch_decides`. -/
theorem cellsAreTakenReadAndChecked : Obligations.CellsAreTakenReadAndChecked := by
  refine ⟨fun s hr => ⟨fun h => ?_, fun k hidle hk hfirst => ?_⟩, fun s k base w hg hp hk hpage hlen hw => ?_⟩
  · rw [exec_cellTake, chipEvent_released hr, takeCell_idle_none h]
    rfl
  · rw [exec_cellTake, chipEvent_released hr, takeCell_takes hidle (nextCell_some hk hfirst)]
    refine ⟨_, rfl, rfl, update_self .., fun j hj => update_ne _ _ hj.symm, rfl, rfl, rfl, rfl, fun x hx => ?_, rfl⟩
    exact (congrArg (Option.getD · Context.none) hx)
  obtain ⟨haddress, hin⟩ := controlWord_at hpage (cellOffset_lt (k := k) (by omega : s.chip.cu.wordsRead.length < 8))
  have hread : s.memory.read (base + cellOffset k s.chip.cu.wordsRead.length) = w := by
    rw [hw, cellOffset, ← Nat.add_assoc, ← Nat.add_assoc]
  refine ⟨_, (exec_cellWordRead s).trans (ownRead_served hg (cellWordRead_plan hp hk) haddress hin), rfl, ?_⟩
  rw [hread]
  have hlength : (s.chip.cu.wordsRead ++ [w]).length = s.chip.cu.wordsRead.length + 1 := by simp
  by_cases hlast : s.chip.cu.wordsRead.length < 6
  · have hcu : ((s.chip.onUnit fun u =>
        let u := { u with wordsRead := u.wordsRead ++ [w] }
        if u.wordsRead.length < 7 then u else u.dispatch).granted .commandUnit).cu = s.chip.cu.withWord w :=
      if_pos (lt_of_eq_of_lt hlength (by omega))
    simp only [hcu]
    exact ⟨rfl, rfl, hk, rfl, congrArg (fun u : CommandUnit => { s.chip with
      cu := u, path := { s.chip.path with lastGranted := .commandUnit } }) hcu, fun _ => rfl, fun h => by omega⟩
  · have hcu : ((s.chip.onUnit fun u =>
        let u := { u with wordsRead := u.wordsRead ++ [w] }
        if u.wordsRead.length < 7 then u else u.dispatch).granted .commandUnit).cu = (s.chip.cu.withWord w).dispatch :=
      if_neg (Nat.not_lt.mpr (le_of_le_of_eq (by omega) hlength.symm))
    obtain ⟨words, cells, serving, service⟩ := dispatch_fields (s.chip.cu.withWord w)
    simp only [hcu]
    refine ⟨words, cells, serving.trans hk, service, congrArg (fun u : CommandUnit => { s.chip with
      cu := u, path := { s.chip.path with lastGranted := .commandUnit } }) hcu, fun h => absurd h hlast, fun _ n hn => ?_⟩
    have hn' : n = (s.chip.cu.withWord w).number := by
      rw [hn, CommandUnit.number, CommandUnit.number, CommandUnit.arg, CommandUnit.arg, words]
    obtain ⟨unknown, wrongState, notRunning, passes⟩ := dispatch_decides _ n hn'
    refine ⟨fun h => ?_, fun h => ?_, fun h => ?_, fun h => ?_⟩
    · rw [unknown h]
      exact ⟨rfl, rfl, rfl, rfl⟩
    · rw [wrongState h]
      exact ⟨rfl, rfl, rfl, rfl⟩
    · rw [notRunning h]
      exact ⟨rfl, rfl, rfl, rfl⟩
    · unfold Chip.commandDue
      simp only [hcu, passes h]
      simp only [Bool.and_eq_true, decide_eq_true_eq]
      exact ⟨⟨trivial, trivial⟩, hn'.symm⟩

/-! ## Reporting (R28 c) -/

theorem exec_cellResultWrite (s : State) : exec .cellResultWrite s = ownWrite .commandUnit Chip.resultWrite s := rfl

theorem resultWrite_word {k : CellNo} {w : Word} (hp : c.cu.phase = .reporting) (hk : c.cu.serving = some k)
    (hw : c.cu.resultWords[c.cu.reported]? = some w) :
    c.resultWrite = some
      { address := c.path.controlWord (cellOffset k (c.cu.reported + 1))
        value := w
        after := c.onUnit fun u => { u with reported := u.reported + 1 } } := by
  unfold Chip.resultWrite
  rw [hp, hk]
  dsimp only
  rw [hw]

theorem resultWrite_goWord {k : CellNo} (hp : c.cu.phase = .reporting) (hk : c.cu.serving = some k)
    (hw : c.cu.resultWords.length ≤ c.cu.reported) :
    c.resultWrite = some
      { address := c.path.controlWord (cellOffset k 7), value := c.cu.result.goWord, after := c.finishReport k } := by
  unfold Chip.resultWrite
  rw [hp, hk]
  dsimp only
  rw [List.getElem?_eq_none hw]

/-- What raising a cause leaves of the command unit, and what it marks (R35). -/
theorem raise_unit (c : Chip) (n : Cause) :
    (c.raise n).cu.cells = c.cu.cells ∧ (c.raise n).cu.phase = c.cu.phase ∧ (c.raise n).cu.serving = c.cu.serving ∧
      (c.raise n).cu.service = c.cu.service ∧ (c.raise n).cu.attentionRaw = c.cu.attentionRaw ||| n.bit ∧
      (c.raise n).cu.attentionMask = c.cu.attentionMask ∧ (c.raise n).cu.result = c.cu.result ∧
      (c.raise n).cu.startStage = c.cu.startStage ∧ (c.raise n).cu.collecting = c.cu.collecting := by
  unfold Chip.raise
  dsimp only
  split
  · exact ⟨rfl, rfl, rfl, rfl, rfl, rfl, rfl, rfl, rfl⟩
  · simp only [mark_fields, onUnit_fields]
    exact ⟨rfl, rfl, rfl, rfl, rfl, rfl, rfl, rfl, rfl⟩

theorem raise_marks {n : Cause} (h : c.cu.attentionRaw ||| n.bit ≠ c.cu.attentionRaw) :
    MirrorItem.attentionRaw ∈ (c.raise n).mirror.pending := by
  unfold Chip.raise
  dsimp only
  rw [if_neg h]
  simp only [mark_fields]
  exact (mem_mark_pending ..).mpr (Or.inr rfl)

/-- A cause that is not raised changes the raw word. -/
theorem or_commandDone_ne {b : Byte} (h : b &&& 1#8 = 0#8) : b ||| 1#8 ≠ b := by
  revert b
  decide

theorem finishReport_effect (k : CellNo) (c : Chip) :
    (c.finishReport k).cu.cells = update c.cu.cells k (fun x => { x with state := .done }) ∧
      (c.finishReport k).cu.phase = .idle ∧ (c.finishReport k).cu.serving = none ∧
      (c.finishReport k).cu.service = c.cu.service ∧
      (c.finishReport k).cu.attentionRaw = c.cu.attentionRaw ||| 1#8 ∧
      (c.finishReport k).cu.attentionMask = c.cu.attentionMask := by
  obtain ⟨cells, phase, serving, service, raw, mask, _⟩ := raise_unit ((c.onCell k fun x =>
    { x with state := .done }).onUnit fun u => { u with phase := .idle, serving := none }) .commandDone
  exact ⟨cells, phase, serving, service, raw, mask⟩

/-- Settles O31, by the two kinds of word a report writes. -/
theorem resultsAreReported : Obligations.ResultsAreReported := by
  intro s k base hg hp hk hpage hreported
  refine ⟨fun w hw hlt => ?_, fun hend => ?_⟩
  · obtain ⟨haddress, hin⟩ := controlWord_at hpage (cellOffset_lt (k := k) (by omega : s.chip.cu.reported + 1 < 8))
    refine ⟨_, (exec_cellResultWrite s).trans (ownWrite_served hg (resultWrite_word hp hk hw) haddress hin), ?_, rfl⟩
    rw [cellOffset, show base + (32 + 8 * k.val + (s.chip.cu.reported + 1)) =
      base + 32 + 8 * k.val + 1 + s.chip.cu.reported by omega]
  · obtain ⟨haddress, hin⟩ := controlWord_at hpage (cellOffset_lt (k := k) (by omega : 7 < 8))
    obtain ⟨cells, phase, serving, service, raw, mask⟩ := finishReport_effect k s.chip
    refine ⟨_, (exec_cellResultWrite s).trans (ownWrite_served hg (resultWrite_goWord hp hk hend) haddress hin), ?_,
      ?_, fun j hj => ?_, phase, serving, raw, mask, fun h => ?_, service⟩
    · rw [cellOffset, show base + (32 + 8 * k.val + 7) = base + 32 + 8 * k.val + 7 by omega]
      rfl
    · exact (congrArg (fun l : Vector Cell 8 => l[k]) cells).trans (update_self ..)
    · exact (congrArg (fun l : Vector Cell 8 => l[j]) cells).trans (update_ne _ _ hj.symm)
    · exact raise_marks (n := .commandDone) (or_commandDone_ne h)

/-! ## START (R30 to R32) -/

theorem exec_start (s : State) : exec .start s = chipEvent Chip.beginStart s := rfl

theorem exec_startConfigRead (s : State) : exec .startConfigRead s = ownRead .commandUnit Chip.configRead s := rfl

/-- The part with one more configuration word. -/
def Chip.withConfig (c : Chip) (l : List Word) : Chip := c.onUnit fun u => { u with configRead := l }

theorem configRead_plan (hp : c.cu.phase = .acting) (hs : c.cu.startStage = .reading) :
    c.configRead = some
      { address := c.path.controlWord (configFirst + c.cu.configRead.length)
        after := fun w =>
          if (c.cu.configRead ++ [w]).length < configCount then c.withConfig (c.cu.configRead ++ [w])
          else (c.withConfig (c.cu.configRead ++ [w])).validateStart (c.cu.configRead ++ [w]) } :=
  if_pos ⟨hp, hs⟩

theorem validateStart_bad {base : Nat} {l : List Word} (hbase : c.path.controlPage = some base)
    (h : basesValid base (baseOf l 0) (baseOf l 2) (baseOf l 4) = false) :
    c.validateStart l = c.onUnit (·.report .configBad []) := by
  rw [Chip.validateStart, hbase]
  exact if_neg (ne_true_of_eq_false h)

theorem validateStart_good {base : Nat} {l : List Word} (hbase : c.path.controlPage = some base)
    (h : basesValid base (baseOf l 0) (baseOf l 2) (baseOf l 4) = true) : c.validateStart l = c.enterStarting l := by
  rw [Chip.validateStart, hbase]
  exact if_pos h

/-! The parts of the event that enters STARTING. -/

/-- A line engine with the clamped settings START takes into it (R31). -/
def LineEngine.settled (l : List Word) (m : LineNo) (e : LineEngine) : LineEngine :=
  { e with speed := speedOf (l.getD (6 + m.val) 0)
           rowBudget := clamp 1 4 (l.getD 14 0).toNat
           answerWindow := clamp 8 64 (l.getD 15 0).toNat }

theorem foldl_onLine (f : LineNo → LineEngine → LineEngine) (m : LineNo) : ∀ (ms : List LineNo) (c : Chip), ms.Nodup →
    (ms.foldl (fun c l => c.onLine l (f l)) c).lines[m] = if m ∈ ms then f m c.lines[m] else c.lines[m]
  | [], c, _ => by simp
  | l :: ms, c, h => by
    obtain ⟨hl, hms⟩ := List.nodup_cons.mp h
    rw [List.foldl_cons, foldl_onLine f m ms _ hms]
    have one : (c.onLine l (f l)).lines[m] = if l = m then f l c.lines[m] else c.lines[m] := update_apply ..
    rw [one]
    by_cases e : l = m
    · subst e
      rw [if_neg hl, if_pos rfl, if_pos List.mem_cons_self]
    · have : m ∈ l :: ms ↔ m ∈ ms := by simp [Ne.symm e]
      simp only [if_neg e, this]

theorem foldl_onLine_rest (f : LineNo → LineEngine → LineEngine) : ∀ (ms : List LineNo) (c : Chip),
    ms.foldl (fun c l => c.onLine l (f l)) c = { c with lines := (ms.foldl (fun c l => c.onLine l (f l)) c).lines }
  | [], _ => rfl
  | l :: ms, c => by
    rw [List.foldl_cons]
    exact foldl_onLine_rest f ms (c.onLine l (f l))

/-- The settings taken into the engines of the lines `ms`, and into the link. -/
def Chip.settle (ms : List LineNo) (l : List Word) (c : Chip) : Chip :=
  (ms.foldl (fun c m => c.onLine m (LineEngine.settled l m)) c).onLink fun k =>
    { k with holdLimit := clamp 1 255 (l.getD 16 0).toNat }

theorem takeSettings_eq (l : List Word) (c : Chip) : c.takeSettings l = c.settle (List.finRange 8) l := rfl

theorem settle_line {ms : List LineNo} (hms : ms.Nodup) (l : List Word) (c : Chip) {m : LineNo} (hm : m ∈ ms) :
    (c.settle ms l).lines[m] = c.lines[m].settled l m :=
  (foldl_onLine (fun m => LineEngine.settled l m) m ms c hms).trans (if_pos hm)

/-- The settings reach the line engines and the link alone (R31). -/
theorem settle_rest (ms : List LineNo) (l : List Word) (c : Chip) :
    c.settle ms l = { c with
      lines := (c.settle ms l).lines
      link := { c.link with holdLimit := clamp 1 255 (l.getD 16 0).toNat } } :=
  congrArg (Chip.onLink fun k => { k with holdLimit := clamp 1 255 (l.getD 16 0).toNat })
    (foldl_onLine_rest (fun m => LineEngine.settled l m) ms c)

/-- Every record and status word but word 4 is marked by START (R32). -/
theorem mem_startItems (i : MirrorItem) : i ∈ startItems ↔ i ≠ .attentionRaw := by
  unfold startItems
  cases i with
  | story n => simp
  | page p => simp
  | desk d => simp
  | _ => simp

theorem markAll_pending (l : List MirrorItem) : ∀ (c : Chip) (i : MirrorItem),
    i ∈ (c.markAll l).mirror.pending ↔ i ∈ c.mirror.pending ∨ i ∈ l := by
  induction l with
  | nil => exact fun c i => by simp [Chip.markAll]
  | cons j l ih =>
    intro c i
    refine (ih (c.mark j) i).trans ?_
    simp only [mark_fields, mem_mark_pending, List.mem_cons, or_assoc]

theorem markAll_cu (l : List MirrorItem) : ∀ c : Chip,
    (c.markAll l).cu = { c.cu with waitSet := (c.markAll l).cu.waitSet } := by
  induction l with
  | nil => exact fun c => rfl
  | cons j l ih =>
    intro c
    refine (ih (c.mark j)).trans ?_
    simp only [mark_fields]
    rfl

theorem markAll_awaits (l : List MirrorItem) : ∀ (c : Chip) (i : MirrorItem), c.cu.collecting = true →
    ((c.markAll l).Awaits i ↔ c.Awaits i ∨ i ∈ l) := by
  induction l with
  | nil => exact fun c i _ => by simp [Chip.markAll]
  | cons j l ih =>
    intro c i hc
    refine (ih (c.mark j) i (by simp only [mark_fields, hc])).trans ?_
    have one : (c.mark j).Awaits i ↔ c.Awaits i ∨ i = j := by
      unfold Chip.Awaits
      simp only [mark_fields, hc, if_true]
      exact awaits_add ..
    rw [one, List.mem_cons, or_assoc]

/-- Markings reach the mirror writer and the command unit alone. -/
theorem markAll_rest (l : List MirrorItem) : ∀ c : Chip,
    c.markAll l = { c with cu := (c.markAll l).cu, mirror := (c.markAll l).mirror } := by
  induction l with
  | nil => exact fun c => rfl
  | cons j l ih =>
    intro c
    have one : c.mark j = { c with cu := (c.mark j).cu, mirror := (c.mark j).mirror } := by
      unfold Chip.mark
      dsimp only
      split <;> rfl
    refine (ih (c.mark j)).trans ?_
    exact (congrArg (fun d : Chip => { d with
      cu := ((c.mark j).markAll l).cu, mirror := ((c.mark j).markAll l).mirror }) one)

theorem foldl_pendKey (l : List KeyItem) (h : ∀ i ∈ l, ∀ t, i ≠ .keyWords t) : ∀ (c : Chip) (i : KeyItem),
    i ∈ (l.foldl (fun c i => c.pendKey i) c).keyWriter.pending ↔ i ∈ c.keyWriter.pending ∨ i ∈ l := by
  induction l with
  | nil => exact fun c i => by simp
  | cons j l ih =>
    intro c i
    refine (ih (fun i hi => h i (List.mem_cons_of_mem j hi)) (c.pendKey j) i).trans ?_
    rw [pendKey_pending c j (h j List.mem_cons_self)]
    simp only [mem_joinOnce, List.mem_cons, or_assoc]

theorem foldl_pendKey_rest (l : List KeyItem) : ∀ c : Chip,
    l.foldl (fun c i => c.pendKey i) c = { c with keyWriter := (l.foldl (fun c i => c.pendKey i) c).keyWriter } := by
  induction l with
  | nil => exact fun c => rfl
  | cons j l ih => exact fun c => ih (c.pendKey j)

theorem foldl_pendRow (l : List TerminalNo) : ∀ (c : Chip) (t : TerminalNo),
    t ∈ (l.foldl (fun c t => c.pendRow t) c).noticeWriter.pending ↔ t ∈ c.noticeWriter.pending ∨ t ∈ l := by
  induction l with
  | nil => exact fun c t => by simp
  | cons j l ih =>
    intro c t
    refine (ih (c.pendRow j) t).trans ?_
    simp only [pendRow_fields, mem_joinOnce, List.mem_cons, or_assoc]

theorem foldl_pendRow_rest (l : List TerminalNo) : ∀ c : Chip,
    l.foldl (fun c t => c.pendRow t) c =
      { c with noticeWriter := (l.foldl (fun c t => c.pendRow t) c).noticeWriter } := by
  induction l with
  | nil => exact fun c => rfl
  | cons j l ih => exact fun c => ih (c.pendRow j)

/-! The stages of `enterStarting`, in order. -/

/-- The areas placed, the settings taken, the service STARTING, nothing marked yet. -/
def Chip.starting (ms : List LineNo) (l : List Word) (c : Chip) : Chip :=
  (((c.settle ms l).onPath (·.start (baseOf l 0) (baseOf l 2) (baseOf l 4))).onUnit fun u =>
    { u with service := .starting, startStage := .clearing }).collect

/-- The records and status words `items` marked and awaited, the first writes of the windows pending. -/
def Chip.firstWrites (items : List MirrorItem) (keys : List KeyItem) (rows : List TerminalNo) (c : Chip) : Chip :=
  rows.foldl (fun c t => c.pendRow t)
    (keys.foldl (fun c i => c.pendKey i) ((c.markAll items).onUnit fun u => { u with collecting := false }))

theorem enterStarting_eq (l : List Word) (c : Chip) :
    c.enterStarting l = (c.starting (List.finRange 8) l).firstWrites startItems
      ((List.finRange 64).flatMap startKeyItems) (List.finRange 64) := rfl

section
variable (items : List MirrorItem) (keys : List KeyItem) (rows : List TerminalNo)

/-- The first writes reach the command unit, the mirror writer, key intake's list and the notice writer's alone. -/
theorem firstWrites_rest (c : Chip) :
    (c.firstWrites items keys rows).path = c.path ∧ (c.firstWrites items keys rows).lines = c.lines ∧
      (c.firstWrites items keys rows).link = c.link := by
  unfold Chip.firstWrites
  rw [foldl_pendRow_rest, foldl_pendKey_rest, markAll_rest]
  exact ⟨rfl, rfl, rfl⟩

theorem firstWrites_cu (c : Chip) :
    (c.firstWrites items keys rows).cu =
      { c.cu with waitSet := (c.markAll items).cu.waitSet, collecting := false } := by
  unfold Chip.firstWrites
  rw [foldl_pendRow_rest, foldl_pendKey_rest]
  exact congrArg (fun u : CommandUnit => { u with collecting := false }) (markAll_cu items c)

theorem firstWrites_awaits {c : Chip} (hc : c.cu.collecting = true) (i : MirrorItem) :
    (c.firstWrites items keys rows).Awaits i ↔ c.Awaits i ∨ i ∈ items := by
  refine Iff.trans ?_ (markAll_awaits items c i hc)
  unfold Chip.Awaits
  rw [firstWrites_cu]

theorem firstWrites_pending (c : Chip) {i : MirrorItem} (hi : i ∈ items) :
    i ∈ (c.firstWrites items keys rows).mirror.pending := by
  unfold Chip.firstWrites
  rw [foldl_pendRow_rest, foldl_pendKey_rest]
  exact (markAll_pending ..).mpr (Or.inr hi)

theorem firstWrites_rows (c : Chip) {t : TerminalNo} (ht : t ∈ rows) :
    t ∈ (c.firstWrites items keys rows).noticeWriter.pending := by
  unfold Chip.firstWrites
  exact (foldl_pendRow ..).mpr (Or.inr ht)

theorem firstWrites_keys (h : ∀ i ∈ keys, ∀ t, i ≠ .keyWords t) (c : Chip) {i : KeyItem} (hi : i ∈ keys) :
    i ∈ (c.firstWrites items keys rows).keyWriter.pending := by
  unfold Chip.firstWrites
  rw [foldl_pendRow_rest]
  exact (foldl_pendKey keys h ..).mpr (Or.inr hi)

end

theorem starting_fields (ms : List LineNo) (l : List Word) (c : Chip) :
    (c.starting ms l).path = c.path.start (baseOf l 0) (baseOf l 2) (baseOf l 4) ∧
      (c.starting ms l).link = { c.link with holdLimit := clamp 1 255 (l.getD 16 0).toNat } ∧
      (c.starting ms l).lines = (c.settle ms l).lines ∧
      (c.starting ms l).cu =
        { c.cu with service := .starting, startStage := .clearing, waitSet := [], collecting := true } := by
  unfold Chip.starting
  rw [settle_rest]
  exact ⟨rfl, rfl, rfl, rfl⟩

theorem startKeyItems_noKeyWords : ∀ i ∈ (List.finRange 64).flatMap startKeyItems, ∀ t, i ≠ .keyWords t := by
  intro i hi t
  obtain ⟨w, _, hw⟩ := List.mem_flatMap.mp hi
  rintro rfl
  simp [startKeyItems] at hw

/-- What START's last configuration word leaves of the command unit. -/
theorem enterStarting_unit (l : List Word) (c : Chip) :
    (c.enterStarting l).cu.service = .starting ∧ (c.enterStarting l).cu.phase = c.cu.phase ∧
      ∀ i, (c.enterStarting l).Awaits i ↔ i ≠ .attentionRaw := by
  obtain ⟨_, _, _, cu⟩ := starting_fields (List.finRange 8) l c
  rw [enterStarting_eq]
  refine ⟨?_, ?_, fun i => ?_⟩
  · rw [firstWrites_cu, cu]
  · rw [firstWrites_cu, cu]
  · rw [firstWrites_awaits _ _ _ (by rw [cu]), mem_startItems]
    unfold Chip.Awaits
    rw [cu]
    simp

/-- What START's last configuration word makes pending. -/
theorem enterStarting_pending (l : List Word) (c : Chip) :
    (∀ i, i ≠ .attentionRaw → i ∈ (c.enterStarting l).mirror.pending) ∧
      ∀ u : TerminalNo, u ∈ (c.enterStarting l).noticeWriter.pending ∧
        ∀ i ∈ startKeyItems u, i ∈ (c.enterStarting l).keyWriter.pending := by
  rw [enterStarting_eq]
  refine ⟨fun i hi => firstWrites_pending _ _ _ _ ((mem_startItems i).mpr hi), fun u =>
    ⟨firstWrites_rows _ _ _ _ (List.mem_finRange u), fun i hi => ?_⟩⟩
  exact firstWrites_keys _ _ _ startKeyItems_noKeyWords _ (List.mem_flatMap.mpr ⟨u, List.mem_finRange u, hi⟩)

/-- What START's last configuration word leaves of the port, the lines and the link. -/
theorem enterStarting_settings (l : List Word) (c : Chip) :
    (c.enterStarting l).path = c.path.start (baseOf l 0) (baseOf l 2) (baseOf l 4) ∧
      (∀ m : LineNo, (c.enterStarting l).lines[m] = c.lines[m].settled l m) ∧
      (c.enterStarting l).link = { c.link with holdLimit := clamp 1 255 (l.getD 16 0).toNat } := by
  obtain ⟨path, link, lines, _⟩ := starting_fields (List.finRange 8) l c
  rw [enterStarting_eq]
  obtain ⟨epath, elines, elink⟩ := firstWrites_rest startItems ((List.finRange 64).flatMap startKeyItems)
    (List.finRange 64) (c.starting (List.finRange 8) l)
  refine ⟨epath.trans path, fun m => ?_, elink.trans link⟩
  simp only [elines, lines]
  exact settle_line (List.nodup_finRange 8) l c (List.mem_finRange m)

/-- Settles O32: what the last word decides is in `validateStart_bad` and `validateStart_good`. -/
theorem startConfiguresThePart : Obligations.StartConfiguresThePart := by
  refine fun s => ⟨fun ⟨hr, hdue⟩ => ?_, fun base w hg hp hs hpage hlen hw l hl => ?_⟩
  · rw [exec_start, chipEvent_released hr, Chip.beginStart, if_pos hdue]
    rfl
  obtain ⟨haddress, hin⟩ := controlWord_at hpage (o := configFirst + s.chip.cu.configRead.length)
    (by unfold configFirst Config.controlPageWords; omega)
  have hread : s.memory.read (base + (configFirst + s.chip.cu.configRead.length)) = w := by
    rw [hw, configFirst, Nat.add_assoc]
  refine ⟨_, (exec_startConfigRead s).trans (ownRead_served hg (configRead_plan hp hs) haddress hin), rfl, ?_⟩
  rw [hread]
  dsimp only
  rw [← hl]
  have hlength : l.length = s.chip.cu.configRead.length + 1 := by rw [hl]; simp
  refine ⟨fun hmore => ?_, ?_⟩
  · rw [if_pos (by unfold configCount; omega)]
    rfl
  rintro hlast _ _ _ rfl rfl rfl
  rw [if_neg (by unfold configCount; omega)]
  refine ⟨fun hbad => ?_, fun hgood => ?_⟩
  · rw [validateStart_bad (c := s.chip.withConfig l) hpage.1 hbad]
    exact ⟨rfl, rfl, rfl, rfl, rfl, rfl⟩
  · rw [validateStart_good (c := s.chip.withConfig l) hpage.1 hgood]
    obtain ⟨path, lines, link⟩ := enterStarting_settings l (s.chip.withConfig l)
    obtain ⟨service, phase, awaits⟩ := enterStarting_unit l (s.chip.withConfig l)
    obtain ⟨pending, writers⟩ := enterStarting_pending l (s.chip.withConfig l)
    unfold Chip.Awaits at awaits ⊢
    simp only [granted_path, granted_fields, path]
    exact ⟨rfl, service, phase.trans hp, lines, link, awaits, pending, writers⟩

/-! ## The mirror writer (R33, R16, R28 b) -/

theorem exec_mirrorWriteOutBegin (s : State) :
    exec .mirrorWriteOutBegin s = chipEvent Chip.beginWriteOut s := rfl

theorem exec_mirrorWordWrite (s : State) :
    exec .mirrorWordWrite s = ownWrite .mirrorWriter Chip.mirrorWord s := rfl

/-- The write-out that begins with item `i` (R33). -/
def Chip.writeOutOf (c : Chip) (i : MirrorItem) : WriteOut :=
  { item := i, words := c.itemWords i, offset := 0, carriesRefusal := Decidable.decide (i = .refusal) && c.path.refusalUncarried }

theorem writeOutBegins_eq (i : MirrorItem) (u : CommandUnit) :
    u.writeOutBegins i =
      { u with waitSet := u.waitSet.map fun e => { e with begun := e.begun || decide (e.item = i) } } := by
  unfold CommandUnit.writeOutBegins
  congr 1
  refine List.map_congr_left fun e _ => ?_
  split
  · rename_i h
    simp [h]
  · rename_i h
    simp [h]

/-- What the beginning of a write-out leaves (R33). -/
theorem beginWriteOut_effect {i : MirrorItem} {rest : List MirrorItem} (hw : c.mirror.writing = none)
    (hp : c.mirror.pending = i :: rest) :
    c.beginWriteOut.mirror = { pending := rest, writing := some (c.writeOutOf i) } ∧
      c.beginWriteOut.cu = c.cu.writeOutBegins i ∧
      c.beginWriteOut.path =
        { c.path with refusalUncarried := c.path.refusalUncarried && decide (i ≠ .refusal) } := by
  unfold Chip.beginWriteOut
  simp only [hw, hp]
  by_cases hi : i = .refusal
  · rw [if_pos hi]
    subst hi
    refine ⟨rfl, rfl, ?_⟩
    simp
  · rw [if_neg hi]
    refine ⟨rfl, rfl, ?_⟩
    simp [hi]

theorem mirrorWord_more {w : WriteOut} {x : Word} {rest : List Word} (hw : c.mirror.writing = some w)
    (hx : w.words = x :: rest) (hrest : rest ≠ []) :
    c.mirrorWord = some
      { address := c.path.itemWord w.item w.offset
        value := x
        after := c.onMirror fun m => { m with writing := some { w with words := rest, offset := w.offset + 1 } } } := by
  unfold Chip.mirrorWord
  simp only [hw, hx, if_neg hrest]

/-- The part when the last word of a write-out has been served, before what it carries is raised. -/
def Chip.writtenOut (c : Chip) (i : MirrorItem) : Chip :=
  (c.onMirror fun m => { m with writing := none }).writeOutEnds i

theorem mirrorWord_last {w : WriteOut} {x : Word} (hw : c.mirror.writing = some w) (hx : w.words = [x]) :
    c.mirrorWord = some
      { address := c.path.itemWord w.item w.offset
        value := x
        after := if w.carriesRefusal then (c.writtenOut w.item).raise .refusal else c.writtenOut w.item } := by
  unfold Chip.mirrorWord
  simp only [hw, hx, if_true]
  rfl

/-- The entries a write-out of `i` leaves in the wait set. -/
def CommandUnit.leftAfter (u : CommandUnit) (i : MirrorItem) : List WaitEntry :=
  u.waitSet.filter fun e => !(decide (e.item = i) && e.begun)

theorem mem_leftAfter {u : CommandUnit} {i : MirrorItem} {e : WaitEntry} :
    e ∈ u.leftAfter i ↔ e ∈ u.waitSet ∧ ¬(e.item = i ∧ e.begun = true) := by
  rw [CommandUnit.leftAfter, List.mem_filter, Bool.not_eq_true', Bool.and_eq_false_iff, decide_eq_false_iff_not, 
    Classical.not_and_iff_not_or_not, Bool.not_eq_true]

theorem leftAfter_nil {u : CommandUnit} {i : MirrorItem} :
    u.leftAfter i = [] ↔ ∀ e ∈ u.waitSet, e.item = i ∧ e.begun = true := by
  rw [List.eq_nil_iff_forall_not_mem]
  refine forall_congr' fun e => ?_
  rw [mem_leftAfter, Decidable.not_and_not_right]

/-- START's wait set is empty (R32). -/
def CommandUnit.Cleared (u : CommandUnit) (i : MirrorItem) : Prop :=
  u.leftAfter i = [] ∧ u.phase = .acting ∧ u.startStage = .clearing

theorem writtenOut_runs {i : MirrorItem} (h : c.cu.Cleared i) :
    c.writtenOut i = ((c.onMirror fun m => { m with writing := none }).onUnit fun u =>
      { u with waitSet := [] }).enterRunning := by
  obtain ⟨hleft, hp, hs⟩ := h
  have phase : c.cu.phase ≠ .waiting := by rw [hp]; nofun
  unfold Chip.writtenOut Chip.writeOutEnds
  dsimp only
  have hleft' : (c.onMirror fun m => { m with writing := none }).cu.waitSet.filter
      (fun e => !(decide (e.item = i) && e.begun)) = [] := hleft
  rw [if_pos hleft', hleft', if_neg (by exact phase), if_pos (by exact ⟨hp, hs⟩)]

/-- The phase an ended write-out leaves, START's clearing apart. -/
def CommandUnit.phaseAfter (u : CommandUnit) (i : MirrorItem) : CommandPhase :=
  if u.leftAfter i = [] ∧ u.phase = .waiting then .reporting else u.phase

theorem writtenOut_ends {i : MirrorItem} (h : ¬c.cu.Cleared i) :
    c.writtenOut i = (c.onMirror fun m => { m with writing := none }).onUnit fun u =>
      { u with waitSet := c.cu.leftAfter i, phase := c.cu.phaseAfter i } := by
  unfold Chip.writtenOut Chip.writeOutEnds CommandUnit.phaseAfter
  dsimp only
  have hleft : (c.onMirror fun m => { m with writing := none }).cu.waitSet.filter
      (fun e => !(decide (e.item = i) && e.begun)) = c.cu.leftAfter i := rfl
  rw [hleft]
  by_cases hnil : c.cu.leftAfter i = []
  · rw [if_pos hnil]
    by_cases hp : c.cu.phase = .waiting
    · rw [if_pos (by exact hp), if_pos ⟨hnil, hp⟩]
      rfl
    · rw [if_neg (by exact hp), if_neg (by exact fun k => h ⟨hnil, k⟩), if_neg (fun k => hp k.2)]
      rfl
  · rw [if_neg hnil, if_neg (fun k => hnil k.1)]
    rfl

theorem enterRunning_cu (c : Chip) :
    c.enterRunning.cu = { c.cu with
      service := .running, waitSet := [{ item := .serviceState, begun := false }], phase := .waiting, result := .ok
      resultWords := [], reported := 0, collecting := false, startStage := .notBegun } := by
  unfold Chip.enterRunning
  simp only [onUnit_fields, mark_fields, collect_fields, if_true]
  rfl

theorem enterRunning_mirror (c : Chip) : c.enterRunning.mirror = c.mirror.mark .serviceState := by
  unfold Chip.enterRunning
  simp only [onUnit_fields, mark_fields, collect_fields]

/-- The command unit after a write-out that ends START's clearing (R32). -/
theorem writtenOut_cleared {i : MirrorItem} (h : c.cu.Cleared i) :
    (c.writtenOut i).cu = { c.cu with
        service := .running, waitSet := [{ item := .serviceState, begun := false }], phase := .waiting, result := .ok
        resultWords := [], reported := 0, collecting := false, startStage := .notBegun } ∧
      (c.writtenOut i).mirror = { c.mirror with writing := none }.mark .serviceState := by
  rw [writtenOut_runs h, enterRunning_cu, enterRunning_mirror]
  exact ⟨rfl, rfl⟩

/-- The command unit after any other write-out (R28 b). -/
theorem writtenOut_other {i : MirrorItem} (h : ¬c.cu.Cleared i) :
    (c.writtenOut i).cu = { c.cu with waitSet := c.cu.leftAfter i, phase := c.cu.phaseAfter i } ∧
      (c.writtenOut i).mirror = { c.mirror with writing := none } := by
  rw [writtenOut_ends h]
  exact ⟨rfl, rfl⟩

theorem writtenOut_kept (c : Chip) (i : MirrorItem) :
    (c.writtenOut i).mirror.writing = none ∧ (c.writtenOut i).cu.attentionRaw = c.cu.attentionRaw := by
  by_cases h : c.cu.Cleared i
  · obtain ⟨cu, mirror⟩ := writtenOut_cleared h
    rw [cu, mirror]
    exact ⟨rfl, rfl⟩
  · obtain ⟨cu, mirror⟩ := writtenOut_other h
    rw [cu, mirror]
    exact ⟨rfl, rfl⟩

/-- What a raised cause adds to the wait set: word 4, inside a command's action. -/
theorem raise_waitSet (c : Chip) (n : Cause) :
    (c.cu.collecting = false → (c.raise n).cu.waitSet = c.cu.waitSet) ∧
      (∀ e ∈ (c.raise n).cu.waitSet, e ∈ c.cu.waitSet ∨ e = { item := .attentionRaw, begun := false }) ∧
      ∀ e ∈ c.cu.waitSet, e ∈ (c.raise n).cu.waitSet := by
  unfold Chip.raise
  dsimp only
  split
  · exact ⟨fun _ => rfl, fun e h => Or.inl h, fun e h => h⟩
  simp only [mark_fields, onUnit_fields, CommandUnit.setAttention]
  refine ⟨fun h => if_neg (ne_true_of_eq_false h), ?_⟩
  split
  · unfold WaitEntry.add
    split
    · exact ⟨fun e h => Or.inl h, fun e h => h⟩
    · exact ⟨fun e h => (List.mem_append.mp h).imp id List.mem_singleton.mp, fun e h => List.mem_append_left _ h⟩
  · exact ⟨fun e h => Or.inl h, fun e h => h⟩

theorem raise_mirror (c : Chip) (n : Cause) :
    (c.raise n).mirror.writing = c.mirror.writing ∧ ∀ i ∈ c.mirror.pending, i ∈ (c.raise n).mirror.pending := by
  unfold Chip.raise
  dsimp only
  split
  · exact ⟨rfl, fun i h => h⟩
  · simp only [mark_fields]
    exact ⟨rfl, fun i h => (mem_mark_pending ..).mpr (Or.inl h)⟩

/-- The part after the last word of write-out `w`. -/
def Chip.afterWriteOut (c : Chip) (w : WriteOut) : Chip :=
  if w.carriesRefusal then (c.writtenOut w.item).raise .refusal else c.writtenOut w.item

/-- What carrying a refusal leaves as the write-out's end left it. -/
theorem afterWriteOut_kept (c : Chip) (w : WriteOut) :
    (c.afterWriteOut w).mirror.writing = (c.writtenOut w.item).mirror.writing ∧
      (c.afterWriteOut w).cu.phase = (c.writtenOut w.item).cu.phase ∧
      (c.afterWriteOut w).cu.service = (c.writtenOut w.item).cu.service ∧
      (c.afterWriteOut w).cu.result = (c.writtenOut w.item).cu.result ∧
      (∀ i ∈ (c.writtenOut w.item).mirror.pending, i ∈ (c.afterWriteOut w).mirror.pending) ∧
      ((c.writtenOut w.item).cu.collecting = false ∨ w.carriesRefusal = false →
        (c.afterWriteOut w).cu.waitSet = (c.writtenOut w.item).cu.waitSet) ∧
      (∀ e ∈ (c.afterWriteOut w).cu.waitSet,
        e ∈ (c.writtenOut w.item).cu.waitSet ∨ e = { item := .attentionRaw, begun := false }) ∧
      ∀ e ∈ (c.writtenOut w.item).cu.waitSet, e ∈ (c.afterWriteOut w).cu.waitSet := by
  unfold Chip.afterWriteOut
  split
  · rename_i hcarries
    obtain ⟨_, phase, _, service, _, _, result, _⟩ := raise_unit (c.writtenOut w.item) .refusal
    obtain ⟨same, added, kept⟩ := raise_waitSet (c.writtenOut w.item) .refusal
    obtain ⟨writing, pending⟩ := raise_mirror (c.writtenOut w.item) .refusal
    exact ⟨writing, phase, service, result, pending,
      fun h => same (h.resolve_right fun k => by rw [hcarries] at k; cases k), added, kept⟩
  · exact ⟨rfl, rfl, rfl, rfl, fun i h => h, fun _ => rfl, fun e h => Or.inl h, fun e h => h⟩

theorem afterWriteOut_raw (c : Chip) (w : WriteOut) :
    (w.carriesRefusal = true → (c.afterWriteOut w).cu.attentionRaw = c.cu.attentionRaw ||| 8#8) ∧
      (w.carriesRefusal = false → (c.afterWriteOut w).cu.attentionRaw = c.cu.attentionRaw) := by
  have raw := (writtenOut_kept c w.item).2
  unfold Chip.afterWriteOut
  refine ⟨fun h => ?_, fun h => ?_⟩
  · obtain ⟨_, _, _, _, raised, _⟩ := raise_unit (c.writtenOut w.item) .refusal
    rw [if_pos h, raised, raw]
    rfl
  · rw [if_neg (ne_true_of_eq_false h), raw]

/-- Everything the last word of a write-out leaves (R28 b, R32). -/
theorem afterWriteOut_effect (c : Chip) (w : WriteOut) :
    (c.afterWriteOut w).mirror.writing = none ∧
      (w.carriesRefusal = true → (c.afterWriteOut w).cu.attentionRaw = c.cu.attentionRaw ||| 8#8) ∧
      (w.carriesRefusal = false → (c.afterWriteOut w).cu.attentionRaw = c.cu.attentionRaw) ∧
      (∀ left, left = c.cu.leftAfter w.item →
        (left = [] ∧ c.cu.phase = .acting ∧ c.cu.startStage = .clearing →
          (c.afterWriteOut w).cu.waitSet = [{ item := .serviceState, begun := false }]) ∧
        (¬(left = [] ∧ c.cu.phase = .acting ∧ c.cu.startStage = .clearing) →
          (c.cu.collecting = false ∨ w.carriesRefusal = false → (c.afterWriteOut w).cu.waitSet = left) ∧
          ∀ e ∈ (c.afterWriteOut w).cu.waitSet, e ∈ left ∨ e = { item := .attentionRaw, begun := false })) ∧
      ((∃ e ∈ c.cu.waitSet, ¬(e.item = w.item ∧ e.begun = true)) → (c.afterWriteOut w).cu.phase = c.cu.phase ∧
        (c.afterWriteOut w).cu.service = c.cu.service ∧
        ∀ e ∈ c.cu.waitSet, ¬(e.item = w.item ∧ e.begun = true) → e ∈ (c.afterWriteOut w).cu.waitSet) ∧
      ((∀ e ∈ c.cu.waitSet, e.item = w.item ∧ e.begun = true) →
        (c.cu.phase = .waiting → (c.afterWriteOut w).cu.phase = .reporting ∧
          (c.afterWriteOut w).cu.service = c.cu.service) ∧
        (c.cu.phase = .acting ∧ c.cu.startStage = .clearing →
          (c.afterWriteOut w).cu.phase = .waiting ∧ (c.afterWriteOut w).cu.service = .running ∧
            (c.afterWriteOut w).cu.result = .ok ∧ (c.afterWriteOut w).Awaits .serviceState ∧
            MirrorItem.serviceState ∈ (c.afterWriteOut w).mirror.pending)) := by
  obtain ⟨writing, phase, service, result, pending, same, added, kept⟩ := afterWriteOut_kept c w
  refine ⟨writing.trans (writtenOut_kept c w.item).1, (afterWriteOut_raw c w).1, (afterWriteOut_raw c w).2, ?_, ?_, ?_⟩
  · rintro _ rfl
    refine ⟨fun h => ?_, fun h => ?_⟩
    · obtain ⟨cu, _⟩ := writtenOut_cleared h
      rw [same (Or.inl (by rw [cu])), cu]
    · obtain ⟨cu, _⟩ := writtenOut_other h
      rw [cu] at same added
      exact ⟨same, added⟩
  · rintro ⟨e, he, hne⟩
    have hleft : c.cu.leftAfter w.item ≠ [] := fun h => hne (leftAfter_nil.mp h e he)
    obtain ⟨cu, _⟩ := writtenOut_other fun h : c.cu.Cleared w.item => hleft h.1
    rw [phase, service, cu]
    rw [cu] at kept
    exact ⟨if_neg fun h => hleft h.1, rfl, fun e he hne => kept e (mem_leftAfter.mpr ⟨he, hne⟩)⟩
  · intro hall
    have hleft := leftAfter_nil.mpr hall
    refine ⟨fun hp => ?_, fun hstart => ?_⟩
    · obtain ⟨cu, _⟩ := writtenOut_other fun h : c.cu.Cleared w.item => by
        rw [h.2.1] at hp
        cases hp
      rw [phase, service, cu]
      exact ⟨if_pos ⟨hleft, hp⟩, rfl⟩
    · obtain ⟨cu, mirror⟩ := writtenOut_cleared (i := w.item) ⟨hleft, hstart⟩
      rw [cu] at kept
      rw [phase, service, result, cu]
      refine ⟨rfl, rfl, rfl, ⟨_, kept _ List.mem_cons_self, rfl⟩, pending _ ?_⟩
      rw [mirror]
      exact (mem_mark_pending ..).mpr (Or.inr rfl)

/-- Settles O33: `beginWriteOut_effect` for the beginning, `afterWriteOut_kept` with `writtenOut_cleared` and
`writtenOut_other` for the last word. -/
theorem mirrorWriterCopiesAndWrites : Obligations.MirrorWriterCopiesAndWrites := by
  refine ⟨fun s i rest hr hw hp => ?_, fun s w x rest a hg hw hx ha hlt => ?_⟩
  · obtain ⟨mirror, cu, path⟩ := beginWriteOut_effect hw hp
    refine ⟨_, (exec_mirrorWriteOutBegin s).trans (chipEvent_released hr), rfl, congrArg MirrorWriter.pending mirror,
      fun b hb => ?_, cu.trans (writeOutBegins_eq ..), path⟩
    subst hb
    exact congrArg MirrorWriter.writing mirror
  by_cases hrest : rest = []
  · subst hrest
    refine ⟨_, (exec_mirrorWordWrite s).trans (ownWrite_served hg (mirrorWord_last hw hx) ha hlt), rfl,
      fun h => absurd rfl h, fun _ => ?_⟩
    exact afterWriteOut_effect s.chip w
  · exact ⟨_, (exec_mirrorWordWrite s).trans (ownWrite_served hg (mirrorWord_more hw hx hrest) ha hlt), rfl,
      fun _ => rfl, fun h => absurd h hrest⟩

end

end Sys2Proof.Machine
end

section
/-! SUPPORT. What every command's body answers when its caller is not admitted, and that a refusal carries a result
other than OK (R26, R27; O34). -/

namespace Sys2Proof.Machine

section
variable {c : Chip} {a : Admits} {r : ResultCode}

/-- A reply that, when it refuses, names what is wrong. -/
def Reply.Named (p : Reply) : Prop := ∀ r words, p = .refused r words → r ≠ .ok

/-- A reply of a command whose rule admits the callers `a`: any other caller is refused with what R27 says, unless an
argument is out of range. -/
def Reply.Checked (p : Reply) (a : Admits) (c : Chip) : Prop :=
  p.Named ∧ ∀ r, c.callerFault a = some r → p = .refuse .badArgument ∨ p = .refuse r

theorem named_done (d : Chip) (words : List Word) : (Reply.done d words).Named := nofun

theorem named_refused (words : List Word) (h : r ≠ .ok) : (Reply.refused r words).Named := by
  rintro _ _ ⟨⟩
  exact h

theorem callerFault_ne_ok (h : c.callerFault a = some r) : r ≠ .ok := by
  unfold Chip.callerFault at h
  repeat' split at h
  all_goals first | (cases h; done) | (injection h with h; subst h; exact nofun)

theorem checked_badArgument (a : Admits) (c : Chip) : (Reply.refuse .badArgument).Checked a c :=
  ⟨named_refused [] nofun, fun _ _ => Or.inl rfl⟩

/-- The caller is refused. -/
theorem checked_caller (h : c.callerFault a = some r) : (Reply.refuse r).Checked a c :=
  ⟨named_refused [] (callerFault_ne_ok h), fun _ h' => Or.inr (congrArg Reply.refuse (Option.some.inj (h.symm.trans h')))⟩

/-- The caller is admitted, and the rest of the body decides. -/
theorem checked_admitted {p : Reply} (h : c.callerFault a = none) (hp : p.Named) : p.Checked a c :=
  ⟨hp, fun r h' => by rw [h] at h'; cases h'⟩

/-! The checks of a block begin with the caller's. -/

theorem custodyFault_checked {b relation : Bool} (h : c.custodyFault a b relation = some r) :
    (Reply.refuse r).Checked a c := by
  cases hc : c.callerFault a with
  | some f =>
    simp only [Chip.custodyFault, hc] at h
    cases h
    exact checked_caller hc
  | none =>
    simp only [Chip.custodyFault, hc] at h
    refine checked_admitted hc (named_refused [] fun e => ?_)
    subst e
    cases b <;> cases relation <;> cases h

theorem custodyFault_admitted {b relation : Bool} (h : c.custodyFault a b relation = none) :
    c.callerFault a = none := by
  cases hc : c.callerFault a with
  | some f =>
    simp only [Chip.custodyFault, hc] at h
    cases h
  | none => rfl

theorem pageFault_checked {b : Bool} {d : DeskNo} (h : c.pageFault b d = some r) :
    (Reply.refuse r).Checked { system := true, terminal := some .slot } c := by
  cases hc : c.callerFault { system := true, terminal := some .slot } with
  | some f =>
    simp only [Chip.pageFault, hc] at h
    cases h
    exact checked_caller hc
  | none =>
    simp only [Chip.pageFault, hc] at h
    refine checked_admitted hc (named_refused [] fun e => ?_)
    subst e
    split at h
    · cases h
    · split at h <;> cases h

theorem pageFault_admitted {b : Bool} {d : DeskNo} (h : c.pageFault b d = none) :
    c.callerFault { system := true, terminal := some .slot } = none := by
  cases hc : c.callerFault { system := true, terminal := some .slot } with
  | some f =>
    simp only [Chip.pageFault, hc] at h
    cases h
  | none => rfl

theorem signOffFault_checked {t : TerminalNo} (h : c.signOffFault t = some r) :
    (Reply.refuse r).Checked { system := true, terminal := some .read } c := by
  cases hc : c.callerFault { system := true, terminal := some .read } with
  | some f =>
    simp only [Chip.signOffFault, hc] at h
    cases h
    exact checked_caller hc
  | none =>
    simp only [Chip.signOffFault, hc] at h
    refine checked_admitted hc (named_refused [] fun e => ?_)
    subst e
    split at h
    · split at h <;> cases h
    · split at h <;> cases h

theorem signOffFault_admitted {t : TerminalNo} (h : c.signOffFault t = none) :
    c.callerFault { system := true, terminal := some .read } = none := by
  cases hc : c.callerFault { system := true, terminal := some .read } with
  | some f =>
    simp only [Chip.signOffFault, hc] at h
    cases h
  | none => rfl

theorem releaseFault_named {p : PageNo} {force : Bool} {words : List Word} (h : c.releaseFault p force = some (r, words)) :
    r ≠ .ok := by
  rintro rfl
  unfold Chip.releaseFault at h
  dsimp only at h
  split at h
  · cases h
  split at h
  · cases h
  split at h
  · cases h
  split at h
  · cases h
  split at h <;> cases h

/-! ## The bodies -/

theorem checked_terminalOn (c : Chip) : c.terminalOn.Checked .systemOnly c := by
  unfold Chip.terminalOn
  split
  · exact checked_badArgument ..
  · split
    · exact checked_caller ‹_›
    · refine checked_admitted ‹_› ?_
      split
      · exact named_refused [] nofun
      · exact named_done _ _

theorem checked_terminalOff (c : Chip) : c.terminalOff.Checked .systemOnly c := by
  unfold Chip.terminalOff
  split
  · exact checked_badArgument ..
  · split
    · exact checked_caller ‹_›
    · refine checked_admitted ‹_› ?_
      split
      · exact named_done _ _
      · exact named_refused [] nofun

theorem checked_lineReset (c : Chip) : c.lineReset.Checked .systemOnly c := by
  unfold Chip.lineReset
  split
  · exact checked_badArgument ..
  · split
    · exact checked_caller ‹_›
    · refine checked_admitted ‹_› ?_
      exact named_done _ _

theorem checked_signOn (c : Chip) : c.signOn.Checked .systemOnly c := by
  unfold Chip.signOn
  split
  · split
    · exact checked_caller ‹_›
    · refine checked_admitted ‹_› ?_
      split
      · exact named_refused [] nofun
      · exact named_done _ _
  · exact checked_badArgument ..

theorem checked_signOff (c : Chip) : c.signOff.Checked { system := true, terminal := some .read } c := by
  unfold Chip.signOff
  split
  · exact checked_badArgument ..
  · split
    · exact signOffFault_checked ‹_›
    · refine checked_admitted (signOffFault_admitted ‹_›) ?_
      exact named_done _ _

theorem checked_ackNotice (c : Chip) : c.ackNotice.Checked .systemOnly c := by
  unfold Chip.ackNotice
  split
  · exact checked_badArgument ..
  · split
    · exact checked_caller ‹_›
    · refine checked_admitted ‹_› ?_
      split
      · exact named_refused [] nofun
      · exact named_done _ _

theorem checked_postNotice (c : Chip) : c.postNotice.Checked .systemOnly c := by
  unfold Chip.postNotice
  split
  · split
    · exact checked_caller ‹_›
    · refine checked_admitted ‹_› ?_
      exact named_done _ _
  · exact checked_badArgument ..

theorem checked_create (c : Chip) : c.create.Checked .editors c := by
  unfold Chip.create
  split
  · split
    · exact custodyFault_checked ‹_›
    · refine checked_admitted (custodyFault_admitted ‹_›) ?_
      split
      · exact named_refused [] nofun
      · split
        · exact named_refused [] nofun
        · exact named_done _ _
  · exact checked_badArgument ..

theorem checked_attach (c : Chip) : c.attach.Checked .editors c := by
  unfold Chip.attach
  split
  · split
    · exact custodyFault_checked ‹_›
    · refine checked_admitted (custodyFault_admitted ‹_›) ?_
      split
      · exact named_refused [] nofun
      · split
        · exact named_refused [] nofun
        · exact named_done _ _
  · exact checked_badArgument ..

theorem checked_detach (c : Chip) : c.detach.Checked .editors c := by
  unfold Chip.detach
  split
  · exact checked_badArgument ..
  · split
    · exact custodyFault_checked ‹_›
    · refine checked_admitted (custodyFault_admitted ‹_›) ?_
      split
      · exact named_refused [] nofun
      · exact named_done _ _

theorem checked_submit (c : Chip) : c.submit.Checked .systemOnly c := by
  unfold Chip.submit
  split
  · split
    · exact custodyFault_checked ‹_›
    · refine checked_admitted (custodyFault_admitted ‹_›) ?_
      split
      · exact named_refused [] nofun
      · exact named_done _ _
  · exact checked_badArgument ..

theorem checked_openStory (c : Chip) : c.openStory.Checked { system := false, terminal := some .edit } c := by
  unfold Chip.openStory
  split
  · exact checked_badArgument ..
  · split
    · exact custodyFault_checked ‹_›
    · refine checked_admitted (custodyFault_admitted ‹_›) ?_
      split
      · exact named_refused [] nofun
      · split
        · exact named_refused [] nofun
        · exact named_done _ _

theorem checked_send (c : Chip) : c.send.Checked .editors c := by
  unfold Chip.send
  split
  · dsimp only
    split
    · exact custodyFault_checked ‹_›
    · refine checked_admitted (custodyFault_admitted ‹_›) ?_
      split
      · exact named_refused [] nofun
      · exact named_done _ _
  · exact checked_badArgument ..

theorem checked_returnStory (c : Chip) : c.returnStory.Checked .editors c := by
  unfold Chip.returnStory
  split
  · exact checked_badArgument ..
  · split
    · exact custodyFault_checked ‹_›
    · refine checked_admitted (custodyFault_admitted ‹_›) ?_
      exact named_done _ _

theorem checked_kill (c : Chip) : c.kill.Checked { system := true, terminal := some .slot } c := by
  unfold Chip.kill
  split
  · exact checked_badArgument ..
  · dsimp only
    split
    · exact custodyFault_checked ‹_›
    · refine checked_admitted (custodyFault_admitted ‹_›) ?_
      exact named_done _ _

theorem checked_setStyle (c : Chip) : c.setStyle.Checked .editors c := by
  unfold Chip.setStyle
  split
  · dsimp only
    split
    · exact custodyFault_checked ‹_›
    · refine checked_admitted (custodyFault_admitted ‹_›) ?_
      exact named_done _ _
  · exact checked_badArgument ..

theorem checked_setClock (c : Chip) : c.setClock.Checked .systemOnly c := by
  unfold Chip.setClock
  split
  · exact checked_caller ‹_›
  · refine checked_admitted ‹_› ?_
    exact named_done _ _

theorem checked_setEditions (c : Chip) : c.setEditions.Checked .systemOnly c := by
  unfold Chip.setEditions
  split
  · exact checked_badArgument ..
  · split
    · exact checked_caller ‹_›
    · refine checked_admitted ‹_› ?_
      exact named_done _ _

theorem checked_pageOpen (c : Chip) : c.pageOpen.Checked { system := true, terminal := some .slot } c := by
  unfold Chip.pageOpen
  split
  · split
    · exact pageFault_checked ‹_›
    · refine checked_admitted (pageFault_admitted ‹_›) ?_
      exact named_done _ _
  · exact checked_badArgument ..

theorem checked_setClose (c : Chip) : c.setClose.Checked { system := true, terminal := some .slot } c := by
  unfold Chip.setClose
  split
  · exact checked_badArgument ..
  · split
    · exact pageFault_checked ‹_›
    · refine checked_admitted (pageFault_admitted ‹_›) ?_
      exact named_done _ _

theorem checked_place (c : Chip) : c.place.Checked { system := true, terminal := some .slot } c := by
  unfold Chip.place
  split
  · split
    · exact pageFault_checked ‹_›
    · refine checked_admitted (pageFault_admitted ‹_›) ?_
      split
      · exact named_refused [] nofun
      · split
        · exact named_refused [] nofun
        · split
          · exact named_refused [] nofun
          · exact named_done _ _
  · exact checked_badArgument ..

theorem checked_unplace (c : Chip) : c.unplace.Checked { system := true, terminal := some .slot } c := by
  unfold Chip.unplace
  split
  · split
    · exact pageFault_checked ‹_›
    · refine checked_admitted (pageFault_admitted ‹_›) ?_
      split
      · exact named_done _ _
      · exact named_refused [] nofun
  · exact checked_badArgument ..

theorem checked_pageClear (c : Chip) : c.pageClear.Checked { system := true, terminal := some .slot } c := by
  unfold Chip.pageClear
  split
  · exact checked_badArgument ..
  · split
    · exact pageFault_checked ‹_›
    · refine checked_admitted (pageFault_admitted ‹_›) ?_
      split
      · exact named_done _ _
      · exact named_refused [] nofun

theorem checked_release (c : Chip) : c.release.Checked { system := true, terminal := some .slot } c := by
  unfold Chip.release
  split
  · split
    · exact pageFault_checked ‹_›
    · refine checked_admitted (pageFault_admitted ‹_›) ?_
      split
      · exact named_refused _ (releaseFault_named ‹_›)
      · exact named_done _ _
  · exact checked_badArgument ..

theorem checked_replate (c : Chip) : c.replate.Checked { system := true, terminal := some .slot } c := by
  unfold Chip.replate
  split
  · exact checked_badArgument ..
  · dsimp only
    split
    · exact pageFault_checked ‹_›
    · refine checked_admitted (pageFault_admitted ‹_›) ?_
      exact named_done _ _

theorem checked_linkOn (c : Chip) : c.linkOn.Checked .systemOnly c := by
  unfold Chip.linkOn
  split
  · exact checked_caller ‹_›
  · refine checked_admitted ‹_› ?_
    split
    · exact named_done _ _
    · exact named_refused [] nofun

theorem checked_linkResume (c : Chip) : c.linkResume.Checked .systemOnly c := by
  unfold Chip.linkResume
  split
  · exact checked_caller ‹_›
  · refine checked_admitted ‹_› ?_
    split
    · exact named_done _ _
    · exact named_refused [] nofun

theorem checked_linkOff (c : Chip) : c.linkOff.Checked .systemOnly c := by
  unfold Chip.linkOff
  split
  · exact checked_caller ‹_›
  · refine checked_admitted ‹_› ?_
    split
    · exact named_refused [] nofun
    · split
      · exact named_refused [] nofun
      · exact named_done _ _
      · exact named_done _ _
      · exact named_done _ _
      · exact named_done _ _

theorem named_refit (c : Chip) : c.refit.Named := by
  unfold Chip.refit
  split
  · exact named_refused [] nofun
  · split
    · exact named_refused [] nofun
    · exact named_done _ _

theorem named_clockRun (c : Chip) : c.clockRun.Named := by
  unfold Chip.clockRun
  split
  · exact named_refused _ nofun
  · exact named_done _ _

theorem named_clockPause (c : Chip) : c.clockPause.Named := by
  unfold Chip.clockPause
  split
  · exact named_done _ _
  · exact named_refused _ nofun

/-! ## The commands -/

/-- Every command's row hands its body to `takeCommand`; the body names its refusals and checks its callers. -/
theorem exec_command {i : Instr} {n : Nat} (h : commandNumber i = some n) :
    ∃ body : Chip → Reply, (∀ s, exec i s = takeCommand n body s) ∧ (∀ c, (body c).Named) ∧
      ∀ a, admittedBy i = some a → ∀ c, (body c).Checked a c := by
  have checked : ∀ {body : Chip → Reply} {b : Admits} {i : Instr} {n : Nat}, (∀ s, exec i s = takeCommand n body s) →
      admittedBy i = some b → (∀ c, (body c).Checked b c) →
      ∃ body : Chip → Reply, (∀ s, exec i s = takeCommand n body s) ∧ (∀ c, (body c).Named) ∧
        ∀ a, admittedBy i = some a → ∀ c, (body c).Checked a c := fun {body} b i n he hb hc =>
    ⟨body, he, fun c => (hc c).1, fun a ha => by
      cases hb.symm.trans ha
      exact hc⟩
  cases i with
  | terminalOn =>
    cases h
    exact checked (fun _ => rfl) rfl checked_terminalOn
  | terminalOff =>
    cases h
    exact checked (fun _ => rfl) rfl checked_terminalOff
  | lineReset =>
    cases h
    exact checked (fun _ => rfl) rfl checked_lineReset
  | signOn =>
    cases h
    exact checked (fun _ => rfl) rfl checked_signOn
  | signOff =>
    cases h
    exact checked (fun _ => rfl) rfl checked_signOff
  | ackNotice =>
    cases h
    exact checked (fun _ => rfl) rfl checked_ackNotice
  | postNotice =>
    cases h
    exact checked (fun _ => rfl) rfl checked_postNotice
  | create =>
    cases h
    exact checked (fun _ => rfl) rfl checked_create
  | attach =>
    cases h
    exact checked (fun _ => rfl) rfl checked_attach
  | detach =>
    cases h
    exact checked (fun _ => rfl) rfl checked_detach
  | submit =>
    cases h
    exact checked (fun _ => rfl) rfl checked_submit
  | openStory =>
    cases h
    exact checked (fun _ => rfl) rfl checked_openStory
  | send =>
    cases h
    exact checked (fun _ => rfl) rfl checked_send
  | returnStory =>
    cases h
    exact checked (fun _ => rfl) rfl checked_returnStory
  | kill =>
    cases h
    exact checked (fun _ => rfl) rfl checked_kill
  | setStyle =>
    cases h
    exact checked (fun _ => rfl) rfl checked_setStyle
  | setClock =>
    cases h
    exact checked (fun _ => rfl) rfl checked_setClock
  | setEditions =>
    cases h
    exact checked (fun _ => rfl) rfl checked_setEditions
  | pageOpen =>
    cases h
    exact checked (fun _ => rfl) rfl checked_pageOpen
  | setClose =>
    cases h
    exact checked (fun _ => rfl) rfl checked_setClose
  | place =>
    cases h
    exact checked (fun _ => rfl) rfl checked_place
  | unplace =>
    cases h
    exact checked (fun _ => rfl) rfl checked_unplace
  | pageClear =>
    cases h
    exact checked (fun _ => rfl) rfl checked_pageClear
  | release =>
    cases h
    exact checked (fun _ => rfl) rfl checked_release
  | replate =>
    cases h
    exact checked (fun _ => rfl) rfl checked_replate
  | linkOn =>
    cases h
    exact checked (fun _ => rfl) rfl checked_linkOn
  | linkResume =>
    cases h
    exact checked (fun _ => rfl) rfl checked_linkResume
  | linkOff =>
    cases h
    exact checked (fun _ => rfl) rfl checked_linkOff
  | refit =>
    cases h
    exact ⟨_, fun _ => rfl, named_refit, nofun⟩
  | clockRun =>
    cases h
    exact ⟨_, fun _ => rfl, named_clockRun, nofun⟩
  | clockPause =>
    cases h
    exact ⟨_, fun _ => rfl, named_clockPause, nofun⟩
  | _ => cases h

/-- The callers R27 turns away with NO_CLEARANCE. -/
theorem callerFault_noClearance (h : c.cu.context = .none ∨ c.cu.context = .system ∧ a.system = false ∨
      (∃ u, c.cu.context = .terminal u ∧ a.terminal = none) ∨
      (∃ u x low, c.cu.context = .terminal u ∧ a.terminal = some low ∧ c.session u = some x ∧
        x.clearance.code < low.code)) : c.callerFault a = some .noClearance := by
  rcases h with h | ⟨h, hs⟩ | ⟨u, h, ht⟩ | ⟨u, x, low, h, ht, hx, hlow⟩
  · simp only [Chip.callerFault, h]
  · simp only [Chip.callerFault, h, hs, Bool.false_eq_true, if_false]
  · simp only [Chip.callerFault, h, ht]
  · simp only [Chip.callerFault, h, ht, hx, if_pos hlow]

theorem callerFault_notSignedOn {u : TerminalNo} {low : Clearance} (h : c.cu.context = .terminal u)
    (ht : a.terminal = some low) (hx : c.session u = none) : c.callerFault a = some .notSignedOn := by
  simp only [Chip.callerFault, h, ht, hx]

/-- Settles O34, by what every body answers (`exec_command`). -/
theorem refusedCommandsChangeNoBlock : Obligations.RefusedCommandsChangeNoBlock := by
  intro i n s hi hs
  obtain ⟨body, hexec, hnamed, hchecked⟩ := exec_command hi
  refine ⟨?_, fun a ha => ?_⟩
  · cases hb : body s.chip.collect with
    | done d words => exact Or.inl ⟨_, words, (hexec s).trans (takeCommand_done hs hb), endAction_ended ..⟩
    | refused r words =>
      exact Or.inr ⟨r, words, hnamed _ r words hb, (hexec s).trans (takeCommand_refused hs hb)⟩
  · have refused : ∀ r, s.chip.callerFault a = some r →
        exec i s = .next (s.refusedWith .badArgument []) ∨ exec i s = .next (s.refusedWith r []) := fun r hr =>
      ((hchecked a ha s.chip.collect).2 r hr).imp (fun h => (hexec s).trans (takeCommand_refused hs h))
        fun h => (hexec s).trans (takeCommand_refused hs h)
    exact ⟨fun h => refused _ (callerFault_noClearance h),
      fun ⟨u, low, hu, hlow, hx⟩ => refused _ (callerFault_notSignedOn hu hlow hx)⟩

end

end Sys2Proof.Machine
end

section
/-! SUPPORT. The line engines: terminals of a line, dirty rows, link states, the words of a row (O37, O41). -/

namespace Sys2Proof.Machine

section
variable {c d : Chip} {s : State} {l m : LineNo} {t u w : TerminalNo}

/-! ## Terminals and lines -/

theorem terminalOf_parts (u : TerminalNo) : terminalOf (lineOf u) (addressOf u) = u := by
  apply Fin.ext
  simp only [terminalOf, lineOf, addressOf]
  omega

theorem lineOf_terminalOf (l : LineNo) (a : Fin 8) : lineOf (terminalOf l a) = l := by
  apply Fin.ext
  simp only [terminalOf, lineOf]
  omega

theorem addressOf_terminalOf (l : LineNo) (a : Fin 8) : addressOf (terminalOf l a) = a := by
  apply Fin.ext
  simp only [terminalOf, addressOf]
  omega

theorem terminalOf_inj {a b : Fin 8} (h : terminalOf l a = terminalOf l b) : a = b := by
  rw [← addressOf_terminalOf l a, h, addressOf_terminalOf]

theorem terminalOf_eq_iff {a : Fin 8} : terminalOf l a = u ↔ lineOf u = l ∧ addressOf u = a :=
  ⟨fun h => h ▸ ⟨lineOf_terminalOf l a, addressOf_terminalOf l a⟩, fun ⟨hl, ha⟩ => by rw [← hl, ← ha, terminalOf_parts]⟩

/-! ## One entry of a table -/

theorem onLine_line (c : Chip) (l m : LineNo) (f : LineEngine → LineEngine) :
    (c.onLine l f).lines[m] = if l = m then f c.lines[m] else c.lines[m] := update_apply ..

theorem onLine_self (c : Chip) (l : LineNo) (f : LineEngine → LineEngine) : (c.onLine l f).lines[l] = f c.lines[l] := by
  rw [onLine_line, if_pos rfl]

theorem onLine_ne (f : LineEngine → LineEngine) (h : m ≠ l) : (c.onLine l f).lines[m] = c.lines[m] := by
  rw [onLine_line, if_neg (Ne.symm h)]

theorem onScreen_screen (c : Chip) (t w : TerminalNo) (f : Screen → Screen) :
    (c.onScreen t f).screens[w] = if t = w then f c.screens[w] else c.screens[w] := update_apply ..

theorem onScreen_self (c : Chip) (t : TerminalNo) (f : Screen → Screen) :
    (c.onScreen t f).screens[t] = f c.screens[t] := by
  rw [onScreen_screen, if_pos rfl]

theorem onScreen_ne (f : Screen → Screen) (h : w ≠ t) : (c.onScreen t f).screens[w] = c.screens[w] := by
  rw [onScreen_screen, if_neg (Ne.symm h)]

theorem onKeys_ring (c : Chip) (t w : TerminalNo) (f : KeyRing → KeyRing) :
    (c.onKeys t f).keys[w] = if t = w then f c.keys[w] else c.keys[w] := update_apply ..

theorem onTerminal_link (c : Chip) (t w : TerminalNo) (f : TerminalLink → TerminalLink) :
    (c.onTerminal t f).links[w] = if t = w then f c.links[w] else c.links[w] := update_apply ..

/-! ## Dirty rows (R57, R58) -/

/-- A row is set in, or taken from, the dirty rows of one terminal. -/
theorem setRow_dirty (v : Vector Bool 24) (r q : Fin 24) (b : Bool) : (v.set r b)[q] = if r = q then b else v[q] := by
  simp only [Fin.getElem_fin, Vector.getElem_set, Fin.ext_iff]

theorem markRow_screen (c : Chip) (t w : TerminalNo) (r : Fin 24) :
    (c.markRow t r).screens[w] =
      if t = w then { c.screens[w] with dirty := c.screens[w].dirty.set r true } else c.screens[w] :=
  onScreen_screen ..

theorem clearRow_screen (c : Chip) (t w : TerminalNo) (r : Fin 24) :
    (c.clearRow t r).screens[w] =
      if t = w then { c.screens[w] with dirty := c.screens[w].dirty.set r false } else c.screens[w] :=
  onScreen_screen ..

theorem markAllRows_screen (c : Chip) (t w : TerminalNo) :
    (c.markAllRows t).screens[w] =
      if t = w then { c.screens[w] with dirty := Vector.replicate 24 true } else c.screens[w] :=
  onScreen_screen ..

theorem allDirty (r : Fin 24) : (Vector.replicate 24 true)[r] = true := by
  simp

/-- Marking a row never clears one. -/
theorem markRow_keepsDirty {r q : Fin 24} (h : c.screens[w].dirty[q] = true) :
    (c.markRow t r).screens[w].dirty[q] = true := by
  simp only [markRow_screen]
  split
  · simp only [setRow_dirty, h, ite_self]
  · exact h

theorem markRow_marks (c : Chip) (t : TerminalNo) (r : Fin 24) : (c.markRow t r).screens[t].dirty[r] = true := by
  simp only [markRow_screen, if_true, setRow_dirty]

theorem lowest_some {x : Screen} {r : Fin 24} (hr : x.dirty[r] = true) (h : ∀ q : Fin 24, q < r → x.dirty[q] = false) :
    x.lowest = some r := by
  have rises : (List.finRange 24).Pairwise (· < ·) := List.pairwise_lt_finRange 24
  obtain ⟨front, back, hsplit⟩ := List.append_of_mem (List.mem_finRange r)
  rw [Screen.lowest, List.find?_eq_some_iff_append]
  refine ⟨hr, front, back, hsplit, fun q hq => ?_⟩
  rw [hsplit] at rises
  rw [h q ((List.pairwise_append.mp rises).2.2 q hq r List.mem_cons_self)]
  rfl

theorem lowest_none {x : Screen} (h : ∀ q : Fin 24, x.dirty[q] = false) : x.lowest = none := by
  rw [Screen.lowest, List.find?_eq_none]
  exact fun q _ hq => by rw [h q] at hq; cases hq

/-- A dirty screen has a lowest dirty row. -/
theorem lowest_cases (x : Screen) :
    (x.lowest = none ∧ ∀ q : Fin 24, x.dirty[q] = false) ∨
      ∃ r, x.lowest = some r ∧ x.dirty[r] = true ∧ ∀ q : Fin 24, q < r → x.dirty[q] = false := by
  cases h : x.lowest with
  | none =>
    refine Or.inl ⟨rfl, fun q => ?_⟩
    rw [Screen.lowest, List.find?_eq_none] at h
    simpa using h q (List.mem_finRange q)
  | some r =>
    rw [Screen.lowest, List.find?_eq_some_iff_append] at h
    obtain ⟨hr, front, back, hsplit, hfront⟩ := h
    refine Or.inr ⟨r, rfl, hr, fun q hq => ?_⟩
    have rises : (List.finRange 24).Pairwise (· < ·) := List.pairwise_lt_finRange 24
    have hmem : q ∈ front ++ r :: back := hsplit ▸ List.mem_finRange q
    rw [hsplit] at rises
    rcases List.mem_append.mp hmem with hm | hm
    · simpa using hfront q hm
    · rcases List.mem_cons.mp hm with rfl | hm
      · exact absurd hq (Nat.lt_irrefl _)
      · exact absurd hq (Nat.lt_asymm ((List.pairwise_cons.mp (List.pairwise_append.mp rises).2.1).1 q hm))

/-! ## Link states (R51, R52) -/

theorem setLink_link (t w : TerminalNo) (k : TerminalLink) (c : Chip) :
    (c.setLink t k).links[w] = if t = w then k else c.links[w] := by
  unfold Chip.setLink
  split
  · rename_i h
    split
    · rename_i e
      rw [← e, h]
    · rfl
  · exact onTerminal_link ..

theorem setLink_fields (t : TerminalNo) (k : TerminalLink) (c : Chip) :
    (c.setLink t k).cu = c.cu ∧ (c.setLink t k).mirror = c.mirror ∧ (c.setLink t k).lines = c.lines ∧
      (c.setLink t k).screens = c.screens ∧ (c.setLink t k).noticeWriter = c.noticeWriter ∧
      (c.setLink t k).keys = c.keys ∧ (c.setLink t k).stories = c.stories ∧ (c.setLink t k).desks = c.desks ∧
      (c.setLink t k).custody = c.custody := by
  unfold Chip.setLink
  split <;> exact ⟨rfl, rfl, rfl, rfl, rfl, rfl, rfl, rfl, rfl⟩

/-- A changed link state makes the link word pending (R52). -/
theorem setLink_pends {k : TerminalLink} (h : c.links[t] ≠ k) :
    KeyItem.linkWord t ∈ (c.setLink t k).keyWriter.pending := by
  unfold Chip.setLink
  rw [if_neg h]
  exact (mem_joinOnce ..).mpr (Or.inr rfl)

theorem countGood_up (h : c.links[u].state ≠ .down) : c.countGood u = c.setLink u { state := .up, misses := 0 } :=
  if_neg h

theorem countGood_down (h : c.links[u].state = .down) :
    c.countGood u = ((c.setLink u { state := .up, misses := 0 }).markAllRows u).raise .terminal :=
  if_pos h

theorem countGood_link (u w : TerminalNo) (c : Chip) :
    (c.countGood u).links[w] = if u = w then { state := .up, misses := 0 } else c.links[w] := by
  by_cases h : c.links[u].state = .down
  · rw [countGood_down h]
    simp only [raise_fields]
    exact setLink_link ..
  · rw [countGood_up h, setLink_link]

theorem enterDown_links (t : TerminalNo) (c : Chip) : (c.enterDown t).links = c.links :=
  (does_enterDown t c).frame .links (by decide)

theorem countMiss_link (u w : TerminalNo) (c : Chip) :
    (c.countMiss u).links[w] = if u = w then c.links[w].miss else c.links[w] := by
  have h : (c.setLink u c.links[u].miss).links[w] = if u = w then c.links[w].miss else c.links[w] := by
    rw [setLink_link]
    split
    · rename_i e
      rw [e]
    · rfl
  unfold Chip.countMiss
  dsimp only
  split
  · simp only [enterDown_links]
    exact h
  · exact h

/-- A miss that enters DOWN (R51 a). -/
theorem countMiss_entersDown (h : c.links[u].state ≠ .down) (hm : c.links[u].miss.state = .down) :
    c.countMiss u = (c.setLink u c.links[u].miss).enterDown u := by
  refine if_pos ⟨h, ?_⟩
  rw [setLink_link, if_pos rfl]
  exact hm

theorem miss_up {k : TerminalLink} (h : k.state = .up) : k.miss = { state := .suspect, misses := 1 } := by
  rw [TerminalLink.miss, h]

theorem miss_suspect {k : TerminalLink} (h : k.state = .suspect) :
    k.miss = if k.misses.val < 2 then { state := .suspect, misses := k.misses + 1 } else { state := .down, misses := 3 } := by
  rw [TerminalLink.miss, h]

theorem enterDown_raw (t : TerminalNo) (c : Chip) :
    (c.enterDown t).cu.attentionRaw = c.cu.attentionRaw ||| 0x20#8 := by
  obtain ⟨_, _, _, _, raw, _⟩ := raise_unit c .terminal
  unfold Chip.enterDown
  dsimp only
  split
  · simp only [post_fields]
    exact raw
  · exact raw

theorem raise_session (c : Chip) (n : Cause) (w : TerminalNo) : (c.raise n).session w = c.session w := by
  unfold Chip.session
  simp only [raise_fields]

theorem enterDown_signedOff (h : c.session t = none) : (c.enterDown t).screens = c.screens := by
  unfold Chip.enterDown
  simp only [raise_session, h, raise_fields]

theorem enterDown_signedOn {y : Session} (h : c.session t = some y) (w : TerminalNo) :
    (c.enterDown t).screens[w] =
      match c.session w with
      | some z => if z.desk = y.desk ∧ z.clearance = .slot then c.screens[w].enter
          { kind := .termDown, subject := t.val, second := none, count := 1 } else c.screens[w]
      | none => c.screens[w] := by
  unfold Chip.enterDown
  simp only [raise_session, h]
  rw [post_screens]
  cases hw : c.session w with
  | none =>
    rw [(receives_signedOff ((raise_session ..).trans hw)).2.2.1, if_neg nofun]
    simp only [raise_fields]
  | some z =>
    rw [(receives_signedOn ((raise_session ..).trans hw)).2.2.1]
    simp only [raise_fields, Bool.and_eq_true, decide_eq_true_eq]

/-- Settles O41, from the miss and the good answer of each link state. -/
theorem answersMoveLinkStates : Obligations.AnswersMoveLinkStates := by
  intro c u
  have self : (c.countMiss u).links[u] = c.links[u].miss := by rw [countMiss_link, if_pos rfl]
  refine ⟨by rw [countGood_link, if_pos rfl], fun w hw => ⟨by rw [countGood_link, if_neg hw.symm],
    by rw [countMiss_link, if_neg hw.symm]⟩, fun h => self.trans (miss_up h), fun h hn => ?_, fun h hn => ?_,
    fun h hn => ?_, fun h => ?_, fun h => ?_, fun h => ?_⟩
  · rw [self, miss_suspect h, hn]
    rfl
  · rw [self, miss_suspect h, hn]
    rfl
  · have hmiss : c.links[u].miss = { state := .down, misses := 3 } := by
      rw [miss_suspect h, hn]
      rfl
    obtain ⟨cu, _, _, screens, _, keys, _⟩ := setLink_fields u c.links[u].miss c
    have session : ∀ w, (c.setLink u c.links[u].miss).session w = c.session w := fun w =>
      congrArg (fun v : Vector KeyRing 64 => v[w].session) keys
    have entered := countMiss_entersDown (c := c) (u := u) (by rw [h]; nofun) (by rw [hmiss])
    refine ⟨self.trans hmiss, ?_, fun hs => ?_, fun y hy w => ?_⟩
    · rw [entered, enterDown_raw, cu]
    · rw [entered, enterDown_signedOff ((session u).trans hs), screens]
    · rw [entered, enterDown_signedOn ((session u).trans hy) w, session]
      simp only [screens] <;> rfl
  · have hmiss : c.links[u].miss = c.links[u] := by
      rw [TerminalLink.miss, h]
    have same : c.setLink u c.links[u].miss = c := if_pos hmiss.symm
    unfold Chip.countMiss
    dsimp only
    rw [same, if_neg fun k => k.1 (by rw [h])]
  · obtain ⟨_, _, _, _, raw, _⟩ := raise_unit ((c.setLink u { state := .up, misses := 0 }).markAllRows u) .terminal
    obtain ⟨cu, _⟩ := setLink_fields u { state := .up, misses := 0 } c
    rw [countGood_down h]
    refine ⟨raw.trans (congrArg (fun x : CommandUnit => x.attentionRaw ||| 0x20#8) cu), fun r => ?_⟩
    simp only [raise_fields, markAllRows_screen, if_true]
    exact allDirty r
  · obtain ⟨cu, _, _, screens, _⟩ := setLink_fields u { state := .up, misses := 0 } c
    rw [countGood_up h]
    exact ⟨cu, screens⟩

/-! ## Rows are read and messages sent (R40, R47) -/

theorem exec_rowWordRead (l : LineNo) (s : State) :
    exec (.rowWordRead l) s = ownRead (.line l) (Chip.rowWord l) s := rfl

theorem exec_messageSent (l : LineNo) (s : State) : exec (.messageSent l) s = chipEvent (Chip.messageSent l) s := rfl

/-- An engine that has read one more word of its row. -/
def LineEngine.withRowWord (r : Fin 24) (w : Word) (e : LineEngine) : LineEngine :=
  if (e.rowWords ++ [w]).length = 80 then
    { e with rowWords := [], phase := .sending, message := some (.row r (e.rowWords ++ [w])) }
  else { e with rowWords := e.rowWords ++ [w] }

theorem rowWord_plan {v : Visit} {r : Fin 24} (hv : c.lines[l].visit = some v) (hr : v.rowInHand = some r) :
    c.rowWord l = some
      { address := c.path.windowWord v.terminal (80 * r.val + c.lines[l].rowWords.length)
        after := fun w => c.onLine l (LineEngine.withRowWord r w) } := by
  unfold Chip.rowWord
  simp only [hv, hr]
  rfl

theorem windowWord_at {p : PathChecker} {base : Nat} (h : p.screenArea = some base) (t : TerminalNo) (o : Nat) :
    p.windowWord t o = some (base + 2048 * t.val + o) := by
  rw [PathChecker.windowWord, h, Option.map_some, Config.windowWords, Nat.mul_comm]

/-- Settles O37, by the one entry each event changes. -/
theorem rowsAreReadAndMessagesSent : Obligations.RowsAreReadAndMessagesSent := by
  refine fun s l => ⟨fun v r base a w hg hv hr hbase ha hlt hw => ?_, fun hr hp => ?_⟩
  · have haddress : s.chip.path.windowWord v.terminal (80 * r.val + s.chip.lines[l].rowWords.length) = some a := by
      rw [windowWord_at hbase, ha, ← Nat.add_assoc]
    refine ⟨_, (exec_rowWordRead l s).trans (ownRead_served hg (rowWord_plan hv hr) haddress hlt), rfl, rfl,
      fun m hm => onLine_ne _ hm, fun h => ?_, fun h => ?_⟩
    · rw [← hw]
      refine (onLine_self ..).trans (if_neg ?_)
      simp only [List.length_append, List.length_singleton]
      omega
    · rw [← hw]
      refine (onLine_self ..).trans (if_pos ?_)
      simp only [List.length_append, List.length_singleton]
      omega
  · refine ⟨_, (exec_messageSent l s).trans (chipEvent_released hr), rfl, ?_, ?_, fun m hm => ?_⟩
    · rw [Chip.messageSent, if_pos hp]
      rfl
    · rw [Chip.messageSent, if_pos hp]
      exact onLine_self ..
    · rw [Chip.messageSent, if_pos hp]
      exact onLine_ne _ hm

end

end Sys2Proof.Machine
end

section
/-! SUPPORT. Visits and sweeps: the next step of a visit, the first address a sweep visits, and how a sweep goes on
(R45, R46, R50). -/

namespace Sys2Proof.Machine

section
variable {c d : Chip} {l m : LineNo} {u w : TerminalNo} {a : Fin 8} {k : VisitKind}

/-! ## What a sweep may reach -/

/-- A change a sweep of line `l` may make: the line's engine, and the dirty rows of its terminals that are not OFF. -/
structure Chip.Sweeps (l : LineNo) (c d : Chip) : Prop where
  rest : d = { c with lines := d.lines, screens := d.screens }
  others : ∀ m : LineNo, m ≠ l → d.lines[m] = c.lines[m]
  queue : ∀ w : TerminalNo, d.screens[w].queue = c.screens[w].queue
  screens : ∀ w : TerminalNo, lineOf w ≠ l ∨ c.links[w].state = .off → d.screens[w] = c.screens[w]

namespace Chip.Sweeps

theorem refl (l : LineNo) (c : Chip) : Chip.Sweeps l c c := ⟨rfl, fun _ _ => rfl, fun _ => rfl, fun _ _ => rfl⟩

theorem links (h : Chip.Sweeps l c d) : d.links = c.links := by rw [h.rest]

theorem trans {e : Chip} (h : Chip.Sweeps l c d) (k : Chip.Sweeps l d e) : Chip.Sweeps l c e where
  rest := by rw [k.rest, h.rest]
  others m hm := (k.others m hm).trans (h.others m hm)
  queue w := (k.queue w).trans (h.queue w)
  screens w hw := (k.screens w (by rwa [h.links])).trans (h.screens w hw)

theorem onLine (c : Chip) (l : LineNo) (f : LineEngine → LineEngine) : Chip.Sweeps l c (c.onLine l f) :=
  ⟨rfl, fun _ hm => onLine_ne f hm, fun _ => rfl, fun _ _ => rfl⟩

theorem clearRow (c : Chip) (a : Fin 8) (r : Fin 24) (h : c.links[terminalOf l a].state ≠ .off) :
    Chip.Sweeps l c (c.clearRow (terminalOf l a) r) where
  rest := rfl
  others _ _ := rfl
  queue w := by
    simp only [clearRow_screen]
    split <;> rfl
  screens w hw := by
    rw [clearRow_screen, if_neg]
    rintro rfl
    exact hw.elim (fun hl => hl (lineOf_terminalOf l a)) h

end Chip.Sweeps

/-! ## The next step of a visit (R46, R47) -/

theorem visitStep_row {v : Visit} {r : Fin 24} (hv : c.lines[l].visit = some v)
    (hb : v.rowsSent < c.lines[l].rowBudget) (hr : c.screens[v.terminal].lowest = some r) :
    c.visitStep l = (c.clearRow v.terminal r).onLine l fun e =>
      { e with phase := .reading, rowWords := [], message := none
               visit := some { v with rowInHand := some r, awaited := .row } } := by
  simp only [Chip.visitStep, hv, if_pos hb, hr]

theorem visitStep_poll {v : Visit} (hv : c.lines[l].visit = some v)
    (h : c.lines[l].rowBudget ≤ v.rowsSent ∨ c.screens[v.terminal].lowest = none) :
    c.visitStep l = c.onLine l LineEngine.sendPoll := by
  have none : (if v.rowsSent < c.lines[l].rowBudget then c.screens[v.terminal].lowest else none) = none := by
    rcases h with h | h
    · rw [if_neg (Nat.not_lt.mpr h)]
    · rw [h, ite_self]
  simp only [Chip.visitStep, hv, none]

/-- The part as a visit of address `a` begins, before its first step. -/
def Chip.visiting (c : Chip) (l : LineNo) (a : Fin 8) (k : VisitKind) : Chip :=
  c.onLine l fun e =>
    { e with position := a
             visit := some { terminal := terminalOf l a, kind := k, rowsSent := 0, rowInHand := none, awaited := .poll } }

theorem visiting_line (c : Chip) (l : LineNo) (a : Fin 8) (k : VisitKind) :
    (c.visiting l a k).lines[l] = { c.lines[l] with
      position := a
      visit := some { terminal := terminalOf l a, kind := k, rowsSent := 0, rowInHand := none, awaited := .poll } } :=
  onLine_self ..

theorem beginVisit_full (c : Chip) (l : LineNo) (a : Fin 8) :
    c.beginVisit l a .full = (c.visiting l a .full).visitStep l := rfl

theorem beginVisit_probe (c : Chip) (l : LineNo) (a : Fin 8) :
    c.beginVisit l a .probe = (c.visiting l a .probe).onLine l LineEngine.sendPoll := rfl

/-- The steps of a visit that takes row `r`. -/
theorem beginVisit_row {r : Fin 24} (hb : 1 ≤ c.lines[l].rowBudget)
    (hr : c.screens[terminalOf l a].lowest = some r) :
    c.beginVisit l a .full = ((c.visiting l a .full).clearRow (terminalOf l a) r).onLine l fun e =>
      { e with phase := .reading, rowWords := [], message := none
               visit := some
                { terminal := terminalOf l a, kind := .full, rowsSent := 0, rowInHand := some r, awaited := .row } } := by
  rw [beginVisit_full]
  exact visitStep_row (congrArg LineEngine.visit (visiting_line ..)) (by rw [visiting_line]; exact hb) hr

/-- The steps of a visit that polls. -/
theorem beginVisit_poll (h : k = .probe ∨ c.lines[l].rowBudget = 0 ∨ c.screens[terminalOf l a].lowest = none) :
    c.beginVisit l a k = (c.visiting l a k).onLine l LineEngine.sendPoll := by
  cases k with
  | probe => exact beginVisit_probe c l a
  | full =>
    rw [beginVisit_full]
    refine visitStep_poll (congrArg LineEngine.visit (visiting_line ..)) ?_
    rw [visiting_line]
    exact h.elim nofun (Or.imp_left Nat.le_of_eq)

/-- Every visit's first step takes a row or polls. -/
theorem beginVisit_cases (c : Chip) (l : LineNo) (a : Fin 8) (k : VisitKind) :
    (k = .full ∧ ∃ r, 1 ≤ c.lines[l].rowBudget ∧ c.screens[terminalOf l a].lowest = some r) ∨
      (k = .probe ∨ c.lines[l].rowBudget = 0 ∨ c.screens[terminalOf l a].lowest = none) := by
  cases k with
  | probe => exact Or.inr (Or.inl rfl)
  | full =>
    rcases Nat.eq_zero_or_pos c.lines[l].rowBudget with h | h
    · exact Or.inr (Or.inr (Or.inl h))
    · cases hr : c.screens[terminalOf l a].lowest with
      | none => exact Or.inr (Or.inr (Or.inr rfl))
      | some r => exact Or.inl ⟨rfl, r, h, rfl⟩

theorem beginVisit_sweeps (h : c.links[terminalOf l a].state ≠ .off) : Chip.Sweeps l c (c.beginVisit l a k) := by
  have start : Chip.Sweeps l c (c.visiting l a k) := .onLine ..
  rcases beginVisit_cases c l a k with ⟨rfl, r, hb, hr⟩ | hpoll
  · rw [beginVisit_row hb hr]
    exact (start.trans (.clearRow _ a r h)).trans (.onLine ..)
  · rw [beginVisit_poll hpoll]
    exact start.trans (.onLine ..)

/-- What a visit's first step leaves of its engine (R46, R50). -/
theorem beginVisit_line (c : Chip) (l : LineNo) (a : Fin 8) (k : VisitKind) :
    (c.beginVisit l a k).lines[l].position = a ∧
      (c.beginVisit l a k).lines[l].sweepCounter = c.lines[l].sweepCounter ∧
      ∃ v, (c.beginVisit l a k).lines[l].visit = some v ∧ v.terminal = terminalOf l a ∧ v.kind = k ∧ v.rowsSent = 0 := by
  rcases beginVisit_cases c l a k with ⟨rfl, r, hb, hr⟩ | hpoll
  · rw [beginVisit_row hb hr, onLine_self]
    have e : ((c.visiting l a .full).clearRow (terminalOf l a) r).lines[l] = (c.visiting l a .full).lines[l] := rfl
    rw [e, visiting_line]
    exact ⟨rfl, rfl, _, rfl, rfl, rfl, rfl⟩
  · rw [beginVisit_poll hpoll, onLine_self, visiting_line]
    exact ⟨rfl, rfl, _, rfl, rfl, rfl, rfl⟩

/-- A visit begins as R46 and R50 say. -/
theorem beginVisit_begins (hon : c.links[terminalOf l a].state ≠ .off) : c.VisitBegins l a k (c.beginVisit l a k) := by
  have sweeps : Chip.Sweeps l c (c.beginVisit l a k) := beginVisit_sweeps hon
  refine ⟨(beginVisit_line ..).1, sweeps.others, sweeps.links, ?_⟩
  rintro _ rfl
  refine ⟨fun r hk hb hr hlow => ?_, fun hpoll => ?_⟩
  · subst hk
    rw [beginVisit_row hb (lowest_some hr hlow)]
    refine ⟨by rw [onLine_self], ?_, by rw [onLine_self]⟩
    have e : ((c.visiting l a .full).clearRow (terminalOf l a) r).screens[terminalOf l a].dirty[r] = false := by
      simp only [clearRow_screen, if_true, setRow_dirty]
    exact e
  · rw [beginVisit_poll (hpoll.imp_right (Or.imp_right lowest_none)), onLine_self, visiting_line]
    exact ⟨rfl, rfl, rfl, rfl⟩

theorem beginVisit_visitsFully (c : Chip) (l : LineNo) (a : Fin 8) : (c.beginVisit l a .full).VisitsFully l a := by
  obtain ⟨position, _, visit⟩ := beginVisit_line c l a .full
  exact ⟨position, visit⟩

/-! ## The first address visited (R45) -/

theorem visitDecision_none {st : TerminalState} {k : Word} :
    visitDecision st k = none ↔ st = .off ∨ st = .down ∧ k.toNat % 16 ≠ 0 := by
  cases st with
  | off => simp [visitDecision]
  | up => simp [visitDecision]
  | suspect => simp [visitDecision]
  | down => simp [visitDecision]

theorem visitDecision_some {st : TerminalState} {n : Word} {k : VisitKind} :
    visitDecision st n = some k ↔
      k = .full ∧ (st = .up ∨ st = .suspect) ∨ k = .probe ∧ st = .down ∧ n.toNat % 16 = 0 := by
  cases st with
  | off => simp [visitDecision]
  | up => simp [visitDecision, eq_comm]
  | suspect => simp [visitDecision, eq_comm]
  | down => simp [visitDecision, eq_comm, and_comm]

theorem firstVisit_none {n : Word} {rest : List (Fin 8)} (h : ∀ b ∈ rest, c.PassesAddress l n b) :
    c.firstVisit l n rest = none := by
  induction rest with
  | nil => rfl
  | cons b rest ih =>
    have pass : visitDecision c.links[terminalOf l b].state n = none :=
      visitDecision_none.mpr (h b List.mem_cons_self)
    simp only [Chip.firstVisit, pass]
    exact ih fun e he => h e (List.mem_cons_of_mem b he)

theorem firstVisit_some {n : Word} {front back : List (Fin 8)} (h : ∀ b ∈ front, c.PassesAddress l n b)
    (ha : visitDecision c.links[terminalOf l a].state n = some k) :
    c.firstVisit l n (front ++ a :: back) = some (a, k) := by
  induction front with
  | nil => simp only [List.nil_append, Chip.firstVisit, ha]
  | cons b front ih =>
    have pass : visitDecision c.links[terminalOf l b].state n = none :=
      visitDecision_none.mpr (h b List.mem_cons_self)
    simp only [List.cons_append, Chip.firstVisit, pass]
    exact ih fun e he => h e (List.mem_cons_of_mem b he)

/-- The addresses from `first` on. -/
def addressesFrom (first : Nat) : List (Fin 8) := (List.finRange 8).drop first

theorem mem_addressesFrom {first : Nat} {b : Fin 8} (h : b ∈ addressesFrom first) : first ≤ b.val := by
  obtain ⟨i, hi, rfl⟩ := List.mem_iff_getElem.mp h
  simp [addressesFrom]

theorem addressesFrom_mem {first : Nat} {b : Fin 8} (h : first ≤ b.val) : b ∈ addressesFrom first := by
  refine List.mem_iff_getElem.mpr ⟨b.val - first, ?_, ?_⟩
  · simp only [addressesFrom, List.length_drop, List.length_finRange]
    omega
  · apply Fin.ext
    simp only [addressesFrom, List.getElem_drop, List.getElem_finRange, Fin.val_cast]
    omega

theorem firstVisit_comesTo {first : Nat} {n : Word} (h : c.SweepComesTo l first n a k) :
    c.firstVisit l n (addressesFrom first) = some (a, k) := by
  obtain ⟨hfirst, hpass, hdecided⟩ := h
  obtain ⟨front, back, hsplit⟩ := List.append_of_mem (addressesFrom_mem hfirst)
  have rises : (addressesFrom first).Pairwise (· < ·) := (List.pairwise_lt_finRange 8).sublist (List.drop_sublist ..)
  rw [hsplit] at rises ⊢
  refine firstVisit_some (fun b hb => hpass b ?_ ?_) (visitDecision_some.mpr hdecided)
  · exact mem_addressesFrom (hsplit ▸ List.mem_append_left _ hb)
  · exact (List.pairwise_append.mp rises).2.2 b hb a List.mem_cons_self

theorem firstVisit_cases (c : Chip) (l : LineNo) (n : Word) : ∀ rest : List (Fin 8),
    c.firstVisit l n rest = none ∨
      ∃ a k, c.firstVisit l n rest = some (a, k) ∧ c.links[terminalOf l a].state ≠ .off
  | [] => Or.inl rfl
  | b :: rest => by
    cases hb : visitDecision c.links[terminalOf l b].state n with
    | none =>
      simp only [Chip.firstVisit, hb]
      exact firstVisit_cases c l n rest
    | some k =>
      refine Or.inr ⟨b, k, by simp only [Chip.firstVisit, hb], fun hoff => ?_⟩
      rw [hoff] at hb
      cases hb

theorem sweepComesTo_enabled {first : Nat} {n : Word} (h : c.SweepComesTo l first n a k) :
    c.links[terminalOf l a].state ≠ .off := by
  obtain ⟨_, _, ⟨_, h | h⟩ | ⟨_, h, _⟩⟩ := h <;> rw [h] <;> nofun

theorem lineEnabled_iff : c.lineEnabled l = true ↔ ∃ b : Fin 8, c.links[terminalOf l b].state ≠ .off := by
  simp [Chip.lineEnabled, Chip.enabled, List.any_eq_true]

/-! ## How a sweep goes on (R45) -/

/-- The part with the engine of line `l` at another place of its sweeps. -/
def Chip.steered (l : LineNo) (n : Word) (p : Fin 8) (c : Chip) : Chip :=
  c.onLine l fun e => { e with sweepCounter := n, position := p }

theorem onLine_onLine (c : Chip) (l : LineNo) (f g : LineEngine → LineEngine) :
    (c.onLine l f).onLine l g = c.onLine l fun e => g (f e) := by
  simp only [Chip.onLine, update, Vector.set_set, Fin.getElem_fin, Vector.getElem_set_self]

theorem steered_steered (l : LineNo) (n n' : Word) (p p' : Fin 8) (c : Chip) :
    (c.steered l n p).steered l n' p' = c.steered l n' p' := onLine_onLine ..

theorem onLine_same (c : Chip) (l : LineNo) (f : LineEngine → LineEngine) (h : f c.lines[l] = c.lines[l]) :
    c.onLine l f = c := by
  unfold Chip.onLine update
  rw [h]
  have e : c.lines.set l c.lines[l] = c.lines := Vector.set_getElem_self ..
  rw [e]

theorem steered_self (l : LineNo) (c : Chip) : c.steered l c.lines[l].sweepCounter c.lines[l].position = c :=
  onLine_same c l _ rfl

theorem steered_line (l : LineNo) (n : Word) (p : Fin 8) (c : Chip) :
    (c.steered l n p).lines[l] = { c.lines[l] with sweepCounter := n, position := p } := onLine_self ..

section
variable {n : Word} {p : Fin 8} {first fuel : Nat}

theorem sweep_visits (h : c.SweepComesTo l first n a k) :
    (c.steered l n p).sweep l (fuel + 1) (addressesFrom first) = (c.steered l n p).beginVisit l a k := by
  have hfirst : (c.steered l n p).firstVisit l (c.steered l n p).lines[l].sweepCounter (addressesFrom first) =
      some (a, k) := by
    rw [steered_line]
    exact firstVisit_comesTo (c := c.steered l n p) h
  simp only [Chip.sweep, hfirst]

theorem sweep_ends (h : ∀ b : Fin 8, first ≤ b.val → c.PassesAddress l n b) :
    (c.steered l n p).sweep l (fuel + 1) (addressesFrom first) =
      if c.lineEnabled l then (c.steered l (n + 1) 0).sweep l fuel (addressesFrom 0)
      else (c.steered l (n + 1) 0).onLine l fun e => { e with phase := .idle } := by
  have hfirst : (c.steered l n p).firstVisit l (c.steered l n p).lines[l].sweepCounter (addressesFrom first) = none := by
    rw [steered_line]
    exact firstVisit_none (c := c.steered l n p) fun b hb => h b (mem_addressesFrom hb)
  have next : (c.steered l n p).onLine l (fun e => { e with sweepCounter := e.sweepCounter + 1, position := 0 }) =
      c.steered l (n + 1) 0 := onLine_onLine ..
  simp only [Chip.sweep, hfirst, next]
  rfl

theorem toNat_succ (n : Word) : (n + 1).toNat = (n.toNat + 1) % 65536 := by
  rw [BitVec.toNat_add]
  rfl

/-- With every enabled terminal of the line DOWN, the lowest of them is probed in the first sweep whose counter is a
multiple of 16. -/
theorem sweep_probes (hdown : c.links[terminalOf l a].state = .down)
    (hbefore : ∀ b : Fin 8, b < a → c.links[terminalOf l b].state = .off)
    (hall : ∀ b : Fin 8, c.links[terminalOf l b].state = .off ∨ c.links[terminalOf l b].state = .down) :
    ∀ (j fuel : Nat) (n : Word) (p : Fin 8), j < fuel → (∀ i, i < j → (n.toNat + i) % 16 ≠ 0) →
      (n.toNat + j) % 16 = 0 → ∃ p', (c.steered l n p).sweep l fuel (addressesFrom 0) =
        (c.steered l (n + BitVec.ofNat 16 j) p').beginVisit l a .probe
  | 0, fuel + 1, n, p, _, _, hn => by
    refine ⟨p, ?_⟩
    have hcome : c.SweepComesTo l 0 n a .probe :=
      ⟨Nat.zero_le _, fun b _ hb => Or.inl (hbefore b hb), Or.inr ⟨rfl, hdown, hn⟩⟩
    rw [sweep_visits hcome, BitVec.add_zero]
  | j + 1, fuel + 1, n, p, hfuel, hskip, hn => by
    have hpass : ∀ b : Fin 8, 0 ≤ b.val → c.PassesAddress l n b := fun b _ =>
      (hall b).imp_right fun h => ⟨h, hskip 0 (Nat.succ_pos j)⟩
    have henabled : c.lineEnabled l = true := lineEnabled_iff.mpr ⟨a, by rw [hdown]; nofun⟩
    obtain ⟨p', ih⟩ := sweep_probes hdown hbefore hall j fuel (n + 1) 0 (by omega)
      (fun i hi => by
        have := hskip (i + 1) (by omega)
        rw [toNat_succ]
        omega) (by
        rw [toNat_succ]
        omega)
    refine ⟨p', ?_⟩
    rw [sweep_ends hpass, if_pos henabled, ih]
    have hcount : n + 1 + BitVec.ofNat 16 j = n + BitVec.ofNat 16 (j + 1) := by
      apply BitVec.eq_of_toNat_eq
      rw [BitVec.toNat_add, toNat_succ, BitVec.toNat_add]
      simp only [BitVec.toNat_ofNat, Nat.reducePow]
      omega
    rw [hcount]

end

/-- Two parts between which a visit of line `l` does not distinguish. -/
structure Chip.AlikeFor (l : LineNo) (c d : Chip) : Prop where
  links : d.links = c.links
  screens : d.screens = c.screens
  budget : d.lines[l].rowBudget = c.lines[l].rowBudget
  others : ∀ m : LineNo, m ≠ l → d.lines[m] = c.lines[m]

theorem visitBegins_congr {e : Chip} (h : c.AlikeFor l d) (hv : d.VisitBegins l a k e) : c.VisitBegins l a k e := by
  obtain ⟨position, others, links, step⟩ := hv
  simp only [h.screens, h.budget] at step
  exact ⟨position, fun m hm => (others m hm).trans (h.others m hm), links.trans h.links, step⟩

theorem alikeFor_steered (l : LineNo) (n : Word) (p : Fin 8) (c : Chip) : c.AlikeFor l (c.steered l n p) :=
  ⟨rfl, rfl, by rw [steered_line], fun _ hm => onLine_ne _ hm⟩

theorem steered_begins (n : Word) (p : Fin 8) (h : c.links[terminalOf l a].state ≠ .off) :
    c.VisitBegins l a k ((c.steered l n p).beginVisit l a k) ∧
      ((c.steered l n p).beginVisit l a k).lines[l].sweepCounter = n := by
  obtain ⟨_, counter, _⟩ := beginVisit_line (c.steered l n p) l a k
  exact ⟨visitBegins_congr (alikeFor_steered ..) (beginVisit_begins (c := c.steered l n p) h),
    counter.trans (by rw [steered_line])⟩

theorem nextAddress_eq (c : Chip) (l : LineNo) :
    c.nextAddress l = (c.steered l c.lines[l].sweepCounter c.lines[l].position).sweep l 18
      (addressesFrom (c.lines[l].position.val + 1)) := by
  rw [steered_self]
  rfl

/-- R45: how a sweep goes on from the address in hand. -/
theorem nextAddress_goesOn (c : Chip) (l : LineNo) : c.SweepGoesOn l (c.nextAddress l) := by
  rintro _ rfl
  rw [nextAddress_eq]
  refine ⟨fun a k h => ?_, fun hpass => ⟨fun a k h => ?_, fun a hdown hbefore hall => ?_⟩⟩
  · rw [sweep_visits h]
    exact steered_begins _ _ (sweepComesTo_enabled h)
  · have henabled := lineEnabled_iff.mpr ⟨a, sweepComesTo_enabled h⟩
    rw [sweep_ends hpass, if_pos henabled, sweep_visits h]
    exact steered_begins _ _ (sweepComesTo_enabled h)
  · have hoff : c.links[terminalOf l a].state ≠ .off := by rw [hdown]; nofun
    generalize hn : c.lines[l].sweepCounter = n at hpass
    have hlt := n.isLt
    obtain ⟨p', hprobe⟩ := sweep_probes hdown hbefore hall (15 - n.toNat % 16) 17 (n + 1) 0 (by omega)
      (fun i hi => by
        rw [toNat_succ]
        omega)
      (by
        rw [toNat_succ]
        omega)
    have hcount : n + 1 + BitVec.ofNat 16 (15 - n.toNat % 16) = BitVec.ofNat 16 (16 * (n.toNat / 16 + 1)) := by
      apply BitVec.eq_of_toNat_eq
      rw [BitVec.toNat_add, toNat_succ]
      simp only [BitVec.toNat_ofNat, Nat.reducePow]
      omega
    rw [sweep_ends hpass, if_pos (lineEnabled_iff.mpr ⟨a, hoff⟩), hprobe, hcount]
    exact steered_begins _ _ hoff

/-- With no terminal of the line enabled the sweep ends, counted, and the engine is IDLE. -/
theorem nextAddress_idle (h : ∀ a : Fin 8, c.links[terminalOf l a].state = .off) :
    c.nextAddress l =
      (c.steered l (c.lines[l].sweepCounter + 1) 0).onLine l fun e => { e with phase := .idle } := by
  rw [nextAddress_eq, sweep_ends fun b _ => Or.inl (h b), if_neg]
  rw [lineEnabled_iff]
  exact fun ⟨b, hb⟩ => hb (h b)

theorem comesTo_sweeps {first : Nat} (n : Word) (h : c.ComesTo l first a) : c.SweepComesTo l first n a .full := by
  obtain ⟨hfirst, hoff, hon⟩ := h
  exact ⟨hfirst, fun b hb hlt => Or.inl (hoff b hb hlt), Or.inl ⟨rfl, hon⟩⟩

theorem sweep_sweeps (l : LineNo) : ∀ (fuel : Nat) (rest : List (Fin 8)) (c : Chip),
    Chip.Sweeps l c (c.sweep l fuel rest)
  | 0, _, c => .refl l c
  | fuel + 1, rest, c => by
    unfold Chip.sweep
    rcases firstVisit_cases c l c.lines[l].sweepCounter rest with h | ⟨a, k, h, hoff⟩
    · simp only [h]
      split
      · exact (Chip.Sweeps.onLine c l _).trans (sweep_sweeps l fuel _ _)
      · exact (Chip.Sweeps.onLine c l _).trans (.onLine ..)
    · simp only [h]
      exact beginVisit_sweeps hoff

theorem nextAddress_sweeps (c : Chip) (l : LineNo) : Chip.Sweeps l c (c.nextAddress l) := sweep_sweeps l _ _ c

theorem newSweep_sweeps (c : Chip) (l : LineNo) : Chip.Sweeps l c (c.newSweep l) := by
  unfold Chip.newSweep
  dsimp only
  split
  · exact (Chip.Sweeps.onLine c l _).trans (sweep_sweeps l _ _ _)
  · exact (Chip.Sweeps.onLine c l _).trans (.onLine ..)

theorem testLine_sweeps (c : Chip) (l : LineNo) : Chip.Sweeps l c (c.testLine l) := by
  unfold Chip.testLine
  split
  · exact nextAddress_sweeps c l
  · exact .onLine ..

theorem afterQuiet_sweeps (c : Chip) (l : LineNo) : Chip.Sweeps l c (c.afterQuiet l) := by
  unfold Chip.afterQuiet
  split
  · exact nextAddress_sweeps c l
  · exact testLine_sweeps c l
  · exact newSweep_sweeps c l

/-- The next address is visited fully when it is the first whose terminal is not OFF and that is UP or SUSPECT. -/
theorem nextAddress_visitsFully (h : (c.nextAddress l).ComesTo l (c.lines[l].position.val + 1) a) :
    (c.nextAddress l).VisitsFully l a := by
  have hlinks := (nextAddress_sweeps c l).links
  have hcome : c.ComesTo l (c.lines[l].position.val + 1) a := by
    unfold Chip.ComesTo at h ⊢
    rwa [hlinks] at h
  have hsweep := comesTo_sweeps c.lines[l].sweepCounter hcome
  rw [nextAddress_eq, sweep_visits hsweep]
  exact beginVisit_visitsFully ..

/-! ## A new sweep, and testing the line (R55, R56) -/

theorem newSweep_idle (h : ∀ a : Fin 8, c.links[terminalOf l a].state = .off) :
    c.newSweep l = c.onLine l fun e => { e with position := 0, phase := .idle } := by
  have hoff : ¬(c.onLine l fun e => { e with position := 0 }).lineEnabled l = true := by
    rw [lineEnabled_iff]
    exact fun ⟨b, hb⟩ => hb (h b)
  unfold Chip.newSweep
  dsimp only
  rw [if_neg hoff]
  exact onLine_onLine ..

theorem newSweep_visits (h : c.SweepComesTo l 0 c.lines[l].sweepCounter a k) :
    c.newSweep l = (c.steered l c.lines[l].sweepCounter 0).beginVisit l a k := by
  have hon : (c.onLine l fun e => { e with position := 0 }).lineEnabled l = true :=
    lineEnabled_iff.mpr ⟨a, sweepComesTo_enabled h⟩
  have start : (c.onLine l fun e => { e with position := 0 }) = c.steered l c.lines[l].sweepCounter 0 := by
    unfold Chip.steered Chip.onLine update
    rfl
  unfold Chip.newSweep
  dsimp only
  rw [if_pos hon, start]
  exact sweep_visits h

theorem testLine_idle (h : ∀ a : Fin 8, c.links[terminalOf l a].state = .off) :
    c.testLine l = c.onLine l fun e => { e with position := 0, phase := .idle } := by
  rw [Chip.testLine, if_neg]
  rw [lineEnabled_iff]
  exact fun ⟨b, hb⟩ => hb (h b)

theorem testLine_goesOn (h : ∃ b : Fin 8, c.links[terminalOf l b].state ≠ .off) : c.testLine l = c.nextAddress l := by
  rw [Chip.testLine, if_pos (lineEnabled_iff.mpr h)]

theorem sweepGoesOn_congr {e : Chip} (h : c.AlikeFor l d) (hc : d.lines[l].sweepCounter = c.lines[l].sweepCounter)
    (hp : d.lines[l].position = c.lines[l].position) (hd : d.SweepGoesOn l e) : c.SweepGoesOn l e := by
  rintro _ rfl
  have same : ∀ first n a k, c.SweepComesTo l first n a k → d.SweepComesTo l first n a k := fun first n a k hs => by
    unfold Chip.SweepComesTo Chip.PassesAddress at hs ⊢
    rwa [h.links]
  obtain ⟨here, ends⟩ := hd _ rfl
  rw [hc, hp] at here
  rw [hc, hp] at ends
  refine ⟨fun a k hs => ?_, fun hpass => ?_⟩
  · exact (here a k (same _ _ _ _ hs)).imp_left (visitBegins_congr h)
  · obtain ⟨again, probes⟩ := ends (by
      unfold Chip.PassesAddress at hpass ⊢
      rwa [h.links])
    refine ⟨fun a k hs => (again a k (same _ _ _ _ hs)).imp_left (visitBegins_congr h),
      fun a hdown hbefore hall => (probes a ?_ ?_ ?_).imp_left (visitBegins_congr h)⟩
    · rwa [h.links]
    · rwa [h.links]
    · rwa [h.links]

end

end Sys2Proof.Machine
end

section
/-! SUPPORT. TERMINAL ON, TERMINAL OFF and LINE RESET (R53 to R56; O35, O36). -/

namespace Sys2Proof.Machine

section
variable {c d : Chip} {s : State} {l m : LineNo} {u w : TerminalNo} {a : Fin 8}

/-! ## The end of a command's action (R28) -/

/-- Two parts whose blocks, the command unit apart, are the same. -/
structure Chip.SameBlocks (c d : Chip) : Prop where
  path : d.path = c.path
  mirror : d.mirror = c.mirror
  lines : d.lines = c.lines
  links : d.links = c.links
  screens : d.screens = c.screens
  noticeWriter : d.noticeWriter = c.noticeWriter
  keys : d.keys = c.keys
  keyWriter : d.keyWriter = c.keyWriter
  stories : d.stories = c.stories
  desks : d.desks = c.desks
  custody : d.custody = c.custody
  clock : d.clock = c.clock
  fit : d.fit = c.fit
  pages : d.pages = c.pages
  outputQueue : d.outputQueue = c.outputQueue
  link : d.link = c.link

/-- A completed action: the blocks stand as the owning block left them, and the command has ended OK. -/
theorem command_ends {n : Nat} {body : Chip → Reply} {words : List Word} (hs : s.Serves n)
    (hb : body s.chip.collect = .done d words) :
    ∃ t, takeCommand n body s = .next t ∧ t.memory = s.memory ∧ t.chip.Ended .ok words ∧ d.SameBlocks t.chip ∧
      t.chip.cu = d.cu.endAction .ok words :=
  ⟨_, takeCommand_done hs hb, rfl, endAction_ended .., ⟨rfl, rfl, rfl, rfl, rfl, rfl, rfl, rfl, rfl, rfl, rfl, rfl, rfl,
    rfl, rfl, rfl⟩, rfl⟩

/-! ## A new sweep over SUSPECT terminals with all rows dirty -/

/-- The visit of a full sweep that has taken row 0 of its terminal. -/
def firstRowVisit (l : LineNo) (a : Fin 8) : Visit :=
  { terminal := terminalOf l a, kind := .full, rowsSent := 0, rowInHand := some 0, awaited := .row }

/-- A new sweep takes the first row of the first enabled terminal, all of whose rows are dirty. -/
theorem newSweep_takesFirst (h : c.SweepComesTo l 0 c.lines[l].sweepCounter a .full)
    (hb : 1 ≤ c.lines[l].rowBudget) (hr : ∀ r : Fin 24, c.screens[terminalOf l a].dirty[r] = true) :
    (c.newSweep l).lines[l] = { c.lines[l] with
        position := a, phase := .reading, rowWords := [], message := none, visit := some (firstRowVisit l a) } ∧
      ∀ w : TerminalNo, (c.newSweep l).screens[w] = if terminalOf l a = w then
        { c.screens[w] with dirty := c.screens[w].dirty.set (0 : Fin 24) false } else c.screens[w] := by
  have hlowest : c.screens[terminalOf l a].lowest = some 0 := lowest_some (hr 0) fun q hq => absurd hq (Nat.not_lt_zero _)
  have budget : 1 ≤ (c.steered l c.lines[l].sweepCounter 0).lines[l].rowBudget := by
    rw [steered_line]
    exact hb
  rw [newSweep_visits h, beginVisit_row budget hlowest]
  refine ⟨?_, fun w => clearRow_screen ..⟩
  rw [onLine_self]
  have e : (((c.steered l c.lines[l].sweepCounter 0).visiting l a .full).clearRow (terminalOf l a) 0).lines[l] =
      ((c.steered l c.lines[l].sweepCounter 0).visiting l a .full).lines[l] := rfl
  rw [e, visiting_line, steered_line]
  rfl

/-- The first enabled address of a line, if one is enabled. -/
theorem exists_firstEnabled (h : ∃ a : Fin 8, c.links[terminalOf l a].state ≠ .off) :
    ∃ a : Fin 8, c.links[terminalOf l a].state ≠ .off ∧ ∀ b : Fin 8, b < a → c.links[terminalOf l b].state = .off := by
  obtain ⟨a, ha⟩ := h
  induction hn : a.val using Nat.strongRecOn generalizing a with
  | ind n ih =>
    by_cases first : ∀ b : Fin 8, b < a → c.links[terminalOf l b].state = .off
    · exact ⟨a, ha, first⟩
    · obtain ⟨b, hb⟩ := Classical.not_forall.mp first
      obtain ⟨before, on⟩ := Classical.not_imp.mp hb
      exact ih b.val (hn ▸ before) b on rfl

/-! ## TERMINAL ON (R54) -/

theorem exec_terminalOn (s : State) : exec .terminalOn s = takeCommand 2 Chip.terminalOn s := rfl

/-- A terminal made SUSPECT with all rows dirty, before its line may sweep. -/
def Chip.wakened (c : Chip) (u : TerminalNo) : Chip :=
  (c.setLink u { state := .suspect, misses := 0 }).markAllRows u

theorem wakened_link (c : Chip) (u w : TerminalNo) :
    (c.wakened u).links[w] = if u = w then { state := .suspect, misses := 0 } else c.links[w] := setLink_link ..

theorem wakened_lines (c : Chip) (u : TerminalNo) : (c.wakened u).lines = c.lines := by
  obtain ⟨_, _, lines, _⟩ := setLink_fields u { state := .suspect, misses := 0 } c
  exact lines

theorem wakened_screen (c : Chip) (u w : TerminalNo) :
    (c.wakened u).screens[w] =
      if u = w then { c.screens[w] with dirty := Vector.replicate 24 true } else c.screens[w] := by
  obtain ⟨_, _, _, screens, _⟩ := setLink_fields u { state := .suspect, misses := 0 } c
  unfold Chip.wakened
  simp only [markAllRows_screen, screens]

theorem wakened_dirty (c : Chip) (u : TerminalNo) (r : Fin 24) : (c.wakened u).screens[u].dirty[r] = true := by
  simp only [wakened_screen, if_true]
  exact allDirty r

theorem turnOn_idle (h : c.lines[lineOf u].phase = .idle) : c.turnOn u = (c.wakened u).newSweep (lineOf u) := by
  refine if_pos (Eq.trans ?_ h)
  exact congrArg (fun v : Vector LineEngine 8 => v[lineOf u].phase) (wakened_lines c u)

theorem turnOn_busy (h : c.lines[lineOf u].phase ≠ .idle) : c.turnOn u = c.wakened u := by
  refine if_neg fun k => h (Eq.trans ?_ k)
  exact (congrArg (fun v : Vector LineEngine 8 => v[lineOf u].phase) (wakened_lines c u)).symm

theorem turnOn_sweeps (c : Chip) (u : TerminalNo) : Chip.Sweeps (lineOf u) (c.wakened u) (c.turnOn u) := by
  by_cases h : c.lines[lineOf u].phase = .idle
  · rw [turnOn_idle h]
    exact newSweep_sweeps ..
  · rw [turnOn_busy h]
    exact .refl ..

/-- With the other terminals of its line OFF, a waking terminal is visited at once. -/
theorem turnOn_visits (hidle : c.lines[lineOf u].phase = .idle) (hb : 1 ≤ c.lines[lineOf u].rowBudget)
    (halone : ∀ w : TerminalNo, w ≠ u → lineOf w = lineOf u → c.links[w].state = .off) :
    (c.turnOn u).VisitsFully (lineOf u) (addressOf u) ∧ (c.turnOn u).lines[lineOf u].phase = .reading ∧
      ∀ r : Fin 24, (c.turnOn u).screens[u].dirty[r] = decide (r ≠ 0) := by
  have hline : (c.wakened u).lines[lineOf u] = c.lines[lineOf u] := by simp only [wakened_lines]
  have hself : terminalOf (lineOf u) (addressOf u) = u := terminalOf_parts u
  have hcome : (c.wakened u).SweepComesTo (lineOf u) 0 (c.wakened u).lines[lineOf u].sweepCounter (addressOf u) .full := by
    refine ⟨Nat.zero_le _, fun b _ hb => Or.inl ?_, Or.inl ⟨rfl, Or.inr ?_⟩⟩
    · have hne : terminalOf (lineOf u) b ≠ u := fun e => by
        have := (terminalOf_eq_iff.mp e).2
        omega
      rw [wakened_link, if_neg (Ne.symm hne)]
      exact halone _ hne (lineOf_terminalOf ..)
    · simp only [hself, wakened_link, if_true]
  obtain ⟨line, screens⟩ := newSweep_takesFirst hcome (by rw [hline]; exact hb)
    (fun r => by simpa only [hself] using wakened_dirty c u r)
  rw [turnOn_idle hidle]
  refine ⟨⟨by rw [line], _, by rw [line], rfl, rfl, rfl⟩, by rw [line], fun r => ?_⟩
  have hscreen := screens u
  rw [if_pos hself] at hscreen
  simp only [hscreen, setRow_dirty, wakened_dirty]
  by_cases hr : r = 0
  · subst hr
    rfl
  · rw [if_neg (Ne.symm hr), decide_eq_true hr]

theorem terminalOn_answers (ha : finArg 64 (c.cu.arg 1) = some u) (hsystem : c.cu.context = .system) :
    c.terminalOn = if c.enabled u then .refuse .wrongState else .done (c.turnOn u) [] := by
  simp only [Chip.terminalOn, ha, callerFault_systemOnly_system hsystem]

theorem enabled_iff : c.enabled u = true ↔ c.links[u].state ≠ .off := by
  simp [Chip.enabled]

/-- Settles O35, by `wakened_link` and what a sweep may reach. -/
theorem terminalOnEnables : Obligations.TerminalOnEnables := by
  intro s u hs ha hsystem
  have hbody := terminalOn_answers (c := s.chip.collect) ha hsystem
  refine ⟨fun hon => ?_, fun hoff => ?_⟩
  · exact (exec_terminalOn s).trans (takeCommand_refused hs (hbody.trans (if_pos (enabled_iff.mpr hon))))
  have hdone : s.chip.collect.terminalOn = .done (s.chip.collect.turnOn u) [] :=
    hbody.trans (if_neg fun h => enabled_iff.mp h hoff)
  have sweeps := turnOn_sweeps s.chip.collect u
  have pends : KeyItem.linkWord u ∈ (s.chip.collect.wakened u).keyWriter.pending :=
    setLink_pends fun e => by
      have hstate := congrArg TerminalLink.state e
      exact nomatch hoff.symm.trans hstate
  obtain ⟨t, ht, memory, ended, same, _⟩ := command_ends hs hdone
  refine ⟨t, (exec_terminalOn s).trans ht, memory, ended, ?_, fun w hw => ?_, ?_, ?_, fun l hl => ?_, fun hbusy => ?_,
    fun hidle hb halone => ?_⟩
  · simp only [same.links, sweeps.links, wakened_link, if_true]
  · simp only [same.links, sweeps.links, wakened_link, if_neg hw.symm]
    rfl
  · rw [same.keyWriter, sweeps.rest]
    exact pends
  · simp only [same.screens, sweeps.queue, wakened_screen, if_true]
    rfl
  · simp only [same.lines, sweeps.others l hl, wakened_lines]
    rfl
  · have hturn : s.chip.collect.turnOn u = s.chip.collect.wakened u := turnOn_busy hbusy
    simp only [same.lines, same.screens, hturn, wakened_lines, wakened_dirty]
    exact ⟨rfl, fun _ => trivial⟩
  · have visits := turnOn_visits (c := s.chip.collect) hidle hb halone
    unfold Chip.VisitsFully at visits ⊢
    simpa only [same.lines, same.screens] using visits

/-! ## Cutting an exchange (R53) -/

theorem giveRowBack_fields (v : Visit) (c : Chip) :
    (c.giveRowBack v).lines = c.lines ∧ (c.giveRowBack v).links = c.links ∧
      (c.giveRowBack v).keyWriter = c.keyWriter ∧ (c.giveRowBack v).keys = c.keys ∧ (c.giveRowBack v).cu = c.cu ∧
      (c.giveRowBack v).noticeWriter = c.noticeWriter := by
  unfold Chip.giveRowBack
  split <;> exact ⟨rfl, rfl, rfl, rfl, rfl, rfl⟩

theorem giveRowBack_queue (v : Visit) (c : Chip) (w : TerminalNo) :
    (c.giveRowBack v).screens[w].queue = c.screens[w].queue := by
  unfold Chip.giveRowBack
  split
  · simp only [markRow_screen]
    split <;> rfl
  · rfl

theorem giveRowBack_marks {v : Visit} {r : Fin 24} (h : v.rowInHand = some r) :
    (c.giveRowBack v).screens[v.terminal].dirty[r] = true := by
  unfold Chip.giveRowBack
  simp only [h]
  exact markRow_marks ..

theorem giveRowBack_others {v : Visit} (h : w ≠ v.terminal) : (c.giveRowBack v).screens[w] = c.screens[w] := by
  unfold Chip.giveRowBack
  split
  · rw [markRow_screen, if_neg h.symm]
  · rfl

/-- The engine of a line whose exchange is cut. -/
def LineEngine.cutTo (next : AfterQuiet) (e : LineEngine) : LineEngine :=
  { e.dropExchange with phase := if e.phase ≠ .reading then .quieting else e.phase, afterQuiet := next }

theorem cut_visit {v : Visit} (next : AfterQuiet) (hv : c.lines[l].visit = some v) :
    c.cut l next = (c.giveRowBack v).onLine l fun e =>
      { e.dropExchange with
        phase := if decide (c.lines[l].phase ≠ .reading) = true then .quieting else e.phase, afterQuiet := next } := by
  simp only [Chip.cut, hv]

theorem cut_line (l : LineNo) (next : AfterQuiet) (c : Chip) : (c.cut l next).lines[l] = c.lines[l].cutTo next := by
  cases hv : c.lines[l].visit with
  | none =>
    simp only [Chip.cut, hv, onLine_self, decide_eq_true_eq]
    rfl
  | some v =>
    obtain ⟨lines, _⟩ := giveRowBack_fields v c
    simp only [cut_visit next hv, onLine_self, decide_eq_true_eq, lines]
    rfl

/-- What a cut leaves, its own line and the row given back apart. -/
theorem cut_fields (l : LineNo) (next : AfterQuiet) (c : Chip) :
    (c.cut l next).links = c.links ∧ (c.cut l next).keyWriter = c.keyWriter ∧
      (∀ m : LineNo, m ≠ l → (c.cut l next).lines[m] = c.lines[m]) ∧
      (∀ w : TerminalNo, (c.cut l next).screens[w].queue = c.screens[w].queue) ∧
      ∀ w : TerminalNo, (∀ v, c.lines[l].visit = some v → v.terminal ≠ w) → (c.cut l next).screens[w] = c.screens[w] := by
  cases hv : c.lines[l].visit with
  | none =>
    have e : c.cut l next = c.onLine l fun e => { e.dropExchange with
        phase := if decide (c.lines[l].phase ≠ .reading) = true then .quieting else e.phase, afterQuiet := next } := by
      simp only [Chip.cut, hv]
    rw [e]
    exact ⟨rfl, rfl, fun m hm => onLine_ne _ hm, fun w => rfl, fun w _ => rfl⟩
  | some v =>
    obtain ⟨lines, links, keyWriter, _⟩ := giveRowBack_fields v c
    rw [cut_visit next hv]
    refine ⟨links, keyWriter, fun m hm => (onLine_ne _ hm).trans (by simp only [lines]), giveRowBack_queue v c,
      fun w h => giveRowBack_others (h v rfl).symm⟩

/-! ## TERMINAL OFF (R55) -/

theorem exec_terminalOff (s : State) : exec .terminalOff s = takeCommand 3 Chip.terminalOff s := rfl

theorem visits_iff : c.visits l u = true ↔ ∃ v, c.lines[l].visit = some v ∧ v.terminal = u := by
  unfold Chip.visits
  cases hv : c.lines[l].visit with
  | none => simp
  | some v => simp

/-- The part as TERMINAL OFF leaves an exchange with the terminal. -/
def Chip.cutFrom (c : Chip) (u : TerminalNo) : Chip :=
  if c.visits (lineOf u) u = true then c.cut (lineOf u) .testLine else c

/-- The terminal is OFF, its exchange cut. -/
def Chip.silenced (c : Chip) (u : TerminalNo) : Chip := (c.cutFrom u).setLink u { state := .off, misses := 0 }

theorem cutFrom_fields (c : Chip) (u : TerminalNo) :
    (c.cutFrom u).links = c.links ∧ (c.cutFrom u).keyWriter = c.keyWriter ∧
      (∀ m : LineNo, m ≠ lineOf u → (c.cutFrom u).lines[m] = c.lines[m]) ∧
      ∀ w : TerminalNo, (c.cutFrom u).screens[w].queue = c.screens[w].queue := by
  unfold Chip.cutFrom
  split
  · obtain ⟨links, keyWriter, others, queue, _⟩ := cut_fields (lineOf u) .testLine c
    exact ⟨links, keyWriter, others, queue⟩
  · exact ⟨rfl, rfl, fun _ _ => rfl, fun _ => rfl⟩

theorem silenced_lines (c : Chip) (u : TerminalNo) : (c.silenced u).lines = (c.cutFrom u).lines := by
  obtain ⟨_, _, lines, _⟩ := setLink_fields u { state := .off, misses := 0 } (c.cutFrom u)
  exact lines

theorem silenced_screens (c : Chip) (u : TerminalNo) : (c.silenced u).screens = (c.cutFrom u).screens := by
  obtain ⟨_, _, _, screens, _⟩ := setLink_fields u { state := .off, misses := 0 } (c.cutFrom u)
  exact screens

theorem silenced_link (c : Chip) (u w : TerminalNo) :
    (c.silenced u).links[w] = if u = w then { state := .off, misses := 0 } else c.links[w] := by
  obtain ⟨links, _⟩ := cutFrom_fields c u
  refine (setLink_link ..).trans ?_
  simp only [links]

/-- How TERMINAL OFF ends: a cut reading engine tests its line; another one that is to go on from its quiet wait will
test it then. -/
theorem turnOff_eq (c : Chip) (u : TerminalNo) :
    c.turnOff u =
      if (c.visits (lineOf u) u && decide (c.lines[lineOf u].phase = .reading)) = true then
        (c.silenced u).testLine (lineOf u)
      else if (c.silenced u).lines[lineOf u].phase = .quieting ∧
          (c.silenced u).lines[lineOf u].afterQuiet = .nextAddress then
        (c.silenced u).onLine (lineOf u) fun e => { e with afterQuiet := .testLine }
      else c.silenced u := rfl

theorem turnOff_sweeps (c : Chip) (u : TerminalNo) : Chip.Sweeps (lineOf u) (c.silenced u) (c.turnOff u) := by
  rw [turnOff_eq]
  split
  · exact testLine_sweeps ..
  · split
    · exact .onLine ..
    · exact .refl ..

section
variable {v : Visit} (hv : c.lines[lineOf u].visit = some v) (hu : v.terminal = u)
include hv hu

theorem silenced_cut : c.cutFrom u = c.cut (lineOf u) .testLine := if_pos (visits_iff.mpr ⟨v, hv, hu⟩)

theorem silenced_line : (c.silenced u).lines[lineOf u] = c.lines[lineOf u].cutTo .testLine := by
  simp only [silenced_lines, silenced_cut hv hu, cut_line]

theorem silenced_screen (w : TerminalNo) : (c.silenced u).screens[w] = (c.giveRowBack v).screens[w] := by
  simp only [silenced_screens, silenced_cut hv hu, cut_visit _ hv]
  rfl

theorem turnOff_reading (hp : c.lines[lineOf u].phase = .reading) :
    c.turnOff u = (c.silenced u).testLine (lineOf u) := by
  rw [turnOff_eq]
  exact if_pos (Bool.and_eq_true_iff.mpr ⟨visits_iff.mpr ⟨v, hv, hu⟩, decide_eq_true hp⟩)

theorem turnOff_cut (hp : c.lines[lineOf u].phase ≠ .reading) : c.turnOff u = c.silenced u := by
  have line := silenced_line hv hu
  rw [turnOff_eq, if_neg (fun h => hp (of_decide_eq_true (Bool.and_eq_true_iff.mp h).2)), if_neg]
  rw [line]
  exact fun h => nomatch h.2

/-- The terminal cut keeps its row dirty, whatever the sweep then takes. -/
theorem turnOff_keepsRow {r : Fin 24} (hr : v.rowInHand = some r) : (c.turnOff u).screens[u].dirty[r] = true := by
  have hoff : (c.silenced u).links[u].state = .off := by rw [silenced_link, if_pos rfl]
  simp only [(turnOff_sweeps c u).screens u (Or.inr hoff), silenced_screen hv hu]
  have marks := giveRowBack_marks (c := c) hr
  simpa only [hu] using marks

/-- A part that differs from the silenced one, for a visit, in nothing. -/
theorem silenced_alike : ({ c.giveRowBack v with links := (c.silenced u).links } : Chip).AlikeFor (lineOf u) (c.silenced u) := by
  obtain ⟨lines, _⟩ := giveRowBack_fields v c
  refine ⟨rfl, Vector.ext fun i hi => silenced_screen hv hu ⟨i, hi⟩, ?_, fun m hm => ?_⟩
  · simp only [silenced_line hv hu, lines]
    rfl
  · simp only [silenced_lines, lines]
    exact (cutFrom_fields c u).2.2.1 m hm

theorem turnOff_goesOn (hp : c.lines[lineOf u].phase = .reading)
    (hon : ∃ a : Fin 8, (c.turnOff u).links[terminalOf (lineOf u) a].state ≠ .off) :
    ({ c.giveRowBack v with links := (c.turnOff u).links } : Chip).SweepGoesOn (lineOf u) (c.turnOff u) := by
  obtain ⟨lines, _⟩ := giveRowBack_fields v c
  simp only [(turnOff_sweeps c u).links] at hon ⊢
  rw [turnOff_reading hv hu hp, testLine_goesOn hon]
  refine sweepGoesOn_congr (silenced_alike hv hu) ?_ ?_ (nextAddress_goesOn _ _)
  · simp only [silenced_line hv hu, lines]
    rfl
  · simp only [silenced_line hv hu, lines]
    rfl

theorem turnOff_idles (hp : c.lines[lineOf u].phase = .reading)
    (hoff : ∀ a : Fin 8, (c.turnOff u).links[terminalOf (lineOf u) a].state = .off) :
    (c.turnOff u).lines[lineOf u].phase = .idle ∧ (c.turnOff u).lines[lineOf u].position = 0 ∧
      (c.turnOff u).lines[lineOf u].visit = none ∧
      (c.turnOff u).lines[lineOf u].sweepCounter = c.lines[lineOf u].sweepCounter := by
  simp only [(turnOff_sweeps c u).links] at hoff
  rw [turnOff_reading hv hu hp, testLine_idle hoff, onLine_self, silenced_line hv hu]
  exact ⟨rfl, rfl, rfl, rfl⟩

end

/-- An engine on no exchange with the terminal is not cut. -/
theorem silenced_uncut (h : ∀ v, c.lines[lineOf u].visit = some v → v.terminal ≠ u) :
    (c.silenced u).lines = c.lines ∧ c.turnOff u =
      if c.lines[lineOf u].phase = .quieting ∧ c.lines[lineOf u].afterQuiet = .nextAddress then
        (c.silenced u).onLine (lineOf u) fun e => { e with afterQuiet := .testLine }
      else c.silenced u := by
  have hvisits : c.visits (lineOf u) u = false := by
    rw [← Bool.not_eq_true, visits_iff]
    exact fun ⟨v, hv, hu⟩ => h v hv hu
  have lines : (c.silenced u).lines = c.lines := by
    rw [silenced_lines, Chip.cutFrom, hvisits]
    rfl
  refine ⟨lines, ?_⟩
  rw [turnOff_eq, hvisits]
  simp only [lines, Bool.false_and, Bool.false_eq_true, if_false]

theorem turnOff_quieting (h : c.lines[lineOf u].phase = .quieting) (hv : c.lines[lineOf u].visit = none) :
    (c.turnOff u).lines[lineOf u] = { c.lines[lineOf u] with
      afterQuiet := if c.lines[lineOf u].afterQuiet = .newSweep then .newSweep else .testLine } := by
  obtain ⟨lines, hturn⟩ := silenced_uncut (c := c) (u := u) fun v hsome => by
    rw [hv] at hsome
    cases hsome
  rw [hturn]
  cases hq : c.lines[lineOf u].afterQuiet with
  | nextAddress =>
    rw [if_pos ⟨h, rfl⟩, onLine_self]
    simp only [lines]
    rfl
  | testLine =>
    rw [if_neg fun k => nomatch k.2]
    simp only [lines, reduceCtorEq, if_false]
    rw [← hq]
  | newSweep =>
    rw [if_neg fun k => nomatch k.2]
    simp only [lines, if_true]
    rw [← hq]

theorem turnOff_otherwise (h : ∀ v, c.lines[lineOf u].visit = some v → v.terminal ≠ u)
    (hp : c.lines[lineOf u].phase ≠ .quieting) : (c.turnOff u).lines = c.lines := by
  obtain ⟨lines, hturn⟩ := silenced_uncut h
  rw [hturn, if_neg fun k => hp k.1, lines]

theorem terminalOff_answers (ha : finArg 64 (c.cu.arg 1) = some u) (hsystem : c.cu.context = .system) :
    c.terminalOff = if c.enabled u then .done (c.turnOff u) [] else .refuse .wrongState := by
  simp only [Chip.terminalOff, ha, callerFault_systemOnly_system hsystem]

/-- What TERMINAL OFF leaves of link states, key intake's list, the other lines and the notice queues. -/
theorem turnOff_fields (h : c.links[u].state ≠ .off) :
    (c.turnOff u).links[u] = { state := .off, misses := 0 } ∧
      (∀ w : TerminalNo, w ≠ u → (c.turnOff u).links[w] = c.links[w]) ∧
      KeyItem.linkWord u ∈ (c.turnOff u).keyWriter.pending ∧
      (∀ l : LineNo, l ≠ lineOf u → (c.turnOff u).lines[l] = c.lines[l]) ∧
      ∀ w : TerminalNo, (c.turnOff u).screens[w].queue = c.screens[w].queue := by
  have sweeps := turnOff_sweeps c u
  obtain ⟨links, _, others, queue⟩ := cutFrom_fields c u
  refine ⟨?_, fun w hw => ?_, ?_, fun l hl => ?_, fun w => ?_⟩
  · simp only [sweeps.links, silenced_link, if_true]
  · simp only [sweeps.links, silenced_link, if_neg hw.symm]
  · rw [sweeps.rest]
    refine setLink_pends fun e => h ?_
    rw [← links, e]
  · exact (sweeps.others l hl).trans ((by simp only [silenced_lines] : (c.silenced u).lines[l] = _).trans (others l hl))
  · exact (sweeps.queue w).trans ((by simp only [silenced_screens] : (c.silenced u).screens[w].queue = _).trans (queue w))

/-! ## LINE RESET (R56) -/

theorem exec_lineReset (s : State) : exec .lineReset s = takeCommand 4 Chip.lineReset s := rfl

theorem resetTerminal_on (h : c.links[u].state ≠ .off) :
    c.resetTerminal u =
      ((c.onTerminal u fun _ => { state := .suspect, misses := 0 }).markAllRows u).pendKey (.linkWord u) :=
  if_pos (enabled_iff.mpr h)

theorem resetTerminal_off (h : c.links[u].state = .off) : c.resetTerminal u = c :=
  if_neg fun k => enabled_iff.mp k h

/-- One terminal made SUSPECT, if it is enabled. -/
theorem resetTerminal_effect (c : Chip) (u : TerminalNo) :
    (∀ w, (c.resetTerminal u).links[w] =
        if u = w ∧ c.links[w].state ≠ .off then { state := .suspect, misses := 0 } else c.links[w]) ∧
      (∀ w, (c.resetTerminal u).screens[w] = if u = w ∧ c.links[w].state ≠ .off then
        { c.screens[w] with dirty := Vector.replicate 24 true } else c.screens[w]) ∧
      (∀ i, i ∈ (c.resetTerminal u).keyWriter.pending ↔
        i ∈ c.keyWriter.pending ∨ i = .linkWord u ∧ c.links[u].state ≠ .off) ∧
      (c.resetTerminal u).lines = c.lines := by
  by_cases h : c.links[u].state = .off
  · rw [resetTerminal_off h]
    refine ⟨fun w => ?_, fun w => ?_, fun i => ?_, rfl⟩
    · rw [if_neg]
      rintro ⟨rfl, hw⟩
      exact hw h
    · rw [if_neg]
      rintro ⟨rfl, hw⟩
      exact hw h
    · exact ⟨Or.inl, fun hi => hi.elim id fun hu => absurd h hu.2⟩
  · rw [resetTerminal_on h]
    refine ⟨fun w => (onTerminal_link ..).trans ?_, fun w => (markAllRows_screen ..).trans ?_, fun i => ?_, rfl⟩
    · by_cases e : u = w
      · subst e
        rw [if_pos rfl, if_pos ⟨rfl, h⟩]
      · rw [if_neg e, if_neg fun k => e k.1]
    · by_cases e : u = w
      · subst e
        rw [if_pos rfl, if_pos ⟨rfl, h⟩]
        rfl
      · rw [if_neg e, if_neg fun k => e k.1]
        rfl
    · rw [pendKey_pending _ (.linkWord u) (fun t => nofun)]
      refine (mem_joinOnce ..).trans (or_congr Iff.rfl ?_)
      exact ⟨fun hi => ⟨hi, h⟩, fun hi => hi.1⟩

/-- The enabled terminals of a list made SUSPECT. -/
theorem resetAll_effect : ∀ (us : List TerminalNo) (c : Chip), us.Nodup →
    (∀ w, (us.foldl Chip.resetTerminal c).links[w] =
        if w ∈ us ∧ c.links[w].state ≠ .off then { state := .suspect, misses := 0 } else c.links[w]) ∧
      (∀ w, (us.foldl Chip.resetTerminal c).screens[w] = if w ∈ us ∧ c.links[w].state ≠ .off then
        { c.screens[w] with dirty := Vector.replicate 24 true } else c.screens[w]) ∧
      (∀ w ∈ us, c.links[w].state ≠ .off → KeyItem.linkWord w ∈ (us.foldl Chip.resetTerminal c).keyWriter.pending) ∧
      (∀ i ∈ c.keyWriter.pending, i ∈ (us.foldl Chip.resetTerminal c).keyWriter.pending) ∧
      (us.foldl Chip.resetTerminal c).lines = c.lines
  | [], c, _ => ⟨fun w => by simp, fun w => by simp, fun _ h => absurd h List.not_mem_nil, fun i h => h, rfl⟩
  | u :: us, c, h => by
    obtain ⟨hu, hus⟩ := List.nodup_cons.mp h
    obtain ⟨links, screens, pends, lines⟩ := resetTerminal_effect c u
    obtain ⟨ihLinks, ihScreens, ihPends, ihKept, ihLines⟩ := resetAll_effect us (c.resetTerminal u) hus
    rw [List.foldl_cons]
    have mem : ∀ w, u ≠ w → (w ∈ u :: us ↔ w ∈ us) := fun w e => by simp [e.symm]
    refine ⟨fun w => ?_, fun w => ?_, fun w hw hon => ?_, fun i hi => ihKept i ((pends i).mpr (Or.inl hi)),
      ihLines.trans lines⟩
    · rw [ihLinks, links]
      by_cases e : u = w
      · subst e
        rw [if_neg fun k => hu k.1]
        simp
      · simp only [e, false_and, if_false, mem w e]
    · rw [ihScreens, screens, links]
      by_cases e : u = w
      · subst e
        rw [if_neg fun k => hu k.1]
        simp
      · simp only [e, false_and, if_false, mem w e]
    · by_cases e : u = w
      · subst e
        exact ihKept _ ((pends _).mpr (Or.inr ⟨rfl, hon⟩))
      · refine ihPends w ((mem w e).mp hw) ?_
        rw [links, if_neg fun k => e k.1]
        exact hon

/-- The terminals of a line, by address. -/
def lineTerminals (l : LineNo) : List TerminalNo := (List.finRange 8).map (terminalOf l)

theorem mem_lineTerminals : w ∈ lineTerminals l ↔ lineOf w = l := by
  simp only [lineTerminals, List.mem_map, List.mem_finRange, true_and, terminalOf_eq_iff]
  exact ⟨fun ⟨_, h, _⟩ => h, fun h => ⟨_, h, rfl⟩⟩

theorem nodup_lineTerminals (l : LineNo) : (lineTerminals l).Nodup :=
  List.Pairwise.map _ (fun _ _ hne same => hne (terminalOf_inj same)) (List.nodup_finRange 8)

/-- The line with its exchange cut and its sweep put back to address 0. -/
def Chip.rewound (c : Chip) (l : LineNo) : Chip :=
  (if c.lines[l].phase = .idle then c else c.cut l .newSweep).onLine l fun e => { e with position := 0 }

/-- The line with its enabled terminals SUSPECT. -/
def Chip.restarted (c : Chip) (l : LineNo) : Chip := (lineTerminals l).foldl Chip.resetTerminal (c.rewound l)

theorem resetLine_eq (l : LineNo) (c : Chip) :
    c.resetLine l = if c.lines[l].phase = .idle ∨ c.lines[l].phase = .reading then (c.restarted l).newSweep l
      else c.restarted l := rfl

theorem rewound_line (l : LineNo) (c : Chip) :
    (c.rewound l).lines[l] =
      { (if c.lines[l].phase = .idle then c.lines[l] else c.lines[l].cutTo .newSweep) with position := 0 } := by
  unfold Chip.rewound
  rw [onLine_self]
  split
  · rfl
  · rw [cut_line]

theorem rewound_fields (l : LineNo) (c : Chip) :
    (c.rewound l).links = c.links ∧ (∀ m : LineNo, m ≠ l → (c.rewound l).lines[m] = c.lines[m]) ∧
      ∀ w : TerminalNo, (∀ v, c.lines[l].visit = some v → v.terminal ≠ w) →
        (c.rewound l).screens[w] = c.screens[w] := by
  unfold Chip.rewound
  split
  · exact ⟨rfl, fun m hm => onLine_ne _ hm, fun w _ => rfl⟩
  · obtain ⟨links, _, others, _, screens⟩ := cut_fields l .newSweep c
    exact ⟨links, fun m hm => (onLine_ne _ hm).trans (others m hm), screens⟩

theorem restarted_link (c : Chip) (l : LineNo) (w : TerminalNo) :
    (c.restarted l).links[w] =
      if lineOf w = l ∧ c.links[w].state ≠ .off then { state := .suspect, misses := 0 } else c.links[w] := by
  obtain ⟨links, _⟩ := resetAll_effect (lineTerminals l) (c.rewound l) (nodup_lineTerminals l)
  rw [Chip.restarted, links]
  simp only [mem_lineTerminals, (rewound_fields l c).1]

theorem restarted_enabled (c : Chip) (l : LineNo) (w : TerminalNo) :
    (c.restarted l).links[w].state = .off ↔ c.links[w].state = .off := by
  rw [restarted_link]
  split
  · rename_i h
    exact ⟨nofun, fun k => absurd k h.2⟩
  · rfl

theorem restarted_dirty (h : c.links[terminalOf l a].state ≠ .off) (r : Fin 24) :
    (c.restarted l).screens[terminalOf l a].dirty[r] = true := by
  obtain ⟨_, screens, _⟩ := resetAll_effect (lineTerminals l) (c.rewound l) (nodup_lineTerminals l)
  have hin : terminalOf l a ∈ lineTerminals l ∧ (c.rewound l).links[terminalOf l a].state ≠ .off :=
    ⟨mem_lineTerminals.mpr (lineOf_terminalOf l a), by simpa only [(rewound_fields l c).1] using h⟩
  have hscreen := screens (terminalOf l a)
  rw [if_pos hin] at hscreen
  simp only [Chip.restarted, hscreen]
  exact allDirty r

theorem restarted_otherScreen (hw : lineOf w ≠ l) (hv : ∀ v, c.lines[l].visit = some v → v.terminal ≠ w) :
    (c.restarted l).screens[w] = c.screens[w] := by
  obtain ⟨_, screens, _⟩ := resetAll_effect (lineTerminals l) (c.rewound l) (nodup_lineTerminals l)
  rw [Chip.restarted, screens, if_neg fun h => hw (mem_lineTerminals.mp h.1)]
  exact (rewound_fields l c).2.2 w hv

theorem restarted_lines (c : Chip) (l : LineNo) : (c.restarted l).lines = (c.rewound l).lines := by
  obtain ⟨_, _, _, _, lines⟩ := resetAll_effect (lineTerminals l) (c.rewound l) (nodup_lineTerminals l)
  exact lines

theorem restarted_pends (h : c.links[terminalOf l a].state ≠ .off) :
    KeyItem.linkWord (terminalOf l a) ∈ (c.restarted l).keyWriter.pending := by
  obtain ⟨_, _, pends, _⟩ := resetAll_effect (lineTerminals l) (c.rewound l) (nodup_lineTerminals l)
  unfold Chip.restarted
  exact pends _ (mem_lineTerminals.mpr (lineOf_terminalOf l a)) (by simpa only [(rewound_fields l c).1] using h)

/-- The engine's sweep counter, its row budget and what stands in the visit's place, with the line rewound. -/
theorem restarted_line (c : Chip) (l : LineNo) :
    (c.restarted l).lines[l].sweepCounter = c.lines[l].sweepCounter ∧
      (c.restarted l).lines[l].rowBudget = c.lines[l].rowBudget ∧ (c.restarted l).lines[l].position = 0 := by
  simp only [restarted_lines, rewound_line]
  split <;> exact ⟨rfl, rfl, trivial⟩

theorem restarted_quieting (hi : c.lines[l].phase ≠ .idle) (hr : c.lines[l].phase ≠ .reading) :
    (c.restarted l).lines[l].phase = .quieting ∧ (c.restarted l).lines[l].visit = none ∧
      (c.restarted l).lines[l].afterQuiet = .newSweep := by
  simp only [restarted_lines, rewound_line, if_neg hi]
  exact ⟨if_pos hr, rfl, rfl⟩

theorem resetLine_sweeps (c : Chip) (l : LineNo) : Chip.Sweeps l (c.restarted l) (c.resetLine l) := by
  rw [resetLine_eq]
  split
  · exact newSweep_sweeps ..
  · exact .refl ..

theorem resetLine_links (c : Chip) (l : LineNo) : (c.resetLine l).links = (c.restarted l).links :=
  (resetLine_sweeps c l).links

/-- The first enabled address is the one a new sweep comes to. -/
theorem restarted_comesTo (ha : c.links[terminalOf l a].state ≠ .off)
    (hbefore : ∀ b : Fin 8, b < a → c.links[terminalOf l b].state = .off) :
    (c.restarted l).SweepComesTo l 0 (c.restarted l).lines[l].sweepCounter a .full := by
  refine ⟨Nat.zero_le _, fun b _ hb => Or.inl ((restarted_enabled ..).mpr (hbefore b hb)), Or.inl ⟨rfl, Or.inr ?_⟩⟩
  rw [restarted_link, if_pos ⟨lineOf_terminalOf l a, ha⟩]

/-- An engine that was IDLE or READING sweeps anew at once (R56 c). -/
theorem resetLine_atOnce (h : c.lines[l].phase = .idle ∨ c.lines[l].phase = .reading) :
    (c.resetLine l).lines[l].sweepCounter = c.lines[l].sweepCounter ∧
      ((∀ a : Fin 8, c.links[terminalOf l a].state = .off) →
        (c.resetLine l).lines[l].phase = .idle ∧ (c.resetLine l).lines[l].position = 0) ∧
      ∀ a : Fin 8, c.links[terminalOf l a].state ≠ .off →
        (∀ b : Fin 8, b < a → c.links[terminalOf l b].state = .off) → 1 ≤ c.lines[l].rowBudget →
        (c.resetLine l).lines[l].phase = .reading ∧ (c.resetLine l).lines[l].position = a ∧
        (c.resetLine l).lines[l].rowWords = [] ∧ (c.resetLine l).lines[l].visit = some (firstRowVisit l a) ∧
        ∀ b : Fin 8, c.links[terminalOf l b].state ≠ .off →
          ∀ r : Fin 24, (c.resetLine l).screens[terminalOf l b].dirty[r] = !decide (b = a ∧ r = 0) := by
  obtain ⟨counter, budget, position⟩ := restarted_line c l
  rw [resetLine_eq, if_pos h]
  refine ⟨?_, fun hoff => ?_, fun a ha hbefore hb => ?_⟩
  · by_cases hon : ∃ a : Fin 8, c.links[terminalOf l a].state ≠ .off
    · obtain ⟨a, ha, hbefore⟩ := exists_firstEnabled hon
      rw [newSweep_visits (restarted_comesTo ha hbefore)]
      obtain ⟨_, kept, _⟩ := beginVisit_line ((c.restarted l).steered l (c.restarted l).lines[l].sweepCounter 0) l a .full
      rw [kept, steered_line, counter]
    · have hoff : ∀ a : Fin 8, (c.restarted l).links[terminalOf l a].state = .off := fun a =>
        (restarted_enabled ..).mpr (Classical.not_not.mp fun k => hon ⟨a, k⟩)
      simp only [newSweep_idle hoff, onLine_self, counter]
  · rw [newSweep_idle fun a => (restarted_enabled ..).mpr (hoff a), onLine_self]
    exact ⟨rfl, rfl⟩
  · obtain ⟨line, screens⟩ := newSweep_takesFirst (restarted_comesTo ha hbefore) (budget.symm ▸ hb)
      (fun r => restarted_dirty ha r)
    refine ⟨by rw [line], by rw [line], by rw [line], by rw [line], fun b hb r => ?_⟩
    simp only [screens]
    by_cases e : a = b
    · subst e
      simp only [if_true, setRow_dirty, restarted_dirty ha]
      by_cases hr : r = 0
      · subst hr
        simp
      · simp [Ne.symm hr, hr]
    · have hne : terminalOf l a ≠ terminalOf l b := fun k => e (terminalOf_inj k)
      simp only [if_neg hne, restarted_dirty hb]
      simp [Ne.symm e]

theorem resetLine_later (hi : c.lines[l].phase ≠ .idle) (hr : c.lines[l].phase ≠ .reading) :
    c.resetLine l = c.restarted l := by
  rw [resetLine_eq, if_neg fun h => h.elim hi hr]

theorem lineReset_answers (ha : finArg 8 (c.cu.arg 1) = some l) (hsystem : c.cu.context = .system) :
    c.lineReset = .done (c.resetLine l) [] := by
  simp only [Chip.lineReset, ha, callerFault_systemOnly_system hsystem]

/-- TERMINAL OFF disables a terminal that is not OFF. -/
theorem terminalOff_disables {s : State} (hsystem : s.chip.cu.context = .system) (u : TerminalNo) (hs : s.Serves 3)
    (ha : finArg 64 (s.chip.cu.arg 1) = some u) (hon : s.chip.links[u].state ≠ .off) :
    ∃ t, exec .terminalOff s = .next t ∧ t.memory = s.memory ∧ t.chip.Ended .ok [] ∧
      (s.chip.collect.turnOff u).SameBlocks t.chip := by
  have hbody := (terminalOff_answers (c := s.chip.collect) ha hsystem).trans (if_pos (enabled_iff.mpr hon))
  obtain ⟨t, ht, memory, ended, same, _⟩ := command_ends hs hbody
  exact ⟨t, (exec_terminalOff s).trans ht, memory, ended, same⟩

theorem giveRowBack_collect (v : Visit) (c : Chip) :
    (c.collect.giveRowBack v).lines = (c.giveRowBack v).lines ∧
      (c.collect.giveRowBack v).screens = (c.giveRowBack v).screens := by
  unfold Chip.giveRowBack
  split <;> exact ⟨rfl, rfl⟩

theorem sweepGoesOn_after {e : Chip} (same : d.SameBlocks e) (h : c.SweepGoesOn l d) : c.SweepGoesOn l e := by
  unfold Chip.SweepGoesOn Chip.VisitBegins at h ⊢
  simpa only [same.lines, same.links, same.screens] using h

/-- Settles O36: TERMINAL OFF by the cases of `turnOff_eq`, LINE RESET by `restarted_link` and `resetLine_atOnce`. -/
theorem terminalOffAndLineReset : Obligations.TerminalOffAndLineReset := by
  intro s hsystem
  refine ⟨fun u hs ha => ⟨fun hoff => ?_, fun hon => ?_⟩, fun l hs ha => ?_⟩
  · exact (exec_terminalOff s).trans (takeCommand_refused hs
      ((terminalOff_answers (c := s.chip.collect) ha hsystem).trans (if_neg fun h => enabled_iff.mp h hoff)))
  · obtain ⟨t, ht, memory, ended, same⟩ := terminalOff_disables hsystem u hs ha hon
    have fields := turnOff_fields (c := s.chip.collect) (u := u) hon
    simp only [collect_fields] at fields
    obtain ⟨self, others, pends, lines, queue⟩ := fields
    refine ⟨t, ht, memory, ended, ?_⟩
    simp only [same.links, same.keyWriter, same.lines, same.screens]
    refine ⟨self, others, pends, lines, queue, fun v hv hu => ⟨fun r hr => ?_, fun hp => ?_,
      fun hp => ?_⟩, fun hp hv => ?_, fun hv hp => ?_⟩
    · exact turnOff_keepsRow (c := s.chip.collect) hv hu hr
    · have hturn := turnOff_cut (c := s.chip.collect) hv hu hp
      have line := silenced_line (c := s.chip.collect) hv hu
      simp only [hturn, line]
      exact ⟨if_pos hp, rfl, rfl⟩
    · rintro _ _ rfl rfl
      have idles := turnOff_idles (c := s.chip.collect) hv hu hp
      simp only [collect_fields] at idles
      refine ⟨idles, fun h => ?_⟩
      have goesOn := turnOff_goesOn (c := s.chip.collect) hv hu hp h
      obtain ⟨lines, screens⟩ := giveRowBack_collect v s.chip
      refine sweepGoesOn_after same (sweepGoesOn_congr
        (d := { s.chip.collect.giveRowBack v with links := (s.chip.collect.turnOff u).links }) ⟨rfl, screens, ?_, fun m _ => ?_⟩ ?_ ?_ goesOn)
      · simp only [lines]
      · simp only [lines]
      · simp only [lines]
      · simp only [lines]
    · have quieting := turnOff_quieting (c := s.chip.collect) hp hv
      simp only [collect_fields] at quieting
      exact quieting
    · exact turnOff_otherwise (c := s.chip.collect) hv hp
  · obtain ⟨t, ht, memory, ended, same, _⟩ := command_ends hs (lineReset_answers (c := s.chip.collect) ha hsystem)
    have sweeps := resetLine_sweeps s.chip.collect l
    have atOnce := resetLine_atOnce (c := s.chip.collect) (l := l)
    have keyWriter : (s.chip.collect.resetLine l).keyWriter = (s.chip.collect.restarted l).keyWriter := by rw [sweeps.rest]
    refine ⟨t, (exec_lineReset s).trans ht, memory, ended, ?_⟩
    simp only [same.links, same.lines, same.screens, same.keyWriter, resetLine_links, restarted_link, keyWriter]
    simp only [collect_fields] at atOnce ⊢
    refine ⟨fun a hon => ⟨?_, ?_⟩, fun a hoff => ?_, fun w hw => ⟨?_,
      fun hv => ?_⟩, fun m hm => ?_, atOnce, fun hi hr => ?_⟩
    · exact if_pos ⟨lineOf_terminalOf l a, hon⟩
    · exact restarted_pends (c := s.chip.collect) hon
    · exact if_neg fun k => k.2 hoff
    · exact if_neg fun k => hw k.1
    · exact (sweeps.screens w (Or.inl hw)).trans (restarted_otherScreen (c := s.chip.collect) hw hv)
    · refine (sweeps.others m hm).trans ?_
      simp only [restarted_lines]
      exact (rewound_fields l s.chip.collect).2.1 m hm
    · have hturn := resetLine_later (c := s.chip.collect) hi hr
      obtain ⟨phase, visit, after⟩ := restarted_quieting (c := s.chip.collect) hi hr
      have line := restarted_line s.chip.collect l
      simp only [collect_fields] at line
      obtain ⟨counter, _, position⟩ := line
      simp only [hturn]
      exact ⟨phase, visit, after, position, counter, fun a hon r => restarted_dirty (c := s.chip.collect) hon r⟩

end

end Sys2Proof.Machine
end

section
/-! SUPPORT. Answers and misses: what the bytes of an answer amount to, what a good answer and a miss leave (R41 to R50;
O38 to O40). -/

namespace Sys2Proof.Machine

section
variable {c d : Chip} {s : State} {l m : LineNo} {u w : TerminalNo} {a : Fin 8} {v : Visit} {b : Byte}

/-! ## What the bytes of an answer amount to (R41, R43) -/

/-- The bytes an engine has once `b` has arrived. -/
def Chip.answerBytes (c : Chip) (l : LineNo) (b : Byte) : List Byte := c.lines[l].received ++ [b]

theorem lineByte_bad (hp : c.lines[l].phase = .awaiting) (h : reception (c.answerBytes l b) = .bad) :
    c.lineByte l b = c.missed l := by
  unfold Chip.lineByte
  rw [if_pos hp]
  have h' : reception (c.lines[l].received ++ [b]) = .bad := h
  simp only [h']

theorem lineByte_more (hp : c.lines[l].phase = .awaiting) (h : reception (c.answerBytes l b) = .more) :
    c.lineByte l b = c.onLine l fun e => { e with received := c.answerBytes l b } := by
  unfold Chip.lineByte
  rw [if_pos hp]
  have h' : reception (c.lines[l].received ++ [b]) = .more := h
  simp only [h']
  rfl

theorem lineByte_complete {k : AnswerKind} (hp : c.lines[l].phase = .awaiting)
    (h : reception (c.answerBytes l b) = .complete k) : c.lineByte l b = c.judge l k (c.answerBytes l b) := by
  unfold Chip.lineByte
  rw [if_pos hp]
  have h' : reception (c.lines[l].received ++ [b]) = .complete k := h
  simp only [h']
  rfl

theorem lineByte_idle (hp : c.lines[l].phase ≠ .awaiting) : c.lineByte l b = c := if_neg hp

theorem judge_good {k : AnswerKind} {bytes : List Byte} (hv : c.lines[l].visit = some v)
    (h : answerGood k (addressOf v.terminal) v.awaited bytes = true) :
    c.judge l k bytes = c.goodAnswer l k bytes v := by
  simp only [Chip.judge, hv, h, if_true]

theorem judge_bad {k : AnswerKind} {bytes : List Byte} (hv : c.lines[l].visit = some v)
    (h : answerGood k (addressOf v.terminal) v.awaited bytes = false) : c.judge l k bytes = c.missed l := by
  simp only [Chip.judge, hv, h, Bool.false_eq_true, if_false]

/-- R43: the checks on a complete answer whose last byte is `b`. -/
theorem answerGood_iff {k : AnswerKind} {m : MessageKind} {x y : Byte} {rest : List Byte} :
    answerGood k a m ((x :: y :: rest) ++ [b]) = true ↔
      b = (x :: y :: rest).foldl (· + ·) 0 ∧ y = BitVec.ofNat 8 a.val ∧ k.answers = m := by
  simp only [answerGood, List.getLast?_append, List.getLast?_singleton, List.dropLast_concat,
    Bool.and_eq_true, decide_eq_true_eq, checkByte, and_assoc]
  simp

theorem reception_badKind (h : answerKind b = none) (rest : List Byte) : reception (b :: rest) = .bad := by
  simp only [reception, h]

/-- A TAKEN, BUSY or QUIET answer is complete with its third byte (R41). -/
theorem reception_short {k : AnswerKind} (hb : answerKind b = some k) (hk : k ≠ .keys) (x y : Byte) :
    reception [b, x, y] = .complete k := by
  cases k with
  | keys => exact absurd rfl hk
  | quiet => simp [reception, hb]
  | taken => simp [reception, hb]
  | busy => simp [reception, hb]

theorem answerKind_keys : answerKind 0x21 = some .keys := rfl

theorem reception_keys {x n : Byte} (body : List Byte) :
    reception (0x21 :: x :: n :: body) =
      if countValid n then (if body.length = n.toNat + 1 then .complete .keys else .more) else .bad := by
  simp only [reception, answerKind_keys]

theorem countValid_iff {n : Byte} : countValid n = true ↔ 1 ≤ n.toNat ∧ n.toNat ≤ 8 := by
  simp [countValid]

/-! ## The kinds of answer -/

theorem answerKind_none (h1 : b ≠ 0x21) (h2 : b ≠ 0x22) (h3 : b ≠ 0x23) (h4 : b ≠ 0x24) : answerKind b = none := by
  simp only [answerKind, h1, h2, h3, h4, if_false]

theorem answerKind_some (h : b = 0x21 ∨ b = 0x22 ∨ b = 0x23 ∨ b = 0x24) : ∃ k, answerKind b = some k := by
  rcases h with rfl | rfl | rfl | rfl
  · exact ⟨.keys, rfl⟩
  · exact ⟨.quiet, rfl⟩
  · exact ⟨.taken, rfl⟩
  · exact ⟨.busy, rfl⟩

/-- The first two bytes of an answer do not complete it. -/
theorem reception_begun {k : AnswerKind} (hb : answerKind b = some k) : reception [b] = .more := by
  cases k <;> simp [reception, hb]

theorem reception_second {k : AnswerKind} (hb : answerKind b = some k) (x : Byte) : reception [b, x] = .more := by
  cases k <;> simp [reception, hb]

/-! ## The rows that name an answer -/

theorem exec_lineByte (l : LineNo) (b : Byte) (s : State) :
    exec (.lineByteReceived l b) s = chipEvent (Chip.lineByte l b) s ∧
      exec (.takenAnswer l b) s = exec (.lineByteReceived l b) s ∧
      exec (.busyAnswer l b) s = exec (.lineByteReceived l b) s ∧
      exec (.keysAnswer l b) s = exec (.lineByteReceived l b) s ∧
      exec (.quietAnswer l b) s = exec (.lineByteReceived l b) s ∧
      exec (.answerBadKindOrCount l b) s = exec (.lineByteReceived l b) s :=
  ⟨rfl, rfl, rfl, rfl, rfl, rfl⟩

/-! ## Good answers to a ROW (R48) -/

/-- What the next step of a visit leaves, its engine and dirty rows apart. -/
theorem visitStep_fields (l : LineNo) (c : Chip) :
    (c.visitStep l).links = c.links ∧ (c.visitStep l).keys = c.keys ∧
      ∀ m : LineNo, m ≠ l → (c.visitStep l).lines[m] = c.lines[m] := by
  have does := does_visitStep l c
  refine ⟨does.frame .links (by decide), does.frame .keys (by decide), fun m hm => ?_⟩
  unfold Chip.visitStep
  split
  · rfl
  · split
    · exact onLine_ne _ hm
    · exact onLine_ne _ hm

theorem countGood_fields (t : TerminalNo) (c : Chip) :
    (c.countGood t).lines = c.lines ∧ (c.countGood t).keys = c.keys ∧ (c.countGood t).stories = c.stories ∧
      (c.countGood t).desks = c.desks ∧ (c.countGood t).custody = c.custody := by
  have does := does_countGood t c
  exact ⟨does.frame .lines (by decide), does.frame .keys (by decide), does.frame .stories (by decide),
    does.frame .desks (by decide), does.frame .custody (by decide)⟩

/-- The visit once the row in hand has been answered. -/
def Visit.counted (v : Visit) : Visit := { v with rowsSent := v.rowsSent + 1, rowInHand := none }

/-- The part with the answer to a row counted. -/
def Chip.rowCounted (c : Chip) (l : LineNo) (v : Visit) : Chip :=
  (c.countGood v.terminal).onLine l fun e => { e with received := [], visit := some v.counted }

theorem rowCounted_line (c : Chip) (l : LineNo) (v : Visit) :
    (c.rowCounted l v).lines[l] = { c.lines[l] with received := [], visit := some v.counted } := by
  rw [Chip.rowCounted, onLine_self]
  simp only [countGood_fields]

theorem rowCounted_others (hm : m ≠ l) : (c.rowCounted l v).lines[m] = c.lines[m] := by
  refine (onLine_ne _ hm).trans ?_
  simp only [countGood_fields]

theorem rowCounted_screens (h : c.links[v.terminal].state ≠ .down) : (c.rowCounted l v).screens = c.screens := by
  obtain ⟨_, _, _, screens, _⟩ := setLink_fields v.terminal { state := .up, misses := 0 } c
  exact (congrArg Chip.screens (countGood_up h)).trans screens

theorem rowCounted_link (c : Chip) (l : LineNo) (v : Visit) (w : TerminalNo) :
    (c.rowCounted l v).links[w] = if v.terminal = w then { state := .up, misses := 0 } else c.links[w] :=
  countGood_link ..

theorem goodAnswer_taken (bytes : List Byte) :
    c.goodAnswer l .taken bytes v = (c.rowCounted l v).visitStep l := rfl

theorem goodAnswer_busy (bytes : List Byte) :
    c.goodAnswer l .busy bytes v = ((c.countGood v.terminal).giveRowBack v).onLine l fun e =>
      { e with received := [], visit := some v.counted }.sendPoll := rfl

/-- The links, the other lines and the key rings after a TAKEN answer. -/
theorem taken_fields (bytes : List Byte) :
    (∀ w, (c.goodAnswer l .taken bytes v).links[w] =
        if v.terminal = w then { state := .up, misses := 0 } else c.links[w]) ∧
      (∀ m : LineNo, m ≠ l → (c.goodAnswer l .taken bytes v).lines[m] = c.lines[m]) ∧
      (c.goodAnswer l .taken bytes v).keys = c.keys := by
  obtain ⟨links, keys, others⟩ := visitStep_fields l (c.rowCounted l v)
  obtain ⟨_, kept, _⟩ := countGood_fields v.terminal c
  rw [goodAnswer_taken]
  refine ⟨fun w => ?_, fun m hm => (others m hm).trans (rowCounted_others hm), keys.trans kept⟩
  simp only [links]
  exact rowCounted_link ..

theorem taken_row {bytes : List Byte} {r : Fin 24} (hdown : c.links[v.terminal].state ≠ .down)
    (hb : v.rowsSent + 1 < c.lines[l].rowBudget) (hr : c.screens[v.terminal].dirty[r] = true)
    (hlow : ∀ q : Fin 24, q < r → c.screens[v.terminal].dirty[q] = false) :
    (c.goodAnswer l .taken bytes v).lines[l].phase = .reading ∧
      (c.goodAnswer l .taken bytes v).screens[v.terminal].dirty[r] = false ∧
      (c.goodAnswer l .taken bytes v).lines[l].visit =
        some { v with rowsSent := v.rowsSent + 1, rowInHand := some r, awaited := .row } := by
  have screens := rowCounted_screens (l := l) hdown
  rw [goodAnswer_taken, visitStep_row (v := v.counted) (r := r) (by rw [rowCounted_line])
    (by rw [rowCounted_line]; exact hb) (by simp only [screens]; exact lowest_some hr hlow)]
  refine ⟨by rw [onLine_self], ?_, by rw [onLine_self]; rfl⟩
  have e : ((c.rowCounted l v).clearRow v.terminal r).screens[v.terminal].dirty[r] = false := by
    simp only [clearRow_screen, if_true, setRow_dirty]
  exact e

theorem taken_poll {bytes : List Byte} (hdown : c.links[v.terminal].state ≠ .down)
    (h : c.lines[l].rowBudget ≤ v.rowsSent + 1 ∨ ∀ q : Fin 24, c.screens[v.terminal].dirty[q] = false) :
    (c.goodAnswer l .taken bytes v).lines[l].phase = .sending ∧
      (c.goodAnswer l .taken bytes v).lines[l].message = some .poll ∧
      (c.goodAnswer l .taken bytes v).screens = c.screens ∧
      (c.goodAnswer l .taken bytes v).lines[l].visit =
        some { v with rowsSent := v.rowsSent + 1, rowInHand := none, awaited := .poll } := by
  have screens := rowCounted_screens (l := l) hdown
  rw [goodAnswer_taken, visitStep_poll (v := v.counted) (by rw [rowCounted_line]) (by
    rw [rowCounted_line]
    simp only [screens]
    exact h.imp id lowest_none), onLine_self, rowCounted_line]
  exact ⟨rfl, rfl, screens, rfl⟩

theorem busy_effect {bytes : List Byte} :
    (∀ w, (c.goodAnswer l .busy bytes v).links[w] =
        if v.terminal = w then { state := .up, misses := 0 } else c.links[w]) ∧
      (∀ m : LineNo, m ≠ l → (c.goodAnswer l .busy bytes v).lines[m] = c.lines[m]) ∧
      (c.goodAnswer l .busy bytes v).keys = c.keys ∧ (c.goodAnswer l .busy bytes v).lines[l].phase = .sending ∧
      (c.goodAnswer l .busy bytes v).lines[l].message = some .poll ∧
      (c.goodAnswer l .busy bytes v).lines[l].visit =
        some { v with rowsSent := v.rowsSent + 1, rowInHand := none, awaited := .poll } ∧
      ∀ r, v.rowInHand = some r → (c.goodAnswer l .busy bytes v).screens[v.terminal].dirty[r] = true := by
  obtain ⟨lines, links, _, keys, _⟩ := giveRowBack_fields v (c.countGood v.terminal)
  obtain ⟨goodLines, goodKeys, _⟩ := countGood_fields v.terminal c
  rw [goodAnswer_busy]
  refine ⟨fun w => ?_, fun m hm => (onLine_ne _ hm).trans ?_, keys.trans goodKeys, by rw [onLine_self]; rfl,
    by rw [onLine_self]; rfl, by rw [onLine_self]; rfl, fun r hr => giveRowBack_marks hr⟩
  · simp only [onLine_fields, links]
    exact countGood_link ..
  · simp only [lines, goodLines]

/-- A complete good answer as a line byte. -/
theorem lineByte_good {k : AnswerKind} {x y : Byte} {rest : List Byte} (hp : c.lines[l].phase = .awaiting)
    (hv : c.lines[l].visit = some v) (hrec : c.lines[l].received = x :: y :: rest)
    (hcomplete : reception ((x :: y :: rest) ++ [b]) = .complete k)
    (hb : b = (x :: y :: rest).foldl (· + ·) 0) (hy : y = BitVec.ofNat 8 (v.terminal.val % 8))
    (hk : k.answers = v.awaited) : c.lineByte l b = c.goodAnswer l k (c.answerBytes l b) v := by
  have bytes : c.answerBytes l b = (x :: y :: rest) ++ [b] := by rw [Chip.answerBytes, hrec]
  rw [lineByte_complete hp (by rw [bytes]; exact hcomplete)]
  refine judge_good hv ?_
  rw [bytes]
  exact answerGood_iff.mpr ⟨hb, hy, hk⟩

/-- Settles O38, by what a good TAKEN and a good BUSY answer leave. -/
theorem rowAnswersAdvanceTheVisit : Obligations.RowAnswersAdvanceTheVisit := by
  intro s l v b hr hp hv hawaited hdown
  obtain ⟨hexec, htaken, hbusy, _⟩ := exec_lineByte l b s
  refine ⟨fun hrec hb => ?_, fun hrec hb => ?_⟩
  · have hgood : s.chip.lineByte l b = s.chip.goodAnswer l .taken (s.chip.answerBytes l b) v :=
      lineByte_good hp hv hrec (reception_short (k := .taken) rfl nofun _ _) (by rw [hb]; simp) rfl hawaited.symm
    obtain ⟨links, others, keys⟩ := taken_fields (c := s.chip) (l := l) (v := v) (s.chip.answerBytes l b)
    have hstep : exec (.takenAnswer l b) s =
        .next (s.withChip (s.chip.goodAnswer l .taken (s.chip.answerBytes l b) v)) :=
      ((htaken.trans hexec).trans (chipEvent_released hr)).trans (by rw [hgood])
    exact ⟨_, hstep, (links _).trans (if_pos rfl), fun w hw => (links w).trans (if_neg hw.symm), others, keys,
      fun r hb hr hlow => taken_row (bytes := s.chip.answerBytes l b) hdown hb hr hlow,
      fun h => taken_poll (bytes := s.chip.answerBytes l b) hdown h⟩
  · have hgood : s.chip.lineByte l b = s.chip.goodAnswer l .busy (s.chip.answerBytes l b) v :=
      lineByte_good hp hv hrec (reception_short (k := .busy) rfl nofun _ _) (by rw [hb]; simp) rfl hawaited.symm
    obtain ⟨links, others, keys, phase, message, visit, dirty⟩ :=
      busy_effect (c := s.chip) (l := l) (v := v) (bytes := s.chip.answerBytes l b)
    have hstep : exec (.busyAnswer l b) s =
        .next (s.withChip (s.chip.goodAnswer l .busy (s.chip.answerBytes l b) v)) :=
      ((hbusy.trans hexec).trans (chipEvent_released hr)).trans (by rw [hgood])
    exact ⟨_, hstep, (links _).trans (if_pos rfl), fun w hw => (links w).trans (if_neg hw.symm), others, keys, phase,
      message, visit, dirty⟩

/-! ## Misses (R42 to R44) -/

theorem enter_dirty (n : Notice) (x : Screen) : (x.enter n).dirty = x.dirty := by
  unfold Screen.enter
  split
  · rfl
  · split <;> rfl

theorem countMiss_dirty (t w : TerminalNo) (c : Chip) : (c.countMiss t).screens[w].dirty = c.screens[w].dirty := by
  obtain ⟨_, _, _, screens, _⟩ := setLink_fields t c.links[t].miss c
  unfold Chip.countMiss
  dsimp only
  split
  · unfold Chip.enterDown
    dsimp only
    split
    · rw [post_screens]
      split
      · simp only [enter_dirty, raise_fields, screens]
      · simp only [raise_fields, screens]
    · simp only [raise_fields, screens]
  · simp only [screens]

theorem countMiss_fields (t : TerminalNo) (c : Chip) :
    (c.countMiss t).lines = c.lines ∧ (c.countMiss t).keys = c.keys := by
  have does := does_countMiss t c
  exact ⟨does.frame .lines (by decide), does.frame .keys (by decide)⟩

theorem missed_eq (hv : c.lines[l].visit = some v) :
    c.missed l = ((c.giveRowBack v).countMiss v.terminal).onLine l fun e =>
      { e.dropExchange with phase := .quieting, afterQuiet := .nextAddress } := by
  simp only [Chip.missed, hv]

theorem missed_ends (hv : c.lines[l].visit = some v) : c.MissEnds l v (c.missed l) := by
  obtain ⟨lines, links, _, keys, _⟩ := giveRowBack_fields v c
  obtain ⟨missLines, missKeys⟩ := countMiss_fields v.terminal (c.giveRowBack v)
  rw [missed_eq hv]
  refine ⟨?_, fun w hw => ?_, ?_, fun m hm => (onLine_ne _ hm).trans ?_, missKeys.trans keys, fun r hr => ?_⟩
  · simp only [onLine_fields, countMiss_link, links, if_true]
  · simp only [onLine_fields, countMiss_link, links, if_neg hw.symm]
  · simp only [onLine_self, missLines, lines]
    rfl
  · simp only [missLines, lines]
  · simp only [onLine_fields, countMiss_dirty]
    exact giveRowBack_marks hr

theorem windowExpiry_eq (hp : c.lines[l].phase = .awaiting) (hv : c.lines[l].visit = some v) :
    c.windowExpiry l = (c.missed l).nextAddress l := by
  obtain ⟨_, _, line, _⟩ := missed_ends hv
  unfold Chip.windowExpiry
  rw [if_pos ⟨hp, by rw [hv]; rfl⟩]
  simp only [Chip.afterQuiet, line]

theorem quietExpiry_eq (hp : c.lines[l].phase = .quieting) : c.quietExpiry l = c.afterQuiet l := if_pos hp

theorem exec_answerWindowExpiry (l : LineNo) (s : State) :
    exec (.answerWindowExpiry l) s = chipEvent (Chip.windowExpiry l) s := rfl

theorem exec_quietWindowExpiry (l : LineNo) (s : State) :
    exec (.quietWindowExpiry l) s = chipEvent (Chip.quietExpiry l) s := rfl

/-- A complete answer that fails a check of R43 is a miss. -/
theorem lineByte_failed {k : AnswerKind} {x y : Byte} {rest : List Byte} (hp : c.lines[l].phase = .awaiting)
    (hv : c.lines[l].visit = some v) (hrec : c.lines[l].received = x :: y :: rest)
    (hcomplete : reception ((x :: y :: rest) ++ [b]) = .complete k)
    (hbad : b ≠ (x :: y :: rest).foldl (· + ·) 0 ∨ y ≠ BitVec.ofNat 8 (v.terminal.val % 8) ∨ k.answers ≠ v.awaited) :
    c.lineByte l b = c.missed l := by
  have bytes : c.answerBytes l b = (x :: y :: rest) ++ [b] := by rw [Chip.answerBytes, hrec]
  rw [lineByte_complete hp (by rw [bytes]; exact hcomplete)]
  refine judge_bad hv ?_
  rw [bytes, ← Bool.not_eq_true, answerGood_iff]
  rintro ⟨hb, hy, hk⟩
  rcases hbad with h | h | h
  · exact h hb
  · exact h hy
  · exact h hk

/-- A complete answer, by its kind byte. -/
theorem complete_cases {k x : Byte} {rest : List Byte}
    (h : (k = 0x22 ∨ k = 0x23 ∨ k = 0x24) ∧ rest = [] ∨
      k = 0x21 ∧ ∃ n codes, rest = n :: codes ∧ 1 ≤ n.toNat ∧ n.toNat ≤ 8 ∧ codes.length = n.toNat) :
    ∃ kind, reception ((k :: x :: rest) ++ [b]) = .complete kind ∧
      (k = 0x21 ∨ k = 0x22 → kind.answers = .poll) ∧ (k = 0x23 ∨ k = 0x24 → kind.answers = .row) := by
  rcases h with ⟨h | h | h, rfl⟩ | ⟨h, n, codes, rfl, hlo, hhi, hlen⟩
  · subst h
    exact ⟨.quiet, reception_short (k := .quiet) rfl nofun _ _, fun _ => rfl, fun h => absurd h (by decide)⟩
  · subst h
    exact ⟨.taken, reception_short (k := .taken) rfl nofun _ _, fun h => absurd h (by decide), fun _ => rfl⟩
  · subst h
    exact ⟨.busy, reception_short (k := .busy) rfl nofun _ _, fun h => absurd h (by decide), fun _ => rfl⟩
  · subst h
    refine ⟨.keys, ?_, fun _ => rfl, fun h => absurd h (by decide)⟩
    rw [List.cons_append, List.cons_append, List.cons_append, reception_keys, if_pos (countValid_iff.mpr ⟨hlo, hhi⟩)]
    exact if_pos (by simp [hlen])

/-- The bytes that do not yet complete an answer (R41). -/
theorem reception_incomplete
    (h : c.lines[l].received = [] ∧ (b = 0x21 ∨ b = 0x22 ∨ b = 0x23 ∨ b = 0x24) ∨
      (∃ k, c.lines[l].received = [k] ∧ (k = 0x21 ∨ k = 0x22 ∨ k = 0x23 ∨ k = 0x24)) ∨
      ((∃ x, c.lines[l].received = [0x21, x]) ∧ 1 ≤ b.toNat ∧ b.toNat ≤ 8) ∨
      (∃ x n codes, c.lines[l].received = 0x21 :: x :: n :: codes ∧ 1 ≤ n.toNat ∧ n.toNat ≤ 8 ∧
        codes.length < n.toNat)) : reception (c.answerBytes l b) = .more := by
  unfold Chip.answerBytes
  rcases h with ⟨hrec, hb⟩ | ⟨k, hrec, hk⟩ | ⟨⟨x, hrec⟩, hb⟩ | ⟨x, n, codes, hrec, hlo, hhi, hlen⟩
  · obtain ⟨kind, hkind⟩ := answerKind_some hb
    rw [hrec]
    exact reception_begun hkind
  · obtain ⟨kind, hkind⟩ := answerKind_some hk
    rw [hrec]
    exact reception_second hkind b
  · rw [hrec]
    refine (reception_keys []).trans ((if_pos (countValid_iff.mpr hb)).trans (if_neg ?_))
    rw [List.length_nil]
    omega
  · rw [hrec]
    refine (reception_keys (codes ++ [b])).trans ((if_pos (countValid_iff.mpr ⟨hlo, hhi⟩)).trans (if_neg ?_))
    rw [List.length_append, List.length_singleton]
    omega

/-- A bad kind byte or KEYS count. -/
theorem reception_badByte
    (h : c.lines[l].received = [] ∧ b ≠ 0x21 ∧ b ≠ 0x22 ∧ b ≠ 0x23 ∧ b ≠ 0x24 ∨
      (∃ x, c.lines[l].received = [0x21, x]) ∧ (b.toNat = 0 ∨ 8 < b.toNat)) :
    reception (c.answerBytes l b) = .bad := by
  unfold Chip.answerBytes
  rcases h with ⟨hrec, h1, h2, h3, h4⟩ | ⟨⟨x, hrec⟩, hb⟩
  · rw [hrec]
    exact reception_badKind (answerKind_none h1 h2 h3 h4) []
  · rw [hrec]
    refine (reception_keys []).trans (if_neg ?_)
    rw [countValid_iff]
    omega

theorem withChip_self (s : State) : s.withChip s.chip = s := rfl

theorem afterQuiet_next (h : c.lines[l].afterQuiet = .nextAddress) : c.afterQuiet l = c.nextAddress l := by
  simp only [Chip.afterQuiet, h]

theorem afterQuiet_test (h : c.lines[l].afterQuiet = .testLine) : c.afterQuiet l = c.testLine l := by
  simp only [Chip.afterQuiet, h]

theorem afterQuiet_new (h : c.lines[l].afterQuiet = .newSweep) : c.afterQuiet l = c.newSweep l := by
  simp only [Chip.afterQuiet, h]

/-- What follows the quiet wait after a cut (R55, R56). -/
theorem afterQuiet_cut {first : Nat}
    (h : c.lines[l].afterQuiet = .testLine ∧ first = c.lines[l].position.val + 1 ∨
      c.lines[l].afterQuiet = .newSweep ∧ first = 0) :
    ((∀ a : Fin 8, c.links[terminalOf l a].state = .off) →
      c.afterQuiet l = c.onLine l fun e => { e with position := 0, phase := .idle }) ∧
      ∀ a k, c.SweepComesTo l first c.lines[l].sweepCounter a k →
        c.VisitBegins l a k (c.afterQuiet l) ∧ (c.afterQuiet l).lines[l].sweepCounter = c.lines[l].sweepCounter := by
  rcases h with ⟨h, rfl⟩ | ⟨h, rfl⟩
  · rw [afterQuiet_test h]
    refine ⟨testLine_idle, fun a k hcome => ?_⟩
    rw [testLine_goesOn ⟨a, sweepComesTo_enabled hcome⟩]
    exact (nextAddress_goesOn c l _ rfl).1 a k hcome
  · rw [afterQuiet_new h]
    refine ⟨newSweep_idle, fun a k hcome => ?_⟩
    rw [newSweep_visits hcome]
    exact steered_begins _ _ (sweepComesTo_enabled hcome)

/-- Settles O40: what the bytes amount to, and what a miss and the quiet window's end leave. -/
theorem missesEndTheVisit : Obligations.MissesEndTheVisit := by
  intro s l hr
  have line : ∀ {b : Byte} {d : Chip}, s.chip.lineByte l b = d →
      exec (.lineByteReceived l b) s = .next (s.withChip d) := fun {b d} h =>
    ((exec_lineByte l b s).1.trans (chipEvent_released hr)).trans (by rw [h])
  refine ⟨fun b => (exec_lineByte l b s).2, fun v b hp hv => ⟨fun hbad => ?_, fun k x rest hrec hkind hbad => ?_⟩,
    fun b hp hmore => ?_, fun b hp => ?_, fun v hp hv => ?_, fun hp hafter => ?_, fun first hp hafter => ?_⟩
  · have same := (exec_lineByte l b s).2.2.2.2.2
    exact ⟨_, same.trans (line (lineByte_bad hp (reception_badByte hbad))), rfl, missed_ends hv⟩
  · obtain ⟨kind, hcomplete, hpoll, hrow⟩ := complete_cases (b := b) (x := x) hkind
    refine ⟨_, line (lineByte_failed hp hv hrec hcomplete ?_), rfl, missed_ends hv⟩
    rcases hbad with h | h | ⟨hm, h⟩ | ⟨hm, h⟩
    · exact Or.inl (hrec ▸ h)
    · exact Or.inr (Or.inl h)
    · exact Or.inr (Or.inr (by rw [hpoll h, hm]; nofun))
    · exact Or.inr (Or.inr (by rw [hrow h, hm]; nofun))
  · exact ⟨_, line (lineByte_more hp (reception_incomplete hmore)), rfl, rfl, onLine_self .., fun m hm => onLine_ne _ hm⟩
  · exact line (lineByte_idle hp)
  · obtain ⟨self, others, mline, lines, keys, _⟩ := missed_ends hv
    have sweeps := nextAddress_sweeps (s.chip.missed l) l
    have position : (s.chip.missed l).lines[l].position = s.chip.lines[l].position := by rw [mline]
    have hexec : exec (.answerWindowExpiry l) s = .next (s.withChip ((s.chip.missed l).nextAddress l)) :=
      ((exec_answerWindowExpiry l s).trans (chipEvent_released hr)).trans (by rw [windowExpiry_eq hp hv])
    refine ⟨_, hexec, rfl,
      ?_, fun w hw => ?_, fun m hm => (sweeps.others m hm).trans (lines m hm), ?_, fun a ha => ?_⟩
    · simp only [State.withChip, sweeps.links, self]
    · simp only [State.withChip, sweeps.links, others w hw]
    · exact (congrArg Chip.keys sweeps.rest).trans keys
    · rw [← position] at ha
      exact nextAddress_visitsFully ha
  · have sweeps := nextAddress_sweeps s.chip l
    have hexec : exec (.quietWindowExpiry l) s = .next (s.withChip (s.chip.nextAddress l)) :=
      ((exec_quietWindowExpiry l s).trans (chipEvent_released hr)).trans
        (by rw [quietExpiry_eq hp, afterQuiet_next hafter])
    exact ⟨_, hexec, rfl, sweeps.links, sweeps.others, fun a ha => nextAddress_visitsFully ha⟩
  · obtain ⟨idles, visits⟩ := afterQuiet_cut hafter
    have hexec : exec (.quietWindowExpiry l) s = .next (s.withChip (s.chip.afterQuiet l)) :=
      ((exec_quietWindowExpiry l s).trans (chipEvent_released hr)).trans (by rw [quietExpiry_eq hp])
    refine ⟨fun hoff => ?_, fun a k hcome => ⟨_, hexec, rfl, visits a k hcome⟩⟩
    rw [idles hoff] at hexec
    exact ⟨_, hexec, rfl, rfl, onLine_self .., fun m hm => onLine_ne _ hm⟩

end

end Sys2Proof.Machine
end

section
/-! SUPPORT. Good answers to a POLL: the key codes of a KEYS answer and what it re-arms (R48, R49, R75, R77, R78;
O39). -/

namespace Sys2Proof.Machine

section
variable {c d : Chip} {s : State} {l m : LineNo} {t u w : TerminalNo} {v : Visit} {b : Byte} {k : KeyRing}

/-! ## One key code into a ring (R75) -/

theorem takeCode_pending (h : k.functionPending.isSome = true) : k.takeCode b = k := if_pos h

theorem takeCode_full (h : k.functionPending = none) (hfull : 63 ≤ k.unread + k.waiting.length) :
    k.takeCode b = { k with overrun := true } := by
  unfold KeyRing.takeCode
  have full : k.full = true := decide_eq_true hfull
  rw [if_neg (by simp [h]), if_pos full]

theorem takeCode_room (h : k.functionPending = none) (hroom : k.unread + k.waiting.length < 63) :
    k.takeCode b = { k with
      waiting := k.waiting ++ [b]
      functionPending := if isFunctionKey b then some k.nextPosition else none } := by
  unfold KeyRing.takeCode
  rw [if_neg (by simp [h]), if_neg (by simp [KeyRing.full, hroom])]

theorem isFunctionKey_iff (h : b ≠ 0xF0) : isFunctionKey b = true ↔ 128 ≤ b.toNat := by
  have hb : b ≠ ackKey := h
  simp [isFunctionKey, hb]

theorem nextPosition_eq (k : KeyRing) : k.nextPosition = Fin.ofNat 64 (k.put.val + k.waiting.length) := by
  apply Fin.ext
  simp [KeyRing.nextPosition, Fin.val_add]

/-- R75: the table of a code other than the ACK key. -/
theorem takeCode_table {unread : Nat} (hb : b ≠ 0xF0) (hu : unread = (k.put.val + 64 - k.take.val) % 64) :
    (k.functionPending.isSome = true → k.takeCode b = k) ∧
    (k.functionPending = none → 63 ≤ unread + k.waiting.length → k.takeCode b = { k with overrun := true }) ∧
    (k.functionPending = none → unread + k.waiting.length < 63 →
      (b.toNat < 128 → k.takeCode b = { k with waiting := k.waiting ++ [b] }) ∧
      (128 ≤ b.toNat → k.takeCode b = { k with
        waiting := k.waiting ++ [b], functionPending := some (Fin.ofNat 64 (k.put.val + k.waiting.length)) })) := by
  rw [← unread_eq] at hu
  subst hu
  refine ⟨takeCode_pending, takeCode_full, fun h hroom => ⟨fun htext => ?_, fun hfunction => ?_⟩⟩
  · rw [takeCode_room h hroom, if_neg (by rw [isFunctionKey_iff hb]; omega), h]
  · rw [takeCode_room h hroom, if_pos ((isFunctionKey_iff hb).mpr hfunction), nextPosition_eq]

/-! ## The codes of a KEYS answer -/

/-- R63: an acknowledgement takes the head off the terminal's queue. -/
theorem acknowledge_queue (c : Chip) (t w : TerminalNo) :
    (c.acknowledge t).screens[w].queue = if t = w then c.screens[w].queue.tail else c.screens[w].queue := by
  by_cases h : c.screens[t].queue = []
  · rw [Chip.acknowledge, if_pos h]
    split
    · next e => rw [← e, h, List.tail_nil]
    · rfl
  · rw [acknowledge_screens h]
    split <;> rfl

theorem acknowledge_keys (c : Chip) (t : TerminalNo) : (c.acknowledge t).keys = c.keys :=
  (does_acknowledge t c).frame .keys (by decide)

theorem takeCode_ack (c : Chip) (t : TerminalNo) : c.takeCode t 0xF0 = c.acknowledge t := if_pos rfl

theorem takeCode_key (t : TerminalNo) (h : b ≠ 0xF0) (c : Chip) : c.takeCode t b = c.onKeys t (·.takeCode b) := if_neg h

/-- A chip whose terminal `t` has taken the key codes `codes`. -/
structure Chip.CodesTaken (t : TerminalNo) (codes : List Byte) (c d : Chip) : Prop where
  ring : d.keys[t] = (codes.filter (· ≠ 0xF0)).foldl (fun k b => k.takeCode b) c.keys[t]
  others : ∀ w : TerminalNo, w ≠ t → d.keys[w] = c.keys[w] ∧ d.screens[w].queue = c.screens[w].queue
  queue : d.screens[t].queue = c.screens[t].queue.drop (codes.count 0xF0)

/-- R63, R75: the codes of an answer, taken in order. -/
theorem foldl_takeCode (t : TerminalNo) (codes : List Byte) :
    ∀ c : Chip, Chip.CodesTaken t codes c (codes.foldl (Chip.takeCode t) c) := by
  induction codes with
  | nil => exact fun c => ⟨rfl, fun _ _ => ⟨rfl, rfl⟩, rfl⟩
  | cons b codes ih =>
    intro c
    obtain ⟨ring, others, queue⟩ := ih (c.takeCode t b)
    rcases Decidable.em (b = 0xF0) with hb | hb
    · subst hb
      rw [takeCode_ack] at ring others queue
      simp only [acknowledge_keys, acknowledge_queue, if_true] at ring others queue
      refine ⟨ring, fun w hw => ?_, ?_⟩
      · obtain ⟨hkeys, hqueue⟩ := others w hw
        exact ⟨hkeys, hqueue.trans (if_neg hw.symm)⟩
      · rw [List.count_cons_self, ← List.drop_tail, List.foldl_cons, takeCode_ack]
        exact queue
    · rw [takeCode_key t hb] at ring others queue
      simp only [onKeys_ring, if_true] at ring others queue
      refine ⟨?_, fun w hw => ?_, ?_⟩
      · rw [List.filter_cons_of_pos (p := fun x => decide (x ≠ 0xF0)) (decide_eq_true hb), List.foldl_cons, List.foldl_cons, takeCode_key t hb]
        exact ring
      · obtain ⟨hkeys, hqueue⟩ := others w hw
        rw [List.foldl_cons, takeCode_key t hb]
        exact ⟨hkeys.trans (if_neg hw.symm), hqueue⟩
      · rw [List.count_cons_of_ne hb, List.foldl_cons, takeCode_key t hb]
        exact queue

/-! ## What a KEYS answer makes pending (R78) -/

theorem pendKey_keeps {i j : KeyItem} (h : j ∈ c.keyWriter.pending) : j ∈ (c.pendKey i).keyWriter.pending := by
  unfold Chip.pendKey
  cases i
  case keyWords t =>
    dsimp only [Chip.onKeyWriter]
    split
    · exact h
    · exact (mem_joinOnce ..).mpr (Or.inl h)
  all_goals exact (mem_joinOnce ..).mpr (Or.inl h)

theorem pendKey_joins {i : KeyItem} (h : ∀ t, i ≠ .keyWords t) : i ∈ (c.pendKey i).keyWriter.pending := by
  rw [pendKey_pending c i h]
  exact (mem_joinOnce ..).mpr (Or.inr rfl)

theorem pendKey_words (h : c.keyWriter.writing ≠ some (.keyWords t)) :
    .keyWords t ∈ (c.pendKey (.keyWords t)).keyWriter.pending := by
  simp only [Chip.pendKey, Chip.onKeyWriter, if_neg h]
  exact (mem_joinOnce ..).mpr (Or.inr rfl)

theorem pendKey_writing (c : Chip) (i : KeyItem) : (c.pendKey i).keyWriter.writing = c.keyWriter.writing := by
  unfold Chip.pendKey
  cases i
  case keyWords t =>
    dsimp only [Chip.onKeyWriter]
    split <;> rfl
  all_goals rfl

/-! ## The leases a KEYS answer re-arms (R77, R97) -/

/-- R97: a story whose lease, if it has one, is re-armed with the idle limit of its desk. -/
def Story.rearmed (desks : Vector Desk 16) (x : Story) : Story :=
  { x with lease := x.lease.map fun _ => { remaining := desks[x.desk].idleLimit, warned := false } }

theorem rearmed_rearmed (desks : Vector Desk 16) (x : Story) : (x.rearmed desks).rearmed desks = x.rearmed desks := by
  cases hx : x.lease <;> simp [Story.rearmed, hx]

theorem stories_rearm (c : Chip) (n m : StoryNo) :
    (c.rearm n).stories[m] = if n = m then c.stories[m].rearmed c.desks else c.stories[m] := by
  refine (update_apply ..).trans ?_
  by_cases h : n = m
  · rw [if_pos h, if_pos h, h]; rfl
  · rw [if_neg h, if_neg h]

theorem foldl_rearm (held : List StoryNo) : ∀ (c : Chip) (n : StoryNo),
    (held.foldl (fun c s => c.rearm s) c).stories[n] =
      if n ∈ held then c.stories[n].rearmed c.desks else c.stories[n] := by
  induction held with
  | nil => exact fun c n => rfl
  | cons m held ih =>
    intro c n
    have desks : (c.rearm m).desks = c.desks := rfl
    rw [List.foldl_cons, ih, stories_rearm, desks]
    by_cases hm : m = n
    · simp only [hm, if_true, List.mem_cons, true_or, rearmed_rearmed, ite_self]
    · simp only [hm, if_false, List.mem_cons, Ne.symm hm, false_or]

theorem rearmHeld_story (c : Chip) (t : TerminalNo) (n : StoryNo) :
    (c.rearmHeld t).stories[n] =
      if n ∈ c.custody.held[t] then c.stories[n].rearmed c.desks else c.stories[n] :=
  foldl_rearm _ c n

/-! ## A KEYS answer handed over (R75, R77) -/

/-- The part with the key codes taken and the writes they ask for pending. -/
def Chip.codesPended (c : Chip) (t : TerminalNo) (codes : List Byte) : Chip :=
  let d := codes.foldl (Chip.takeCode t) c
  let d := if d.keys[t].flags = c.keys[t].flags then d else d.pendKey (.keyState t)
  if d.keys[t].waiting.length = c.keys[t].waiting.length then d else d.pendKey (.keyWords t)

theorem keysAnswer_eq (c : Chip) (t : TerminalNo) (codes : List Byte) :
    c.keysAnswer t codes = (c.codesPended t codes).rearmHeld t := rfl

theorem codesPended_rest (c : Chip) (t : TerminalNo) (codes : List Byte) :
    c.codesPended t codes =
      { codes.foldl (Chip.takeCode t) c with keyWriter := (c.codesPended t codes).keyWriter } := by
  unfold Chip.codesPended
  dsimp only
  split <;> split <;> rfl

/-- The flags of the key state word, or a key mark, changed by an answer (R78). -/
theorem codesPended_keyState {codes : List Byte}
    (h : (codes.foldl (Chip.takeCode t) c).keys[t].flags ≠ c.keys[t].flags) :
    .keyState t ∈ (c.codesPended t codes).keyWriter.pending := by
  unfold Chip.codesPended
  dsimp only
  rw [if_neg h]
  have joined : KeyItem.keyState t ∈ ((codes.foldl (Chip.takeCode t) c).pendKey (.keyState t)).keyWriter.pending :=
    pendKey_joins (by simp)
  split
  · exact joined
  · exact pendKey_keeps joined

theorem codesPended_keyWords {codes : List Byte} (hw : c.keyWriter.writing ≠ some (.keyWords t))
    (h : (codes.foldl (Chip.takeCode t) c).keys[t].waiting.length ≠ c.keys[t].waiting.length) :
    .keyWords t ∈ (c.codesPended t codes).keyWriter.pending := by
  have writer : (codes.foldl (Chip.takeCode t) c).keyWriter = c.keyWriter :=
    (Chip.Does.foldl (Chip.takeCode t) (does_takeCode t) codes c).frame .keyWriter (by decide)
  unfold Chip.codesPended
  dsimp only
  split
  · exact pendKey_words (by rw [writer]; exact hw)
  · rw [if_neg (by simpa only [pendKey_fields] using h)]
    exact pendKey_words (by rw [pendKey_writing, writer]; exact hw)

/-- The links, lines, stories, desks, holders and key writer once the codes are taken. -/
theorem foldl_takeCode_fields (t : TerminalNo) (codes : List Byte) (c : Chip) :
    (codes.foldl (Chip.takeCode t) c).links = c.links ∧ (codes.foldl (Chip.takeCode t) c).lines = c.lines ∧
      (codes.foldl (Chip.takeCode t) c).stories = c.stories ∧ (codes.foldl (Chip.takeCode t) c).desks = c.desks ∧
      (codes.foldl (Chip.takeCode t) c).custody = c.custody := by
  have does := Chip.Does.foldl (Chip.takeCode t) (does_takeCode t) codes c
  exact ⟨does.frame .links (by decide), does.frame .lines (by decide), does.frame .stories (by decide),
    does.frame .desks (by decide), does.frame .custody (by decide)⟩

theorem codesPended_fields (c : Chip) (t : TerminalNo) (codes : List Byte) :
    (c.codesPended t codes).keys = (codes.foldl (Chip.takeCode t) c).keys ∧
      (c.codesPended t codes).screens = (codes.foldl (Chip.takeCode t) c).screens ∧
      (c.codesPended t codes).links = c.links ∧ (c.codesPended t codes).lines = c.lines ∧
      (c.codesPended t codes).stories = c.stories ∧ (c.codesPended t codes).desks = c.desks ∧
      (c.codesPended t codes).custody = c.custody := by
  have fields := foldl_takeCode_fields t codes c
  rw [codesPended_rest]
  exact ⟨rfl, rfl, fields⟩

/-- R75, R77, R78: the rings, queues, leases and pending writes a KEYS answer leaves. -/
structure Chip.KeysTaken (t : TerminalNo) (codes : List Byte) (c d : Chip) : Prop where
  taken : Chip.CodesTaken t codes c d
  story : ∀ n : StoryNo, d.stories[n] = if n ∈ c.custody.held[t] then c.stories[n].rearmed c.desks else c.stories[n]
  words : d.keys[t].waiting.length ≠ c.keys[t].waiting.length → c.keyWriter.writing ≠ some (.keyWords t) →
    .keyWords t ∈ d.keyWriter.pending
  state : d.keys[t].overrun ≠ c.keys[t].overrun ∨ d.keys[t].functionPending ≠ c.keys[t].functionPending →
    .keyState t ∈ d.keyWriter.pending

theorem keysAnswer_fields (t : TerminalNo) (codes : List Byte) (c : Chip) :
    (c.keysAnswer t codes).keys = (codes.foldl (Chip.takeCode t) c).keys ∧
      (c.keysAnswer t codes).screens = (codes.foldl (Chip.takeCode t) c).screens ∧
      (c.keysAnswer t codes).keyWriter = (c.codesPended t codes).keyWriter ∧
      (c.keysAnswer t codes).links = c.links ∧ (c.keysAnswer t codes).lines = c.lines := by
  obtain ⟨keys, screens, links, lines, _⟩ := codesPended_fields c t codes
  have does := does_rearmHeld t (c.codesPended t codes)
  rw [keysAnswer_eq]
  exact ⟨(does.frame .keys (by decide)).trans keys, (does.frame .screens (by decide)).trans screens,
    does.frame .keyWriter (by decide), (does.frame .links (by decide)).trans links,
    (does.frame .lines (by decide)).trans lines⟩

theorem keysAnswer_taken (t : TerminalNo) (codes : List Byte) (c : Chip) :
    Chip.KeysTaken t codes c (c.keysAnswer t codes) := by
  obtain ⟨ring, others, heads⟩ := foldl_takeCode t codes c
  obtain ⟨_, _, _, _, stories, desks, custody⟩ := codesPended_fields c t codes
  obtain ⟨keys, screens, writer, _⟩ := keysAnswer_fields t codes c
  refine ⟨⟨?_, fun w hw => ?_, ?_⟩, fun n => ?_, fun hlength hwriting => ?_, fun hflags => ?_⟩
  · simp only [keys, ring]
  · simp only [keys, screens]
    exact others w hw
  · simp only [screens, heads]
  · rw [keysAnswer_eq, rearmHeld_story]
    simp only [stories, desks, custody]
  · rw [writer]
    simp only [keys] at hlength
    exact codesPended_keyWords hwriting hlength
  · rw [writer]
    simp only [keys] at hflags
    refine codesPended_keyState fun h => ?_
    simp only [KeyRing.flags, Prod.mk.injEq] at h
    exact hflags.elim (fun ho => ho h.1) fun hf => hf h.2

/-! ## The end of a visit by a POLL's answer (R48, R49) -/

/-- A good answer changes no notice queue and does not disturb the key item being written. -/
theorem countGood_keeps (t : TerminalNo) (c : Chip) :
    (∀ w : TerminalNo, (c.countGood t).screens[w].queue = c.screens[w].queue) ∧
      (c.countGood t).keyWriter.writing = c.keyWriter.writing := by
  obtain ⟨_, _, _, screens, _⟩ := setLink_fields t { state := .up, misses := 0 } c
  have writing : (c.setLink t { state := .up, misses := 0 }).keyWriter.writing = c.keyWriter.writing := by
    unfold Chip.setLink
    split
    · rfl
    · exact pendKey_writing ..
  by_cases h : c.links[t].state = .down
  · rw [countGood_down h]
    simp only [raise_fields]
    refine ⟨fun w => ?_, writing⟩
    rw [markAllRows_screen]
    split <;> simp only [screens]
  · rw [countGood_up h]
    exact ⟨fun w => by simp only [screens], writing⟩

/-- A good answer counted first does not change what a KEYS answer is taken from. -/
theorem Chip.KeysTaken.counted {codes : List Byte} (h : Chip.KeysTaken t codes (c.countGood t) d) :
    Chip.KeysTaken t codes c d := by
  obtain ⟨_, keys, stories, desks, custody⟩ := countGood_fields t c
  obtain ⟨queue, writing⟩ := countGood_keeps t c
  obtain ⟨⟨ring, others, heads⟩, story, words, state⟩ := h
  simp only [keys, stories, desks, custody, queue, writing] at ring others heads story words state
  exact ⟨⟨ring, others, heads⟩, story, words, state⟩

theorem Chip.Sweeps.same {e : Chip} (h : Chip.Sweeps l d e) :
    e.keys = d.keys ∧ e.stories = d.stories ∧ e.keyWriter = d.keyWriter := by
  have keys := congrArg Chip.keys h.rest
  have stories := congrArg Chip.stories h.rest
  have writer := congrArg Chip.keyWriter h.rest
  exact ⟨keys, stories, writer⟩

/-- What a KEYS answer leaves stays while its line's sweep goes on. -/
theorem Chip.KeysTaken.swept {codes : List Byte} {e : Chip} (h : Chip.KeysTaken t codes c d) (sweeps : Chip.Sweeps l d e) :
    Chip.KeysTaken t codes c e := by
  obtain ⟨keys, stories, writer⟩ := sweeps.same
  obtain ⟨⟨ring, others, heads⟩, story, words, state⟩ := h
  simp only [← keys, ← sweeps.queue, ← stories, ← writer] at ring others heads story words state
  exact ⟨⟨ring, others, heads⟩, story, words, state⟩

/-- The links, the other lines and the next full visit once a visit has ended without a miss (R49). -/
theorem endVisit_effect (l : LineNo) (c : Chip) :
    Chip.Sweeps l c (c.endVisit l) ∧
      ∀ a, (c.endVisit l).ComesTo l (c.lines[l].position.val + 1) a → (c.endVisit l).VisitsFully l a := by
  have position : (c.onLine l LineEngine.dropExchange).lines[l].position = c.lines[l].position := by
    rw [onLine_self]; rfl
  refine ⟨(Chip.Sweeps.onLine c l _).trans (nextAddress_sweeps _ l), fun a ha => ?_⟩
  rw [← position] at ha
  exact nextAddress_visitsFully ha

theorem goodAnswer_quiet (bytes : List Byte) : c.goodAnswer l .quiet bytes v = (c.countGood v.terminal).endVisit l := rfl

theorem goodAnswer_keys (bytes : List Byte) :
    c.goodAnswer l .keys bytes v =
      ((c.countGood v.terminal).keysAnswer v.terminal (keyCodes bytes)).endVisit l := rfl

/-- What a QUIET answer leaves. -/
theorem quiet_effect (bytes : List Byte) (d : Chip) (hd : d = c.goodAnswer l .quiet bytes v) :
    (∀ w, d.links[w] = if v.terminal = w then { state := .up, misses := 0 } else c.links[w]) ∧
      (∀ m : LineNo, m ≠ l → d.lines[m] = c.lines[m]) ∧ d.keys = c.keys ∧ d.stories = c.stories ∧
      ∀ a, d.ComesTo l (c.lines[l].position.val + 1) a → d.VisitsFully l a := by
  subst hd
  obtain ⟨lines, keys, stories, _⟩ := countGood_fields v.terminal c
  obtain ⟨sweeps, next⟩ := endVisit_effect l (c.countGood v.terminal)
  rw [goodAnswer_quiet]
  refine ⟨fun w => ?_, fun m hm => (sweeps.others m hm).trans (by simp only [lines]),
    (congrArg Chip.keys sweeps.rest).trans keys, (congrArg Chip.stories sweeps.rest).trans stories, fun a ha => ?_⟩
  · simp only [sweeps.links]
    exact countGood_link ..
  · simp only [lines] at next
    exact next a ha

/-- What a KEYS answer leaves. -/
theorem keys_effect (bytes : List Byte) :
    (∀ w, (c.goodAnswer l .keys bytes v).links[w] =
        if v.terminal = w then { state := .up, misses := 0 } else c.links[w]) ∧
      Chip.KeysTaken v.terminal (keyCodes bytes) c (c.goodAnswer l .keys bytes v) ∧
      ∀ a, (c.goodAnswer l .keys bytes v).ComesTo l (c.lines[l].position.val + 1) a →
        (c.goodAnswer l .keys bytes v).VisitsFully l a := by
  obtain ⟨lines, _⟩ := countGood_fields v.terminal c
  obtain ⟨_, _, _, answerLinks, answerLines⟩ := keysAnswer_fields v.terminal (keyCodes bytes) (c.countGood v.terminal)
  obtain ⟨sweeps, next⟩ := endVisit_effect l ((c.countGood v.terminal).keysAnswer v.terminal (keyCodes bytes))
  rw [goodAnswer_keys]
  refine ⟨fun w => ?_, (keysAnswer_taken _ _ _).counted.swept sweeps, fun a ha => ?_⟩
  · simp only [sweeps.links, answerLinks]
    exact countGood_link ..
  · simp only [answerLines, lines] at next
    exact next a ha

/-- A step that replaces the part, with the part it leaves named. -/
theorem stepsTo {i : Instr} (h : exec i s = .next (s.withChip d)) :
    ∃ t, exec i s = .next t ∧ t.memory = s.memory ∧ t.chip = d := ⟨_, h, rfl, rfl⟩

theorem keyCodes_eq {x y n : Byte} (codes : List Byte) : keyCodes ((x :: y :: n :: codes) ++ [b]) = codes := by
  simp [keyCodes]

/-- A KEYS answer with its check byte is complete (R41). -/
theorem reception_keysComplete {x y : Byte} {codes : List Byte} (hlo : 1 ≤ codes.length) (hhi : codes.length ≤ 8) :
    reception ((0x21 :: x :: BitVec.ofNat 8 codes.length :: codes) ++ [y]) = .complete .keys := by
  have count : (BitVec.ofNat 8 codes.length).toNat = codes.length := by
    rw [BitVec.toNat_ofNat]; omega
  rw [List.cons_append, List.cons_append, List.cons_append, reception_keys,
    if_pos (countValid_iff.mpr (by rw [count]; exact ⟨hlo, hhi⟩)), if_pos]
  rw [List.length_append, List.length_singleton, count]

/-- A good KEYS answer as a line byte. -/
theorem lineByte_keys {codes : List Byte} (hp : c.lines[l].phase = .awaiting) (hv : c.lines[l].visit = some v)
    (hawaited : v.awaited = .poll) (hlo : 1 ≤ codes.length) (hhi : codes.length ≤ 8)
    (hrec : c.lines[l].received =
      [0x21, BitVec.ofNat 8 (v.terminal.val % 8), BitVec.ofNat 8 codes.length] ++ codes)
    (hb : b = c.lines[l].received.foldl (· + ·) 0) :
    c.lineByte l b = c.goodAnswer l .keys (c.answerBytes l b) v ∧ keyCodes (c.answerBytes l b) = codes := by
  have hreceived : c.lines[l].received =
      0x21 :: BitVec.ofNat 8 (v.terminal.val % 8) :: BitVec.ofNat 8 codes.length :: codes := hrec
  rw [hreceived] at hb
  refine ⟨lineByte_good hp hv hreceived (reception_keysComplete hlo hhi) hb rfl (by rw [hawaited]; rfl), ?_⟩
  rw [Chip.answerBytes, hreceived]
  exact keyCodes_eq codes

/-- Settles O39: the ring table by `takeCode_table`, the sweep by `nextAddress_goesOn`, the answers by `quiet_effect`
and `keys_effect`. -/
theorem pollAnswersEndTheVisit : Obligations.PollAnswersEndTheVisit := by
  refine ⟨fun k b unread => takeCode_table, fun c d l counter hcounter hd => ?_, fun s l v b hr hp hv hawaited => ?_⟩
  · subst hcounter hd
    refine ⟨nextAddress_goesOn c l, fun hoff => ?_⟩
    rw [nextAddress_idle hoff, onLine_self]
    exact ⟨by rw [Chip.steered, onLine_self], rfl, rfl⟩
  obtain ⟨hexec, _, _, hkeys, hquiet, _⟩ := exec_lineByte l b s
  refine ⟨fun hrec hb => ?_, fun codes hlo hhi hrec hb => ?_⟩
  · have hgood : s.chip.lineByte l b = s.chip.goodAnswer l .quiet (s.chip.answerBytes l b) v :=
      lineByte_good hp hv hrec (reception_short (k := .quiet) rfl nofun _ _) (by rw [hb]; simp) rfl hawaited.symm
    have hstep : exec (.quietAnswer l b) s =
        .next (s.withChip (s.chip.goodAnswer l .quiet (s.chip.answerBytes l b) v)) :=
      ((hquiet.trans hexec).trans (chipEvent_released hr)).trans (by rw [hgood])
    obtain ⟨links, others, keys, stories, next⟩ := quiet_effect (c := s.chip) (l := l) (v := v)
      (s.chip.answerBytes l b) _ rfl
    exact ⟨_, hstep, rfl, (links _).trans (if_pos rfl), fun w hw => (links w).trans (if_neg hw.symm), others, keys,
      stories, next⟩
  · obtain ⟨hgood, hcodes⟩ := lineByte_keys hp hv hawaited hlo hhi hrec hb
    obtain ⟨t, hstep, hmemory, hchip⟩ := stepsTo
      (((hkeys.trans hexec).trans (chipEvent_released hr)).trans (by rw [hgood]))
    obtain ⟨links, keysTaken, next⟩ := keys_effect (c := s.chip) (l := l) (v := v) (s.chip.answerBytes l b)
    rw [hcodes] at keysTaken
    rw [← hchip] at keysTaken next
    simp only [← hchip] at links
    obtain ⟨taken, story, words, state⟩ := keysTaken
    exact ⟨t, hstep, hmemory, (links v.terminal).trans (if_pos rfl), taken.ring, taken.others, taken.queue, story, words,
      state, next⟩

end

end Sys2Proof.Machine
end

section
/-! SUPPORT. Notices: what POST NOTICE enters, and the rows the notice writer composes and writes (R61, R62, R66, R67, R71;
O43, O44). -/

namespace Sys2Proof.Machine

section
variable {c d : Chip} {s : State} {t u w : TerminalNo} {b : Byte}

/-! ## POST NOTICE (R61, R62, R71) -/

theorem exec_postNotice (s : State) : exec .postNotice s = takeCommand 8 Chip.postNotice s := rfl

theorem rangeArg_inside {lo hi : Nat} {x : Word} (hlo : lo ≤ x.toNat) (hhi : x.toNat ≤ hi) :
    rangeArg lo hi x = some x.toNat := if_pos ⟨hlo, hhi⟩

theorem postNotice_answers {r : Recipients} (hm : (c.cu.arg 1).toNat ≤ 999) (hr : c.postTarget = some r)
    (hsystem : c.cu.context = .system) :
    c.postNotice = .done (c.post .message (c.cu.arg 1).toNat none r) [wordOf (c.recipients r).length] := by
  simp only [Chip.postNotice, rangeArg_inside (Nat.zero_le _) hm, hr, callerFault_systemOnly_system hsystem]

/-- The recipients a target names (R71). -/
theorem postTarget_names {gets : TerminalNo → Bool}
    (h : c.cu.arg 2 = 0 ∧ (∃ u : TerminalNo, (c.cu.arg 3).toNat = u.val ∧ ∀ w, gets w = decide (w = u)) ∨
      c.cu.arg 2 = 1 ∧ ∃ d : DeskNo, (c.cu.arg 3).toNat = d.val ∧
        ∀ w, gets w = match c.session w with | some x => decide (x.desk = d) | none => false) :
    ∃ r, c.postTarget = some r ∧ ∀ w, c.receives w r = gets w := by
  rcases h with ⟨hkind, u, hu, hgets⟩ | ⟨hkind, d, hd, hgets⟩
  · have hflag : flagArg 0 = some false := rfl
    refine ⟨.terminal u, ?_, fun w => (hgets w).symm⟩
    simp only [Chip.postTarget, hkind, hflag, finArg_inside hu, Option.map_some]
  · have hflag : flagArg 1 = some true := rfl
    refine ⟨.desk d, ?_, fun w => ?_⟩
    · simp only [Chip.postTarget, hkind, hflag, finArg_inside hd, Option.map_some]
    · rw [hgets]
      rfl

/-! ## A notice entered into a queue (R62) -/

theorem enter_merges {n : Notice} {x : Screen} (h : x.queue.any (·.matches n) = true) :
    x.enter n = { x with queue := x.queue.map fun m => if m.matches n then n.merge m else m } := if_pos h

theorem enter_joins {n : Notice} {x : Screen} (h : x.queue.any (·.matches n) = false) (hroom : x.queue.length < 4) :
    x.enter n = { x with queue := x.queue ++ [n] } := by
  rw [Screen.enter, if_neg (by rw [h]; decide), if_pos hroom]

theorem enter_lost {n : Notice} {x : Screen} (h : x.queue.any (·.matches n) = false) (hfull : 4 ≤ x.queue.length) :
    x.enter n = { x with more := true } := by
  rw [Screen.enter, if_neg (by rw [h]; decide), if_neg (Nat.not_lt.mpr hfull)]

/-- The notice of one message. -/
def messageNotice (m : Nat) : Notice := { kind := .message, subject := m, second := none, count := 1 }

theorem matches_message {n : Notice} {m : Nat} :
    n.matches (messageNotice m) = true ↔ n.kind = .message ∧ n.subject = m := by
  rw [Notice.matches, Bool.and_eq_true, decide_eq_true_eq, decide_eq_true_eq]
  rfl

theorem merge_message (m : Nat) (n : Notice) :
    (messageNotice m).merge n = { n with count := if 99 ≤ n.count then 99 else n.count + 1 } := by
  have hcount : min 99 (n.count + 1) = if 99 ≤ n.count then 99 else n.count + 1 := by
    split <;> omega
  rw [← hcount]
  rfl

/-- R62: a message entered into one queue. -/
theorem enter_message (m : Nat) (x : Screen) :
    (∀ (i : Nat) (n : Notice), x.queue[i]? = some n → n.kind = .message ∧ n.subject = m →
      (x.enter (messageNotice m)).queue[i]? = some { n with count := if 99 ≤ n.count then 99 else n.count + 1 } ∧
        (x.enter (messageNotice m)).queue.length = x.queue.length ∧ (x.enter (messageNotice m)).more = x.more) ∧
    ((∀ n ∈ x.queue, ¬(n.kind = .message ∧ n.subject = m)) →
      (x.queue.length < 4 → x.enter (messageNotice m) = { x with queue := x.queue ++ [messageNotice m] }) ∧
      (4 ≤ x.queue.length → x.enter (messageNotice m) = { x with more := true })) := by
  refine ⟨fun i n hn hmatch => ?_, fun hnone => ?_⟩
  · have held : x.queue.any (·.matches (messageNotice m)) = true :=
      List.any_eq_true.mpr ⟨n, List.mem_of_getElem? hn, matches_message.mpr hmatch⟩
    rw [enter_merges held]
    refine ⟨?_, List.length_map .., rfl⟩
    rw [List.getElem?_map, hn, Option.map_some, if_pos (matches_message.mpr hmatch), merge_message]
  · have absent : x.queue.any (·.matches (messageNotice m)) = false :=
      List.any_eq_false.mpr fun n hn hmatch => hnone n hn (matches_message.mp hmatch)
    exact ⟨enter_joins absent, enter_lost absent⟩

/-- Settles O43, by what a posting leaves on each screen and what a message does to one queue. -/
theorem postNoticeReachesItsRecipients : Obligations.PostNoticeReachesItsRecipients := by
  rintro s m gets hs hsystem rfl hm htarget
  obtain ⟨r, hr, receives⟩ := postTarget_names (c := s.chip.collect) (gets := gets) htarget
  obtain ⟨t, hstep, hmemory, ended, same, cu⟩ :=
    command_ends hs (postNotice_answers (c := s.chip.collect) hm hr hsystem)
  have hcount : wordOf (s.chip.collect.recipients r).length =
      BitVec.ofNat 16 ((List.finRange 64).filter gets).length := by
    simp only [wordOf, Chip.recipients, receives]
  rw [hcount] at ended
  have screen (w : TerminalNo) : t.chip.screens[w] =
      if gets w then s.chip.screens[w].enter (messageNotice (s.chip.cu.arg 1).toNat) else s.chip.screens[w] := by
    simp only [same.screens, post_screens, receives, collect_fields]
    rfl
  refine ⟨t, hstep, hmemory, ended, ?_, by simp only [same.mirror, post_fields, collect_fields], fun w =>
    ⟨fun hw => by rw [screen, hw]; rfl, fun hw => ?_⟩⟩
  · rw [cu]
    simp only [post_fields, collect_fields]
    rfl
  · rw [screen, if_pos hw]
    exact enter_message _ _

/-! ## Numbers and names in a row (R66) -/

theorem decimalDigits_last {fuel n : Nat} {rest : List Byte} (h : n < 10) :
    decimalDigits (fuel + 1) n rest = BitVec.ofNat 8 (48 + n) :: rest := if_pos h

theorem decimalDigits_more {fuel n : Nat} {rest : List Byte} (h : ¬n < 10) :
    decimalDigits (fuel + 1) n rest = decimalDigits fuel (n / 10) (BitVec.ofNat 8 (48 + n % 10) :: rest) := if_neg h

/-- The digits of `n` in decimal: not empty, digits alone, of the value `n`, and led by 0 for 0 alone. -/
structure DigitsOf (n : Nat) (ds : List Byte) : Prop where
  nonempty : ds ≠ []
  digits : ∀ d ∈ ds, 48 ≤ d.toNat ∧ d.toNat ≤ 57
  value : ds.foldl (fun k d => 10 * k + (d.toNat - 48)) 0 = n
  leading : ds.head? = some 48#8 → n = 0

theorem digit_toNat {k : Nat} (h : k < 10) : (BitVec.ofNat 8 (48 + k)).toNat = 48 + k := by
  rw [BitVec.toNat_ofNat]
  omega

theorem DigitsOf.single {n : Nat} (h : n < 10) : DigitsOf n [BitVec.ofNat 8 (48 + n)] := by
  have value := digit_toNat h
  refine ⟨List.cons_ne_nil _ _, fun d hd => ?_, ?_, fun hhead => ?_⟩
  · rw [List.mem_singleton.mp hd, value]
    omega
  · simp only [List.foldl_cons, List.foldl_nil, value]
    omega
  · have hzero := congrArg BitVec.toNat (Option.some.inj hhead)
    rw [value] at hzero
    have : (48#8 : Byte).toNat = 48 := rfl
    omega

theorem DigitsOf.snoc {n : Nat} {ds : List Byte} (h : DigitsOf (n / 10) ds) (hn : ¬n < 10) :
    DigitsOf n (ds ++ [BitVec.ofNat 8 (48 + n % 10)]) := by
  have value := digit_toNat (Nat.mod_lt n (by decide : 10 > 0))
  refine ⟨fun he => h.nonempty (List.append_eq_nil_iff.mp he).1, fun d hd => ?_, ?_, fun hhead => ?_⟩
  · rcases List.mem_append.mp hd with hd | hd
    · exact h.digits d hd
    · rw [List.mem_singleton.mp hd, value]
      omega
  · rw [List.foldl_append, h.value, List.foldl_cons, List.foldl_nil, value]
    omega
  · rw [List.head?_append, Option.or_of_isSome (List.isSome_head?.mpr h.nonempty)] at hhead
    have := h.leading hhead
    omega

theorem decimalDigits_spec (fuel : Nat) : ∀ (n : Nat) (rest : List Byte), n < fuel →
    ∃ ds, decimalDigits fuel n rest = ds ++ rest ∧ DigitsOf n ds := by
  induction fuel with
  | zero => exact fun n rest h => absurd h (Nat.not_lt_zero n)
  | succ fuel ih =>
    intro n rest h
    rcases Nat.lt_or_ge n 10 with hn | hn
    · exact ⟨_, decimalDigits_last hn, .single hn⟩
    · obtain ⟨ds, heq, hds⟩ := ih (n / 10) (BitVec.ofNat 8 (48 + n % 10) :: rest) (by omega)
      refine ⟨_, ?_, hds.snoc (Nat.not_lt.mpr hn)⟩
      rw [decimalDigits_more (Nat.not_lt.mpr hn), heq, List.append_assoc]
      rfl

theorem decimal_digits (n : Nat) : DigitsOf n (decimal n) := by
  obtain ⟨ds, heq, hds⟩ := decimalDigits_spec (n + 1) n [] (Nat.lt_succ_self n)
  rw [decimal, heq, List.append_nil]
  exact hds

theorem dropTrailing_eq {name : List Byte} {k : Nat} (h : name.getLast? ≠ some 0x20#8) :
    dropTrailing (name ++ List.replicate k 0x20#8) = name := by
  have spaces : ∀ (k : Nat) (l : List Byte),
      (List.replicate k 0x20#8 ++ l).dropWhile (· = 0x20#8) = l.dropWhile (· = 0x20#8) := fun k l => by
    induction k with
    | zero => rfl
    | succ k ih => rw [List.replicate_succ, List.cons_append, List.dropWhile_cons_of_pos (by simp), ih]
  have kept : name.reverse.dropWhile (· = 0x20#8) = name.reverse := by
    rw [← List.head?_reverse] at h
    cases hr : name.reverse with
    | nil => rfl
    | cons x l =>
      rw [hr] at h
      exact List.dropWhile_cons_of_neg fun he => h (congrArg some (of_decide_eq_true he))
  rw [dropTrailing, List.reverse_append, List.reverse_replicate, spaces, kept, List.reverse_reverse]

/-- R66 b: a desk's name without its trailing spaces, eight spaces as DESK and two digits. -/
theorem deskName_eq {name : List Byte} {k : Nat} (x : DeskNo)
    (h : c.desks[x].name.toList = name ++ List.replicate k 0x20#8) (hlast : name.getLast? ≠ some 0x20#8) :
    c.deskName x =
      if name = [] then ascii "DESK " ++ [BitVec.ofNat 8 (48 + x.val / 10), BitVec.ofNat 8 (48 + x.val % 10)]
      else name := by
  unfold Chip.deskName
  rw [h, dropTrailing_eq hlast]
  rfl

/-! ## The row of a queue (R66) -/

theorem noticeRow_eq (c : Chip) (u : TerminalNo) :
    c.noticeRow u = ((c.rowText u ++ List.replicate 75 0x20#8).take 75 ++
      if c.screens[u].more then ascii "+MORE" else List.replicate 5 0x20#8).map wordOfByte := rfl

theorem noticeRow_length (c : Chip) (u : TerminalNo) : (c.noticeRow u).length = 80 := by
  have more : (if c.screens[u].more then ascii "+MORE" else List.replicate 5 0x20#8).length = 5 := by
    split <;> rfl
  rw [noticeRow_eq, List.length_map, List.length_append, more, List.length_take, List.length_append,
    List.length_replicate]
  omega

theorem noticeRow_empty (hq : c.screens[u].queue = []) (hm : c.screens[u].more = false) :
    c.noticeRow u = List.replicate 80 0x0020#16 := by
  have text : c.rowText u = [] := by simp only [Chip.rowText, hq]
  rw [noticeRow_eq, text, hm]
  rfl

/-! ## The notice writer's events (R67) -/

theorem exec_noticeRowWriteBegin (s : State) : exec .noticeRowWriteBegin s = chipEvent Chip.beginRowWrite s := rfl

theorem exec_noticeRowWordWrite (s : State) :
    exec .noticeRowWordWrite s = ownWrite .noticeWriter Chip.rowWordWrite s := rfl

theorem beginRowWrite_eq {rest : List TerminalNo} (hw : c.noticeWriter.writing = none)
    (hp : c.noticeWriter.pending = u :: rest) :
    c.beginRowWrite = { c with noticeWriter :=
      { pending := rest, writing := some { terminal := u, words := c.noticeRow u, column := 0 } } } := by
  unfold Chip.beginRowWrite
  rw [hw, hp]
  rfl

/-- What the write of one word of a row leaves, before the grant. -/
def Chip.rowWordWritten (c : Chip) (w : RowWrite) (rest : List Word) : Chip :=
  if rest = [] then (c.onNoticeWriter fun n => { n with writing := none }).markRow w.terminal 23
  else c.onNoticeWriter fun n => { n with writing := some { w with words := rest, column := w.column + 1 } }

theorem rowWordWrite_plan {w : RowWrite} {x : Word} {rest : List Word} (hw : c.noticeWriter.writing = some w)
    (hx : w.words = x :: rest) :
    c.rowWordWrite = some { address := c.path.windowWord w.terminal (1840 + w.column), value := x
                            after := c.rowWordWritten w rest } := by
  unfold Chip.rowWordWrite
  rw [hw]
  dsimp only
  rw [hx]
  rfl

theorem rowWordWritten_goesOn {w : RowWrite} {rest : List Word} (h : rest ≠ []) :
    c.rowWordWritten w rest =
      c.onNoticeWriter fun n => { n with writing := some { w with words := rest, column := w.column + 1 } } := if_neg h

theorem rowWordWritten_ends {w : RowWrite} {rest : List Word} (h : rest = []) :
    c.rowWordWritten w rest = (c.onNoticeWriter fun n => { n with writing := none }).markRow w.terminal 23 := if_pos h

/-- R67: the last word ends the write and marks row 23 dirty. -/
theorem rowWordWritten_last {w : RowWrite} {rest : List Word} (h : rest = []) :
    (c.rowWordWritten w rest).noticeWriter.writing = none ∧
      (∀ r : Fin 24, (c.rowWordWritten w rest).screens[w.terminal].dirty[r] =
        (c.screens[w.terminal].dirty[r] || decide (r = 23))) ∧
      ∀ u : TerminalNo, (c.rowWordWritten w rest).screens[u].queue = c.screens[u].queue ∧
        (u ≠ w.terminal → (c.rowWordWritten w rest).screens[u] = c.screens[u]) := by
  rw [rowWordWritten_ends h]
  refine ⟨rfl, fun r => ?_, fun u => ⟨?_, fun hu => ?_⟩⟩
  · simp only [markRow_screen, if_true, setRow_dirty]
    by_cases hr : (23 : Fin 24) = r
    · rw [if_pos hr, decide_eq_true hr.symm, Bool.or_true]
    · rw [if_neg hr, decide_eq_false (Ne.symm hr), Bool.or_false]
      rfl
  · rw [markRow_screen]
    split <;> rfl
  · rw [markRow_screen, if_neg hu.symm]
    rfl

/-- The write touches the notice writer and the screens alone. -/
theorem rowWordWritten_rest (c : Chip) (w : RowWrite) (rest : List Word) :
    c.rowWordWritten w rest =
      { c with noticeWriter := (c.rowWordWritten w rest).noticeWriter, screens := (c.rowWordWritten w rest).screens } ∧
      (c.rowWordWritten w rest).noticeWriter.pending = c.noticeWriter.pending := by
  unfold Chip.rowWordWritten
  split <;> exact ⟨rfl, rfl⟩

theorem noticeText_table (c : Chip) (n : Notice) (x v : List Byte) (hx : x = decimal n.subject)
    (hv : v = decimal (n.second.getD 0)) :
    c.noticeText n = match n.kind with
      | .arrived => ascii "STORY " ++ x ++ ascii " ARRIVED AT " ++ c.deskName (Fin.ofNat 16 (n.second.getD 0))
      | .recalled => ascii "STORY " ++ x ++ ascii " RECALLED TO BASKET"
      | .idle => ascii "STORY " ++ x ++ ascii " IDLE"
      | .overset => ascii "STORY " ++ x ++ ascii " OVERSET " ++ v ++ ascii " LINES"
      | .killed => ascii "STORY " ++ x ++ ascii " KILLED"
      | .released => ascii "PAGE " ++ x ++ ascii " RELEASED"
      | .pageSet => ascii "PAGE " ++ x ++ ascii " SET"
      | .late => ascii "PAGE " ++ x ++ ascii " LATE"
      | .linkFault => ascii "LINK FAULT PAGE " ++ x
      | .termDown => ascii "TERMINAL " ++ x ++ ascii " DOWN"
      | .editionClosed => ascii "EDITION " ++ x ++ ascii " CLOSED"
      | .message => ascii "MESSAGE " ++ x := by
  subst hx hv
  unfold Chip.noticeText
  cases n.kind <;> rfl

/-- Settles O44: numbers by `decimal_digits`, names by `deskName_eq`, rows by `noticeRow_eq`, the writes by
`rowWordWritten`. -/
theorem noticeRowsAreWritten : Obligations.NoticeRowsAreWritten := by
  refine ⟨fun n => ?_, fun c x name k h hlast => deskName_eq x h hlast, fun c n => noticeText_table c n,
    fun c u text more htext hmore => ?_, fun c u => ⟨noticeRow_length c u, noticeRow_empty⟩,
    fun s u rest hr hw hp => ?_, fun s w x rest base a hg hw hx hbase ha hlt => ?_⟩
  · obtain ⟨nonempty, digits, value, leading⟩ := decimal_digits n
    exact ⟨nonempty, digits, value, leading⟩
  · have row : c.rowText u = text := by
      subst htext
      unfold Chip.rowText
      cases c.screens[u].queue <;> rfl
    rw [noticeRow_eq, row, hmore]
    rfl
  · rw [exec_noticeRowWriteBegin, chipEvent_released hr, beginRowWrite_eq hw hp]
  · have haddress : s.chip.path.windowWord w.terminal (1840 + w.column) = some a := by
      rw [windowWord_at hbase, ha]
      exact congrArg some (Nat.add_assoc ..).symm
    obtain ⟨others, pending⟩ := rowWordWritten_rest s.chip w rest
    refine ⟨_, (exec_noticeRowWordWrite s).trans (ownWrite_served hg (rowWordWrite_plan hw hx) haddress hlt), rfl, ?_,
      pending, fun h => ?_, fun h => ?_⟩
    · dsimp only [Chip.granted]
      rw [others]
      rfl
    · simp only [granted_fields, rowWordWritten_goesOn h]
      exact ⟨rfl, rfl⟩
    · simp only [granted_fields]
      exact rowWordWritten_last h

end

end Sys2Proof.Machine
end

section
/-! SUPPORT. What a change adds to a command's wait set, and the moves of a story between baskets and holders, entry by
entry (R28, R91 to R97). -/

namespace Sys2Proof.Machine

section
variable {c d e : Chip} {s : State} {n m : StoryNo} {x y : DeskNo} {t u w : TerminalNo} {i j : MirrorItem}

/-! ## What a command awaits (R28 a) -/

/-- The change from `c` to `d` loses no awaited item, and inside a command's action it makes the items of `l` awaited. -/
structure Chip.Collects (l : List MirrorItem) (c d : Chip) : Prop where
  collecting : d.cu.collecting = c.cu.collecting
  keeps : ∀ i, c.Awaits i → d.Awaits i
  joins : c.cu.collecting = true → ∀ i ∈ l, d.Awaits i

namespace Chip.Collects

theorem of_cu (h : d.cu = c.cu) : Chip.Collects [] c d :=
  ⟨by rw [h], fun i hi => by unfold Chip.Awaits; rw [h]; exact hi, nofun⟩

theorem mark (i : MirrorItem) (c : Chip) : Chip.Collects [i] c (c.mark i) := by
  refine ⟨by simp only [mark_fields], fun j hj => ?_, fun hc j hj => ?_⟩
  · unfold Chip.Awaits at hj ⊢
    simp only [mark_fields]
    split
    · exact (awaits_add ..).mpr (Or.inl hj)
    · exact hj
  · unfold Chip.Awaits
    simp only [mark_fields, hc, if_true]
    exact (awaits_add ..).mpr (Or.inr (List.mem_singleton.mp hj))

theorem trans {l k : List MirrorItem} (h : Chip.Collects l c d) (g : Chip.Collects k d e) :
    Chip.Collects (l ++ k) c e := by
  refine ⟨g.collecting.trans h.collecting, fun i hi => g.keeps i (h.keeps i hi), fun hc i hi => ?_⟩
  rcases List.mem_append.mp hi with hi | hi
  · exact g.keeps i (h.joins hc i hi)
  · exact g.joins (h.collecting.trans hc) i hi

/-- Items forgotten. -/
theorem mono {l k : List MirrorItem} (h : Chip.Collects l c d) (hs : ∀ i ∈ k, i ∈ l) : Chip.Collects k c d :=
  ⟨h.collecting, h.keeps, fun hc i hi => h.joins hc i (hs i hi)⟩

/-- A change to the command unit's right, then one that leaves the unit. -/
theorem thenSame {l : List MirrorItem} (h : Chip.Collects l c d) (g : e.cu = d.cu) : Chip.Collects l c e :=
  (h.trans (.of_cu g)).mono fun _ hi => List.mem_append_left _ hi

theorem fold {α : Type} (f : Chip → α → Chip) (l : α → List MirrorItem) (h : ∀ c a, Chip.Collects (l a) c (f c a)) :
    ∀ (as : List α) (c : Chip), Chip.Collects (as.flatMap l) c (as.foldl f c)
  | [], _ => .of_cu rfl
  | a :: as, c => (h c a).trans (fold f l h as (f c a))

end Chip.Collects

/-- What a command awaits once its action has ended. -/
theorem awaits_endAction {r : ResultCode} {words : List Word} (h : d.cu = c.cu.endAction r words) (hi : c.Awaits i) :
    d.Awaits i := by
  unfold Chip.Awaits
  rw [h]
  exact hi

/-! ## A basket changed (R91, R95) -/

theorem onDesk_desk (c : Chip) (x y : DeskNo) (f : Desk → Desk) :
    (c.onDesk x f).desks[y] = if x = y then f c.desks[y] else c.desks[y] := update_apply ..

theorem setBasket_desk (c : Chip) (n : StoryNo) (before : Option StoryNo) (q : List StoryNo) (y : DeskNo) :
    (c.setBasket n before q).desks[y] =
      if c.stories[n].desk = y then { c.desks[y] with basket := q } else c.desks[y] := by
  unfold Chip.setBasket
  cases before <;> simp only [mark_fields, onDesk_desk]

theorem setBasket_collects (c : Chip) (n : StoryNo) (before : Option StoryNo) (q : List StoryNo) :
    Chip.Collects [.story n, .desk c.stories[n].desk] c (c.setBasket n before q) := by
  have desk : Chip.Collects [] c (c.onDesk c.stories[n].desk fun x => { x with basket := q }) := .of_cu rfl
  have story := desk.trans (.mark (.story n) _)
  unfold Chip.setBasket
  cases before with
  | none => exact story.trans (.mark (.desk c.stories[n].desk) _)
  | some p =>
    refine ((story.trans (.mark (.story p) _)).trans (.mark (.desk c.stories[n].desk) _)).mono fun i hi => ?_
    rcases (List.mem_cons.trans (or_congr_right List.mem_singleton)).mp hi with rfl | rfl <;> simp

/-- R92: where a story joins the tail of its class. -/
def tailOf (urgent : StoryNo → Bool) (n : StoryNo) (b : List StoryNo) : List StoryNo :=
  if urgent n then b.takeWhile urgent ++ n :: b.dropWhile urgent else b ++ [n]

/-- R93: where a story joins the head of its class. -/
def headOf (urgent : StoryNo → Bool) (n : StoryNo) (b : List StoryNo) : List StoryNo :=
  if urgent n then n :: b else b.takeWhile urgent ++ n :: b.dropWhile urgent

theorem tailOf_class {urgent : StoryNo → Bool} {front back : List StoryNo} (hf : ∀ m ∈ front, urgent m = true)
    (hb : ∀ m ∈ back, urgent m = false) :
    tailOf urgent n (front ++ back) = if urgent n then front ++ n :: back else front ++ back ++ [n] := by
  rw [tailOf, (classes_split hf hb).1, (classes_split hf hb).2]

theorem headOf_class {urgent : StoryNo → Bool} {front back : List StoryNo} (hf : ∀ m ∈ front, urgent m = true)
    (hb : ∀ m ∈ back, urgent m = false) :
    headOf urgent n (front ++ back) = if urgent n then n :: (front ++ back) else front ++ n :: back := by
  rw [headOf, (classes_split hf hb).1, (classes_split hf hb).2]

theorem mem_headOf {urgent : StoryNo → Bool} {b : List StoryNo} :
    m ∈ headOf urgent n b ↔ m = n ∨ m ∈ b := by
  unfold headOf
  split
  · exact List.mem_cons
  · rw [List.mem_append, List.mem_cons]
    have split : m ∈ b ↔ m ∈ b.takeWhile urgent ∨ m ∈ b.dropWhile urgent := by
      rw [← List.mem_append, List.takeWhile_append_dropWhile]
    rw [split]
    exact or_left_comm

/-- Which stories are urgent. -/
def Chip.urgent (c : Chip) (n : StoryNo) : Bool := c.stories[n].urgent

theorem joinTail_eq (n : StoryNo) (c : Chip) :
    c.joinTail n = c.setBasket n (entryBefore n (tailOf c.urgent n c.desks[c.stories[n].desk].basket))
      (tailOf c.urgent n c.desks[c.stories[n].desk].basket) := rfl

theorem joinHead_eq (n : StoryNo) (c : Chip) :
    c.joinHead n = c.setBasket n (entryBefore n (headOf c.urgent n c.desks[c.stories[n].desk].basket))
      (headOf c.urgent n c.desks[c.stories[n].desk].basket) := rfl

theorem leaveBasket_eq (n : StoryNo) (c : Chip) :
    c.leaveBasket n = c.setBasket n (entryBefore n c.desks[c.stories[n].desk].basket)
      (c.desks[c.stories[n].desk].basket.filter (· ≠ n)) := rfl

theorem joinTail_desk (n : StoryNo) (c : Chip) (y : DeskNo) :
    (c.joinTail n).desks[y] = if c.stories[n].desk = y then
      { c.desks[y] with basket := tailOf c.urgent n c.desks[y].basket } else c.desks[y] := by
  rw [joinTail_eq, setBasket_desk]
  split
  · next h => subst h; rfl
  · rfl

theorem joinHead_desk (n : StoryNo) (c : Chip) (y : DeskNo) :
    (c.joinHead n).desks[y] = if c.stories[n].desk = y then
      { c.desks[y] with basket := headOf c.urgent n c.desks[y].basket } else c.desks[y] := by
  rw [joinHead_eq, setBasket_desk]
  split
  · next h => subst h; rfl
  · rfl

theorem leaveBasket_desk (n : StoryNo) (c : Chip) (y : DeskNo) :
    (c.leaveBasket n).desks[y] = if c.stories[n].desk = y then
      { c.desks[y] with basket := c.desks[y].basket.filter (· ≠ n) } else c.desks[y] := by
  rw [leaveBasket_eq, setBasket_desk]
  split
  · next h => subst h; rfl
  · rfl

/-! ## A story leaves and enters a held set (R96, R97) -/

theorem leaveOpen_desk (n : StoryNo) (c : Chip) (y : DeskNo) :
    (c.leaveOpen n).desks[y] =
      if c.stories[n].desk = y then { c.desks[y] with openCount := c.desks[y].openCount - 1 } else c.desks[y] := by
  unfold Chip.leaveOpen
  cases c.stories[n].holder <;> simp only [mark_fields, onDesk_desk, onStory_fields, onCustody_fields]

theorem leaveOpen_held (n : StoryNo) (c : Chip) (u : TerminalNo) :
    (c.leaveOpen n).custody.held[u] =
      if c.stories[n].holder = some u then c.custody.held[u].filter (· ≠ n) else c.custody.held[u] := by
  unfold Chip.leaveOpen
  cases hh : c.stories[n].holder with
  | none => simp only [mark_fields, onDesk_fields, onStory_fields, reduceCtorEq, if_false]
  | some t => simp only [mark_fields, onDesk_fields, onStory_fields, onCustody_fields, update_apply, Option.some.injEq]

theorem leaveOpen_collects (n : StoryNo) (c : Chip) :
    Chip.Collects [.story n, .desk c.stories[n].desk] c (c.leaveOpen n) := by
  unfold Chip.leaveOpen
  cases c.stories[n].holder with
  | none => exact (Chip.Collects.of_cu (by rfl)).trans ((Chip.Collects.mark _ _).trans (.mark _ _))
  | some t => exact (Chip.Collects.of_cu (by rfl)).trans ((Chip.Collects.mark _ _).trans (.mark _ _))

theorem enterOpen_desk (n : StoryNo) (t : TerminalNo) (c : Chip) (y : DeskNo) :
    (c.enterOpen n t).desks[y] =
      if c.stories[n].desk = y then { c.desks[y] with openCount := c.desks[y].openCount + 1 } else c.desks[y] := by
  unfold Chip.enterOpen
  simp only [mark_fields, onDesk_desk, onStory_fields, onCustody_fields]

theorem enterOpen_held (n : StoryNo) (t : TerminalNo) (c : Chip) (u : TerminalNo) :
    (c.enterOpen n t).custody.held[u] = if t = u then c.custody.held[u] ++ [n] else c.custody.held[u] := by
  unfold Chip.enterOpen
  simp only [mark_fields, onDesk_fields, onStory_fields, onCustody_fields, update_apply]

theorem enterOpen_collects (n : StoryNo) (t : TerminalNo) (c : Chip) :
    Chip.Collects [.story n, .desk c.stories[n].desk] c (c.enterOpen n t) := by
  unfold Chip.enterOpen
  exact (Chip.Collects.of_cu (by rfl)).trans ((Chip.Collects.mark _ _).trans (.mark _ _))

/-! ## A story returns to its basket (R93, R106) -/

/-- An OPEN story as its return leaves it. -/
def Story.returned (z : Story) : Story := { z with state := .basket, holder := none, lease := none }

theorem returnToHead_open (h : c.stories[n].state = .open_) :
    c.returnToHead n = ((c.leaveOpen n).onStory n fun z => { z with state := .basket }).joinHead n := by
  rw [Chip.returnToHead, if_pos h]

theorem returnToHead_story (h : c.stories[n].state = .open_) (m : StoryNo) :
    (c.returnToHead n).stories[m] = if n = m then c.stories[m].returned else c.stories[m] := by
  by_cases hm : n = m
  · subst hm
    rw [if_pos rfl, returnToHead_open h, joinHead_stories, onStory_self, leaveOpen_self]
    rfl
  · rw [if_neg hm, (moves_returnToHead n c).others m (Ne.symm hm)]

/-- A story moved keeps its urgency when only its state and holder change. -/
theorem leaveOpen_urgent (n : StoryNo) (c : Chip) :
    ((c.leaveOpen n).onStory n fun z => { z with state := .basket }).urgent = c.urgent := by
  funext m
  unfold Chip.urgent
  by_cases hm : m = n
  · subst hm
    rw [onStory_self, leaveOpen_self]
  · rw [onStory_ne _ hm, (moves_leaveOpen n c).others m hm]

theorem returnToHead_desk (h : c.stories[n].state = .open_) (y : DeskNo) :
    (c.returnToHead n).desks[y] = if c.stories[n].desk = y then
      { c.desks[y] with basket := headOf c.urgent n c.desks[y].basket, openCount := c.desks[y].openCount - 1 }
      else c.desks[y] := by
  have desk : ((c.leaveOpen n).onStory n fun z => { z with state := .basket }).stories[n].desk = c.stories[n].desk := by
    rw [onStory_self, leaveOpen_self]
  rw [returnToHead_open h, joinHead_desk, leaveOpen_urgent, desk]
  by_cases hy : c.stories[n].desk = y
  · simp only [hy, if_true, onStory_fields, leaveOpen_desk]
  · simp only [hy, if_false, onStory_fields, leaveOpen_desk]

theorem returnToHead_held (h : c.stories[n].state = .open_) (u : TerminalNo) :
    (c.returnToHead n).custody.held[u] =
      if c.stories[n].holder = some u then c.custody.held[u].filter (· ≠ n) else c.custody.held[u] := by
  have custody : (c.returnToHead n).custody = (c.leaveOpen n).custody := by
    rw [returnToHead_open h]
    exact (does_joinHead n _).frame .custody (by decide)
  simp only [custody]
  exact leaveOpen_held n c u

theorem returnToHead_collects (h : c.stories[n].state = .open_) :
    Chip.Collects [.story n, .desk c.stories[n].desk] c (c.returnToHead n) := by
  have left := leaveOpen_collects n c
  rw [returnToHead_open h, joinHead_eq]
  refine ((left.thenSame ?_).trans (setBasket_collects _ n _ _)).mono fun i hi => List.mem_append_left _ hi
  rfl

end

end Sys2Proof.Machine
end

section
/-! SUPPORT. Sessions and the items key intake writes (R78 to R80, R84, R85; O45, O46). -/

namespace Sys2Proof.Machine

section
variable {c d : Chip} {s : State} {n m : StoryNo} {x : DeskNo} {t u w : TerminalNo} {i : MirrorItem} {a : Admits}

/-! ## Callers admitted (R27) -/

theorem callerFault_system (h : c.cu.context = .system) (ha : a.system = true) : c.callerFault a = none := by
  rw [Chip.callerFault, h]
  exact if_pos ha

theorem callerFault_terminal {low : Clearance} {z : Session} (h : c.cu.context = .terminal u)
    (ha : a.terminal = some low) (hz : c.session u = some z) (hlow : low.code ≤ z.clearance.code) :
    c.callerFault a = none := by
  simp only [Chip.callerFault, h, ha, hz, if_neg (Nat.not_lt.mpr hlow)]

theorem callerTerminal_terminal (h : c.cu.context = .terminal u) : c.callerTerminal = some u := by
  rw [Chip.callerTerminal, h]

theorem callerTerminal_system (h : c.cu.context = .system) : c.callerTerminal = none := by
  rw [Chip.callerTerminal, h]

theorem callerSystem_system (h : c.cu.context = .system) : c.callerSystem = true := decide_eq_true h

theorem callerSystem_terminal (h : c.cu.context = .terminal u) : c.callerSystem = false := by
  rw [Chip.callerSystem, h]
  rfl

/-! ## SIGN ON (R84) -/

theorem exec_signOn (s : State) : exec .signOn s = takeCommand 5 Chip.signOn s := rfl

theorem exec_signOff (s : State) : exec .signOff s = takeCommand 6 Chip.signOff s := rfl

theorem clearanceArg_code {v : Word} {z : Clearance} (h : v.toNat = z.code) : clearanceArg v = some z := by
  have hv : v = BitVec.ofNat 16 z.code := by rw [← h, BitVec.ofNat_toNat, BitVec.setWidth_eq]
  subst hv
  cases z <;> rfl

/-- The part with a session begun. -/
def Chip.signedOn (c : Chip) (t : TerminalNo) (z : Session) : Chip :=
  (c.onKeys t fun k => { k with session := some z }).pendKey (.sessionWord t)

theorem signOn_answers {z : Clearance} (ht : finArg 64 (c.cu.arg 1) = some t) (hd : finArg 16 (c.cu.arg 2) = some x)
    (hz : (c.cu.arg 3).toNat = z.code) (hsystem : c.cu.context = .system) :
    c.signOn = if (c.session t).isSome then .refuse .wrongState
      else .done (c.signedOn t { desk := x, clearance := z }) [] := by
  simp only [Chip.signOn, ht, hd, clearanceArg_code hz, callerFault_systemOnly_system hsystem]
  rfl

theorem signedOn_keys (c : Chip) (t : TerminalNo) (z : Session) (w : TerminalNo) :
    (c.signedOn t z).keys[w] = if t = w then { c.keys[w] with session := some z } else c.keys[w] := by
  simp only [Chip.signedOn, pendKey_fields]
  exact onKeys_ring ..

/-! ## SIGN OFF (R64, R85) -/

theorem emptyQueue_screens (c : Chip) (t w : TerminalNo) :
    (c.emptyQueue t).screens[w] = if t = w then { c.screens[w] with queue := [], more := false } else c.screens[w] := by
  unfold Chip.emptyQueue
  split
  · next h =>
    rw [onScreen_screen]
    split
    · next e => subst e; rw [h]
    · rfl
  · simp only [pendRow_fields, onScreen_screen]

theorem emptyQueue_fields (c : Chip) (t : TerminalNo) :
    (c.emptyQueue t).cu = c.cu ∧ (c.emptyQueue t).keys = c.keys ∧ (c.emptyQueue t).keyWriter = c.keyWriter ∧
      (c.emptyQueue t).stories = c.stories ∧ (c.emptyQueue t).desks = c.desks := by
  unfold Chip.emptyQueue
  split <;> exact ⟨rfl, rfl, rfl, rfl, rfl⟩

/-- Every story of a list returned, in order. -/
def Chip.returnAll (l : List StoryNo) (c : Chip) : Chip := l.foldl (fun c n => c.returnToHead n) c

/-- What returning the stories of a list, all OPEN, leaves. -/
structure Chip.Returned (l : List StoryNo) (c d : Chip) : Prop where
  story : ∀ n : StoryNo, d.stories[n] = if n ∈ l then c.stories[n].returned else c.stories[n]
  basket : ∀ n ∈ l, n ∈ d.desks[c.stories[n].desk].basket
  keeps : ∀ (y : DeskNo) (m : StoryNo), m ∈ c.desks[y].basket → m ∈ d.desks[y].basket
  awaits : ∀ i, c.Awaits i → d.Awaits i
  collecting : d.cu.collecting = c.cu.collecting
  items : c.cu.collecting = true → ∀ n ∈ l, d.Awaits (.story n) ∧ d.Awaits (.desk c.stories[n].desk)

theorem returnToHead_basket (h : c.stories[n].state = .open_) (y : DeskNo) (m : StoryNo) :
    m ∈ (c.returnToHead n).desks[y].basket ↔ m ∈ c.desks[y].basket ∨ m = n ∧ c.stories[n].desk = y := by
  rw [returnToHead_desk h]
  split
  · next hy => simp only [mem_headOf, hy, and_true, or_comm]
  · next hy => simp only [hy, and_false, or_false]

theorem returnAll_returned (l : List StoryNo) : ∀ c : Chip, l.Nodup → (∀ n ∈ l, c.stories[n].state = .open_) →
    Chip.Returned l c (c.returnAll l) := by
  induction l with
  | nil =>
    exact fun c _ _ => ⟨fun n => by rw [if_neg List.not_mem_nil]; rfl, nofun, fun _ _ h => h, fun _ h => h, rfl, nofun⟩
  | cons m l ih =>
    intro c hnodup hopen
    obtain ⟨hfresh, hnodup⟩ := List.nodup_cons.mp hnodup
    have hm := hopen m List.mem_cons_self
    have other : ∀ n ∈ l, (c.returnToHead m).stories[n] = c.stories[n] := fun n hn =>
      (returnToHead_story hm n).trans (if_neg fun e : m = n => hfresh (e ▸ hn))
    have collects := returnToHead_collects hm
    obtain ⟨story, basket, keeps, awaits, collecting, items⟩ := ih (c.returnToHead m) hnodup fun n hn => by
      rw [other n hn]; exact hopen n (List.mem_cons_of_mem m hn)
    refine ⟨fun n => ?_, fun n hn => ?_, fun y k hk => keeps y k ((returnToHead_basket hm y k).mpr (Or.inl hk)),
      fun i hi => awaits i (collects.keeps i hi), collecting.trans collects.collecting, fun hc n hn => ?_⟩
    · refine (story n).trans ?_
      rw [returnToHead_story hm n]
      by_cases hn : m = n
      · subst hn
        rw [if_neg hfresh, if_pos rfl, if_pos List.mem_cons_self]
      · simp only [if_neg hn, List.mem_cons, Ne.symm hn, false_or]
    · rcases List.mem_cons.mp hn with rfl | hn
      · exact keeps _ _ ((returnToHead_basket hm _ _).mpr (Or.inr ⟨rfl, rfl⟩))
      · have := basket n hn
        simp only [other n hn] at this
        exact this
    · rcases List.mem_cons.mp hn with rfl | hn
      · exact ⟨awaits _ (collects.joins hc _ (by simp)), awaits _ (collects.joins hc _ (by simp))⟩
      · have := items (collects.collecting.trans hc) n hn
        simp only [other n hn] at this
        exact this

theorem does_returnStories (l : List StoryNo) (c : Chip) : Chip.Does custodyParts c (c.returnAll l) :=
  Chip.Does.foldl (fun (c : Chip) n => c.returnToHead n) (fun c n => does_returnToHead n c) l c

/-- The stories a terminal holds, in story order. -/
def Chip.heldStories (c : Chip) (t : TerminalNo) : List StoryNo :=
  (List.finRange 1024).filter fun n => n ∈ c.custody.held[t]

theorem mem_heldStories : n ∈ c.heldStories t ↔ n ∈ c.custody.held[t] := by
  simp [Chip.heldStories]

/-- The part with the session of `t` gone and the writes that show it pending. -/
def Chip.sessionGone (c : Chip) (t : TerminalNo) : Chip :=
  let d := (c.onKeys t fun k => { k with functionPending := none, session := none }).pendKey (.sessionWord t)
  if c.keys[t].functionPending.isSome then d.pendKey (.keyState t) else d

theorem endSession_eq (c : Chip) (t : TerminalNo) :
    c.endSession t = ((c.returnAll (c.heldStories t)).emptyQueue t).sessionGone t := rfl

theorem sessionGone_fields (c : Chip) (t : TerminalNo) :
    (c.sessionGone t).cu = c.cu ∧ (c.sessionGone t).stories = c.stories ∧ (c.sessionGone t).desks = c.desks ∧
      (c.sessionGone t).screens = c.screens ∧
      (∀ w : TerminalNo, (c.sessionGone t).keys[w] =
        if t = w then { c.keys[w] with functionPending := none, session := none } else c.keys[w]) := by
  unfold Chip.sessionGone
  dsimp only
  split <;> simp only [pendKey_fields] <;> exact ⟨rfl, rfl, rfl, rfl, fun w => onKeys_ring ..⟩

theorem sessionGone_pends (c : Chip) (t : TerminalNo) :
    .sessionWord t ∈ (c.sessionGone t).keyWriter.pending ∧
      (c.keys[t].functionPending.isSome = true → .keyState t ∈ (c.sessionGone t).keyWriter.pending) := by
  have joined (d : Chip) : KeyItem.sessionWord t ∈ (d.pendKey (.sessionWord t)).keyWriter.pending :=
    pendKey_joins (by simp)
  unfold Chip.sessionGone
  dsimp only
  split
  · exact ⟨pendKey_keeps (joined _), fun _ => pendKey_joins (by simp)⟩
  · next h => exact ⟨joined _, fun hs => absurd hs h⟩

/-- What the end of a session leaves (R64, R85). -/
structure Chip.SessionEnded (t : TerminalNo) (c d : Chip) : Prop where
  keys : ∀ w : TerminalNo, d.keys[w] =
    if t = w then { c.keys[w] with functionPending := none, session := none } else c.keys[w]
  screens : ∀ w : TerminalNo, d.screens[w] = if t = w then { c.screens[w] with queue := [], more := false } else c.screens[w]
  pends : .sessionWord t ∈ d.keyWriter.pending
  marks : c.keys[t].functionPending.isSome = true → .keyState t ∈ d.keyWriter.pending
  returned : Chip.Returned (c.heldStories t) c d

theorem endSession_ended (h : ∀ n ∈ c.custody.held[t], c.stories[n].state = .open_) :
    Chip.SessionEnded t c (c.endSession t) := by
  have does := does_returnStories (c.heldStories t) c
  have keys : (c.returnAll (c.heldStories t)).keys = c.keys := does.frame .keys (by decide)
  have screens : (c.returnAll (c.heldStories t)).screens = c.screens := does.frame .screens (by decide)
  obtain ⟨story, basket, keeps, awaits, collecting, items⟩ := returnAll_returned (c.heldStories t) c
    ((List.nodup_finRange 1024).filter _) fun n hn => h n (mem_heldStories.mp hn)
  obtain ⟨cu1, keys1, _, stories1, desks1⟩ := emptyQueue_fields (c.returnAll (c.heldStories t)) t
  have screens1 := emptyQueue_screens (c.returnAll (c.heldStories t)) t
  obtain ⟨cu2, stories2, desks2, screens2, keys2⟩ := sessionGone_fields ((c.returnAll (c.heldStories t)).emptyQueue t) t
  obtain ⟨pends, marks⟩ := sessionGone_pends ((c.returnAll (c.heldStories t)).emptyQueue t) t
  have cu := cu2.trans cu1
  have stories := stories2.trans stories1
  have desks := desks2.trans desks1
  rw [endSession_eq]
  simp only [keys1, keys] at keys2 marks
  simp only [screens] at screens1
  refine ⟨keys2, fun w => ?_, pends, marks, ⟨fun n => ?_, ?_, ?_, ?_, ?_, ?_⟩⟩
  · simp only [screens2]
    exact screens1 w
  · simp only [stories]
    exact story n
  · simp only [desks]
    exact basket
  · simp only [desks]
    exact keeps
  · unfold Chip.Awaits at awaits ⊢
    rw [cu]
    exact awaits
  · rw [cu]
    exact collecting
  · unfold Chip.Awaits at items ⊢
    rw [cu]
    exact items

theorem signOff_noSession (ht : finArg 64 (c.cu.arg 1) = some t) (hsystem : c.cu.context = .system)
    (hs : c.session t = none) : c.signOff = .refused .wrongState [] := by
  simp only [Chip.signOff, ht, Chip.signOffFault, callerFault_system (a := { system := true, terminal := some .read }) hsystem rfl, callerSystem_system hsystem, hs]
  rfl

theorem signOff_session (ht : finArg 64 (c.cu.arg 1) = some t) (hs : (c.session t).isSome = true)
    (hcaller : c.cu.context = .system ∨ c.cu.context = .terminal t) : c.signOff = .done (c.endSession t) [] := by
  rcases hcaller with h | h
  · simp only [Chip.signOff, ht, Chip.signOffFault, callerFault_system (a := { system := true, terminal := some .read }) h rfl, callerSystem_system h, hs, if_true]
  · obtain ⟨z, hz⟩ := Option.isSome_iff_exists.mp hs
    simp only [Chip.signOff, ht, Chip.signOffFault,
      callerFault_terminal (a := { system := true, terminal := some .read }) h rfl hz (Nat.zero_le _),
      callerSystem_terminal h, callerTerminal_terminal h, Bool.false_eq_true, if_false, if_true]

/-- Settles O45, by what beginning and ending a session leave. -/
theorem sessionsBeginAndEnd : Obligations.SessionsBeginAndEnd := by
  refine ⟨fun s u d z hs hsystem hu hd hz => ?_, fun s u hs hu => ⟨fun hsystem hnone => ?_, fun hsome hcaller hheld => ?_⟩⟩
  · have answer := signOn_answers (c := s.chip.collect) hu hd hz hsystem
    rw [exec_signOn]
    refine ⟨fun hsome => takeCommand_refused hs (answer.trans (if_pos hsome)), fun hnone => ?_⟩
    have hdone := answer.trans (if_neg (by rw [show s.chip.collect.session u = none from hnone]; decide))
    refine ⟨_, takeCommand_done hs hdone, rfl, ?_, fun w hw => ?_, pendKey_joins (by simp), endAction_ended ..,
      endAction_reports _ _ rfl, rfl⟩
    · exact (signedOn_keys ..).trans (if_pos rfl)
    · exact (signedOn_keys ..).trans (if_neg hw.symm)
  · rw [exec_signOff]
    exact takeCommand_refused hs (signOff_noSession (c := s.chip.collect) hu hsystem hnone)
  · obtain ⟨t, hstep, hmemory, ended, same, cu⟩ :=
      command_ends hs (signOff_session (c := s.chip.collect) hu hsome hcaller)
    have hopen : ∀ n ∈ s.chip.collect.custody.held[u], s.chip.collect.stories[n].state = .open_ := fun n hn =>
      ((hheld n).mp hn).1
    obtain ⟨keys, screens, pends, marks, story, basket, _, _, _, items⟩ := endSession_ended hopen
    have items := items rfl
    simp only [mem_heldStories, collect_fields] at keys screens pends marks story basket items
    rw [exec_signOff]
    refine ⟨t, hstep, hmemory, ended, ?_, fun w hw => ⟨?_, ?_⟩, ?_, ?_, fun h => ?_, fun n => ⟨fun hn => ⟨?_, ?_, ?_, ?_⟩,
      fun hn => ?_⟩⟩
    · simp only [same.keys]
      exact (keys u).trans (if_pos rfl)
    · simp only [same.keys]
      exact (keys w).trans (if_neg hw.symm)
    · simp only [same.screens]
      exact (screens w).trans (if_neg hw.symm)
    · simp only [same.screens]
      exact (screens u).trans (if_pos rfl)
    · rw [same.keyWriter]
      exact pends
    · rw [same.keyWriter]
      exact marks h
    · simp only [same.stories]
      exact (story n).trans (if_pos hn)
    · simp only [same.desks]
      exact basket n hn
    · exact awaits_endAction cu (items n hn).1
    · exact awaits_endAction cu (items n hn).2
    · simp only [same.stories]
      exact (story n).trans (if_neg hn)

/-! ## Key intake's items (R78 to R80) -/

theorem exec_keyIntake (s : State) :
    exec .keyIntakeWriteBegin s = chipEvent Chip.beginKeyItem s ∧
      exec .keyWordWrite s = ownWrite .keyIntake Chip.keyWordWrite s ∧
      exec .putWordWrite s = ownWrite .keyIntake Chip.putWordWrite s ∧
      exec .statusWordWrite s = ownWrite .keyIntake Chip.statusWordWrite s := ⟨rfl, rfl, rfl, rfl⟩

theorem beginKeyItem_eq {k : KeyItem} {rest : List KeyItem} (hw : c.keyWriter.writing = none)
    (hp : c.keyWriter.pending = k :: rest) (hk : ∀ u : TerminalNo, k = .keyWords u → c.keys[u].waiting ≠ []) :
    c.beginKeyItem = { c with keyWriter := { pending := rest, writing := some k } } := by
  unfold Chip.beginKeyItem
  rw [hw, hp]
  cases k with
  | keyWords u =>
    have hwaiting : c.keys[u].waiting.isEmpty = false := List.isEmpty_eq_false_iff.mpr (hk u rfl)
    simp only [hwaiting]
    rfl
  | putWord u => rfl
  | takeWord u => rfl
  | keyState u => rfl
  | sessionWord u => rfl
  | linkWord u => rfl

/-- A ring whose first waiting key has been written. -/
def KeyRing.keyWritten (k : KeyRing) (b : Byte) (rest : List Byte) : KeyRing :=
  { k with waiting := rest, put := k.put + 1
           textMark := k.textMark || !isFunctionKey b
           functionMark := k.functionMark || isFunctionKey b }

/-- The part with one waiting key written. -/
def Chip.keyWritten (c : Chip) (t : TerminalNo) (b : Byte) (rest : List Byte) : Chip :=
  let d := (c.onKeys t (·.keyWritten b rest)).pendKey (.putWord t)
  if rest = [] then d.endKeyItem else d

theorem keyWordWrite_plan {b : Byte} {rest : List Byte} (hw : c.keyWriter.writing = some (.keyWords t))
    (hk : c.keys[t].waiting = b :: rest) :
    c.keyWordWrite = some { address := c.path.windowWord t (1920 + c.keys[t].put.val), value := wordOfByte b
                            after := c.keyWritten t b rest } := by
  simp only [Chip.keyWordWrite, hw, hk]
  rfl

theorem keyWritten_keys (c : Chip) (t : TerminalNo) (b : Byte) (rest : List Byte) (w : TerminalNo) :
    (c.keyWritten t b rest).keys[w] = if t = w then c.keys[w].keyWritten b rest else c.keys[w] := by
  have keys : (c.keyWritten t b rest).keys = (c.onKeys t (·.keyWritten b rest)).keys := by
    unfold Chip.keyWritten
    dsimp only
    split <;> rfl
  simp only [keys]
  exact onKeys_ring ..

theorem keyWritten_writer {b : Byte} {rest : List Byte} (h : c.keyWriter.writing = some (.keyWords t)) :
    .putWord t ∈ (c.keyWritten t b rest).keyWriter.pending ∧
      (c.keyWritten t b rest).keyWriter.writing = if rest = [] then none else some (.keyWords t) := by
  have joined : KeyItem.putWord t ∈ ((c.onKeys t (·.keyWritten b rest)).pendKey (.putWord t)).keyWriter.pending :=
    pendKey_joins (by simp)
  unfold Chip.keyWritten
  dsimp only
  split
  · exact ⟨joined, rfl⟩
  · exact ⟨joined, (pendKey_writing ..).trans h⟩

/-- A ring's key written, with the marks by the code's range. -/
theorem keyWritten_marks {k : KeyRing} {b : Byte} {rest : List Byte} (hb : b ≠ 0xF0) :
    k.keyWritten b rest = { k with
      waiting := rest, put := k.put + 1
      textMark := k.textMark || decide (b.toNat < 128)
      functionMark := k.functionMark || decide (128 ≤ b.toNat) } := by
  have function : isFunctionKey b = decide (128 ≤ b.toNat) := by
    rw [Bool.eq_iff_iff, isFunctionKey_iff hb, decide_eq_true_eq]
  have text : (!isFunctionKey b) = decide (b.toNat < 128) := by
    rw [function, ← decide_not]
    exact decide_eq_decide.mpr Nat.not_le
  rw [KeyRing.keyWritten, text, function]

/-- A cause raised when a mark asks for it. -/
def Chip.raiseIf (b : Bool) (k : Cause) (c : Chip) : Chip := if b then c.raise k else c

theorem raiseIf_fields (b : Bool) (k : Cause) (c : Chip) :
    (c.raiseIf b k).keys = c.keys ∧ (c.raiseIf b k).keyWriter = c.keyWriter ∧
      (c.raiseIf b k).cu.attentionRaw = c.cu.attentionRaw ||| (if b then k.bit else 0#8) := by
  cases b with
  | false => exact ⟨rfl, rfl, (BitVec.or_zero).symm⟩
  | true =>
    obtain ⟨_, _, _, _, raw, _⟩ := raise_unit c k
    exact ⟨by simp only [Chip.raiseIf, if_true, raise_fields], by simp only [Chip.raiseIf, if_true, raise_fields], raw⟩

/-- The part with the put word written. -/
def Chip.putWritten (c : Chip) (t : TerminalNo) : Chip :=
  (((c.onKeys t fun k => { k with textMark := false, functionMark := false }).raiseIf c.keys[t].textMark .keys).raiseIf
    c.keys[t].functionMark .function).endKeyItem

theorem putWordWrite_plan (hw : c.keyWriter.writing = some (.putWord t)) :
    c.putWordWrite = some { address := c.path.windowWord t 1984, value := wordOf c.keys[t].put.val
                            after := c.putWritten t } := by
  simp only [Chip.putWordWrite, hw]
  rfl

theorem putWritten_fields (c : Chip) (t : TerminalNo) :
    (∀ w : TerminalNo, (c.putWritten t).keys[w] =
        if t = w then { c.keys[w] with textMark := false, functionMark := false } else c.keys[w]) ∧
      (c.putWritten t).keyWriter = { c.keyWriter with writing := none } ∧
      (c.putWritten t).cu.attentionRaw = c.cu.attentionRaw |||
        ((if c.keys[t].textMark then 2#8 else 0#8) ||| (if c.keys[t].functionMark then 4#8 else 0#8)) := by
  obtain ⟨keys1, writer1, raw1⟩ := raiseIf_fields c.keys[t].textMark .keys
    (c.onKeys t fun k => { k with textMark := false, functionMark := false })
  obtain ⟨keys2, writer2, raw2⟩ := raiseIf_fields c.keys[t].functionMark .function
    ((c.onKeys t fun k => { k with textMark := false, functionMark := false }).raiseIf c.keys[t].textMark .keys)
  have keys := keys2.trans keys1
  have writer := writer2.trans writer1
  refine ⟨fun w => ?_, ?_, ?_⟩
  · simp only [Chip.putWritten, Chip.endKeyItem, Chip.onKeyWriter, keys]
    exact onKeys_ring ..
  · simp only [Chip.putWritten, Chip.endKeyItem, Chip.onKeyWriter, writer]
    rfl
  · simp only [Chip.putWritten, Chip.endKeyItem, Chip.onKeyWriter, raw2, raw1, BitVec.or_assoc]
    rfl

theorem statusWordWrite_plan {o : Nat} {v : Word}
    (h : c.keyWriter.writing = some (.takeWord u) ∧ o = 1985 ∧ v = wordOf c.keys[u].take.val ∨
      c.keyWriter.writing = some (.keyState u) ∧ o = 1986 ∧ v = c.keys[u].stateWord ∨
      c.keyWriter.writing = some (.sessionWord u) ∧ o = 1987 ∧ v = Session.word c.keys[u].session ∨
      c.keyWriter.writing = some (.linkWord u) ∧ o = 1988 ∧ v = c.links[u].word) :
    o < 2048 ∧ c.statusWordWrite = some { address := c.path.windowWord u o, value := v, after := c.endKeyItem } := by
  rcases h with ⟨hw, rfl, rfl⟩ | ⟨hw, rfl, rfl⟩ | ⟨hw, rfl, rfl⟩ | ⟨hw, rfl, rfl⟩ <;>
    exact ⟨by decide, by rw [Chip.statusWordWrite, hw]⟩

/-- Settles O46, by the plan of each item and what its last word leaves. -/
theorem keyIntakeWritesItsItems : Obligations.KeyIntakeWritesItsItems := by
  refine ⟨fun s i rest hr hw hp hi => ?_, fun s u base a hg hbase hroom ha => ?_⟩
  · obtain ⟨hexec, _⟩ := exec_keyIntake s
    rw [hexec, chipEvent_released hr, beginKeyItem_eq hw hp hi]
  obtain ⟨_, hkey, hput, hstatus⟩ := exec_keyIntake s
  have place : ∀ o, o < 2048 → s.chip.path.windowWord u o = some (a + o) ∧ a + o < Config.memoryWords := fun o ho => by
    have := u.isLt
    rw [windowWord_at hbase, ha]
    exact ⟨rfl, by omega⟩
  refine ⟨fun b rest hw hk hb => ?_, fun hw => ?_, fun o x hx => ?_⟩
  · have hlt := s.chip.keys[u].put.isLt
    obtain ⟨haddress, hin⟩ := place (1920 + s.chip.keys[u].put.val) (by omega)
    obtain ⟨pends, writing⟩ := keyWritten_writer (b := b) (rest := rest) hw
    rw [Nat.add_assoc]
    refine ⟨_, hkey.trans (ownWrite_served hg (keyWordWrite_plan hw hk) haddress hin), rfl, ?_, fun w hne => ?_, ?_, ?_⟩
    · simp only [granted_fields, keyWritten_keys, if_true, keyWritten_marks hb]
    · simp only [granted_fields, keyWritten_keys, if_neg hne.symm]
    · simp only [granted_fields]
      exact pends
    · simp only [granted_fields]
      exact writing
  · obtain ⟨haddress, hin⟩ := place 1984 (by decide)
    obtain ⟨keys, writer, raw⟩ := putWritten_fields s.chip u
    refine ⟨_, hput.trans (ownWrite_served hg (putWordWrite_plan hw) haddress hin), rfl, ?_, fun w hne => ?_, ?_, ?_⟩
    · simp only [granted_fields]
      exact (keys u).trans (if_pos rfl)
    · simp only [granted_fields]
      exact (keys w).trans (if_neg hne.symm)
    · simp only [granted_fields]
      exact writer
    · simp only [granted_fields]
      exact raw
  · obtain ⟨ho, hplan⟩ := statusWordWrite_plan hx
    obtain ⟨haddress, hin⟩ := place o ho
    exact ⟨_, hstatus.trans (ownWrite_served hg hplan haddress hin), rfl, rfl⟩

end

end Sys2Proof.Machine
end

section
/-! SUPPORT. SUBMIT, SEND, OPEN and RETURN: the checks they pass and what they leave (R91 to R97, R99, R103 to R106;
O48). -/

namespace Sys2Proof.Machine

section
variable {c d : Chip} {s : State} {n m : StoryNo} {x y : DeskNo} {t u w : TerminalNo} {i : MirrorItem} {a : Admits}
  {low : Clearance}

/-! ## Callers admitted by their session (R27, R99) -/

theorem callsAs_admitted {least : Clearance} (h : c.CallsAs u x low) (ha : a.terminal = some least)
    (hl : least.code ≤ low.code) : c.callerFault a = none := by
  obtain ⟨hcontext, z, hz, _, hlow⟩ := h
  exact callerFault_terminal hcontext ha hz (Nat.le_trans hl hlow)

theorem callsAs_caller (h : c.CallsAs u x low) : c.callerTerminal = some u := callerTerminal_terminal h.1

theorem callsAs_onDesk {least : Clearance} (h : c.CallsAs u x low) (hl : least.code ≤ low.code) :
    c.callerOnDesk x least = true := by
  obtain ⟨hcontext, z, hz, hdesk, hlow⟩ := h
  simp only [Chip.callerOnDesk, callerTerminal_terminal hcontext, hz, hdesk, Bool.and_eq_true, decide_eq_true_eq, true_and]
  exact Nat.le_trans hl hlow

theorem callsAsHolder_is (h : c.CallsAsHolder n) : c.callerIs c.stories[n].holder = true := by
  obtain ⟨u, x, hcalls, hholder⟩ := h
  simp only [Chip.callerIs, callsAs_caller hcalls, hholder, Option.isSome_some, decide_true, Bool.and_self]

theorem callsAsHolder_admitted (h : c.CallsAsHolder n) : c.callerFault .editors = none := by
  obtain ⟨u, x, hcalls, _⟩ := h
  exact callsAs_admitted hcalls rfl (Nat.le_refl _)

theorem custodyFault_passes {allowed relation : Bool} (hc : c.callerFault a = none) (ha : allowed = true)
    (hr : relation = true) : c.custodyFault a allowed relation = none := by
  simp only [Chip.custodyFault, hc, ha, hr, Bool.not_true, Bool.false_eq_true, if_false]

theorem flagArg_of {v : Word} {b : Bool} (h : v.toNat = b.toNat) : flagArg v = some b := by
  have hv : v = BitVec.ofNat 16 b.toNat := by rw [← h, BitVec.ofNat_toNat, BitVec.setWidth_eq]
  subst hv
  cases b <;> rfl

theorem exec_moves (s : State) :
    exec .submit s = takeCommand 12 Chip.submit s ∧ exec .openStory s = takeCommand 13 Chip.openStory s ∧
      exec .send s = takeCommand 14 Chip.send s ∧ exec .returnStory s = takeCommand 15 Chip.returnStory s :=
  ⟨rfl, rfl, rfl, rfl⟩

/-! ## A record changed beside its basket -/

/-- A story in no basket changes nothing by leaving one. -/
theorem filter_absent {b : List StoryNo} (h : n ∉ b) : b.filter (· ≠ n) = b :=
  List.filter_eq_self.mpr fun _ hm => decide_eq_true fun e => h (e ▸ hm)

theorem joinTail_collects (n : StoryNo) (c : Chip) :
    Chip.Collects [.story n, .desk c.stories[n].desk] c (c.joinTail n) := setBasket_collects ..

theorem leaveBasket_collects (n : StoryNo) (c : Chip) :
    Chip.Collects [.story n, .desk c.stories[n].desk] c (c.leaveBasket n) := setBasket_collects ..

/-- What the urgency of each story is after one record has been changed. -/
theorem urgent_onStory (n : StoryNo) (f : Story → Story) (c : Chip) (m : StoryNo) :
    (c.onStory n f).urgent m = if n = m then (f c.stories[m]).urgent else c.urgent m := by
  unfold Chip.urgent
  rw [onStory_story]
  split <;> rfl

/-! ## SUBMIT (R103) -/

/-- The part with a story at the tail of its class in the basket of `x`. -/
def Chip.submitted (c : Chip) (n : StoryNo) (x : DeskNo) : Chip :=
  (c.onStory n fun z => { z with desk := x, state := .basket }).joinTail n

theorem submit_answers (hn : finArg 1024 (c.cu.arg 1) = some n) (hx : finArg 16 (c.cu.arg 2) = some x)
    (hstate : c.stories[n].state = .intake) (hsystem : c.cu.context = .system) :
    c.submit = if c.basketFull x n then .refuse .basketFull else .done (c.submitted n x) [] := by
  simp only [Chip.submit, hn, hx, custodyFault_passes (relation := true)
    (callerFault_systemOnly_system hsystem) (decide_eq_true hstate) rfl]
  rfl

theorem submitted_story (c : Chip) (n : StoryNo) (x : DeskNo) (m : StoryNo) :
    (c.submitted n x).stories[m] = if n = m then { c.stories[m] with desk := x, state := .basket } else c.stories[m] := by
  rw [Chip.submitted, joinTail_stories, onStory_story]

theorem submitted_desk {front back : List StoryNo} (hb : c.desks[x].basket = front ++ back)
    (hf : ∀ m ∈ front, c.stories[m].urgent = true) (hk : ∀ m ∈ back, c.stories[m].urgent = false) (y : DeskNo) :
    (c.submitted n x).desks[y] = if x = y then { c.desks[y] with
      basket := if c.stories[n].urgent then front ++ n :: back else front ++ back ++ [n] } else c.desks[y] := by
  have urgent : (c.onStory n fun z => { z with desk := x, state := .basket }).urgent = c.urgent := by
    funext m
    rw [urgent_onStory]
    split <;> rfl
  have desk : (c.onStory n fun z => { z with desk := x, state := .basket }).stories[n].desk = x := by rw [onStory_self]
  rw [Chip.submitted, joinTail_desk, urgent, desk]
  simp only [onStory_fields]
  split
  · next h =>
    subst h
    rw [hb, tailOf_class (urgent := c.urgent) hf hk]
    rfl
  · rfl

theorem submitted_collects (c : Chip) (n : StoryNo) (x : DeskNo) :
    Chip.Collects [.story n, .desk x] c (c.submitted n x) := by
  have joins := joinTail_collects n (c.onStory n fun z => { z with desk := x, state := .basket })
  rw [onStory_self] at joins
  exact (Chip.Collects.of_cu (by rfl)).trans joins

/-! ## SEND (R105) -/

/-- A record as SEND leaves it, its leaving apart. -/
def Story.sent (x : DeskNo) (urgent : Bool) (z : Story) : Story :=
  { z with desk := x, urgent := urgent, version := if z.version = 255 then 255 else z.version + 1, state := .basket }

/-- The part with a story taken from its holder or its basket. -/
def Chip.taken (c : Chip) (n : StoryNo) : Chip := if c.stories[n].state = .open_ then c.leaveOpen n else c.leaveBasket n

theorem sendStory_eq (n : StoryNo) (x : DeskNo) (urgent : Bool) (c : Chip) :
    c.sendStory n x urgent =
      (((c.taken n).onStory n (Story.sent x urgent)).joinTail n).post .arrived n.val (some x.val) (.desk x) := rfl

theorem taken_open (h : c.stories[n].state = .open_) : c.taken n = c.leaveOpen n := if_pos h

theorem taken_basket (h : c.stories[n].state = .basket) : c.taken n = c.leaveBasket n :=
  if_neg (by rw [h]; exact nofun)

theorem taken_others (hm : m ≠ n) : (c.taken n).stories[m] = c.stories[m] := by
  unfold Chip.taken
  split
  · exact (moves_leaveOpen n c).others m hm
  · simp only [leaveBasket_stories]

/-- R94: the story stands in no basket once it has been taken. -/
theorem taken_baskets (hb : ∀ y : DeskNo, n ∈ c.desks[y].basket → c.stories[n].state = .basket ∧ c.stories[n].desk = y)
    (hs : c.stories[n].state = .open_ ∨ c.stories[n].state = .basket) (y : DeskNo) :
    (c.taken n).desks[y].basket = c.desks[y].basket.filter (· ≠ n) := by
  rcases hs with h | h
  · have absent : n ∉ c.desks[y].basket := fun hn => by
      have := (hb y hn).1
      rw [h] at this
      cases this
    rw [taken_open h, leaveOpen_desk, filter_absent absent]
    split <;> rfl
  · rw [taken_basket h, leaveBasket_desk]
    split
    · rfl
    · next hy => exact (filter_absent fun hn => hy (hb y hn).2).symm

theorem taken_keys (n : StoryNo) (c : Chip) : (c.taken n).keys = c.keys ∧ (c.taken n).screens = c.screens := by
  unfold Chip.taken
  split
  · exact ⟨(does_leaveOpen n c).frame .keys (by decide), (does_leaveOpen n c).frame .screens (by decide)⟩
  · exact ⟨(does_leaveBasket n c).frame .keys (by decide), (does_leaveBasket n c).frame .screens (by decide)⟩

theorem taken_collects (n : StoryNo) (c : Chip) : Chip.Collects [] c (c.taken n) := by
  unfold Chip.taken
  split
  · exact (leaveOpen_collects n c).mono nofun
  · exact (leaveBasket_collects n c).mono nofun

theorem send_answers {urgent : Bool} (hn : finArg 1024 (c.cu.arg 1) = some n) (hx : finArg 16 (c.cu.arg 2) = some x)
    (hu : flagArg (c.cu.arg 3) = some urgent)
    (h : c.stories[n].state = .open_ ∧ c.CallsAsHolder n ∨ c.stories[n].state = .basket ∧
      (c.cu.context = .system ∨ ∃ u, c.CallsAs u c.stories[n].desk .slot)) :
    c.send = if c.basketFull x n then .refuse .basketFull else .done (c.sendStory n x urgent) [] := by
  have fault : c.custodyFault .editors (c.stories[n].state = .open_ || c.stories[n].state = .basket)
      (if c.stories[n].state = .open_ then c.callerIs c.stories[n].holder
        else c.callerSystem || c.callerOnDesk c.stories[n].desk .slot) = none := by
    rcases h with ⟨hs, hholder⟩ | ⟨hs, hcaller⟩
    · refine custodyFault_passes (callsAsHolder_admitted hholder) (by rw [hs]; rfl) ?_
      rw [if_pos hs]
      exact callsAsHolder_is hholder
    · have hne : c.stories[n].state ≠ .open_ := by rw [hs]; exact nofun
      rcases hcaller with hsystem | ⟨u, hcalls⟩
      · refine custodyFault_passes (callerFault_system hsystem rfl) (by rw [hs]; rfl) ?_
        rw [if_neg hne, callerSystem_system hsystem, Bool.true_or]
      · refine custodyFault_passes (callsAs_admitted hcalls rfl (by decide)) (by rw [hs]; rfl) ?_
        rw [if_neg hne, callsAs_onDesk hcalls (Nat.le_refl _), Bool.or_true]
  simp only [Chip.send, hn, hx, hu, fault]

theorem sendStory_story (n : StoryNo) (x : DeskNo) (urgent : Bool) (c : Chip) :
    (c.sendStory n x urgent).stories = ((c.taken n).onStory n (Story.sent x urgent)).stories := by
  rw [sendStory_eq, post_stories, joinTail_stories]

theorem sendStory_others (urgent : Bool) (hm : m ≠ n) : (c.sendStory n x urgent).stories[m] = c.stories[m] := by
  simp only [sendStory_story, onStory_ne _ hm, taken_others hm]

theorem sendStory_open (urgent : Bool) (h : c.stories[n].state = .open_) :
    (c.sendStory n x urgent).stories[n] = { c.stories[n] with
      desk := x, urgent := urgent, state := .basket, holder := none, lease := none
      version := if c.stories[n].version = 255 then 255 else c.stories[n].version + 1 } := by
  simp only [sendStory_story, onStory_self, taken_open h, leaveOpen_self]
  rfl

theorem sendStory_basket (urgent : Bool) (h : c.stories[n].state = .basket) :
    (c.sendStory n x urgent).stories[n] = { c.stories[n] with
      desk := x, urgent := urgent
      version := if c.stories[n].version = 255 then 255 else c.stories[n].version + 1 } := by
  simp only [sendStory_story, onStory_self, taken_basket h, leaveBasket_stories]
  rw [Story.sent, ← h]

theorem sendStory_desk (n : StoryNo) (x : DeskNo) (urgent : Bool) (c : Chip) (y : DeskNo) :
    (c.sendStory n x urgent).desks[y] = if x = y then { (c.taken n).desks[y] with
      basket := tailOf ((c.taken n).onStory n (Story.sent x urgent)).urgent n (c.taken n).desks[y].basket }
      else (c.taken n).desks[y] := by
  have desk : ((c.taken n).onStory n (Story.sent x urgent)).stories[n].desk = x := by rw [onStory_self]; rfl
  have desks : (c.sendStory n x urgent).desks = (((c.taken n).onStory n (Story.sent x urgent)).joinTail n).desks := by
    rw [sendStory_eq]
    simp only [post_fields]
  simp only [desks]
  rw [joinTail_desk, desk]
  simp only [onStory_fields]

/-- The basket of the desk a story is sent to (R92). -/
theorem sendStory_target {urgent : Bool} {others front back : List StoryNo}
    (hb : ∀ y : DeskNo, n ∈ c.desks[y].basket → c.stories[n].state = .basket ∧ c.stories[n].desk = y)
    (hs : c.stories[n].state = .open_ ∨ c.stories[n].state = .basket)
    (ho : others = c.desks[x].basket.filter (· ≠ n)) (hsplit : others = front ++ back)
    (hf : ∀ m ∈ front, c.stories[m].urgent = true) (hk : ∀ m ∈ back, c.stories[m].urgent = false) :
    (c.sendStory n x urgent).desks[x].basket =
      if urgent then front ++ n :: back else front ++ back ++ [n] := by
  have apart : ∀ m, m ∈ front ∨ m ∈ back → m ≠ n := fun m hm => by
    have hmem : m ∈ others := hsplit ▸ List.mem_append.mpr hm
    rw [ho] at hmem
    exact of_decide_eq_true (List.mem_filter.mp hmem).2
  have same : ∀ m, m ≠ n → ((c.taken n).onStory n (Story.sent x urgent)).urgent m = c.stories[m].urgent := fun m hm => by
    unfold Chip.urgent
    rw [onStory_ne _ hm, taken_others hm]
  have own : ((c.taken n).onStory n (Story.sent x urgent)).urgent n = urgent := by
    unfold Chip.urgent
    rw [onStory_self]
    rfl
  rw [sendStory_desk, if_pos rfl]
  dsimp only
  rw [taken_baskets hb hs, ← ho, hsplit, tailOf_class (fun m hm => (same m (apart m (Or.inl hm))).trans (hf m hm))
    (fun m hm => (same m (apart m (Or.inr hm))).trans (hk m hm)), own]

theorem sendStory_otherBasket (urgent : Bool)
    (hb : ∀ y : DeskNo, n ∈ c.desks[y].basket → c.stories[n].state = .basket ∧ c.stories[n].desk = y)
    (hs : c.stories[n].state = .open_ ∨ c.stories[n].state = .basket) (hy : y ≠ x) :
    (c.sendStory n x urgent).desks[y].basket = c.desks[y].basket.filter (· ≠ n) := by
  rw [sendStory_desk, if_neg hy.symm, taken_baskets hb hs]

/-- What a SEND leaves of the old holder's held set and of the desk the story was open at. -/
theorem sendStory_holder (urgent : Bool) (hs : c.stories[n].state = .open_) (hu : c.stories[n].holder = some u) :
    (c.sendStory n x urgent).custody.held[u] = c.custody.held[u].filter (· ≠ n) ∧
      (c.sendStory n x urgent).desks[c.stories[n].desk].openCount = c.desks[c.stories[n].desk].openCount - 1 := by
  have custody : (c.sendStory n x urgent).custody = (c.leaveOpen n).custody := by
    rw [sendStory_eq, taken_open hs]
    simp only [post_fields]
    exact (does_joinTail n _).frame .custody (by decide)
  refine ⟨?_, ?_⟩
  · simp only [custody]
    exact (leaveOpen_held ..).trans (if_pos hu)
  · rw [sendStory_desk, taken_open hs]
    split <;> rw [leaveOpen_desk, if_pos rfl]

theorem sendStory_screens (n : StoryNo) (x : DeskNo) (urgent : Bool) (c : Chip) (w : TerminalNo) :
    (c.sendStory n x urgent).screens[w] = if c.receives w (.desk x) then
      c.screens[w].enter { kind := .arrived, subject := n.val, second := some x.val, count := 1 } else c.screens[w] := by
  obtain ⟨keys, screens⟩ := taken_keys n c
  have does := does_joinTail n ((c.taken n).onStory n (Story.sent x urgent))
  have joinedKeys : (((c.taken n).onStory n (Story.sent x urgent)).joinTail n).keys = c.keys :=
    (does.frame .keys (by decide)).trans keys
  have joinedScreens : (((c.taken n).onStory n (Story.sent x urgent)).joinTail n).screens = c.screens :=
    (does.frame .screens (by decide)).trans screens
  have receives : (((c.taken n).onStory n (Story.sent x urgent)).joinTail n).receives w (.desk x) =
      c.receives w (.desk x) := by
    simp only [Chip.receives, Chip.session, joinedKeys]
  rw [sendStory_eq, post_screens, receives]
  simp only [joinedScreens]

theorem sendStory_collects (n : StoryNo) (x : DeskNo) (urgent : Bool) (c : Chip) :
    Chip.Collects [.story n, .desk x] c (c.sendStory n x urgent) := by
  have joins := joinTail_collects n ((c.taken n).onStory n (Story.sent x urgent))
  have desk : ((c.taken n).onStory n (Story.sent x urgent)).stories[n].desk = x := by rw [onStory_self]; rfl
  rw [desk] at joins
  refine (((taken_collects n c).thenSame ?_).trans joins).thenSame ?_
  · rfl
  · rw [sendStory_eq]
    simp only [post_fields]

/-! ## OPEN (R104) -/

/-- The part with a story of a basket opened at terminal `u`. -/
def Chip.openedAt (c : Chip) (n : StoryNo) (u : TerminalNo) : Chip := (c.leaveBasket n).enterOpen n u

theorem openStory_answers (hn : finArg 1024 (c.cu.arg 1) = some n) (hstate : c.stories[n].state = .basket)
    (hcalls : c.CallsAs u c.stories[n].desk .edit) :
    c.openStory = if 2 ≤ c.custody.held[u].length then .refuse .listFull else .done (c.openedAt n u) [] := by
  have fault : c.custodyFault { system := false, terminal := some .edit } (c.stories[n].state = .basket)
      (c.callerOnDesk c.stories[n].desk .read) = none :=
    custodyFault_passes (callsAs_admitted hcalls rfl (Nat.le_refl _)) (decide_eq_true hstate) (callsAs_onDesk hcalls (by decide))
  simp only [Chip.openStory, hn, fault, callsAs_caller hcalls, Chip.callerHoldsTwo, decide_eq_true_eq]
  rfl

theorem armedLease_eq (c : Chip) (x : DeskNo) :
    c.armedLease x = if c.desks[x].idleLimit = 0 then none
      else some { remaining := c.desks[x].idleLimit, warned := false } := rfl

theorem openedAt_self (n : StoryNo) (u : TerminalNo) (c : Chip) :
    (c.openedAt n u).stories[n] = { c.stories[n] with
      state := .open_, holder := some u
      lease := if c.desks[c.stories[n].desk].idleLimit = 0 then none
        else some { remaining := c.desks[c.stories[n].desk].idleLimit, warned := false } } := by
  rw [Chip.openedAt, enterOpen_self, leaveBasket_stories, armedLease_eq, leaveBasket_desk, if_pos rfl]

theorem openedAt_others (hm : m ≠ n) : (c.openedAt n u).stories[m] = c.stories[m] := by
  rw [Chip.openedAt, (moves_enterOpen n u _).others m hm, leaveBasket_stories]

theorem openedAt_desk (n : StoryNo) (u : TerminalNo) (c : Chip) (y : DeskNo) :
    (c.openedAt n u).desks[y] = if c.stories[n].desk = y then { c.desks[y] with
      basket := c.desks[y].basket.filter (· ≠ n), openCount := c.desks[y].openCount + 1 } else c.desks[y] := by
  rw [Chip.openedAt, enterOpen_desk, leaveBasket_stories, leaveBasket_desk]
  split <;> rfl

theorem openedAt_held (n : StoryNo) (u : TerminalNo) (c : Chip) :
    (c.openedAt n u).custody.held[u] = c.custody.held[u] ++ [n] := by
  have custody : (c.leaveBasket n).custody = c.custody := (does_leaveBasket n c).frame .custody (by decide)
  rw [Chip.openedAt, enterOpen_held, if_pos rfl, custody]

theorem openedAt_collects (n : StoryNo) (u : TerminalNo) (c : Chip) :
    Chip.Collects [.story n, .desk c.stories[n].desk] c (c.openedAt n u) :=
  ((leaveBasket_collects n c).trans (enterOpen_collects n u _)).mono fun _ hi => List.mem_append_left _ hi

/-! ## RETURN (R106) -/

theorem returnStory_answers (hn : finArg 1024 (c.cu.arg 1) = some n) (hstate : c.stories[n].state = .open_)
    (hcaller : c.cu.context = .system ∨ c.CallsAsHolder n) : c.returnStory = .done (c.returnToHead n) [] := by
  have fault : c.custodyFault .editors (c.stories[n].state = .open_)
      (c.callerSystem || c.callerIs c.stories[n].holder) = none := by
    rcases hcaller with hsystem | hholder
    · exact custodyFault_passes (callerFault_system hsystem rfl) (decide_eq_true hstate)
        (by rw [callerSystem_system hsystem, Bool.true_or])
    · exact custodyFault_passes (callsAsHolder_admitted hholder) (decide_eq_true hstate)
        (by rw [callsAsHolder_is hholder, Bool.or_true])
  simp only [Chip.returnStory, hn, fault]

/-- What SUBMIT answers and leaves. -/
theorem submit_moves {x : Story} {d : DeskNo} (hn : finArg 1024 (s.chip.cu.arg 1) = some n)
    (hx : x = s.chip.stories[n]) (hlaw : ∀ e : DeskNo, n ∈ s.chip.desks[e].basket → x.state = .basket ∧ x.desk = e)
    (hs : s.Serves 12) (hd : (s.chip.cu.arg 2).toNat = d.val) (hstate : x.state = .intake)
    (hsystem : s.chip.cu.context = .system) :
    (s.chip.desks[d].basketLimit ≤ s.chip.desks[d].basket.length →
      takeCommand 12 Chip.submit s = .next (s.refusedWith .basketFull [])) ∧
    ∀ front back, s.chip.desks[d].basket.length < s.chip.desks[d].basketLimit →
      s.chip.desks[d].basket = front ++ back → (∀ m ∈ front, s.chip.stories[m].urgent = true) →
      (∀ m ∈ back, s.chip.stories[m].urgent = false) →
      ∃ t, takeCommand 12 Chip.submit s = .next t ∧ t.memory = s.memory ∧ t.chip.Ended .ok [] ∧
        t.chip.stories[n] = { x with desk := d, state := .basket } ∧
        (∀ m : StoryNo, m ≠ n → t.chip.stories[m] = s.chip.stories[m]) ∧
        t.chip.desks[d] = { s.chip.desks[d] with
          basket := if x.urgent then front ++ n :: back else front ++ back ++ [n] } ∧
        (∀ e : DeskNo, e ≠ d → t.chip.desks[e] = s.chip.desks[e]) ∧ t.chip.Awaits (.story n) ∧
        t.chip.Awaits (.desk d) := by
  subst hx
  have answer := submit_answers (c := s.chip.collect) hn (finArg_inside hd) hstate hsystem
  have absent : n ∉ s.chip.desks[d].basket := fun hmem => by
    have := (hlaw d hmem).1
    rw [hstate] at this
    cases this
  have full : s.chip.collect.basketFull d n = decide (s.chip.desks[d].basketLimit ≤ s.chip.desks[d].basket.length) := by
    rw [Chip.basketFull]
    simp only [collect_fields, filter_absent absent]
  rw [full] at answer
  refine ⟨fun h => takeCommand_refused hs (answer.trans (if_pos (decide_eq_true h))), fun front back hroom hsplit hf hb => ?_⟩
  obtain ⟨t, hstep, hmemory, ended, same, cu⟩ := command_ends hs
    (answer.trans (if_neg fun h => Nat.not_le.mpr hroom (of_decide_eq_true h)))
  have story := submitted_story s.chip.collect n d
  have desk := submitted_desk (c := s.chip.collect) (n := n) hsplit hf hb
  have joins := (submitted_collects s.chip.collect n d).joins rfl
  simp only [collect_fields] at story desk
  refine ⟨t, hstep, hmemory, ended, ?_, fun m hm => ?_, ?_, fun e he => ?_, awaits_endAction cu (joins _ (by simp)),
    awaits_endAction cu (joins _ (by simp))⟩
  · simp only [same.stories, story, if_true]
  · simp only [same.stories, story, if_neg hm.symm]
  · simp only [same.desks, desk, if_true]
  · simp only [same.desks, desk, if_neg he.symm]

/-- What SEND answers and leaves. -/
theorem send_moves {x : Story} {d : DeskNo} {urgent : Bool} (hn : finArg 1024 (s.chip.cu.arg 1) = some n)
    (hx : x = s.chip.stories[n]) (hlaw : ∀ e : DeskNo, n ∈ s.chip.desks[e].basket → x.state = .basket ∧ x.desk = e)
    (hs : s.Serves 14) (hd : (s.chip.cu.arg 2).toNat = d.val) (hu : (s.chip.cu.arg 3).toNat = urgent.toNat)
    (hcaller : x.state = .open_ ∧ s.chip.CallsAsHolder n ∨
      x.state = .basket ∧ (s.chip.cu.context = .system ∨ ∃ u, s.chip.CallsAs u x.desk .slot)) (others : List StoryNo)
    (hothers : others = s.chip.desks[d].basket.filter (· ≠ n)) :
    (s.chip.desks[d].basketLimit ≤ others.length →
      takeCommand 14 Chip.send s = .next (s.refusedWith .basketFull [])) ∧
    (others.length < s.chip.desks[d].basketLimit → ∃ t, takeCommand 14 Chip.send s = .next t ∧ t.memory = s.memory ∧
      t.chip.Ended .ok [] ∧ (s.chip.collect.sendStory n d urgent).SameBlocks t.chip ∧ t.chip.Awaits (.story n) ∧
      t.chip.Awaits (.desk d)) := by
  subst hx
  have answer := send_answers (c := s.chip.collect) hn (finArg_inside hd) (flagArg_of hu) hcaller
  have full : s.chip.collect.basketFull d n = decide (s.chip.desks[d].basketLimit ≤ others.length) := by
    rw [Chip.basketFull, hothers]
    simp only [collect_fields]
  rw [full] at answer
  refine ⟨fun h => takeCommand_refused hs (answer.trans (if_pos (decide_eq_true h))), fun hroom => ?_⟩
  obtain ⟨t, hstep, hmemory, ended, same, cu⟩ := command_ends hs
    (answer.trans (if_neg fun h => Nat.not_le.mpr hroom (of_decide_eq_true h)))
  have joins := (sendStory_collects n d urgent s.chip.collect).joins rfl
  exact ⟨t, hstep, hmemory, ended, same, awaits_endAction cu (joins _ (by simp)), awaits_endAction cu (joins _ (by simp))⟩

/-- Settles O48, by what each command leaves entry by entry. -/
theorem storiesMoveBetweenBasketsAndHolders : Obligations.StoriesMoveBetweenBasketsAndHolders := by
  intro s n x hn hx hlaw
  obtain ⟨hsubmit, hopen, hsend, hreturn⟩ := exec_moves s
  rw [hsubmit, hopen, hsend, hreturn]
  refine ⟨fun d hs hd hstate hsystem => submit_moves hn hx hlaw hs hd hstate hsystem,
    fun d urgent hs hd hu hcaller others hothers => ?_, fun u hs hstate hcalls => ?_,
    fun u front back hs hstate hholder hcaller hsplit hf hb => ?_⟩
  · obtain ⟨hfull, hroom⟩ := send_moves (d := d) hn hx hlaw hs hd hu hcaller others hothers
    refine ⟨hfull, fun front back hlt hsplit hf hb => ?_⟩
    obtain ⟨t, hstep, hmemory, ended, same, story, desk⟩ := hroom hlt
    subst hx
    have hs' : s.chip.collect.stories[n].state = .open_ ∨ s.chip.collect.stories[n].state = .basket :=
      hcaller.imp And.left And.left
    have screens := sendStory_screens n d urgent s.chip.collect
    have target := sendStory_target (c := s.chip.collect) (urgent := urgent) hlaw hs' hothers hsplit hf hb
    have other := fun e (he : e ≠ d) => sendStory_otherBasket (c := s.chip.collect) urgent hlaw hs' he
    have same' := fun m (hm : m ≠ n) => sendStory_others (c := s.chip.collect) (x := d) urgent hm
    refine ⟨t, hstep, hmemory, ended, fun h => ?_, fun h => ?_, fun m hm => ?_, ?_, fun e he => ?_, fun h u hu => ?_,
      fun w => ?_, story, desk⟩
    · simp only [same.stories]
      exact sendStory_open (c := s.chip.collect) urgent h
    · simp only [same.stories]
      exact sendStory_basket (c := s.chip.collect) urgent h
    · simp only [same.stories]
      exact same' m hm
    · simp only [same.desks]
      exact target
    · simp only [same.desks]
      exact other e he
    · simp only [same.custody, same.desks]
      exact sendStory_holder (c := s.chip.collect) urgent h hu
    · simp only [same.screens, screens]
      cases hz : s.chip.session w with
      | none =>
        obtain ⟨_, receives, _⟩ := receives_signedOff (c := s.chip.collect) hz
        simp only [receives, Bool.false_eq_true, if_false, collect_fields]
      | some z =>
        obtain ⟨_, receives, _⟩ := receives_signedOn (c := s.chip.collect) hz
        simp only [receives, decide_eq_true_eq, collect_fields]
  · subst hx
    have answer := openStory_answers (c := s.chip.collect) hn hstate hcalls
    refine ⟨fun h => takeCommand_refused hs (answer.trans (if_pos h)), fun hroom => ?_⟩
    obtain ⟨t, hstep, hmemory, ended, same, cu⟩ := command_ends hs (answer.trans (if_neg (Nat.not_le.mpr hroom)))
    have story := openedAt_self n u s.chip.collect
    have desk := openedAt_desk n u s.chip.collect
    have held := openedAt_held n u s.chip.collect
    have others := fun m (hm : m ≠ n) => openedAt_others (c := s.chip.collect) (u := u) hm
    have joins := (openedAt_collects n u s.chip.collect).joins rfl
    simp only [collect_fields] at story desk held others joins
    refine ⟨t, hstep, hmemory, ended, ?_, fun m hm => ?_, ?_, ?_, fun e he => ?_,
      awaits_endAction cu (joins _ (by simp)), awaits_endAction cu (joins _ (by simp))⟩
    · simp only [same.stories, story]
    · simp only [same.stories, others m hm]
    · simp only [same.custody, held]
    · simp only [same.desks, desk, if_true]
    · simp only [same.desks, desk, if_neg he.symm]
  · subst hx
    obtain ⟨t, hstep, hmemory, ended, same, cu⟩ :=
      command_ends hs (returnStory_answers (c := s.chip.collect) hn hstate hcaller)
    have hopened : s.chip.collect.stories[n].state = .open_ := hstate
    have story := returnToHead_story hopened
    have desk := returnToHead_desk hopened
    have held := returnToHead_held hopened u
    have joins := (returnToHead_collects hopened).joins rfl
    have screens : (s.chip.collect.returnToHead n).screens = s.chip.screens :=
      (does_returnToHead n s.chip.collect).frame .screens (by decide)
    have head : headOf s.chip.collect.urgent n s.chip.desks[s.chip.stories[n].desk].basket =
        if s.chip.stories[n].urgent then n :: (front ++ back) else front ++ n :: back := by
      rw [hsplit]
      exact headOf_class hf hb
    simp only [collect_fields] at story desk held joins
    refine ⟨t, hstep, hmemory, ended, ?_, fun m hm => ?_, ?_, ?_, fun e he => ?_, same.screens.trans screens,
      awaits_endAction cu (joins _ (by simp)), awaits_endAction cu (joins _ (by simp))⟩
    · simp only [same.stories, story, if_true]
      rfl
    · simp only [same.stories, story, if_neg hm.symm]
    · simp only [same.custody, held, hholder, if_true]
    · simp only [same.desks, desk, if_true, head]
    · simp only [same.desks, desk, if_neg he.symm]

end

end Sys2Proof.Machine
end

section
/-! SUPPORT. CREATE, ATTACH and DETACH (R88, R96, R97, R100 to R102, R133; O47). -/

namespace Sys2Proof.Machine

section
variable {c d : Chip} {s : State} {n m : StoryNo} {x y : DeskNo} {t u w : TerminalNo} {i : MirrorItem} {b : BlockNo}
  {urgent : Bool}

theorem exec_creates (s : State) :
    exec .create s = takeCommand 9 Chip.create s ∧ exec .attach s = takeCommand 10 Chip.attach s ∧
      exec .detach s = takeCommand 11 Chip.detach s := ⟨rfl, rfl, rfl⟩

/-! ## A story staled at the end of a custody command (R133) -/

/-- What staling `n`, standing as it does in `d`, leaves of the records, in an event that began with the fit of `c`. -/
structure Chip.StaledFrom (n : StoryNo) (c d e : Chip) : Prop where
  itself : d.stories[n].SameOutsideFit e.stories[n]
  others : ∀ m : StoryNo, m ≠ n → d.stories[m].SameOutsideFit e.stories[m]
  busy : c.fit.run.isSome = true → e.HasStaled n d.stories[n] c.fit.queue ∧
    ∀ m : StoryNo, m ≠ n → e.stories[m] = d.stories[m]
  custody : e.custody = d.custody
  desks : e.desks = d.desks
  awaits : ∀ i, d.Awaits i → e.Awaits i

theorem staleStory_staled (hfit : d.fit = c.fit) (hfree : d.stories[n].state ≠ .free) :
    Chip.StaledFrom n c d (d.staleStory n) where
  itself := (fit_staleStory n d).outside n
  others m _ := (fit_staleStory n d).outside m
  busy h := by
    rw [← hfit] at h ⊢
    exact staleStory_hasStaled n d h hfree
  custody := (does_staleStory n d).frame .custody (by decide)
  desks := (does_staleStory n d).frame .desks (by decide)
  awaits := (fit_staleStory n d).awaits

/-! ## CREATE (R100) -/

theorem lowestFree_some (h : c.stories[n].state = .free) (hlow : ∀ m : StoryNo, m < n → c.stories[m].state ≠ .free) :
    c.lowestFree = some n := by
  have rises : (List.finRange 1024).Pairwise (· < ·) := List.pairwise_lt_finRange 1024
  obtain ⟨front, back, hsplit⟩ := List.append_of_mem (List.mem_finRange n)
  rw [Chip.lowestFree, List.find?_eq_some_iff_append]
  refine ⟨decide_eq_true h, front, back, hsplit, fun m hm => ?_⟩
  rw [hsplit] at rises
  have below := (List.pairwise_append.mp rises).2.2 m hm n List.mem_cons_self
  rw [decide_eq_false (hlow m below)]
  rfl

/-- A record as CREATE fills it in. -/
def Story.made (x : DeskNo) (urgent : Bool) (stamp : Word) (z : Story) : Story :=
  { z with desk := x, urgent := urgent, stamp := stamp }

/-- The part with the record of `n` filled in. -/
def Chip.filled (c : Chip) (n : StoryNo) (x : DeskNo) (urgent : Bool) : Chip :=
  (c.onStory n (Story.made x urgent c.clock.count)).mark (.story n)

/-- The part with the new story INTAKE for SYSTEM, or OPEN for the calling terminal. -/
def Chip.placed (c : Chip) (n : StoryNo) (caller : Option TerminalNo) : Chip :=
  match caller with
  | some t => c.enterOpen n t
  | none => c.onStory n fun z => { z with state := .intake }

/-- The part with one story fewer FREE. -/
def Chip.oneFewer (c : Chip) : Chip := (c.onCustody fun k => { k with freeStories := k.freeStories - 1 }).mark .freeStories

theorem createStory_eq (n : StoryNo) (x : DeskNo) (urgent : Bool) (c : Chip) :
    c.createStory n x urgent = (((c.filled n x urgent).placed n (c.filled n x urgent).callerTerminal).oneFewer).staleStory n :=
  rfl

theorem filled_self (c : Chip) (n : StoryNo) (x : DeskNo) (urgent : Bool) :
    (c.filled n x urgent).stories[n] = c.stories[n].made x urgent c.clock.count := by
  simp only [Chip.filled, mark_fields, onStory_self]

theorem filled_others (hm : m ≠ n) : (c.filled n x urgent).stories[m] = c.stories[m] := by
  simp only [Chip.filled, mark_fields, onStory_ne _ hm]

theorem filled_fields (c : Chip) (n : StoryNo) (x : DeskNo) (urgent : Bool) :
    (c.filled n x urgent).desks = c.desks ∧ (c.filled n x urgent).custody = c.custody ∧ (c.filled n x urgent).fit = c.fit ∧
      (c.filled n x urgent).callerTerminal = c.callerTerminal := by
  simp only [Chip.filled, Chip.callerTerminal, mark_fields]
  exact ⟨rfl, rfl, rfl, rfl⟩

theorem filled_collects (c : Chip) (n : StoryNo) (x : DeskNo) (urgent : Bool) :
    Chip.Collects [.story n] c (c.filled n x urgent) :=
  (Chip.Collects.of_cu (c := c) (d := c.onStory n (Story.made x urgent c.clock.count)) rfl).trans (.mark (.story n) _)

theorem placed_others {caller : Option TerminalNo} (hm : m ≠ n) : (c.placed n caller).stories[m] = c.stories[m] := by
  cases caller with
  | none => exact onStory_ne _ hm
  | some t => exact (moves_enterOpen n t c).others m hm

theorem placed_collects (n : StoryNo) (caller : Option TerminalNo) (c : Chip) :
    Chip.Collects [] c (c.placed n caller) := by
  cases caller with
  | none => exact .of_cu rfl
  | some t => exact (enterOpen_collects n t c).mono nofun

theorem placed_fit (n : StoryNo) (caller : Option TerminalNo) (c : Chip) : (c.placed n caller).fit = c.fit := by
  cases caller with
  | none => rfl
  | some t => exact (moves_enterOpen n t c).fit

theorem placed_freeStories (n : StoryNo) (caller : Option TerminalNo) (c : Chip) :
    (c.placed n caller).custody.freeStories = c.custody.freeStories := by
  cases caller with
  | none => rfl
  | some t => rw [Chip.placed, (moves_enterOpen n t c).custody]

theorem placed_baskets (n : StoryNo) (caller : Option TerminalNo) (c : Chip) (y : DeskNo) :
    (c.placed n caller).desks[y].basket = c.desks[y].basket := by
  cases caller with
  | none => rfl
  | some t =>
    rw [Chip.placed, enterOpen_desk]
    split <;> rfl

theorem oneFewer_fields (c : Chip) :
    c.oneFewer.stories = c.stories ∧ c.oneFewer.desks = c.desks ∧ c.oneFewer.fit = c.fit ∧
      c.oneFewer.custody = { c.custody with freeStories := c.custody.freeStories - 1 } := by
  simp only [Chip.oneFewer, mark_fields]
  exact ⟨rfl, rfl, rfl, rfl⟩

theorem oneFewer_collects (c : Chip) : Chip.Collects [.freeStories] c c.oneFewer :=
  (Chip.Collects.of_cu (by rfl)).trans (.mark .freeStories _)

/-- The part just before CREATE stales the new story. -/
def Chip.newStory (c : Chip) (n : StoryNo) (x : DeskNo) (urgent : Bool) : Chip :=
  ((c.filled n x urgent).placed n c.callerTerminal).oneFewer

theorem createStory_stales (n : StoryNo) (x : DeskNo) (urgent : Bool) (c : Chip) :
    c.createStory n x urgent = (c.newStory n x urgent).staleStory n := by
  obtain ⟨_, _, _, caller⟩ := filled_fields c n x urgent
  rw [createStory_eq, caller]
  rfl

theorem newStory_others (hm : m ≠ n) : (c.newStory n x urgent).stories[m] = c.stories[m] := by
  obtain ⟨stories, _⟩ := oneFewer_fields ((c.filled n x urgent).placed n c.callerTerminal)
  simp only [Chip.newStory, stories, placed_others hm, filled_others hm]

theorem newStory_fit (n : StoryNo) (x : DeskNo) (urgent : Bool) (c : Chip) : (c.newStory n x urgent).fit = c.fit := by
  obtain ⟨_, _, fit, _⟩ := oneFewer_fields ((c.filled n x urgent).placed n c.callerTerminal)
  obtain ⟨_, _, same, _⟩ := filled_fields c n x urgent
  exact fit.trans ((placed_fit ..).trans same)

theorem newStory_collects (n : StoryNo) (x : DeskNo) (urgent : Bool) (c : Chip) :
    Chip.Collects [.story n, .freeStories] c (c.newStory n x urgent) :=
  ((filled_collects c n x urgent).trans (placed_collects n c.callerTerminal _)).trans (oneFewer_collects _)

theorem newStory_counts (n : StoryNo) (x : DeskNo) (urgent : Bool) (c : Chip) :
    (c.newStory n x urgent).custody.freeStories = c.custody.freeStories - 1 ∧
      ∀ y : DeskNo, (c.newStory n x urgent).desks[y].basket = c.desks[y].basket := by
  obtain ⟨_, desks, _, custody⟩ := oneFewer_fields ((c.filled n x urgent).placed n c.callerTerminal)
  obtain ⟨fdesks, fcustody, _⟩ := filled_fields c n x urgent
  refine ⟨?_, fun y => ?_⟩
  · simp only [Chip.newStory, custody, placed_freeStories, fcustody]
  · simp only [Chip.newStory, desks, placed_baskets, fdesks]

theorem placed_system (n : StoryNo) (c : Chip) :
    c.placed n none = c.onStory n fun z => { z with state := .intake } := rfl

theorem placed_terminal (n : StoryNo) (u : TerminalNo) (c : Chip) : c.placed n (some u) = c.enterOpen n u := rfl

theorem newStory_system (h : c.callerTerminal = none) :
    (c.newStory n x urgent).stories[n] =
        { c.stories[n] with desk := x, urgent := urgent, stamp := c.clock.count, state := .intake } ∧
      (c.newStory n x urgent).custody.held = c.custody.held ∧ (c.newStory n x urgent).desks = c.desks := by
  obtain ⟨fdesks, fcustody, _⟩ := filled_fields c n x urgent
  rw [Chip.newStory, h, placed_system]
  simp only [oneFewer_fields]
  refine ⟨?_, congrArg Custody.held fcustody, fdesks⟩
  rw [onStory_self, filled_self]
  rfl

theorem newStory_terminal (h : c.callerTerminal = some u) :
    (c.newStory n x urgent).stories[n] = { c.stories[n] with
        desk := x, urgent := urgent, stamp := c.clock.count, state := .open_, holder := some u
        lease := if c.desks[x].idleLimit = 0 then none
          else some { remaining := c.desks[x].idleLimit, warned := false } } ∧
      (c.newStory n x urgent).custody.held[u] = c.custody.held[u] ++ [n] ∧
      (c.newStory n x urgent).desks[x].openCount = c.desks[x].openCount + 1 := by
  obtain ⟨fdesks, fcustody, _⟩ := filled_fields c n x urgent
  have desk : (c.stories[n].made x urgent c.clock.count).desk = x := rfl
  rw [Chip.newStory, h, placed_terminal]
  simp only [oneFewer_fields, enterOpen_self, enterOpen_held, enterOpen_desk, filled_self, desk, armedLease_eq, fdesks,
    fcustody, if_true]
  exact ⟨rfl, trivial, trivial⟩

/-- What OPEN by CREATE makes awaited besides: the desk's entry. -/
theorem newStory_awaitsDesk (h : c.callerTerminal = some u) : Chip.Collects [.desk x] c (c.newStory n x urgent) := by
  have opens := enterOpen_collects n u (c.filled n x urgent)
  have desk : (c.filled n x urgent).stories[n].desk = x := by rw [filled_self]; rfl
  rw [desk] at opens
  rw [Chip.newStory, h]
  exact (((filled_collects c n x urgent).trans opens).trans (oneFewer_collects _)).mono fun i hi => by
    rw [List.mem_singleton.mp hi]
    simp

theorem create_answers (hx : finArg 16 (c.cu.arg 1) = some x) (hu : flagArg (c.cu.arg 2) = some urgent)
    (hn : c.lowestFree = some n)
    (hcaller : c.cu.context = .system ∨ ∃ u, c.CallsAs u x .edit ∧ c.custody.held[u].length < 2) :
    c.create = .done (c.createStory n x urgent) [wordOf n.val] := by
  rcases hcaller with hsystem | ⟨u, hcalls, hroom⟩
  · have fault : c.custodyFault .editors true (c.callerSystem || c.callerOnDesk x .read) = none :=
      custodyFault_passes (callerFault_system hsystem rfl) rfl (by rw [callerSystem_system hsystem, Bool.true_or])
    simp only [Chip.create, hx, hu, fault, hn, Chip.callerHoldsTwo, callerTerminal_system hsystem, Bool.false_eq_true,
      if_false]
  · have fault : c.custodyFault .editors true (c.callerSystem || c.callerOnDesk x .read) = none :=
      custodyFault_passes (callsAs_admitted hcalls rfl (Nat.le_refl _)) rfl
        (by rw [callsAs_onDesk hcalls (by decide), Bool.or_true])
    have two : c.callerHoldsTwo = false := by
      simp only [Chip.callerHoldsTwo, callsAs_caller hcalls]
      exact decide_eq_false (Nat.not_le.mpr hroom)
    simp only [Chip.create, hx, hu, fault, hn, two, Bool.false_eq_true, if_false]

/-! ## ATTACH and DETACH (R101, R102) -/

theorem blockFault_none (h : c.stories[n].state = .intake ∧ c.cu.context = .system ∨
    c.stories[n].state = .open_ ∧ c.CallsAsHolder n) : c.blockFault n = none := by
  rcases h with ⟨hs, hsystem⟩ | ⟨hs, hholder⟩
  · refine custodyFault_passes (callerFault_system hsystem rfl) (by rw [hs]; rfl) ?_
    rw [if_pos hs]
    exact callerSystem_system hsystem
  · refine custodyFault_passes (callsAsHolder_admitted hholder) (by rw [hs]; rfl) ?_
    rw [if_neg (by rw [hs]; exact nofun)]
    exact callsAsHolder_is hholder

/-- From `c` the block `b` has changed hands and `n` has the block list `l`. -/
structure Chip.Reblocked (n : StoryNo) (b : BlockNo) (owner : Option StoryNo) (free : Nat) (l : List BlockNo)
    (c d : Chip) : Prop where
  itself : d.stories[n] = { c.stories[n] with blocks := l }
  others : ∀ m : StoryNo, m ≠ n → d.stories[m] = c.stories[m]
  owner : d.custody.owners[b] = owner
  owners : ∀ k : BlockNo, k ≠ b → d.custody.owners[k] = c.custody.owners[k]
  free : d.custody.freeBlocks = free
  fit : d.fit = c.fit
  collects : Chip.Collects [.story n, .freeBlocks] c d

/-- A block given an owner. -/
def Custody.giveBlock (b : BlockNo) (owner : Option StoryNo) (free : Nat) (k : Custody) : Custody :=
  { k with owners := k.owners.set b owner, freeBlocks := free }

theorem giveBlock_owners (k : Custody) (b j : BlockNo) (owner : Option StoryNo) (free : Nat) :
    (k.giveBlock b owner free).owners[j] = if b = j then owner else k.owners[j] := by
  simp only [Custody.giveBlock, Fin.getElem_fin, Vector.getElem_set, Fin.ext_iff]

/-- A chip with such a story table, custody and fit. -/
theorem reblocked_of {owner : Option StoryNo} {free : Nat} {f : Story → Story} {l : List BlockNo}
    (hs : d.stories = (c.onStory n f).stories) (hf : f c.stories[n] = { c.stories[n] with blocks := l })
    (hc : d.custody = c.custody.giveBlock b owner free) (hfit : d.fit = c.fit)
    (hk : Chip.Collects [.story n, .freeBlocks] c d) : Chip.Reblocked n b owner free l c d where
  itself := by simp only [hs, onStory_self, hf]
  others m hm := by simp only [hs, onStory_ne _ hm]
  owner := by simp only [hc, giveBlock_owners, if_true]
  owners k hkb := by simp only [hc, giveBlock_owners, if_neg hkb.symm]
  free := by rw [hc]; rfl
  fit := hfit
  collects := hk

/-- The part with block `b` attached to `n`, before the staling. -/
def Chip.attached (c : Chip) (n : StoryNo) (b : BlockNo) : Chip :=
  (((c.onCustody fun k => k.giveBlock b (some n) (k.freeBlocks - 1)).onStory n fun z =>
    { z with blocks := z.blocks ++ [b] }).mark (.story n)).mark .freeBlocks

/-- The part with block `b` detached from the tail of the list of `n`, before the staling. -/
def Chip.detached (c : Chip) (n : StoryNo) (b : BlockNo) : Chip :=
  (((c.onStory n fun z => { z with blocks := z.blocks.dropLast }).mark (.story n)).onCustody fun k =>
    k.giveBlock b none (k.freeBlocks + 1)).mark .freeBlocks

theorem attached_reblocked (c : Chip) (n : StoryNo) (b : BlockNo) :
    Chip.Reblocked n b (some n) (c.custody.freeBlocks - 1) (c.stories[n].blocks ++ [b]) c (c.attached n b) := by
  refine reblocked_of (f := fun z => { z with blocks := z.blocks ++ [b] }) ?_ rfl ?_ ?_ ?_
  · simp only [Chip.attached, mark_fields, onStory_fields, onCustody_fields]
  · simp only [Chip.attached, mark_fields, onStory_fields, onCustody_fields]
  · simp only [Chip.attached, mark_fields, onStory_fields, onCustody_fields]
  · exact (Chip.Collects.of_cu (by rfl)).trans ((Chip.Collects.mark (.story n) _).trans (.mark .freeBlocks _))

theorem detached_reblocked {l : List BlockNo} (hl : c.stories[n].blocks = l ++ [b]) :
    Chip.Reblocked n b none (c.custody.freeBlocks + 1) l c (c.detached n b) := by
  refine reblocked_of (f := fun z => { z with blocks := z.blocks.dropLast }) ?_ ?_ ?_ ?_ ?_
  · simp only [Chip.detached, mark_fields, onStory_fields, onCustody_fields]
  · simp only [hl, List.dropLast_concat]
  · simp only [Chip.detached, mark_fields, onStory_fields, onCustody_fields]
  · simp only [Chip.detached, mark_fields, onStory_fields, onCustody_fields]
  · have shortened : Chip.Collects [] c (c.onStory n fun z => { z with blocks := z.blocks.dropLast }) := .of_cu rfl
    have marked := shortened.trans (.mark (.story n) _)
    exact (marked.thenSame (e := Chip.onCustody (fun k => k.giveBlock b none (k.freeBlocks + 1)) _) rfl).trans
      (.mark .freeBlocks _)

theorem attach_answers (hn : finArg 1024 (c.cu.arg 1) = some n) (hb : finArg 8192 (c.cu.arg 2) = some b)
    (hfault : c.blockFault n = none) :
    c.attach = if c.custody.owners[b].isSome then .refuse .blockTaken
      else if 48 ≤ c.stories[n].blocks.length then .refuse .listFull
      else .done ((c.attached n b).staleStory n) [] := by
  simp only [Chip.attach, hn, hb, hfault]
  rfl

theorem detach_none (hn : finArg 1024 (c.cu.arg 1) = some n) (hfault : c.blockFault n = none)
    (hb : c.stories[n].blocks = []) : c.detach = .refused .wrongState [] := by
  simp only [Chip.detach, hn, hfault, hb]
  rfl

theorem detach_last {l : List BlockNo} (hn : finArg 1024 (c.cu.arg 1) = some n) (hfault : c.blockFault n = none)
    (hb : c.stories[n].blocks = l ++ [b]) : c.detach = .done ((c.detached n b).staleStory n) [wordOf b.val] := by
  have last : c.stories[n].blocks.getLast? = some b := by rw [hb, List.getLast?_concat]
  simp only [Chip.detach, hn, hfault, last]
  rfl

/-- What ATTACH and DETACH leave, the story staled. -/
theorem reblocked_staled {owner : Option StoryNo} {free : Nat} {l : List BlockNo} {z : Story}
    (h : Chip.Reblocked n b owner free l c d) (hz : z = { c.stories[n] with blocks := l })
    (hfree : c.stories[n].state ≠ .free) :
    z.SameOutsideFit (d.staleStory n).stories[n] ∧
      (∀ m : StoryNo, m ≠ n → c.stories[m].SameOutsideFit (d.staleStory n).stories[m]) ∧
      (c.fit.run.isSome = true → (d.staleStory n).HasStaled n z c.fit.queue) := by
  have itself : d.stories[n] = z := h.itself.trans hz.symm
  have staled := staleStory_staled (n := n) h.fit (by rw [h.itself]; exact hfree)
  refine ⟨itself ▸ staled.itself, fun m hm => h.others m hm ▸ staled.others m hm, fun hrun => itself ▸ (staled.busy hrun).1⟩

/-- A command that ends by staling a story whose block list has changed. -/
theorem reblocked_ends {k : Nat} {body : Chip → Reply} {words : List Word} {owner : Option StoryNo} {free : Nat}
    {l : List BlockNo} {z : Story} (hs : s.Serves k) (hb : body s.chip.collect = .done (d.staleStory n) words)
    (h : Chip.Reblocked n b owner free l s.chip.collect d) (hz : z = { s.chip.stories[n] with blocks := l })
    (hfree : s.chip.stories[n].state ≠ .free) :
    ∃ t, takeCommand k body s = .next t ∧ t.memory = s.memory ∧ t.chip.Ended .ok words ∧
      t.chip.custody.owners[b] = owner ∧
      (∀ j : BlockNo, j ≠ b → t.chip.custody.owners[j] = s.chip.custody.owners[j]) ∧
      t.chip.custody.freeBlocks = free ∧ z.SameOutsideFit t.chip.stories[n] ∧
      (∀ m : StoryNo, m ≠ n → s.chip.stories[m].SameOutsideFit t.chip.stories[m]) ∧
      (s.chip.fit.run.isSome = true → t.chip.HasStaled n z s.chip.fit.queue) ∧ t.chip.Awaits (.story n) ∧
      t.chip.Awaits .freeBlocks := by
  obtain ⟨t, hstep, hmemory, ended, same, cu⟩ := command_ends hs hb
  obtain ⟨itself, others, stales⟩ := reblocked_staled h hz hfree
  have custody : (d.staleStory n).custody = d.custody := (does_staleStory n d).frame .custody (by decide)
  have awaits := (fit_staleStory n d).awaits
  have joins := h.collects.joins rfl
  refine ⟨t, hstep, hmemory, ended, ?_, fun k hk => ?_, ?_, ?_, fun m hm => ?_, fun hrun => ?_,
    awaits_endAction cu (awaits _ (joins _ (by simp))), awaits_endAction cu (awaits _ (joins _ (by simp)))⟩
  · simp only [same.custody, custody, h.owner]
  · simp only [same.custody, custody]
    exact h.owners k hk
  · rw [same.custody, custody]
    exact h.free
  · simp only [same.stories]
    exact itself
  · simp only [same.stories]
    exact others m hm
  · have hasStaled := stales hrun
    unfold Chip.HasStaled at hasStaled ⊢
    simp only [same.stories, same.fit]
    exact hasStaled

/-- Settles O47, by the part each command stales and what staling leaves. -/
theorem storiesAreCreatedAndGivenBlocks : Obligations.StoriesAreCreatedAndGivenBlocks := by
  refine ⟨fun s x urgent n z hs hx hu hfree hlow hcaller => ?_, fun s n hn hcaller => ?_⟩
  · obtain ⟨hexec, _⟩ := exec_creates s
    have admitted : s.chip.collect.cu.context = .system ∨
        ∃ u, s.chip.collect.CallsAs u x .edit ∧ s.chip.collect.custody.held[u].length < 2 :=
      hcaller.imp And.left fun ⟨u, hcalls, hroom, _⟩ => ⟨u, hcalls, hroom⟩
    have answer := create_answers (c := s.chip.collect) (finArg_inside hx) (flagArg_of hu)
      (lowestFree_some (c := s.chip.collect) hfree hlow) admitted
    rw [createStory_stales] at answer
    obtain ⟨t, hstep, hmemory, ended, same, cu⟩ := command_ends hs answer
    have hz : (s.chip.collect.newStory n x urgent).stories[n] = z := by
      rcases hcaller with ⟨hsystem, rfl⟩ | ⟨u, hcalls, _, rfl⟩
      · exact (newStory_system (c := s.chip.collect) (callerTerminal_system hsystem)).1
      · exact (newStory_terminal (c := s.chip.collect) (callsAs_caller hcalls)).1
    have hstate : (s.chip.collect.newStory n x urgent).stories[n].state ≠ .free := by
      rw [hz]
      rcases hcaller with ⟨_, rfl⟩ | ⟨u, _, _, rfl⟩
      · exact nofun
      · exact nofun
    have others := fun m (hm : m ≠ n) => newStory_others (c := s.chip.collect) (x := x) (urgent := urgent) hm
    obtain ⟨count, baskets⟩ := newStory_counts n x urgent s.chip.collect
    have joins := (newStory_collects n x urgent s.chip.collect).joins rfl
    have staled := staleStory_staled (newStory_fit n x urgent s.chip.collect) hstate
    have desks := staled.desks
    simp only [collect_fields] at others count baskets joins
    rw [hexec]
    refine ⟨t, hstep, hmemory, ended, ?_, fun m hm => ?_, fun hrun => ⟨?_, fun m hm => ?_⟩, ?_,
      awaits_endAction cu (staled.awaits _ (joins _ (by simp))), awaits_endAction cu (staled.awaits _ (joins _ (by simp))),
      fun e => ?_, fun hsystem => ⟨?_, ?_⟩, fun u hu => ⟨?_, ?_, ?_⟩⟩
    · simp only [same.stories]
      exact hz ▸ staled.itself
    · simp only [same.stories]
      exact others m hm ▸ staled.others m hm
    · obtain ⟨hasStaled, _⟩ := staled.busy hrun
      rw [hz] at hasStaled
      unfold Chip.HasStaled at hasStaled ⊢
      simp only [same.stories, same.fit]
      exact hasStaled
    · simp only [same.stories, (staled.busy hrun).2 m hm]
      exact others m hm
    · rw [same.custody, staled.custody]
      exact count
    · simp only [same.desks, staled.desks]
      exact baskets e
    · rw [same.custody, staled.custody]
      exact (newStory_system (c := s.chip.collect) (callerTerminal_system hsystem)).2.1
    · rw [same.desks, staled.desks]
      exact (newStory_system (c := s.chip.collect) (callerTerminal_system hsystem)).2.2
    · simp only [same.custody, staled.custody]
      exact (newStory_terminal (c := s.chip.collect) (callerTerminal_terminal hu)).2.1
    · simp only [same.desks, staled.desks]
      exact (newStory_terminal (c := s.chip.collect) (callerTerminal_terminal hu)).2.2
    · have desk := newStory_awaitsDesk (c := s.chip.collect) (n := n) (x := x) (urgent := urgent) (callerTerminal_terminal hu)
      exact awaits_endAction cu (staled.awaits _ (desk.joins rfl _ (by simp)))
  · obtain ⟨_, hattach, hdetach⟩ := exec_creates s
    have fault : s.chip.collect.blockFault n = none := blockFault_none hcaller
    have hfree : s.chip.collect.stories[n].state ≠ .free := by
      rcases hcaller with ⟨h, _⟩ | ⟨h, _⟩ <;> exact fun e => by cases h.symm.trans e
    rw [hattach, hdetach]
    refine ⟨fun b hs hb => ?_, fun hs => ⟨fun hnone => takeCommand_refused hs (detach_none (c := s.chip.collect) hn fault hnone),
      fun l b z hl hz => ?_⟩⟩
    · have answer := attach_answers (c := s.chip.collect) hn (finArg_inside hb) fault
      refine ⟨fun htaken => takeCommand_refused hs (answer.trans (if_pos htaken)), fun hnone hfull => ?_,
        fun hnone hroom z hz => ?_⟩
      all_goals
        have untaken : ¬s.chip.collect.custody.owners[b].isSome = true := by
          rw [show s.chip.collect.custody.owners[b] = none from hnone]
          decide
        rw [if_neg untaken] at answer
      · exact takeCommand_refused hs (answer.trans (if_pos hfull))
      · exact reblocked_ends hs (answer.trans (if_neg (Nat.not_le.mpr hroom))) (attached_reblocked s.chip.collect n b) hz hfree
    · exact reblocked_ends hs (detach_last (c := s.chip.collect) hn fault hl) (detached_reblocked (c := s.chip.collect) hl) hz hfree

end

end Sys2Proof.Machine
end

section
/-! SUPPORT. KILL, SET STYLE and REFIT (R107, R108, R133, R135, R149; O49). -/

namespace Sys2Proof.Machine

section
variable {c d : Chip} {s : State} {n m : StoryNo} {x y : DeskNo} {t u w : TerminalNo} {i : MirrorItem} {b : BlockNo}
  {p q : PageNo}

theorem exec_changes (s : State) :
    exec .kill s = takeCommand 16 Chip.kill s ∧ exec .setStyle s = takeCommand 17 Chip.setStyle s ∧
      exec .refit s = takeCommand 18 Chip.refit s := ⟨rfl, rfl, rfl⟩

/-! ## The fit engine does not end a command's action (R28) -/

theorem mark_collecting (i : MirrorItem) (c : Chip) : (c.mark i).cu.collecting = c.cu.collecting := by
  simp only [mark_fields]

theorem recordFit_collecting (stop : FitStop) (r : FitRun) (c : Chip) :
    (c.recordFit stop r).cu.collecting = c.cu.collecting := by
  have raised (d : Chip) (b : Bool) : (if b then d.raise .fit else d).cu.collecting = d.cu.collecting := by
    cases b with
    | false => rfl
    | true =>
      obtain ⟨_, _, _, _, _, _, _, _, collecting⟩ := raise_unit d .fit
      exact collecting
  unfold Chip.recordFit
  dsimp only
  split
  · split
    · simp only [post_fields]
      rw [raised, mark_collecting]
      rfl
    · rw [raised, mark_collecting]
      rfl
  · rw [raised, mark_collecting]
    rfl

theorem endRun_collecting (stop : FitStop) (r : FitRun) (c : Chip) :
    (c.endRun stop r).cu.collecting = c.cu.collecting := by
  unfold Chip.endRun
  dsimp only
  split
  · rw [Chip.discardFit, mark_collecting, mark_collecting]
    rfl
  · exact recordFit_collecting ..

theorem startRun_collecting (n : StoryNo) (rest : List StoryNo) (c : Chip) :
    (c.startRun n rest).cu.collecting = c.cu.collecting := by
  unfold Chip.startRun
  dsimp only
  split
  · rw [endRun_collecting, mark_collecting]
    exact mark_collecting ..
  · split
    · rw [endRun_collecting, mark_collecting]
      exact mark_collecting ..
    · refine (mark_collecting ..).trans (mark_collecting ..)

theorem takeFits_collecting (fuel : Nat) : ∀ c : Chip, (c.takeFits fuel).cu.collecting = c.cu.collecting := by
  induction fuel with
  | zero => exact fun c => rfl
  | succ fuel ih =>
    intro c
    unfold Chip.takeFits
    split
    · split
      · rfl
      · rw [ih, startRun_collecting]
    · rfl

theorem withdrawFit_collecting (n : StoryNo) (c : Chip) : (c.withdrawFit n).cu.collecting = c.cu.collecting := by
  unfold Chip.withdrawFit
  split
  · rfl
  · exact mark_collecting ..
  · exact takeFits_collecting ..

/-! ## The words of abandoned runs (R149) -/

theorem startRun_abandoned (n : StoryNo) (rest : List StoryNo) (c : Chip) :
    (c.startRun n rest).fit.abandoned = c.fit.abandoned := by
  have ended (stop : FitStop) (r : FitRun) (d : Chip) : (d.endRun stop r).fit.abandoned = d.fit.abandoned := by
    have recorded (r' : FitRun) (d : Chip) : (d.recordFit stop r').fit = d.fit := by
      unfold Chip.recordFit
      dsimp only
      split
      · split
        · simp only [post_fields]
          split <;> simp only [raise_fields, mark_fields, onStory_fields]
        · split <;> simp only [raise_fields, mark_fields, onStory_fields]
      · split <;> simp only [raise_fields, mark_fields, onStory_fields]
    unfold Chip.endRun
    dsimp only
    split
    · simp only [Chip.discardFit, mark_fields]
      rfl
    · rw [recorded]
      rfl
  unfold Chip.startRun
  dsimp only
  split
  · rw [ended]
    simp only [mark_fields, onStory_fields, onFit_fields]
  · split
    · rw [ended]
      simp only [mark_fields, onStory_fields, onFit_fields]
    · simp only [mark_fields, onStory_fields, onFit_fields]

theorem takeFits_abandoned (fuel : Nat) : ∀ c : Chip, (c.takeFits fuel).fit.abandoned = c.fit.abandoned := by
  induction fuel with
  | zero => exact fun c => rfl
  | succ fuel ih =>
    intro c
    unfold Chip.takeFits
    split
    · split
      · rfl
      · rw [ih, startRun_abandoned]
    · rfl

theorem fitTake_abandoned (c : Chip) : c.fitTake.fit.abandoned = c.fit.abandoned := takeFits_abandoned _ c

theorem fitTake_empty (h : c.fit.queue = []) : c.fitTake = c := by
  rw [Chip.fitTake, h]
  rfl

/-! ## A killed story leaves the fit (R107 d) -/

theorem withdrawFit_current (h : c.stories[n].fit = .current) : c.withdrawFit n = c := by
  simp only [Chip.withdrawFit, h]

theorem withdrawFit_stale (h : c.stories[n].fit = .stale) :
    c.withdrawFit n = (c.onFit fun e => { e with queue := e.queue.filter (· ≠ n) }).mark .fitCount := by
  simp only [Chip.withdrawFit, h]

theorem withdrawFit_running (h : c.stories[n].fit = .running) : c.withdrawFit n = (c.onFit (·.abandon)).fitTake := by
  simp only [Chip.withdrawFit, h]

theorem withdrawFit_queue (h : c.stories[n].fit = .stale) :
    (c.withdrawFit n).fit.queue = c.fit.queue.filter (· ≠ n) ∧ Chip.Collects [.fitCount] c (c.withdrawFit n) := by
  rw [withdrawFit_stale h]
  refine ⟨by simp only [mark_fields, onFit_fields], ?_⟩
  have filtered : Chip.Collects [] c (c.onFit fun e => { e with queue := e.queue.filter (· ≠ n) }) := .of_cu rfl
  exact filtered.trans (.mark .fitCount _)

theorem withdrawFit_idles (h : c.stories[n].fit = .running) (hq : c.fit.queue = []) : (c.withdrawFit n).fit.run = none := by
  rw [withdrawFit_running h, fitTake_empty (c := c.onFit (·.abandon)) hq]
  rfl

theorem withdrawFit_requested {k : FitRun} (h : c.stories[n].fit = .running) (hk : c.fit.run = some k)
    (hb : k.blocks[k.index / 128]? = some b) :
    (c.withdrawFit n).fit.abandoned = c.fit.abandoned ++ [{ block := b, word := Fin.ofNat 128 k.index }] := by
  have requested : k.requested = some { block := b, word := Fin.ofNat 128 k.index } := by
    have hb' : k.blocks[k.index / Config.blockWords]? = some b := hb
    rw [FitRun.requested, hb', Option.map_some]
  rw [withdrawFit_running h, fitTake_abandoned]
  simp only [onFit_fields, FitEngine.abandon, hk, Option.bind_some, requested, Option.toList_some]

theorem withdrawFit_idle (h : c.stories[n].fit ≠ .running) :
    (c.withdrawFit n).fit.abandoned = c.fit.abandoned ∧ (c.withdrawFit n).screens = c.screens := by
  cases hf : c.stories[n].fit with
  | running => exact absurd hf h
  | current => rw [withdrawFit_current hf]; exact ⟨rfl, rfl⟩
  | stale =>
    rw [withdrawFit_stale hf]
    simp only [mark_fields, onFit_fields]
    exact ⟨trivial, trivial⟩

/-! ## A killed story leaves its holder, its basket and its page (R107 b, c) -/

/-- The part with the story taken from its holder, who is told, or from its basket. -/
def Chip.killLeft (c : Chip) (n : StoryNo) : Chip :=
  match c.stories[n].state, c.stories[n].holder with
  | .open_, some t => (c.post .killed n.val none (.terminal t)).leaveOpen n
  | .basket, _ => c.leaveBasket n
  | _, _ => c

theorem killLeft_open (hs : c.stories[n].state = .open_) (hu : c.stories[n].holder = some u) :
    c.killLeft n = (c.post .killed n.val none (.terminal u)).leaveOpen n := by
  simp only [Chip.killLeft, hs, hu]

theorem killLeft_basket (hs : c.stories[n].state = .basket) : c.killLeft n = c.leaveBasket n := by
  simp only [Chip.killLeft, hs]

theorem moves_killLeft (n : StoryNo) (c : Chip) : c.Moves n (c.killLeft n) := by
  unfold Chip.killLeft
  split
  · exact (moves_of_does (does_post _ _ _ _ _)).trans (moves_leaveOpen n _)
  · exact moves_leaveBasket n c
  · exact moves_of_does (.refl [] c)

theorem killLeft_collects (n : StoryNo) (c : Chip) : Chip.Collects [] c (c.killLeft n) := by
  unfold Chip.killLeft
  split
  · next t hs hu =>
    have posted : Chip.Collects [] c (c.post .killed n.val none (.terminal t)) := .of_cu (by simp only [post_fields])
    exact (posted.trans (leaveOpen_collects n _)).mono nofun
  · exact (leaveBasket_collects n c).mono nofun
  · exact .of_cu rfl

theorem removePlacement_pages (n : StoryNo) (c : Chip) (q : PageNo) :
    (c.removePlacement n).pages[q] = if c.stories[n].page = some q then
      { c.pages[q] with placements := c.pages[q].placements.filter (·.story ≠ n) } else c.pages[q] := by
  unfold Chip.removePlacement
  cases c.stories[n].page with
  | none => rfl
  | some p => simp only [removeFrom_pages, update_apply, Option.some.injEq]

theorem removePlacement_others (hm : m ≠ n) : (c.removePlacement n).stories[m] = c.stories[m] := by
  unfold Chip.removePlacement
  cases c.stories[n].page with
  | none => rfl
  | some p => simp only [Chip.removeFrom, mark_fields, onStory_ne _ hm, onPage_fields]

theorem removePlacement_fit (n : StoryNo) (c : Chip) : (c.removePlacement n).stories[n].fit = c.stories[n].fit := by
  unfold Chip.removePlacement
  cases c.stories[n].page with
  | none => rfl
  | some p => simp only [Chip.removeFrom, mark_fields, onStory_self, onPage_fields]

theorem removePlacement_collects (n : StoryNo) (c : Chip) : Chip.Collects [] c (c.removePlacement n) := by
  unfold Chip.removePlacement
  cases c.stories[n].page with
  | none => exact .of_cu rfl
  | some p =>
    have page : Chip.Collects [] c (c.onPage p fun x => { x with placements := x.placements.filter (·.story ≠ n) }) :=
      .of_cu rfl
    have story := (page.trans (.mark (.page p) _)).thenSame
      (e := Chip.onStory n (fun x => { x with hole := 0, page := none }) _) rfl
    exact (story.trans (.mark (.story n) _)).mono nofun

/-! ## The end of KILL (R107 e, f) -/

/-- The custody table once a killed story's blocks and its place in the table are free. -/
def Custody.killed (n : StoryNo) (l : List BlockNo) (k : Custody) : Custody :=
  { k with
    owners := l.foldl (fun (m : Vector (Option StoryNo) 8192) (b : BlockNo) => m.set b none) k.owners
    freeBlocks := k.freeBlocks + l.length
    freeStories := k.freeStories + 1
    reports := k.reports.filter (· ≠ n) }

/-- The part with the record of a killed story freed. -/
def Chip.recordFreed (c : Chip) (n : StoryNo) : Chip :=
  (((c.onStory n fun _ => Story.free).mark (.story n)).onCustody fun k =>
    { k with freeStories := k.freeStories + 1, reports := k.reports.filter (· ≠ n) }).mark .freeStories

/-- The part with a killed story gone from its holder, basket, page and the fit. -/
def Chip.killGone (c : Chip) (n : StoryNo) : Chip := ((c.killLeft n).removePlacement n).withdrawFit n

theorem killStory_eq (n : StoryNo) (c : Chip) :
    c.killStory n = ((c.killGone n).freeAll c.stories[n].blocks).recordFreed n := rfl

theorem freeAll_collects (l : List BlockNo) (c : Chip) :
    Chip.Collects (if l = [] then [] else [.freeBlocks]) c (c.freeAll l) := by
  unfold Chip.freeAll
  dsimp only
  split
  · exact .of_cu rfl
  · exact (Chip.Collects.of_cu (c := c) (d := Chip.onCustody (fun k =>
      { k with
        owners := l.foldl (fun (m : Vector (Option StoryNo) 8192) (b : BlockNo) => m.set b none) k.owners
        freeBlocks := k.freeBlocks + l.length }) c) rfl).trans (.mark .freeBlocks _)

theorem recordFreed_fields (c : Chip) (n : StoryNo) :
    (∀ m, (c.recordFreed n).stories[m] = if n = m then Story.free else c.stories[m]) ∧
      (c.recordFreed n).custody =
        { c.custody with freeStories := c.custody.freeStories + 1, reports := c.custody.reports.filter (· ≠ n) } ∧
      (c.recordFreed n).fit = c.fit ∧ (c.recordFreed n).pages = c.pages ∧ (c.recordFreed n).desks = c.desks ∧
      (c.recordFreed n).screens = c.screens := by
  simp only [Chip.recordFreed, mark_fields, onCustody_fields, onStory_fields]
  exact ⟨fun _ => update_apply .., trivial, trivial, trivial, trivial, trivial⟩

theorem recordFreed_collects (c : Chip) (n : StoryNo) :
    Chip.Collects [.story n, .freeStories] c (c.recordFreed n) := by
  have story : Chip.Collects [] c (c.onStory n fun _ => Story.free) := .of_cu rfl
  have marked := (story.trans (.mark (.story n) _)).thenSame (e := Chip.onCustody (fun k =>
    { k with freeStories := k.freeStories + 1, reports := k.reports.filter (· ≠ n) }) _) rfl
  exact marked.trans (.mark .freeStories _)

/-- What KILL leaves, from the part `d` with the story gone from its holder, basket, page and the fit. -/
structure Chip.KilledFrom (n : StoryNo) (l : List BlockNo) (c d e : Chip) : Prop where
  story : ∀ m : StoryNo, e.stories[m] = if n = m then Story.free else d.stories[m]
  custody : e.custody = d.custody.killed n l
  fit : e.fit = d.fit
  pages : e.pages = d.pages
  desks : e.desks = d.desks
  screens : e.screens = d.screens
  awaits : ∀ i, d.Awaits i → e.Awaits i
  items : d.cu.collecting = true → e.Awaits (.story n) ∧ e.Awaits .freeStories ∧ (l ≠ [] → e.Awaits .freeBlocks)

theorem killStory_killed (n : StoryNo) (c : Chip) :
    Chip.KilledFrom n c.stories[n].blocks c (c.killGone n) (c.killStory n) := by
  obtain ⟨story, custody, fit, pages, desks, screens⟩ :=
    recordFreed_fields ((c.killGone n).freeAll c.stories[n].blocks) n
  obtain ⟨stories, freed⟩ := freeAll_fields c.stories[n].blocks (c.killGone n)
  have does := does_freeAll c.stories[n].blocks (c.killGone n)
  have blocks := freeAll_collects c.stories[n].blocks (c.killGone n)
  have ends := recordFreed_collects ((c.killGone n).freeAll c.stories[n].blocks) n
  rw [killStory_eq]
  refine ⟨fun m => ?_, ?_, fit.trans (does.frame .fit (by decide)), pages.trans (does.frame .pages (by decide)),
    desks.trans (does.frame .desks (by decide)), screens.trans (does.frame .screens (by decide)),
    fun i hi => ends.keeps i (blocks.keeps i hi), fun hc => ⟨?_, ?_, fun hl => ?_⟩⟩
  · refine (story m).trans ?_
    simp only [stories]
  · rw [custody, freed]
    rfl
  · exact ends.joins (blocks.collecting.trans hc) _ (by simp)
  · exact ends.joins (blocks.collecting.trans hc) _ (by simp)
  · exact ends.keeps _ (blocks.joins hc _ (by rw [if_neg hl]; simp))

/-- What has gone from the part before the record is freed. -/
structure Chip.KillGone (n : StoryNo) (c d : Chip) : Prop where
  others : ∀ m : StoryNo, m ≠ n → c.stories[m].SameOutsideFit d.stories[m]
  custody : d.custody = { c.custody with held := d.custody.held }
  pages : ∀ q : PageNo, d.pages[q] = if c.stories[n].page = some q then
    { c.pages[q] with placements := c.pages[q].placements.filter (·.story ≠ n) } else c.pages[q]
  stale : c.stories[n].fit = .stale → d.fit.queue = c.fit.queue.filter (· ≠ n) ∧ (c.cu.collecting = true → d.Awaits .fitCount)
  running : c.stories[n].fit = .running → c.fit.queue = [] → d.fit.run = none
  requested : c.stories[n].fit = .running → ∀ (k : FitRun) (b : BlockNo), c.fit.run = some k →
    k.blocks[k.index / 128]? = some b →
    d.fit.abandoned = c.fit.abandoned ++ [{ block := b, word := Fin.ofNat 128 k.index }]
  idle : c.stories[n].fit ≠ .running → d.fit.abandoned = c.fit.abandoned ∧ d.screens = (c.killLeft n).screens
  desks : d.desks = (c.killLeft n).desks
  held : d.custody.held = (c.killLeft n).custody.held
  collecting : c.cu.collecting = true → d.cu.collecting = true

theorem killGone_gone (n : StoryNo) (c : Chip) : Chip.KillGone n c (c.killGone n) := by
  have moves := moves_killLeft n c
  obtain ⟨_, page, _, sameFit, _⟩ := moves.kept n
  have left := killLeft_collects n c
  have does := does_removePlacement n (c.killLeft n)
  have placement := removePlacement_collects n (c.killLeft n)
  have fitDoes := fit_withdrawFit n ((c.killLeft n).removePlacement n)
  have withdraws := does_withdrawFit n ((c.killLeft n).removePlacement n)
  have fit : ((c.killLeft n).removePlacement n).fit = c.fit := (does.frame .fit (by decide)).trans moves.fit
  have own : ((c.killLeft n).removePlacement n).stories[n].fit = c.stories[n].fit :=
    (removePlacement_fit n _).trans sameFit
  have custody : (c.killGone n).custody = (c.killLeft n).custody :=
    (withdraws.frame .custody (by decide)).trans (does.frame .custody (by decide))
  have collecting := placement.collecting.trans left.collecting
  refine ⟨fun m hm => ?_, ?_, fun q => ?_, fun h => ?_, fun h hq => ?_, fun h k b hk hb => ?_, fun h => ?_, ?_, ?_, fun h => ?_⟩
  · have outside := fitDoes.outside m
    rw [removePlacement_others hm, moves.others m hm] at outside
    exact outside
  · rw [custody, moves.custody]
  · have pages : (c.killGone n).pages = ((c.killLeft n).removePlacement n).pages := withdraws.frame .pages (by decide)
    simp only [pages, removePlacement_pages, page, moves.pages]
  · obtain ⟨queue, collects⟩ := withdrawFit_queue (own.trans h)
    rw [fit] at queue
    exact ⟨queue, fun hc => collects.joins (collecting.trans hc) _ (by simp)⟩
  · exact withdrawFit_idles (own.trans h) (by rw [fit]; exact hq)
  · have requested := withdrawFit_requested (own.trans h) (by rw [fit]; exact hk) hb
    rw [fit] at requested
    exact requested
  · obtain ⟨abandoned, screens⟩ := withdrawFit_idle (by rw [own]; exact h)
    rw [fit] at abandoned
    exact ⟨abandoned, screens.trans (does.frame .screens (by decide))⟩
  · exact (withdraws.frame .desks (by decide)).trans (does.frame .desks (by decide))
  · rw [custody]
  · rw [Chip.killGone, withdrawFit_collecting, collecting, h]

/-! ## The checks of KILL, SET STYLE and REFIT (R99, R107, R108, R135) -/

/-- A story of one of the three states KILL and SET STYLE take. -/
theorem state_allowed {z : Story} (h : z.state = .intake ∨ z.state = .basket ∨ z.state = .open_) :
    (decide (z.state = .intake) || decide (z.state = .basket) || decide (z.state = .open_)) = true ∧ z.state ≠ .free := by
  rcases h with h | h | h <;> rw [h] <;> exact ⟨rfl, nofun⟩

theorem kill_answers (hn : finArg 1024 (c.cu.arg 1) = some n)
    (hs : c.stories[n].state = .intake ∨ c.stories[n].state = .basket ∨ c.stories[n].state = .open_)
    (hcaller : c.cu.context = .system ∨ ∃ u, c.CallsAs u c.stories[n].desk .slot) :
    c.kill = .done (c.killStory n) [] := by
  have fault : c.custodyFault { system := true, terminal := some .slot }
      (c.stories[n].state = .intake || c.stories[n].state = .basket || c.stories[n].state = .open_)
      (c.callerSystem || c.callerOnDesk c.stories[n].desk .read) = none := by
    rcases hcaller with hsystem | ⟨u, hcalls⟩
    · exact custodyFault_passes (callerFault_system hsystem rfl) (state_allowed hs).1
        (by rw [callerSystem_system hsystem, Bool.true_or])
    · exact custodyFault_passes (callsAs_admitted hcalls rfl (Nat.le_refl _)) (state_allowed hs).1
        (by rw [callsAs_onDesk hcalls (by decide), Bool.or_true])
  simp only [Chip.kill, hn, fault]

theorem trackArg_ofInt {track : Int} (hlo : -8 ≤ track) (hhi : track ≤ 7) : trackArg (BitVec.ofInt 16 track) = some track := by
  have value : (BitVec.ofInt 16 track).toNat = (track % 65536).toNat := by
    rw [BitVec.toNat_ofInt]
    rfl
  unfold trackArg
  rw [value]
  rcases Int.lt_or_le track 0 with h | h
  · have hmod : track % 65536 = track + 65536 := by omega
    rw [hmod, if_neg (by omega), if_pos (by omega)]
    congr 1
    omega
  · have hmod : track % 65536 = track := by omega
    rw [hmod, if_pos (by omega)]
    congr 1
    omega

/-- The style arguments in their ranges (R108). -/
theorem styleArg_of {k : CommandUnit} {f : Fin 8} {size leading measure : Nat} {track : Int}
    (hf : (k.arg 2).toNat = f.val) (hsize : (k.arg 3).toNat = size) (hsl : 10 ≤ size) (hsh : size ≤ 144)
    (hleading : (k.arg 4).toNat = leading) (hlh : leading ≤ 4095) (hmeasure : (k.arg 5).toNat = measure)
    (hml : 6 ≤ measure) (hmh : measure ≤ 300) (htl : -8 ≤ track) (hth : track ≤ 7)
    (htrack : k.arg 6 = BitVec.ofInt 16 track) :
    k.styleArg = some { font := f, size := size, leading := leading, measure := measure, track := track } := by
  subst hsize hleading hmeasure
  simp only [CommandUnit.styleArg, finArg_inside hf, rangeArg_inside hsl hsh, rangeArg_inside (Nat.zero_le _) hlh,
    rangeArg_inside hml hmh, htrack, trackArg_ofInt htl hth]

/-- The part with the style of a story replaced. -/
def Chip.restyled (c : Chip) (n : StoryNo) (style : Style) : Chip := c.onStory n fun z => { z with style := style }

theorem restyled_self (c : Chip) (n : StoryNo) (style : Style) :
    (c.restyled n style).stories[n] = { c.stories[n] with style := style } := onStory_self ..

theorem restyled_others (style : Style) (hm : m ≠ n) : (c.restyled n style).stories[m] = c.stories[m] := onStory_ne _ hm

theorem setStyle_answers {style : Style} (hn : finArg 1024 (c.cu.arg 1) = some n) (hstyle : c.cu.styleArg = some style)
    (hs : c.stories[n].state = .intake ∨ c.stories[n].state = .basket ∨ c.stories[n].state = .open_)
    (hcaller : c.cu.context = .system ∨ c.CallsAsHolder n ∨ ∃ u, c.CallsAs u c.stories[n].desk .slot) :
    c.setStyle = .done ((c.restyled n style).staleStory n) [] := by
  have fault : c.custodyFault .editors
      (c.stories[n].state = .intake || c.stories[n].state = .basket || c.stories[n].state = .open_)
      (c.callerSystem || c.callerIs c.stories[n].holder || c.callerOnDesk c.stories[n].desk .slot) = none := by
    rcases hcaller with hsystem | hholder | ⟨u, hcalls⟩
    · exact custodyFault_passes (callerFault_system hsystem rfl) (state_allowed hs).1
        (by rw [callerSystem_system hsystem, Bool.true_or, Bool.true_or])
    · exact custodyFault_passes (callsAsHolder_admitted hholder) (state_allowed hs).1
        (by rw [callsAsHolder_is hholder, Bool.or_true, Bool.true_or])
    · exact custodyFault_passes (callsAs_admitted hcalls rfl (by decide)) (state_allowed hs).1
        (by rw [callsAs_onDesk hcalls (Nat.le_refl _), Bool.or_true])
  simp only [Chip.setStyle, hn, hstyle, fault]
  rfl

theorem refit_answers (hn : finArg 1024 (c.cu.arg 1) = some n) :
    c.refit = if c.stories[n].state = .free then .refuse .wrongState else .done (c.staleStory n) [] := by
  simp only [Chip.refit, hn]

/-- A story the fit engine has in hand, or in its queue, marks nothing when it is staled (R133). -/
theorem stale_unit (h : c.stories[n].fit ≠ .current) : (c.stale n).cu = c.cu := by
  unfold Chip.stale
  split
  · rfl
  · split
    · next hf => exact absurd hf h
    · rfl
    · rfl

/-- What KILL leaves. -/
theorem kill_ends {x : Story} (hn : finArg 1024 (s.chip.cu.arg 1) = some n) (hx : x = s.chip.stories[n]) (hs : s.Serves 16)
    (hstate : x.state = .intake ∨ x.state = .basket ∨ x.state = .open_)
    (hcaller : s.chip.cu.context = .system ∨ ∃ u, s.chip.CallsAs u x.desk .slot) :
    ∃ t d e, takeCommand 16 Chip.kill s = .next t ∧ t.memory = s.memory ∧ t.chip.Ended .ok [] ∧ e.SameBlocks t.chip ∧
      t.chip.cu = e.cu.endAction .ok [] ∧ Chip.KillGone n s.chip.collect d ∧
      Chip.KilledFrom n x.blocks s.chip.collect d e := by
  subst hx
  obtain ⟨t, hstep, hmemory, ended, same, cu⟩ := command_ends hs (kill_answers (c := s.chip.collect) hn hstate hcaller)
  exact ⟨t, _, _, hstep, hmemory, ended, same, cu, killGone_gone n _, killStory_killed n s.chip.collect⟩

/-- What SET STYLE leaves. -/
theorem setStyle_ends {style : Style} {z : Story} (hs : s.Serves 17)
    (hb : s.chip.collect.setStyle = .done ((s.chip.collect.restyled n style).staleStory n) [])
    (hz : z = { s.chip.stories[n] with style := style }) (hfree : s.chip.stories[n].state ≠ .free) :
    ∃ t, takeCommand 17 Chip.setStyle s = .next t ∧ t.memory = s.memory ∧ t.chip.Ended .ok [] ∧
      z.SameOutsideFit t.chip.stories[n] ∧
      (∀ m : StoryNo, m ≠ n → s.chip.stories[m].SameOutsideFit t.chip.stories[m]) ∧
      (s.chip.fit.run.isSome = true → t.chip.HasStaled n z s.chip.fit.queue ∧
        ∀ m : StoryNo, m ≠ n → t.chip.stories[m] = s.chip.stories[m]) := by
  obtain ⟨t, hstep, hmemory, ended, same, _⟩ := command_ends hs hb
  have itself : (s.chip.collect.restyled n style).stories[n] = z := (restyled_self ..).trans hz.symm
  have others : ∀ m : StoryNo, m ≠ n → (s.chip.collect.restyled n style).stories[m] = s.chip.stories[m] :=
    fun m hm => restyled_others style hm
  have staled := staleStory_staled (c := s.chip) (n := n) (d := s.chip.collect.restyled n style) rfl
    (by rw [itself, hz]; exact hfree)
  refine ⟨t, hstep, hmemory, ended, ?_, fun m hm => ?_, fun hrun => ⟨?_, fun m hm => ?_⟩⟩
  · simp only [same.stories]
    exact itself ▸ staled.itself
  · simp only [same.stories]
    exact others m hm ▸ staled.others m hm
  · obtain ⟨hasStaled, _⟩ := staled.busy hrun
    rw [itself] at hasStaled
    unfold Chip.HasStaled at hasStaled ⊢
    simp only [same.stories, same.fit]
    exact hasStaled
  · simp only [same.stories, (staled.busy hrun).2 m hm]
    exact others m hm

theorem killLeft_holder (hs : c.stories[n].state = .open_) (hu : c.stories[n].holder = some u) :
    (c.killLeft n).custody.held[u] = c.custody.held[u].filter (· ≠ n) ∧
      (c.killLeft n).desks[c.stories[n].desk].openCount = c.desks[c.stories[n].desk].openCount - 1 ∧
      (c.killLeft n).screens[u] =
        c.screens[u].enter { kind := .killed, subject := n.val, second := none, count := 1 } := by
  have stories := post_stories .killed n.val none (.terminal u) c
  have screens : ((c.post .killed n.val none (.terminal u)).leaveOpen n).screens =
      (c.post .killed n.val none (.terminal u)).screens := (does_leaveOpen n _).frame .screens (by decide)
  have receives : c.receives u (.terminal u) = true := decide_eq_true rfl
  rw [killLeft_open hs hu]
  refine ⟨?_, ?_, ?_⟩
  · rw [leaveOpen_held]
    simp only [stories, hu, if_true, post_fields]
  · rw [leaveOpen_desk]
    simp only [stories, if_true, post_fields]
  · simp only [screens, post_screens, receives, if_true]

/-- Settles O49, by what KILL, SET STYLE and REFIT leave. -/
theorem storiesAreKilledStyledAndRefitted : Obligations.StoriesAreKilledStyledAndRefitted := by
  intro s n x hn hx
  obtain ⟨hkill, hstyle, hrefit⟩ := exec_changes s
  rw [hkill, hstyle, hrefit]
  refine ⟨fun hs hstate hcaller => ?_, fun f size leading measure track z hs hf hsize hsl hsh hleading hlh hmeasure hml hmh
    htl hth htrack hstate hcaller hz => ?_, fun hs => ⟨fun hfree => ?_, fun hfree => ?_⟩⟩
  · obtain ⟨t, d, e, hstep, hmemory, ended, same, cu, gone, killed⟩ := kill_ends hn hx hs hstate hcaller
    subst hx
    obtain ⟨others, custody, pages, stale, running, requested, idle, desks, held, collecting⟩ := gone
    have staleWaits := fun h => (stale h).2 rfl
    simp only [collect_fields] at others custody pages stale running requested idle staleWaits
    obtain ⟨story, freeStories, freeBlocks⟩ := killed.items (collecting rfl)
    refine ⟨t, hstep, hmemory, ended, ?_, fun m hm => ?_, ?_, ?_, fun b => ?_, ?_, fun hfit hrun => ⟨?_, ?_⟩,
      fun hfit hq => ?_, fun hfit k b hk hb => ?_, fun hfit => ?_, fun p => ?_, fun u hs hu => ⟨?_, ?_, fun hfit => ?_⟩,
      fun hs => ?_, awaits_endAction cu story, awaits_endAction cu freeStories,
      fun hb => awaits_endAction cu (freeBlocks hb)⟩
    · simp only [same.stories, killed.story, if_true]
    · simp only [same.stories, killed.story, if_neg hm.symm]
      exact others m hm
    · rw [same.custody, killed.custody, custody]
      rfl
    · rw [same.custody, killed.custody, custody]
      rfl
    · have owners : t.chip.custody.owners = (s.chip.stories[n].blocks).foldl
          (fun (m : Vector (Option StoryNo) 8192) (b : BlockNo) => m.set b none) s.chip.custody.owners := by
        rw [same.custody, killed.custody, custody]
        rfl
      simp only [owners]
      exact owners_freed _ _ b
    · rw [same.custody, killed.custody, custody]
      rfl
    · rw [same.fit, killed.fit]
      exact (stale hfit).1
    · exact awaits_endAction cu (killed.awaits _ (staleWaits hfit))
    · rw [same.fit, killed.fit]
      exact running hfit hq
    · rw [same.fit, killed.fit]
      exact requested hfit k b hk hb
    · rw [same.fit, killed.fit]
      exact (idle hfit).1
    · simp only [same.pages, killed.pages]
      exact pages p
    · obtain ⟨heldLeft, _⟩ := killLeft_holder (c := s.chip.collect) hs hu
      have gone : t.chip.custody.held = (s.chip.collect.killLeft n).custody.held := by
        rw [same.custody, killed.custody]
        exact held
      simp only [gone]
      exact heldLeft
    · obtain ⟨_, count, _⟩ := killLeft_holder (c := s.chip.collect) hs hu
      simp only [same.desks, killed.desks, desks]
      exact count
    · obtain ⟨_, _, screen⟩ := killLeft_holder (c := s.chip.collect) hs hu
      simp only [same.screens, killed.screens, (idle hfit).2]
      exact screen
    · have basket := leaveBasket_desk n s.chip.collect s.chip.stories[n].desk
      simp only [same.desks, killed.desks, desks, killLeft_basket (c := s.chip.collect) hs]
      exact basket.trans (if_pos rfl)
  · subst hx
    exact setStyle_ends hs (setStyle_answers (c := s.chip.collect) hn
      (styleArg_of (k := s.chip.collect.cu) hf hsize hsl hsh hleading hlh hmeasure hml hmh htl hth htrack) hstate hcaller) hz
      (state_allowed hstate).2
  · subst hx
    exact takeCommand_refused hs ((refit_answers (c := s.chip.collect) hn).trans (if_pos hfree))
  · subst hx
    obtain ⟨t, hstep, hmemory, ended, same, cu⟩ :=
      command_ends hs ((refit_answers (c := s.chip.collect) hn).trans (if_neg hfree))
    have staled := staleStory_staled (c := s.chip) (n := n) (d := s.chip.collect) rfl hfree
    refine ⟨t, hstep, hmemory, ended, fun m => ?_, fun hrun => ⟨?_, fun m hm => ?_, fun hfit => ?_⟩⟩
    · simp only [same.stories]
      exact (fit_staleStory n s.chip.collect).outside m
    · obtain ⟨hasStaled, _⟩ := staled.busy hrun
      unfold Chip.HasStaled at hasStaled ⊢
      simp only [same.stories, same.fit]
      exact hasStaled
    · simp only [same.stories, (staled.busy hrun).2 m hm]
      rfl
    · have unit : (s.chip.collect.staleStory n).cu = s.chip.collect.cu := by
        rw [staleStory_busy n s.chip.collect hrun]
        exact stale_unit hfit
      rw [cu, unit]
      rfl

end

end Sys2Proof.Machine
end

section
/-! SUPPORT. SET CLOCK and SET EDITIONS (R117 to R119; O51). -/

namespace Sys2Proof.Machine

section
variable {c d : Chip} {s : State} {l words : List Word}

theorem exec_clockCommands (s : State) :
    exec .setClock s = takeCommand 21 Chip.setClock s ∧ exec .setEditions s = takeCommand 22 Chip.setEditions s := ⟨rfl, rfl⟩

/-- The edition R118 gives is the right one. -/
theorem currentEdition_right (k : NightClock) (h : k.current = currentEdition k.closes k.count) : k.CurrentIsRight :=
  ⟨fun _ _ hi hx hbefore => h.trans (currentEdition_first hi hx hbefore), fun hall => h.trans (currentEdition_last hall)⟩

theorem setClock_answers (hsystem : c.cu.context = .system) : c.setClock = .done (c.loadClock (c.cu.arg 1)) [] := by
  simp only [Chip.setClock, callerFault_systemOnly_system hsystem]

/-- What the load of the clock leaves besides the clock. -/
theorem loadClock_fields (v : Word) (c : Chip) :
    (c.loadClock v).pages = c.pages ∧ (c.loadClock v).stories = c.stories ∧ (c.loadClock v).screens = c.screens := by
  simp only [Chip.loadClock, mark_fields, onClock_fields]
  exact ⟨trivial, trivial, trivial⟩

/-- The load marks the count and the current edition. -/
theorem loadClock_waits (v : Word) (h : c.cu.collecting = true) (hw : c.cu.waitSet = []) :
    (c.loadClock v).cu.waitSet.map (·.item) = [.clockCount, .currentEdition] := by
  simp only [Chip.loadClock, mark_fields, onClock_fields, h, hw, if_true]
  rfl

theorem takeSchedule_fields (l : List Word) (c : Chip) :
    (c.takeSchedule l).pages = c.pages ∧ (c.takeSchedule l).stories = c.stories ∧
      (c.takeSchedule l).screens = c.screens := by
  simp only [Chip.takeSchedule, mark_fields, onClock_fields]
  exact ⟨trivial, trivial, trivial⟩

theorem takeSchedule_waits (l : List Word) (h : c.cu.collecting = true) (hw : c.cu.waitSet = []) :
    (c.takeSchedule l).cu.waitSet.map (·.item) = [.currentEdition] := by
  simp only [Chip.takeSchedule, mark_fields, onClock_fields, h, hw, if_true]
  rfl

/-- The close times of a well-formed argument list (R119). -/
theorem closesArg_wellFormed (hne : l ≠ []) (hnz : ∀ v ∈ l, v ≠ 0) (hrise : l.Pairwise (· < ·))
    (k : Nat) : closesArg (l ++ List.replicate k 0) = some l := by
  have front : (l ++ List.replicate k 0).takeWhile (· ≠ 0) = l := by
    rw [List.takeWhile_append_of_pos fun v hv => decide_eq_true (hnz v hv)]
    cases k with
    | zero => rw [List.replicate_zero, List.takeWhile_nil, List.append_nil]
    | succ k => rw [List.replicate_succ, List.takeWhile_cons_of_neg (by simp), List.append_nil]
  have rest : ((l ++ List.replicate k 0).drop l.length).all (· = 0) = true := by
    rw [List.drop_left]
    simp
  unfold closesArg
  dsimp only
  rw [front, if_pos ⟨hne, hrise, rest⟩]

theorem closesArg_zero (h : c.cu.arg 1 = 0) : closesArg ([1, 2, 3, 4, 5, 6].map c.cu.arg) = none := by
  have front : ([1, 2, 3, 4, 5, 6].map c.cu.arg).takeWhile (· ≠ 0) = [] := by
    rw [List.map_cons, List.takeWhile_cons_of_neg (by simp [h])]
  unfold closesArg
  dsimp only
  rw [front, if_neg fun hne => hne.1 rfl]

theorem setEditions_zero (h : c.cu.arg 1 = 0) : c.setEditions = .refused .badArgument [] := by
  simp only [Chip.setEditions, closesArg_zero h]
  rfl

theorem setEditions_answers (hl : closesArg ([1, 2, 3, 4, 5, 6].map c.cu.arg) = some l)
    (hsystem : c.cu.context = .system) :
    c.setEditions = .done (c.takeSchedule l) [wordOf (c.takeSchedule l).clock.current] := by
  simp only [Chip.setEditions, hl, callerFault_systemOnly_system hsystem]

/-- Settles O51, by what the load of the clock and the taking of a schedule leave. -/
theorem clockAndEditionsAreSet : Obligations.ClockAndEditionsAreSet := by
  intro s hsystem
  obtain ⟨hclock, heditions⟩ := exec_clockCommands s
  rw [hclock, heditions]
  refine ⟨fun hs => ?_, fun hs => ⟨fun hzero => ?_, fun l hne hlen hnz hrise hargs => ?_⟩⟩
  · obtain ⟨t, hstep, hmemory, ended, same, cu⟩ := command_ends hs (setClock_answers (c := s.chip.collect) hsystem)
    have clock := loadClock_clock (s.chip.collect.cu.arg 1) s.chip.collect
    obtain ⟨pages, stories, screens⟩ := loadClock_fields (s.chip.collect.cu.arg 1) s.chip.collect
    refine ⟨t, hstep, hmemory, ended, ?_, currentEdition_right _ ?_, ?_, same.pages.trans pages, same.stories.trans stories,
      same.screens.trans screens⟩
    · rw [same.clock, clock]
      rfl
    · rw [same.clock, clock]
    · rw [cu]
      exact loadClock_waits _ rfl rfl
  · exact takeCommand_refused hs (setEditions_zero (c := s.chip.collect) hzero)
  · have hl : closesArg ([1, 2, 3, 4, 5, 6].map s.chip.collect.cu.arg) = some l := by
      have hargs' : [1, 2, 3, 4, 5, 6].map s.chip.collect.cu.arg = l ++ List.replicate (6 - l.length) 0 := hargs
      rw [hargs']
      exact closesArg_wellFormed hne hnz hrise _
    obtain ⟨t, hstep, hmemory, ended, same, cu⟩ := command_ends hs (setEditions_answers (c := s.chip.collect) hl hsystem)
    have clock := takeSchedule_clock l s.chip.collect
    obtain ⟨pages, stories, screens⟩ := takeSchedule_fields l s.chip.collect
    rw [← same.clock] at ended
    refine ⟨t, hstep, hmemory, ended, ?_, currentEdition_right _ ?_, ?_, same.pages.trans pages, same.stories.trans stories,
      same.screens.trans screens⟩
    · rw [same.clock, clock]
      rfl
    · rw [same.clock, clock]
    · rw [cu]
      exact takeSchedule_waits _ rfl rfl

end

end Sys2Proof.Machine
end

section
/-! SUPPORT. A running pulse: the edition closed, the pages made late and the leases counted, entry by entry (R115, R120 to
R124, R159; O52). -/

namespace Sys2Proof.Machine

section
variable {c d e : Chip} {s : State} {n m : StoryNo} {p q : PageNo} {x y : DeskNo} {u w : TerminalNo} {i : MirrorItem}
  {count : Word}

/-! ## What no part of a pulse takes back -/

/-- From `c` to `d` no attention bit is cleared, no item leaves the mirror writer's list and no notice is hidden. -/
structure Chip.Grows (c d : Chip) : Prop where
  bits : ∀ b : Byte, c.cu.attentionRaw &&& b ≠ 0#8 → d.cu.attentionRaw &&& b ≠ 0#8
  pending : ∀ i ∈ c.mirror.pending, i ∈ d.mirror.pending
  holds : ∀ (w : TerminalNo) (k : NoticeKind) (j : Nat), c.screens[w].Holds k j → d.screens[w].Holds k j

namespace Chip.Grows

theorem of_same (hu : d.cu.attentionRaw = c.cu.attentionRaw) (hm : d.mirror = c.mirror) (hs : d.screens = c.screens) :
    Chip.Grows c d :=
  ⟨fun b h => by rw [hu]; exact h, fun i h => by rw [hm]; exact h, fun w k j h => by simp only [hs]; exact h⟩

theorem refl (c : Chip) : Chip.Grows c c := of_same rfl rfl rfl

theorem trans (h : Chip.Grows c d) (k : Chip.Grows d e) : Chip.Grows c e :=
  ⟨fun b hb => k.bits b (h.bits b hb), fun i hi => k.pending i (h.pending i hi),
    fun w kind j hj => k.holds w kind j (h.holds w kind j hj)⟩

theorem mark (i : MirrorItem) (c : Chip) : Chip.Grows c (c.mark i) := by
  refine ⟨fun b h => ?_, fun j hj => ?_, fun w k j hj => ?_⟩
  · simp only [mark_fields]
    exact h
  · simp only [mark_fields]
    exact (mem_mark_pending ..).mpr (Or.inl hj)
  · simp only [mark_fields]
    exact hj

theorem post (k : NoticeKind) (j : Nat) (v : Option Nat) (r : Recipients) (c : Chip) : Chip.Grows c (c.post k j v r) :=
  ⟨fun b h => by simp only [post_fields]; exact h, fun i h => by simp only [post_fields]; exact h,
    fun w kind j' h => post_keeps_holds k j v r c w h⟩

theorem raise (n : Cause) (c : Chip) : Chip.Grows c (c.raise n) := by
  obtain ⟨_, _, _, _, raw, _⟩ := raise_unit c n
  obtain ⟨_, pending⟩ := raise_mirror c n
  refine ⟨fun b h hz => h ?_, pending, fun w k j hj => ?_⟩
  · rw [raw, BitVec.and_or_distrib_right, BitVec.or_eq_zero_iff] at hz
    exact hz.1
  · simp only [raise_fields]
    exact hj

end Chip.Grows

/-- A raised cause shows in the attention word. -/
theorem raise_shows (n : Cause) (c : Chip) (h : n.bit ≠ 0#8) : (c.raise n).cu.attentionRaw &&& n.bit ≠ 0#8 := by
  obtain ⟨_, _, _, _, raw, _⟩ := raise_unit c n
  rw [raw, BitVec.and_or_distrib_right, BitVec.and_self]
  exact fun hz => h (BitVec.or_eq_zero_iff.mp hz).2

theorem mark_pends (i : MirrorItem) (c : Chip) : i ∈ (c.mark i).mirror.pending := by
  simp only [mark_fields]
  exact (mem_mark_pending ..).mpr (Or.inr rfl)

theorem setBasket_grows (n : StoryNo) (before : Option StoryNo) (l : List StoryNo) (c : Chip) :
    Chip.Grows c (c.setBasket n before l) ∧ .story n ∈ (c.setBasket n before l).mirror.pending := by
  have first : Chip.Grows c ((c.onDesk c.stories[n].desk fun x => { x with basket := l }).mark (.story n)) :=
    (Chip.Grows.of_same (c := c) (d := c.onDesk c.stories[n].desk fun x => { x with basket := l }) rfl rfl rfl).trans (.mark _ _)
  have story := mark_pends (.story n) (c.onDesk c.stories[n].desk fun x => { x with basket := l })
  unfold Chip.setBasket
  cases before with
  | none => exact ⟨first.trans (.mark _ _), (Chip.Grows.mark _ _).pending _ story⟩
  | some k => exact ⟨(first.trans (.mark _ _)).trans (.mark _ _),
      (Chip.Grows.mark _ _).pending _ ((Chip.Grows.mark _ _).pending _ story)⟩

theorem leaveOpen_grows (n : StoryNo) (c : Chip) : Chip.Grows c (c.leaveOpen n) := by
  unfold Chip.leaveOpen
  cases c.stories[n].holder with
  | none => exact (Chip.Grows.of_same (by rfl) (by rfl) (by rfl)).trans ((Chip.Grows.mark _ _).trans (.mark _ _))
  | some t => exact (Chip.Grows.of_same (by rfl) (by rfl) (by rfl)).trans ((Chip.Grows.mark _ _).trans (.mark _ _))

theorem joinHead_grows (n : StoryNo) (c : Chip) :
    Chip.Grows c (c.joinHead n) ∧ .story n ∈ (c.joinHead n).mirror.pending := setBasket_grows n _ _ c

theorem returnToHead_grows (h : c.stories[n].state = .open_) :
    Chip.Grows c (c.returnToHead n) ∧ .story n ∈ (c.returnToHead n).mirror.pending := by
  obtain ⟨joins, story⟩ := joinHead_grows n ((c.leaveOpen n).onStory n fun z => { z with state := .basket })
  have put : Chip.Grows (c.leaveOpen n) ((c.leaveOpen n).onStory n fun z => { z with state := .basket }) :=
    .of_same rfl rfl rfl
  rw [returnToHead_open h]
  exact ⟨((leaveOpen_grows n c).trans put).trans joins, story⟩

/-! ## One lease counted (R121 to R124) -/

/-- A lease reloaded as warned, or cleared under a limit of 0 (R122, R123). -/
def warnedLease (limit : Nat) : Option Lease :=
  if limit = 0 then none else some { remaining := limit, warned := true }

/-- What a pulse makes of the lease of story `n` (R121 to R124). -/
structure Chip.LeaseCounted (n : StoryNo) (c d : Chip) : Prop where
  none : c.stories[n].lease = .none → d.stories[n] = c.stories[n]
  runs : ∀ k, c.stories[n].lease = some k → 2 ≤ k.remaining →
    d.stories[n] = { c.stories[n] with lease := some { k with remaining := k.remaining - 1 } }
  warns : ∀ k, c.stories[n].lease = some k → k.remaining ≤ 1 →
    k.warned = false ∨ c.desks[c.stories[n].desk].idleAction = .notify →
    d.stories[n] = { c.stories[n] with lease := warnedLease c.desks[c.stories[n].desk].idleLimit } ∧
      ∀ u : TerminalNo, c.stories[n].holder = some u → d.screens[u].Holds .idle n.val
  recalls : ∀ k, c.stories[n].lease = some k → k.remaining ≤ 1 →
    k.warned = true ∧ c.desks[c.stories[n].desk].idleAction = .recall →
    d.stories[n] = c.stories[n].returned ∧ n ∈ d.desks[c.stories[n].desk].basket ∧ .story n ∈ d.mirror.pending ∧
      ∀ u : TerminalNo, c.stories[n].holder = some u → d.screens[u].Holds .recalled n.val

/-- What counting the leases of other stories leaves. -/
structure Chip.Counting (c d : Chip) : Prop where
  grows : Chip.Grows c d
  settings : ∀ y : DeskNo, d.desks[y].idleLimit = c.desks[y].idleLimit ∧ d.desks[y].idleAction = c.desks[y].idleAction
  baskets : ∀ (y : DeskNo) (m : StoryNo), m ∈ c.desks[y].basket → m ∈ d.desks[y].basket

theorem Chip.Counting.refl (c : Chip) : Chip.Counting c c := ⟨.refl c, fun _ => ⟨rfl, rfl⟩, fun _ _ h => h⟩

theorem Chip.Counting.trans (h : Chip.Counting c d) (k : Chip.Counting d e) : Chip.Counting c e where
  grows := h.grows.trans k.grows
  settings y := ⟨(k.settings y).1.trans (h.settings y).1, (k.settings y).2.trans (h.settings y).2⟩
  baskets y m hm := k.baskets y m (h.baskets y m hm)

theorem Chip.Counting.of_desks (h : Chip.Grows c d) (hd : d.desks = c.desks) : Chip.Counting c d :=
  ⟨h, fun _ => by simp only [hd]; exact ⟨trivial, trivial⟩, fun _ _ hm => by simp only [hd]; exact hm⟩

/-- What has been counted stays while other stories are counted. -/
theorem Chip.LeaseCounted.later (h : Chip.LeaseCounted n c d) (k : Chip.Counting d e)
    (hn : e.stories[n] = d.stories[n]) : Chip.LeaseCounted n c e where
  none hk := hn.trans (h.none hk)
  runs l hl hr := hn.trans (h.runs l hl hr)
  warns l hl hr hw := by
    obtain ⟨story, told⟩ := h.warns l hl hr hw
    exact ⟨hn.trans story, fun u hu => k.grows.holds _ _ _ (told u hu)⟩
  recalls l hl hr hw := by
    obtain ⟨story, basket, pending, told⟩ := h.recalls l hl hr hw
    exact ⟨hn.trans story, k.baskets _ _ basket, k.grows.pending _ pending, fun u hu => k.grows.holds _ _ _ (told u hu)⟩

/-- What is counted later is counted as it stood. -/
theorem Chip.LeaseCounted.earlier (h : Chip.LeaseCounted n d e) (k : Chip.Counting c d)
    (hn : d.stories[n] = c.stories[n]) : Chip.LeaseCounted n c e where
  none hk := (h.none (by rw [hn]; exact hk)).trans hn
  runs l hl hr := by
    have := h.runs l (by rw [hn]; exact hl) hr
    rw [hn] at this
    exact this
  warns l hl hr hw := by
    have := h.warns l (by rw [hn]; exact hl) hr
    simp only [hn, k.settings] at this
    exact this hw
  recalls l hl hr hw := by
    have := h.recalls l (by rw [hn]; exact hl) hr
    simp only [hn, k.settings] at this
    exact this hw

/-! The parts of one count. -/

/-- The part with one pulse taken off the lease of `n`. -/
def Chip.leaseDown (c : Chip) (n : StoryNo) (k : Lease) : Chip :=
  c.onStory n fun z => { z with lease := some { k with remaining := k.remaining - 1 } }

theorem countLease_none (h : c.stories[n].lease = none) : c.countLease n = c := by
  simp only [Chip.countLease, h]

theorem countLease_some {k : Lease} (h : c.stories[n].lease = some k) :
    c.countLease n = if k.remaining ≤ 1 then (c.leaseDown n k).expireLease n k.warned else c.leaseDown n k := by
  simp only [Chip.countLease, h, Lease.expires, decide_eq_true_eq]
  rfl

theorem expireLease_recalls {b : Bool} (h : b = true ∧ c.desks[c.stories[n].desk].idleAction = .recall) :
    c.expireLease n b = c.recallStory n := if_pos h

theorem expireLease_warns {b : Bool} (h : b = false ∨ c.desks[c.stories[n].desk].idleAction = .notify) :
    c.expireLease n b = c.warnHolder n := by
  refine if_neg fun hw => ?_
  rcases h with h | h
  · rw [h] at hw
    cases hw.1
  · rw [h] at hw
    cases hw.2

/-- A notice of one story posted to the terminal that holds, or held, it. -/
def Chip.tell (c : Chip) (k : NoticeKind) (n : StoryNo) (holder : Option TerminalNo) : Chip :=
  match holder with
  | some t => c.post k n.val none (.terminal t)
  | none => c

theorem tell_grows (k : NoticeKind) (n : StoryNo) (holder : Option TerminalNo) (c : Chip) :
    Chip.Grows c (c.tell k n holder) := by
  cases holder with
  | none => exact .refl c
  | some t => exact .post k n.val none (.terminal t) c

theorem tell_fields (k : NoticeKind) (n : StoryNo) (holder : Option TerminalNo) (c : Chip) :
    (c.tell k n holder).stories = c.stories ∧ (c.tell k n holder).desks = c.desks ∧
      (c.tell k n holder).mirror = c.mirror := by
  cases holder with
  | none => exact ⟨rfl, rfl, rfl⟩
  | some t => simp only [Chip.tell, post_fields]; exact ⟨trivial, trivial, trivial⟩

theorem tell_holds (k : NoticeKind) (n : StoryNo) (u : TerminalNo) (c : Chip) :
    (c.tell k n (some u)).screens[u].Holds k n.val :=
  post_holds k n.val none (.terminal u) c u (decide_eq_true rfl)

theorem warnHolder_eq (n : StoryNo) (c : Chip) :
    c.warnHolder n = (c.tell .idle n c.stories[n].holder).onStory n fun z =>
      { z with lease := warnedLease c.desks[c.stories[n].desk].idleLimit } := rfl

theorem recallStory_eq (n : StoryNo) (c : Chip) :
    c.recallStory n = (c.returnToHead n).tell .recalled n c.stories[n].holder := rfl

/-- One lease counted. -/
structure Chip.CountsOne (n : StoryNo) (c d : Chip) : Prop where
  counting : Chip.Counting c d
  others : ∀ m : StoryNo, m ≠ n → d.stories[m] = c.stories[m]
  counted : Chip.LeaseCounted n c d

theorem leaseDown_self (c : Chip) (n : StoryNo) (k : Lease) :
    (c.leaseDown n k).stories[n] = { c.stories[n] with lease := some { k with remaining := k.remaining - 1 } } :=
  onStory_self ..

theorem leaseDown_counting (c : Chip) (n : StoryNo) (k : Lease) : Chip.Counting c (c.leaseDown n k) :=
  .of_desks (.of_same rfl rfl rfl) rfl

theorem countsOne_none (h : c.stories[n].lease = none) : Chip.CountsOne n c (c.countLease n) := by
  rw [countLease_none h]
  refine ⟨.refl c, fun _ _ => rfl, ⟨fun _ => rfl, fun k hk => ?_, fun k hk => ?_, fun k hk => ?_⟩⟩ <;>
    exact absurd (h.symm.trans hk) nofun

theorem countsOne_runs {k : Lease} (h : c.stories[n].lease = some k) (hr : 2 ≤ k.remaining) :
    Chip.CountsOne n c (c.countLease n) := by
  rw [countLease_some h, if_neg (by omega)]
  refine ⟨leaseDown_counting c n k, fun m hm => onStory_ne _ hm, ⟨fun hk => absurd (h.symm.trans hk) nofun,
    fun l hl _ => ?_, fun l hl hle => ?_, fun l hl hle => ?_⟩⟩
  · cases h.symm.trans hl
    exact leaseDown_self ..
  · cases h.symm.trans hl
    omega
  · cases h.symm.trans hl
    omega

theorem countsOne_warns {k : Lease} (h : c.stories[n].lease = some k) (hr : k.remaining ≤ 1)
    (hw : k.warned = false ∨ c.desks[c.stories[n].desk].idleAction = .notify) :
    Chip.CountsOne n c (c.countLease n) := by
  have down := leaseDown_self c n k
  have hw' : k.warned = false ∨
      (c.leaseDown n k).desks[(c.leaseDown n k).stories[n].desk].idleAction = .notify := by
    simp only [down]
    exact hw
  obtain ⟨stories, desks, _⟩ := tell_fields .idle n (c.leaseDown n k).stories[n].holder (c.leaseDown n k)
  have grows := tell_grows .idle n (c.leaseDown n k).stories[n].holder (c.leaseDown n k)
  have result : (c.countLease n).stories[n] =
      { c.stories[n] with lease := warnedLease c.desks[c.stories[n].desk].idleLimit } := by
    rw [countLease_some h, if_pos hr, expireLease_warns hw', warnHolder_eq, onStory_self]
    simp only [tell_fields, down]
    rfl
  have told (u : TerminalNo) (hu : c.stories[n].holder = some u) : (c.countLease n).screens[u].Holds .idle n.val := by
    have holder : (c.leaseDown n k).stories[n].holder = some u := by rw [down]; exact hu
    rw [countLease_some h, if_pos hr, expireLease_warns hw', warnHolder_eq, holder]
    exact tell_holds .idle n u _
  have counting : Chip.Counting c (c.countLease n) := by
    rw [countLease_some h, if_pos hr, expireLease_warns hw', warnHolder_eq]
    exact ((leaseDown_counting c n k).trans (.of_desks grows desks)).trans (.of_desks (.of_same rfl rfl rfl) rfl)
  have others (m : StoryNo) (hm : m ≠ n) : (c.countLease n).stories[m] = c.stories[m] := by
    rw [countLease_some h, if_pos hr, expireLease_warns hw', warnHolder_eq, onStory_ne _ hm]
    simp only [stories]
    exact onStory_ne _ hm
  refine ⟨counting, others, ⟨fun hk => absurd (h.symm.trans hk) nofun, fun l hl hge => ?_, fun l hl _ _ => ⟨result, told⟩,
    fun l hl _ hrecall => ?_⟩⟩
  · cases h.symm.trans hl
    omega
  · cases h.symm.trans hl
    obtain ⟨hwarned, haction⟩ := hrecall
    rcases hw with hw | hw
    · exact absurd (hwarned.symm.trans hw) nofun
    · exact absurd (haction.symm.trans hw) nofun

theorem countsOne_recalls {k : Lease} (h : c.stories[n].lease = some k) (hr : k.remaining ≤ 1)
    (hopen : c.stories[n].state = .open_)
    (hw : k.warned = true ∧ c.desks[c.stories[n].desk].idleAction = .recall) :
    Chip.CountsOne n c (c.countLease n) := by
  have down := leaseDown_self c n k
  have hw' : k.warned = true ∧
      (c.leaseDown n k).desks[(c.leaseDown n k).stories[n].desk].idleAction = .recall := by
    simp only [down]
    exact hw
  have hopened : (c.leaseDown n k).stories[n].state = .open_ := by rw [down]; exact hopen
  have desk : (c.leaseDown n k).stories[n].desk = c.stories[n].desk := by rw [down]
  obtain ⟨stories, desks, mirror⟩ := tell_fields .recalled n (c.leaseDown n k).stories[n].holder
    ((c.leaseDown n k).returnToHead n)
  have grows := tell_grows .recalled n (c.leaseDown n k).stories[n].holder ((c.leaseDown n k).returnToHead n)
  obtain ⟨returns, pends⟩ := returnToHead_grows hopened
  have result : c.countLease n = ((c.leaseDown n k).returnToHead n).tell .recalled n (c.leaseDown n k).stories[n].holder := by
    rw [countLease_some h, if_pos hr, expireLease_recalls hw', recallStory_eq]
  have counting : Chip.Counting c (c.countLease n) := by
    rw [result]
    refine ((leaseDown_counting c n k).trans ⟨returns, fun y => ?_, fun y m hm => ?_⟩).trans (.of_desks grows desks)
    · rw [returnToHead_desk hopened]
      split <;> exact ⟨rfl, rfl⟩
    · exact (returnToHead_basket hopened y m).mpr (Or.inl hm)
  have others (m : StoryNo) (hm : m ≠ n) : (c.countLease n).stories[m] = c.stories[m] := by
    simp only [result, stories]
    rw [returnToHead_story hopened, if_neg hm.symm]
    exact onStory_ne _ hm
  refine ⟨counting, others, ⟨fun hk => absurd (h.symm.trans hk) nofun, fun l hl hge => ?_, fun l hl _ hwarn => ?_,
    fun l hl _ _ => ⟨?_, ?_, ?_, fun u hu => ?_⟩⟩⟩
  · cases h.symm.trans hl
    omega
  · cases h.symm.trans hl
    obtain ⟨hwarned, haction⟩ := hw
    rcases hwarn with hwarn | hwarn
    · exact absurd (hwarned.symm.trans hwarn) nofun
    · exact absurd (haction.symm.trans hwarn) nofun
  · simp only [result, stories]
    rw [returnToHead_story hopened, if_pos rfl, down]
    rfl
  · simp only [result, desks]
    exact (returnToHead_basket hopened _ _).mpr (Or.inr ⟨rfl, desk⟩)
  · rw [result, mirror]
    exact pends
  · have holder : (c.leaseDown n k).stories[n].holder = some u := by rw [down]; exact hu
    rw [result, holder]
    exact tell_holds .recalled n u _

theorem countLease_countsOne (hopen : c.stories[n].lease.isSome = true → c.stories[n].state = .open_) :
    Chip.CountsOne n c (c.countLease n) := by
  cases h : c.stories[n].lease with
  | none => exact countsOne_none h
  | some k =>
    have hstate := hopen (by rw [h]; rfl)
    rcases Nat.lt_or_ge 1 k.remaining with hr | hr
    · exact countsOne_runs h hr
    · cases hw : k.warned with
      | false => exact countsOne_warns h hr (Or.inl hw)
      | true =>
        cases ha : c.desks[c.stories[n].desk].idleAction
        · exact countsOne_warns h hr (Or.inr ha)
        · exact countsOne_recalls h hr hstate ⟨hw, ha⟩

/-! ## Every lease counted (R121) -/

/-- The leases of a list of stories counted. -/
structure Chip.CountsAll (l : List StoryNo) (c d : Chip) : Prop where
  counting : Chip.Counting c d
  others : ∀ m : StoryNo, m ∉ l → d.stories[m] = c.stories[m]
  counted : ∀ n ∈ l, Chip.LeaseCounted n c d

theorem foldl_countLease (l : List StoryNo) : ∀ c : Chip, l.Nodup →
    (∀ n ∈ l, c.stories[n].lease.isSome = true → c.stories[n].state = .open_) → Chip.CountsAll l c (l.foldl Chip.countLease c) := by
  induction l with
  | nil => exact fun c _ _ => ⟨.refl c, fun _ _ => rfl, nofun⟩
  | cons n l ih =>
    intro c hnodup hopen
    obtain ⟨hfresh, hnodup⟩ := List.nodup_cons.mp hnodup
    have one := countLease_countsOne (hopen n List.mem_cons_self)
    have same : ∀ m ∈ l, (c.countLease n).stories[m] = c.stories[m] := fun m hm =>
      one.others m fun e => hfresh (e ▸ hm)
    have rest := ih (c.countLease n) hnodup fun m hm => by
      rw [same m hm]
      exact hopen m (List.mem_cons_of_mem n hm)
    refine ⟨one.counting.trans rest.counting, fun m hm => ?_, fun m hm => ?_⟩
    · have hmn : m ≠ n := fun e => hm (e ▸ List.mem_cons_self)
      exact (rest.others m fun h => hm (List.mem_cons_of_mem n h)).trans (one.others m hmn)
    · rcases List.mem_cons.mp hm with rfl | hm
      · exact one.counted.later rest.counting (rest.others m hfresh)
      · exact (rest.counted m hm).earlier one.counting (same m hm)

theorem countLeases_all (hopen : ∀ n : StoryNo, c.stories[n].lease.isSome = true → c.stories[n].state = .open_) :
    Chip.Counting c c.countLeases ∧ ∀ n : StoryNo, Chip.LeaseCounted n c c.countLeases := by
  have all := foldl_countLease (List.finRange 1024) c (List.nodup_finRange 1024) fun n _ => hopen n
  exact ⟨all.counting, fun n => all.counted n (List.mem_finRange n)⟩

/-! ## The pages compared (R159) -/

theorem goesLate_iff {z : Page} :
    z.goesLate count = true ↔ z.close = some count ∧ z.late = false ∧ (z.state = .makeup ∨ z.state = .queued) := by
  simp only [Page.goesLate, Bool.and_eq_true, Bool.or_eq_true, decide_eq_true_eq, Bool.not_eq_true', and_assoc]
  exact and_congr_right fun _ => and_comm

/-- A page made late, with the notices and the marks that show it. -/
structure Chip.MadeLate (p : PageNo) (c d : Chip) : Prop where
  bit : d.cu.attentionRaw &&& 0x40#8 ≠ 0#8
  pending : .page p ∈ d.mirror.pending
  told : ∀ (w : TerminalNo) (z : Session), c.session w = some z → z.desk = c.pages[p].desk → z.clearance = .slot →
    d.screens[w].Holds .late p.number

theorem Chip.MadeLate.later (h : Chip.MadeLate p c d) (k : Chip.Grows d e) : Chip.MadeLate p c e :=
  ⟨k.bits _ h.bit, k.pending _ h.pending, fun w z hz hd hc => k.holds _ _ _ (h.told w z hz hd hc)⟩

/-- The pages of a list compared with the count. -/
structure Chip.Compared (l : List PageNo) (c d : Chip) : Prop where
  grows : Chip.Grows c d
  keys : d.keys = c.keys
  page : ∀ p : PageNo, d.pages[p] =
    if p ∈ l ∧ c.pages[p].goesLate c.clock.count = true then { c.pages[p] with late := true } else c.pages[p]
  late : ∀ p ∈ l, c.pages[p].goesLate c.clock.count = true → Chip.MadeLate p c d

theorem makeLate_page (p q : PageNo) (c : Chip) :
    (c.makeLate p).pages[q] = if p = q then { c.pages[q] with late := true } else c.pages[q] := by
  simp only [Chip.makeLate, raise_fields, post_fields, mark_fields]
  exact onPage_pages ..

theorem makeLate_grows (p : PageNo) (c : Chip) : Chip.Grows c (c.makeLate p) := by
  have late : Chip.Grows c (c.onPage p fun x => { x with late := true }) := .of_same rfl rfl rfl
  exact ((late.trans (.mark (.page p) _)).trans (.post _ _ _ _ _)).trans (.raise .clock _)

theorem makeLate_late (p : PageNo) (c : Chip) : Chip.MadeLate p c (c.makeLate p) := by
  have pends := mark_pends (.page p) (c.onPage p fun x => { x with late := true })
  refine ⟨raise_shows .clock _ (by decide), ?_, fun w z hz hd hc => ?_⟩
  · exact (Chip.Grows.raise .clock _).pending _ ((Chip.Grows.post _ _ _ _ _).pending _ pends)
  · have session : ((c.onPage p fun x => { x with late := true }).mark (.page p)).session w = some z := by
      unfold Chip.session at hz ⊢
      simp only [mark_fields]
      exact hz
    obtain ⟨_, _, slot, _⟩ := receives_signedOn session
    refine (Chip.Grows.raise .clock _).holds _ _ _ (post_holds _ _ _ _ _ w ?_)
    rw [slot, decide_eq_true hd, decide_eq_true hc]
    rfl

theorem makeLate_fields (p : PageNo) (c : Chip) : (c.makeLate p).keys = c.keys ∧ (c.makeLate p).clock = c.clock :=
  ⟨(does_makeLate p c).frame .keys (by decide), (does_makeLate p c).frame .clock (by decide)⟩

/-- One page compared with the count. -/
def Chip.comparePage (c : Chip) (p : PageNo) : Chip := if c.pages[p].goesLate c.clock.count then c.makeLate p else c

theorem foldl_comparePage (l : List PageNo) : ∀ c : Chip, l.Nodup →
    Chip.Compared l c (l.foldl Chip.comparePage c) := by
  induction l with
  | nil => exact fun c _ => ⟨.refl c, rfl, fun p => by rw [if_neg fun h => List.not_mem_nil h.1]; rfl, nofun⟩
  | cons p l ih =>
    intro c hnodup
    obtain ⟨hfresh, hnodup⟩ := List.nodup_cons.mp hnodup
    rw [List.foldl_cons]
    by_cases hp : c.pages[p].goesLate c.clock.count = true
    · have hstep : c.comparePage p = c.makeLate p := if_pos hp
      rw [hstep]
      obtain ⟨keys, clock⟩ := makeLate_fields p c
      obtain ⟨grows, keys', page, late⟩ := ih (c.makeLate p) hnodup
      simp only [clock, makeLate_page] at page late
      refine ⟨(makeLate_grows p c).trans grows, keys'.trans keys, fun q => ?_, fun q hq hlate => ?_⟩
      · refine (page q).trans ?_
        by_cases hq : p = q
        · subst hq
          simp only [hfresh, false_and, if_false, if_true, List.mem_cons, true_or, hp, and_self]
        · simp only [if_neg hq, List.mem_cons, Ne.symm hq, false_or]
      · rcases List.mem_cons.mp hq with rfl | hq
        · exact (makeLate_late q c).later grows
        · have hpq : p ≠ q := fun e => hfresh (e ▸ hq)
          obtain ⟨bit, pending, told⟩ := late q hq (by rw [if_neg hpq]; exact hlate)
          refine ⟨bit, pending, fun w z hz hd hc => told w z ?_ ?_ hc⟩
          · unfold Chip.session at hz ⊢
            simp only [keys]
            exact hz
          · rw [makeLate_page, if_neg hpq]
            exact hd
    · have hstep : c.comparePage p = c := if_neg hp
      rw [hstep]
      obtain ⟨grows, keys, page, late⟩ := ih c hnodup
      refine ⟨grows, keys, fun q => (page q).trans ?_, fun q hq hlate => ?_⟩
      · by_cases hq : q = p
        · subst hq
          simp only [hfresh, if_false, hp, Bool.false_eq_true, and_false]
        · simp only [List.mem_cons, hq, false_or]
      · rcases List.mem_cons.mp hq with rfl | hq
        · exact absurd hlate hp
        · exact late q hq hlate

theorem comparePages_eq (c : Chip) : c.comparePages = (List.finRange 96).foldl Chip.comparePage c := rfl

theorem comparePages_compared (c : Chip) : Chip.Compared (List.finRange 96) c c.comparePages :=
  foldl_comparePage _ c (List.nodup_finRange 96)

/-! ## The edition closed (R120) -/

theorem closing_first {k : NightClock} {e : Nat} (h : k.closes[e]? = some (some count))
    (hbefore : ∀ j, j < e → k.closes[j]? ≠ some (some count)) : k.closing count = some (e + 1) := by
  obtain ⟨hlt, he⟩ := List.getElem?_eq_some_iff.mp h
  have found : k.closes.findIdx? (fun x => decide (x = some count)) = some e := by
    rw [List.findIdx?_eq_some_iff_getElem]
    refine ⟨hlt, by rw [he]; exact decide_eq_true rfl, fun j hj hp => ?_⟩
    exact hbefore j hj (List.getElem?_eq_some_iff.mpr ⟨Nat.lt_trans hj hlt, of_decide_eq_true hp⟩)
  rw [NightClock.closing, found, Option.map_some]

theorem closing_absent {k : NightClock} (h : some count ∉ k.closes) : k.closing count = none := by
  have found : k.closes.findIdx? (fun x => decide (x = some count)) = none := by
    rw [List.findIdx?_eq_none_iff]
    exact fun x hx => decide_eq_false fun he => h (he ▸ hx)
  rw [NightClock.closing, found, Option.map_none]

/-- The current edition moved on, unless the last has closed. -/
def Chip.editionOn (e : Nat) (c : Chip) : Chip :=
  if e < c.clock.closes.length then (c.onClock fun k => { k with current := e + 1 }).mark .currentEdition else c

theorem closeEdition_eq (e : Nat) (c : Chip) :
    c.closeEdition e = ((c.editionOn e).post .editionClosed e none .everySlot).raise .clock := rfl

theorem editionOn_grows (e : Nat) (c : Chip) : Chip.Grows c (c.editionOn e) ∧ (c.editionOn e).keys = c.keys := by
  unfold Chip.editionOn
  split
  · have moved : Chip.Grows c (c.onClock fun k => { k with current := e + 1 }) := .of_same rfl rfl rfl
    exact ⟨moved.trans (.mark _ _), by simp only [mark_fields, onClock_fields]⟩
  · exact ⟨.refl c, rfl⟩

theorem closeEdition_grows (e : Nat) (c : Chip) : Chip.Grows c (c.closeEdition e) :=
  ((editionOn_grows e c).1.trans (.post _ _ _ _ _)).trans (.raise .clock _)

/-- Every SLOT terminal is told of the edition closed (R120). -/
theorem closeEdition_tells (e : Nat) {c : Chip} {z : Session} (hz : c.session w = some z) (hc : z.clearance = .slot) :
    (c.closeEdition e).screens[w].Holds .editionClosed e := by
  obtain ⟨_, keys⟩ := editionOn_grows e c
  have session : (c.editionOn e).session w = some z := by
    unfold Chip.session at hz ⊢
    simp only [keys]
    exact hz
  obtain ⟨_, _, _, every⟩ := receives_signedOn session
  have received : (c.editionOn e).receives w .everySlot = true := every.trans (decide_eq_true hc)
  exact (Chip.Grows.raise .clock _).holds _ _ _ (post_holds _ _ _ _ _ w received)

theorem closeAt_grows (count : Word) (c : Chip) : Chip.Grows c (c.closeAt count) := by
  cases h : c.clock.closing count with
  | none => rw [closeAt_none h]; exact .refl c
  | some e => rw [closeAt_some h]; exact closeEdition_grows e c

theorem closeAt_fields (count : Word) (c : Chip) :
    (c.closeAt count).pages = c.pages ∧ (c.closeAt count).stories = c.stories ∧ (c.closeAt count).desks = c.desks ∧
      (c.closeAt count).keys = c.keys ∧ (c.closeAt count).clock.count = c.clock.count := by
  cases h : c.clock.closing count with
  | none => rw [closeAt_none h]; exact ⟨rfl, rfl, rfl, rfl, rfl⟩
  | some e =>
    have does := does_closeEdition e c
    rw [closeAt_some h]
    refine ⟨does.frame .pages (by decide), does.frame .stories (by decide), does.frame .desks (by decide),
      does.frame .keys (by decide), ?_⟩
    rw [closeEdition_clock]
    split <;> rfl

/-! ## The pulse and the rows that name what it brings about (R115) -/

/-- The part with the count raised. -/
def Chip.counted (c : Chip) : Chip := (c.onClock fun k => { k with count := c.clock.count + 1 }).mark .clockCount

theorem counted_fields (c : Chip) :
    c.counted.clock = { c.clock with count := c.clock.count + 1 } ∧ c.counted.pages = c.pages ∧
      c.counted.stories = c.stories ∧ c.counted.desks = c.desks ∧ c.counted.keys = c.keys := by
  simp only [Chip.counted, mark_fields, onClock_fields]
  exact ⟨trivial, trivial, trivial, trivial, trivial⟩

theorem counted_grows (c : Chip) : Chip.Grows c c.counted ∧ .clockCount ∈ c.counted.mirror.pending := by
  have counts : Chip.Grows c (c.onClock fun k => { k with count := c.clock.count + 1 }) := .of_same rfl rfl rfl
  exact ⟨counts.trans (.mark _ _), mark_pends ..⟩

theorem runningPulse_parts (c : Chip) :
    c.runningPulse = (c.counted.closeAt (c.clock.count + 1)).comparePages.countLeases := rfl

theorem exec_pulses (s : State) :
    exec .editionClose s = chipEvent (fun c => if c.closeDue then c.clockPulse else c) s ∧
      exec .pageLate s = chipEvent (fun c => if c.lateDue then c.clockPulse else c) s ∧
      exec .leaseFirstExpiry s = chipEvent (fun c => if c.expiryDue false = true then c.clockPulse else c) s ∧
      exec .leaseSecondExpiry s = chipEvent (fun c => if c.expiryDue true = true then c.clockPulse else c) s :=
  ⟨rfl, rfl, rfl, rfl⟩

/-- A row that is the pulse when it is due, and otherwise nothing. -/
theorem duePulse {due : Chip → Bool} (hr : s.Released) :
    (due s.chip = true → chipEvent (fun c => if due c = true then c.clockPulse else c) s =
        .next (s.withChip s.chip.clockPulse)) ∧
      (due s.chip = false → chipEvent (fun c => if due c = true then c.clockPulse else c) s = .next s) := by
  refine ⟨fun h => ?_, fun h => chipEvent_unchanged ?_⟩
  · rw [chipEvent_released hr, if_pos h]
  · exact if_neg (ne_true_of_eq_false h)

theorem expiryDue_iff {b : Bool} (hr : c.clock.runs = true) :
    c.expiryDue b = true ↔ ∃ (n : StoryNo) (k : Lease), c.stories[n].lease = some k ∧ k.remaining ≤ 1 ∧ k.warned = b := by
  rw [Chip.expiryDue, hr, Bool.true_and, List.any_eq_true]
  constructor
  · rintro ⟨n, -, h⟩
    cases hk : c.stories[n].lease with
    | none => simp only [hk, Bool.false_eq_true] at h
    | some k =>
      simp only [hk, Bool.and_eq_true, decide_eq_true_eq, Lease.expires] at h
      exact ⟨n, k, hk, h.1, h.2⟩
  · rintro ⟨n, k, hk, hle, hw⟩
    refine ⟨n, List.mem_finRange n, ?_⟩
    simp only [hk, Bool.and_eq_true, decide_eq_true_eq, Lease.expires]
    exact ⟨hle, hw⟩

theorem lateDue_iff (hr : c.clock.runs = true) :
    c.lateDue = true ↔ ∃ p : PageNo, c.pages[p].goesLate (c.clock.count + 1) = true := by
  rw [Chip.lateDue, hr, Bool.true_and, List.any_eq_true]
  exact ⟨fun ⟨p, _, h⟩ => ⟨p, h⟩, fun ⟨p, h⟩ => ⟨p, List.mem_finRange p, h⟩⟩

theorem closeDue_eq (hr : c.clock.runs = true) : c.closeDue = (c.clock.closing (c.clock.count + 1)).isSome := by
  rw [Chip.closeDue, hr, Bool.true_and]

theorem due_still (hr : c.clock.runs = false) :
    c.closeDue = false ∧ c.lateDue = false ∧ ∀ b, c.expiryDue b = false := by
  simp only [Chip.closeDue, Chip.lateDue, Chip.expiryDue, hr, Bool.false_and, implies_true, and_self]

theorem clockPulse_still (hr : c.clock.runs = false) : c.clockPulse = c := if_neg (ne_true_of_eq_false hr)

theorem clockPulse_runs (hr : c.clock.runs = true) : c.clockPulse = c.runningPulse := if_pos hr

/-- A still clock takes no effect from a pulse, however it is named (R115). -/
theorem pulse_still (hr : s.Released) (h : s.chip.clock.runs = false) (i : Instr)
    (hi : i = .pulse ∨ i = .editionClose ∨ i = .pageLate ∨ i = .leaseFirstExpiry ∨ i = .leaseSecondExpiry) :
    exec i s = .next s := by
  obtain ⟨hclose, hlate, hexpiry⟩ := due_still h
  obtain ⟨heclose, helate, hefirst, hesecond⟩ := exec_pulses s
  rcases hi with rfl | rfl | rfl | rfl | rfl
  · exact (exec_pulse s).trans (chipEvent_unchanged (clockPulse_still h))
  · exact heclose.trans ((duePulse (due := Chip.closeDue) hr).2 hclose)
  · exact helate.trans ((duePulse (due := Chip.lateDue) hr).2 hlate)
  · exact hefirst.trans ((duePulse (due := fun c => c.expiryDue false) hr).2 (hexpiry false))
  · exact hesecond.trans ((duePulse (due := fun c => c.expiryDue true) hr).2 (hexpiry true))

/-- What a running pulse leaves: the editions closed, the pages compared, the leases counted. -/
structure Chip.Pulsed (c d : Chip) : Prop where
  clock : d.clock = (c.counted.closeAt (c.clock.count + 1)).clock
  counts : .clockCount ∈ d.mirror.pending
  closes : Chip.Grows (c.counted.closeAt (c.clock.count + 1)) d
  page : ∀ p : PageNo, d.pages[p] =
    if c.pages[p].goesLate (c.clock.count + 1) = true then { c.pages[p] with late := true } else c.pages[p]
  late : ∀ p : PageNo, c.pages[p].goesLate (c.clock.count + 1) = true → Chip.MadeLate p c d
  lease : ∀ n : StoryNo, Chip.LeaseCounted n c d

theorem runningPulse_pulsed (hopen : ∀ n : StoryNo, c.stories[n].lease.isSome = true → c.stories[n].state = .open_) :
    Chip.Pulsed c c.runningPulse := by
  obtain ⟨countedClock, countedPages, countedStories, countedDesks, countedKeys⟩ := counted_fields c
  obtain ⟨_, counts⟩ := counted_grows c
  obtain ⟨pages, stories, desks, keys, count⟩ := closeAt_fields (c.clock.count + 1) c.counted
  have grows := closeAt_grows (c.clock.count + 1) c.counted
  generalize hd : c.counted.closeAt (c.clock.count + 1) = d at pages stories desks keys count grows
  obtain ⟨compares, _, page, late⟩ := comparePages_compared d
  have does := does_comparePages d
  have dstories : d.comparePages.stories = c.stories :=
    (does.frame .stories (by decide)).trans (stories.trans countedStories)
  have ddesks : d.comparePages.desks = c.desks := (does.frame .desks (by decide)).trans (desks.trans countedDesks)
  obtain ⟨counting, lease⟩ := countLeases_all (c := d.comparePages) (by simp only [dstories]; exact hopen)
  have dcount : d.clock.count = c.clock.count + 1 := by rw [count, countedClock]
  have dpages : d.comparePages.countLeases.pages = d.comparePages.pages :=
    (does_countLeases d.comparePages).frame .pages (by decide)
  simp only [pages, countedPages, dcount, List.mem_finRange, true_and] at page
  rw [runningPulse_parts, hd]
  refine ⟨?_, ?_, ?_, fun p => ?_, fun p hp => ?_, fun n => ?_⟩
  · rw [countLeases_clock, comparePages_clock, hd]
  · exact counting.grows.pending _ (compares.pending _ (grows.pending _ counts))
  · rw [hd]
    exact compares.trans counting.grows
  · simp only [dpages]
    exact page p
  · obtain ⟨bit, pending, told⟩ := (late p (List.mem_finRange p) (by
      simp only [pages, countedPages, dcount]; exact hp)).later counting.grows
    refine ⟨bit, pending, fun w z hz hdesk hc => told w z ?_ ?_ hc⟩
    · unfold Chip.session at hz ⊢
      simp only [keys, countedKeys]
      exact hz
    · simp only [pages, countedPages]
      exact hdesk
  · obtain ⟨none, runs, warns, recalls⟩ := lease n
    simp only [dstories, ddesks] at none runs warns recalls
    exact ⟨none, runs, warns, recalls⟩

/-! ## What the statement asks of a running pulse -/

/-- The edition whose close time the count reaches (R120). -/
theorem Chip.Pulsed.edition (h : Chip.Pulsed c d) {j : Nat}
    (hclose : c.clock.closing (c.clock.count + 1) = some (j + 1)) :
    d.clock.current = (if j + 1 < c.clock.closes.length then j + 2 else c.clock.current) ∧
      d.cu.attentionRaw &&& 0x40#8 ≠ 0#8 ∧
      ∀ (w : TerminalNo) (z : Session), c.session w = some z → z.clearance = .slot →
        d.screens[w].Holds .editionClosed (j + 1) := by
  obtain ⟨countedClock, _, _, _, countedKeys⟩ := counted_fields c
  have closing : c.counted.clock.closing (c.clock.count + 1) = some (j + 1) := by rw [countedClock]; exact hclose
  have closes := h.closes
  rw [closeAt_some closing] at closes
  refine ⟨?_, closes.bits _ (raise_shows .clock _ (by decide)), fun w z hz hc =>
    closes.holds _ _ _ (closeEdition_tells _ ?_ hc)⟩
  · rw [h.clock, closeAt_some closing, closeEdition_clock, countedClock]
    split <;> rfl
  · unfold Chip.session at hz ⊢
    simp only [countedKeys]
    exact hz

theorem Chip.Pulsed.edition_stays (h : Chip.Pulsed c d) (hclose : c.clock.closing (c.clock.count + 1) = none) :
    d.clock.current = c.clock.current := by
  obtain ⟨countedClock, _⟩ := counted_fields c
  have closing : c.counted.clock.closing (c.clock.count + 1) = none := by rw [countedClock]; exact hclose
  rw [h.clock, closeAt_none closing, countedClock]

theorem Chip.Pulsed.timing (h : Chip.Pulsed c d) :
    d.clock.count = c.clock.count + 1 ∧ d.clock.running = c.clock.running ∧ d.clock.closes = c.clock.closes := by
  obtain ⟨countedClock, _⟩ := counted_fields c
  cases hclose : c.counted.clock.closing (c.clock.count + 1) with
  | none =>
    rw [h.clock, closeAt_none hclose, countedClock]
    exact ⟨rfl, rfl, rfl⟩
  | some e =>
    rw [h.clock, closeAt_some hclose, closeEdition_clock, countedClock]
    split <;> exact ⟨rfl, rfl, rfl⟩

/-- A row that names what a running pulse brings about is the pulse when that is due, and otherwise nothing (R115). -/
structure State.NamesDue (s : State) (i : Instr) (due : Bool) : Prop where
  pulses : due = true → exec i s = exec .pulse s
  stays : due = false → exec i s = .next s

theorem namesDue (hr : s.Released) :
    s.NamesDue .editionClose s.chip.closeDue ∧ s.NamesDue .pageLate s.chip.lateDue ∧
      s.NamesDue .leaseFirstExpiry (s.chip.expiryDue false) ∧ s.NamesDue .leaseSecondExpiry (s.chip.expiryDue true) := by
  obtain ⟨heclose, helate, hefirst, hesecond⟩ := exec_pulses s
  have hpulse : exec .pulse s = .next (s.withChip s.chip.clockPulse) :=
    (exec_pulse s).trans (chipEvent_released hr)
  have close := duePulse (due := Chip.closeDue) hr
  have late := duePulse (due := Chip.lateDue) hr
  have first := duePulse (due := fun c => c.expiryDue false) hr
  have second := duePulse (due := fun c => c.expiryDue true) hr
  exact ⟨⟨fun h => (heclose.trans (close.1 h)).trans hpulse.symm, fun h => heclose.trans (close.2 h)⟩,
    ⟨fun h => (helate.trans (late.1 h)).trans hpulse.symm, fun h => helate.trans (late.2 h)⟩,
    ⟨fun h => (hefirst.trans (first.1 h)).trans hpulse.symm, fun h => hefirst.trans (first.2 h)⟩,
    ⟨fun h => (hesecond.trans (second.1 h)).trans hpulse.symm, fun h => hesecond.trans (second.2 h)⟩⟩

theorem expiryDue_false {b : Bool} (hr : c.clock.runs = true)
    (h : ∀ (n : StoryNo) (k : Lease), c.stories[n].lease = some k → k.remaining ≤ 1 → k.warned = !b) :
    c.expiryDue b = false := by
  refine Bool.eq_false_iff.mpr fun hdue => ?_
  obtain ⟨n, k, hk, hle, hw⟩ := (expiryDue_iff hr).mp hdue
  have hnot := h n k hk hle
  rw [hw] at hnot
  cases b <;> cases hnot

end

/-- Settles O52, from what the three folds of a running pulse leave. -/
theorem pulsesCloseEditionsAndCountLeases : Obligations.PulsesCloseEditionsAndCountLeases := by
  unfold Obligations.PulsesCloseEditionsAndCountLeases
  intro s hr hopen
  refine ⟨fun hstop i hi => pulse_still hr (Bool.eq_false_iff.mpr fun hruns => ?_) i hi, fun hrun hcount count hc => ?_⟩
  · obtain ⟨running, count⟩ := (runs_iff _).mp hruns
    rcases hstop with hstop | hstop
    · exact absurd (running.symm.trans hstop) nofun
    · exact count hstop
  subst hc
  have runs : s.chip.clock.runs = true := (runs_iff _).mpr ⟨hrun, hcount⟩
  have hexec : exec .pulse s = .next (s.withChip s.chip.runningPulse) := by
    rw [exec_pulse, chipEvent_released hr, clockPulse_runs runs]
  obtain ⟨t, hpulse, memory, chip⟩ := stepsTo hexec
  have pulsed := runningPulse_pulsed hopen
  rw [← chip] at pulsed
  obtain ⟨close, late, first, second⟩ := namesDue hr
  obtain ⟨count, running, closes⟩ := pulsed.timing
  refine ⟨t, hpulse, memory, count, running.trans hrun, closes, pulsed.counts, fun e he hbefore => ?_, fun habsent => ?_,
    fun p => ⟨fun hp => ?_, fun hp => ?_⟩, fun hnone => ?_, fun hall => ?_, fun hall => ?_, fun n limit hlimit => ?_⟩
  · have closing := closing_first he hbefore
    obtain ⟨current, bit, told⟩ := pulsed.edition closing
    exact ⟨current, bit, (close.pulses (by rw [closeDue_eq runs, closing]; rfl)).trans hpulse, told⟩
  · have closing := closing_absent habsent
    exact ⟨pulsed.edition_stays closing, close.stays (by rw [closeDue_eq runs, closing]; rfl)⟩
  · have hlate := goesLate_iff.mpr hp
    obtain ⟨bit, pending, told⟩ := pulsed.late p hlate
    exact ⟨(pulsed.page p).trans (if_pos hlate), bit, pending,
      (late.pulses ((lateDue_iff runs).mpr ⟨p, hlate⟩)).trans hpulse, told⟩
  · exact (pulsed.page p).trans (if_neg (mt goesLate_iff.mp hp))
  · refine late.stays (Bool.eq_false_iff.mpr fun hdue => ?_)
    obtain ⟨p, hp⟩ := (lateDue_iff runs).mp hdue
    obtain ⟨hclose, hfresh, hstate⟩ := goesLate_iff.mp hp
    obtain ⟨makeup, queued⟩ := hnone p hclose hfresh
    exact hstate.elim makeup queued
  · exact first.stays (expiryDue_false runs hall)
  · exact second.stays (expiryDue_false runs hall)
  · subst hlimit
    have lease := pulsed.lease n
    refine ⟨lease.none, fun k hk => ⟨lease.runs k hk, fun hle => ⟨fun hw => ?_, fun hw => ?_, fun hw => ?_, fun hw => ?_⟩⟩⟩
    · exact (first.pulses ((expiryDue_iff runs).mpr ⟨n, k, hk, hle, hw⟩)).trans hpulse
    · exact (second.pulses ((expiryDue_iff runs).mpr ⟨n, k, hk, hle, hw⟩)).trans hpulse
    · exact lease.warns k hk hle hw
    · exact lease.recalls k hk hle hw

end Sys2Proof.Machine
end

section
/-! SUPPORT. Runs of the fit engine: the story taken from the head of the queue, the words read and processed, and the
result recorded (R128, R136, R137, R145 to R149; O53). -/

namespace Sys2Proof.Machine

section
variable {c d e : Chip} {s : State} {n m : StoryNo} {rest : List StoryNo} {r q : FitRun} {why : FitStop}

/-! ## The head of the queue taken (R136) -/

/-- The part with story `n` taken from the queue, before its initial font is selected (R136 a to d). -/
def Chip.fitTaken (n : StoryNo) (rest : List StoryNo) (c : Chip) : Chip :=
  ((((c.onFit fun e => { e with queue := rest }).mark .fitCount).onStory n fun x =>
    { x with fit := .running, rerun := false }).mark (.story n))

theorem fitTaken_fields (n : StoryNo) (rest : List StoryNo) (c : Chip) :
    (c.fitTaken n rest).fit = { c.fit with queue := rest } ∧ (c.fitTaken n rest).screens = c.screens ∧
      (c.fitTaken n rest).cu.service = c.cu.service ∧
      (c.fitTaken n rest).stories = update c.stories n fun x => { x with fit := .running, rerun := false } := by
  simp only [Chip.fitTaken, mark_fields, onStory_fields, onFit_fields]
  exact ⟨trivial, trivial, trivial, trivial⟩

theorem fitTaken_self (n : StoryNo) (rest : List StoryNo) (c : Chip) :
    (c.fitTaken n rest).stories[n] = { c.stories[n] with fit := .running, rerun := false } := by
  simp only [fitTaken_fields]
  exact update_self ..

theorem fitTaken_others (h : m ≠ n) : (c.fitTaken n rest).stories[m] = c.stories[m] := by
  simp only [fitTaken_fields]
  exact update_ne _ _ (Ne.symm h)

theorem fitTaken_grows (n : StoryNo) (rest : List StoryNo) (c : Chip) :
    Chip.Grows c (c.fitTaken n rest) ∧ .story n ∈ (c.fitTaken n rest).mirror.pending ∧
      .fitCount ∈ (c.fitTaken n rest).mirror.pending := by
  have queue : Chip.Grows c (c.onFit fun e => { e with queue := rest }) := .of_same rfl rfl rfl
  have count := mark_pends .fitCount (c.onFit fun e => { e with queue := rest })
  have story : Chip.Grows ((c.onFit fun e => { e with queue := rest }).mark .fitCount)
      (((c.onFit fun e => { e with queue := rest }).mark .fitCount).onStory n fun x =>
        { x with fit := .running, rerun := false }) := .of_same rfl rfl rfl
  have later := story.trans (.mark (.story n) _)
  exact ⟨(queue.trans (.mark .fitCount _)).trans later, mark_pends .., later.pending _ count⟩

/-- The working state of a run of a story, its initial font selected (R136, R145). -/
def FitRun.selected (n : StoryNo) (x : Story) : FitRun := { FitRun.begin n x with fonts := fontBit x.style.font }

theorem begin_fit (n : StoryNo) (x : Story) :
    FitRun.begin n { x with fit := .running, rerun := false } = FitRun.begin n x := rfl

theorem fontBit_first (f : Fin 8) : (0 : Byte) ||| fontBit f = fontBit f := BitVec.zero_or

theorem selectFont_present {k : FitEngine} (x : Story) (h : k.mask.getLsbD x.style.font.val = true) :
    k.selectFont x.style.font.val (FitRun.begin n x) = (FitRun.selected n x, none) := by
  rw [FitEngine.selectFont, dif_pos x.style.font.isLt]
  dsimp only
  rw [if_pos ((fontBit_present _ _).mpr h)]
  simp only [FitRun.selected, FitRun.begin, fontBit_first, Fin.eta]

theorem selectFont_absent {k : FitEngine} (x : Story) (h : k.mask.getLsbD x.style.font.val = false) :
    k.selectFont x.style.font.val (FitRun.begin n x) = (FitRun.selected n x, some .noFont) := by
  rw [FitEngine.selectFont, dif_pos x.style.font.isLt]
  dsimp only
  rw [if_neg (mt (fontBit_present _ _).mp (ne_true_of_eq_false h))]
  simp only [FitRun.selected, FitRun.begin, fontBit_first, Fin.eta]

theorem startRun_eq (n : StoryNo) (rest : List StoryNo) (c : Chip) :
    c.startRun n rest =
      match c.fit.selectFont c.stories[n].style.font.val (FitRun.begin n c.stories[n]) with
      | (r, some stop) => (c.fitTaken n rest).endRun stop r
      | (r, none) =>
        if r.blocks = [] then (c.fitTaken n rest).endRun .exhausted r
        else (c.fitTaken n rest).onFit fun e => { e with run := some r } := by
  have self := fitTaken_self n rest c
  have fit := (fitTaken_fields n rest c).1
  have shape : c.startRun n rest =
      match (c.fitTaken n rest).fit.selectFont (c.fitTaken n rest).stories[n].style.font.val
        (FitRun.begin n (c.fitTaken n rest).stories[n]) with
      | (r, some stop) => (c.fitTaken n rest).endRun stop r
      | (r, none) =>
        if r.blocks = [] then (c.fitTaken n rest).endRun .exhausted r
        else (c.fitTaken n rest).onFit fun e => { e with run := some r } := rfl
  rw [shape, self, fit]
  rfl

/-- A story with copy and its font is run (R136 e). -/
theorem startRun_readable (h : c.Readable n) :
    c.startRun n rest = (c.fitTaken n rest).onFit fun e => { e with run := some (FitRun.selected n c.stories[n]) } := by
  obtain ⟨hblocks, hfont⟩ := h
  rw [startRun_eq, selectFont_present _ hfont]
  exact if_neg hblocks

/-- A run whose font is absent, or whose copy is empty, ends at once (R145, R146). -/
theorem startRun_ends {status : FitStatus}
    (h : c.fit.mask.getLsbD c.stories[n].style.font.val = false ∧ status = .noFont ∨
      c.fit.mask.getLsbD c.stories[n].style.font.val = true ∧ c.stories[n].blocks = [] ∧ status = .unterminated) :
    ∃ why : FitStop, (FitRun.selected n c.stories[n]).finish why = FitRun.selected n c.stories[n] ∧
      (FitRun.selected n c.stories[n]).result why = FitResult.unmeasured status ∧
      c.startRun n rest = (c.fitTaken n rest).endRun why (FitRun.selected n c.stories[n]) := by
  rcases h with ⟨hfont, rfl⟩ | ⟨hfont, hblocks, rfl⟩
  · exact ⟨.noFont, rfl, rfl, by rw [startRun_eq, selectFont_absent _ hfont]⟩
  · refine ⟨.exhausted, rfl, rfl, ?_⟩
    rw [startRun_eq, selectFont_present _ hfont]
    exact if_pos hblocks

/-- What the start of a run leaves: the run, and nothing taken back (R136). -/
structure Chip.Starts (n : StoryNo) (rest : List StoryNo) (c d : Chip) : Prop where
  begins : c.RunBegins n rest d
  grows : Chip.Grows c d
  screens : d.screens = c.screens

theorem startRun_starts (h : c.Readable n) : Chip.Starts n rest c (c.startRun n rest) := by
  obtain ⟨fit, screens, _, _⟩ := fitTaken_fields n rest c
  obtain ⟨grows, story, count⟩ := fitTaken_grows n rest c
  rw [startRun_readable h]
  refine ⟨⟨?_, fitTaken_self .., fun m hm => fitTaken_others hm, story, count⟩, grows.trans (.of_same rfl rfl rfl), screens⟩
  simp only [onFit_fields, fit, FitRun.selected, FitRun.begin, Nat.mul_comm]

/-- The idle engine of a RUNNING unit takes the head of its queue (R136). -/
theorem fitTake_head (hservice : c.cu.service = .running) (hidle : c.fit.run = none) (hq : c.fit.queue = n :: rest) :
    c.fitTake = (c.startRun n rest).takeFits rest.length := by
  rw [Chip.fitTake, hq, List.length_cons]
  exact takeFits_cons _ ⟨hservice, hidle⟩ hq

theorem fitTake_starts (hservice : c.cu.service = .running) (hidle : c.fit.run = none) (hq : c.fit.queue = n :: rest)
    (h : c.Readable n) : Chip.Starts n rest c c.fitTake := by
  have starts := startRun_starts (rest := rest) h
  obtain ⟨fit, _⟩ := starts.begins
  have busy : ¬((c.startRun n rest).cu.service = .running ∧ (c.startRun n rest).fit.run = none) := by
    rw [fit]
    exact fun hbusy => absurd hbusy.2 nofun
  rw [fitTake_head hservice hidle hq, takeFits_busy _ busy]
  exact starts

/-! ## A result recorded (R148 b) -/

/-- What recording the result of a run leaves. -/
structure Chip.Records (why : FitStop) (r : FitRun) (c d : Chip) : Prop where
  grows : Chip.Grows c d
  story : d.stories[r.story] =
    { c.stories[r.story] with fit := .current, result := some (r.result why), fontsUsed := r.fonts }
  others : ∀ m : StoryNo, m ≠ r.story → d.stories[m] = c.stories[m]
  fit : d.fit = c.fit
  service : d.cu.service = c.cu.service
  pending : .story r.story ∈ d.mirror.pending
  placed : c.stories[r.story].page.isSome = true → d.cu.attentionRaw &&& 0x80#8 ≠ 0#8
  posts : Chip.OversetPosts c r.story r.overset d

/-- The part with the result of a run in its story's record. -/
def Chip.resultTaken (why : FitStop) (r : FitRun) (c : Chip) : Chip :=
  (c.onStory r.story fun x =>
    { x with fit := .current, result := some (r.result why), fontsUsed := r.fonts }).mark (.story r.story)

/-- FIT raised for a placed story (R148 b). -/
def Chip.fitRaised (n : StoryNo) (c : Chip) : Chip := if c.stories[n].page.isSome then c.raise .fit else c

/-- The overset notice for the holder of an OPEN story (R148 b). -/
def Chip.oversetTold (n : StoryNo) (v : Nat) (c : Chip) : Chip :=
  match c.stories[n].state, c.stories[n].holder with
  | .open_, some t => if 0 < v then c.post .overset n.val (some v) (.terminal t) else c
  | _, _ => c

theorem recordFit_eq (why : FitStop) (r : FitRun) (c : Chip) :
    c.recordFit why r = ((c.resultTaken why r).fitRaised r.story).oversetTold r.story r.overset := rfl

theorem resultTaken_fields (why : FitStop) (r : FitRun) (c : Chip) :
    (c.resultTaken why r).fit = c.fit ∧ (c.resultTaken why r).screens = c.screens ∧
      (c.resultTaken why r).cu.service = c.cu.service ∧
      (c.resultTaken why r).stories = update c.stories r.story fun x =>
        { x with fit := .current, result := some (r.result why), fontsUsed := r.fonts } := by
  simp only [Chip.resultTaken, mark_fields, onStory_fields]
  exact ⟨trivial, trivial, trivial, trivial⟩

theorem resultTaken_grows (why : FitStop) (r : FitRun) (c : Chip) :
    Chip.Grows c (c.resultTaken why r) ∧ .story r.story ∈ (c.resultTaken why r).mirror.pending := by
  have story : Chip.Grows c (c.onStory r.story fun x =>
      { x with fit := .current, result := some (r.result why), fontsUsed := r.fonts }) := .of_same rfl rfl rfl
  exact ⟨story.trans (.mark _ _), mark_pends ..⟩

theorem fitRaised_fields (n : StoryNo) (c : Chip) :
    (c.fitRaised n).fit = c.fit ∧ (c.fitRaised n).screens = c.screens ∧ (c.fitRaised n).cu.service = c.cu.service ∧
      (c.fitRaised n).stories = c.stories := by
  unfold Chip.fitRaised
  split
  · have unit := raise_unit c .fit
    simp only [raise_fields]
    exact ⟨trivial, trivial, by simp only [unit], trivial⟩
  · exact ⟨rfl, rfl, rfl, rfl⟩

theorem fitRaised_grows (n : StoryNo) (c : Chip) :
    Chip.Grows c (c.fitRaised n) ∧
      (c.stories[n].page.isSome = true → (c.fitRaised n).cu.attentionRaw &&& 0x80#8 ≠ 0#8) := by
  unfold Chip.fitRaised
  split
  · exact ⟨.raise _ _, fun _ => raise_shows .fit _ (by decide)⟩
  · next h => exact ⟨.refl c, fun hp => absurd hp h⟩

theorem oversetTold_fields (n : StoryNo) (v : Nat) (c : Chip) :
    (c.oversetTold n v).fit = c.fit ∧ (c.oversetTold n v).cu = c.cu ∧ (c.oversetTold n v).mirror = c.mirror ∧
      (c.oversetTold n v).stories = c.stories := by
  unfold Chip.oversetTold
  split
  · split
    · simp only [post_fields]
      exact ⟨trivial, trivial, trivial, trivial⟩
    · exact ⟨rfl, rfl, rfl, rfl⟩
  · exact ⟨rfl, rfl, rfl, rfl⟩

theorem oversetTold_grows (n : StoryNo) (v : Nat) (c : Chip) : Chip.Grows c (c.oversetTold n v) := by
  unfold Chip.oversetTold
  split
  · split
    · exact .post _ _ _ _ _
    · exact .refl c
  · exact .refl c

theorem oversetTold_posts (n : StoryNo) (v : Nat) (c : Chip) : Chip.OversetPosts c n v (c.oversetTold n v) := by
  refine ⟨fun hquiet => ?_, fun u hstate hholder hv => ?_⟩
  · unfold Chip.oversetTold
    split
    · next hstate _ =>
      rcases hquiet with hquiet | rfl
      · exact absurd hstate hquiet
      · rfl
    · rfl
  · have told : c.oversetTold n v = c.post .overset n.val (some v) (.terminal u) := by
      simp only [Chip.oversetTold, hstate, hholder, if_pos hv]
    rw [told]
    refine ⟨?_, fun w hw => ?_⟩
    · have received : c.receives u (.terminal u) = true := decide_eq_true rfl
      rw [post_screens, if_pos received]
    · have passed : c.receives w (.terminal u) = false := decide_eq_false hw
      rw [post_screens, if_neg (ne_true_of_eq_false passed)]

theorem OversetPosts.congr {v : Nat} (h : Chip.OversetPosts d n v e) (hs : d.screens = c.screens)
    (hstate : d.stories[n].state = c.stories[n].state) (hholder : d.stories[n].holder = c.stories[n].holder) :
    Chip.OversetPosts c n v e := by
  unfold Chip.OversetPosts at h ⊢
  simp only [hs, hstate, hholder] at h
  exact h

theorem recordFit_records (why : FitStop) (r : FitRun) (c : Chip) : Chip.Records why r c (c.recordFit why r) := by
  obtain ⟨fit, screens, service, stories⟩ := resultTaken_fields why r c
  obtain ⟨grows, pending⟩ := resultTaken_grows why r c
  have self : (c.resultTaken why r).stories[r.story] =
      { c.stories[r.story] with fit := .current, result := some (r.result why), fontsUsed := r.fonts } := by
    simp only [stories]
    exact update_self ..
  have others (m : StoryNo) (hm : m ≠ r.story) : (c.resultTaken why r).stories[m] = c.stories[m] := by
    simp only [stories]
    exact update_ne _ _ (Ne.symm hm)
  rw [recordFit_eq]
  generalize c.resultTaken why r = d at fit screens service grows pending self others
  obtain ⟨fit', screens', service', stories'⟩ := fitRaised_fields r.story d
  obtain ⟨grows', bit⟩ := fitRaised_grows r.story d
  generalize d.fitRaised r.story = e at fit' screens' service' stories' grows' bit
  obtain ⟨fit'', cu'', mirror'', stories''⟩ := oversetTold_fields r.story r.overset e
  have posts := oversetTold_posts r.story r.overset e
  have grows'' := oversetTold_grows r.story r.overset e
  have estory : e.stories[r.story] = d.stories[r.story] := by simp only [stories']
  refine ⟨(grows.trans grows').trans grows'', ?_, fun m hm => ?_, ?_, ?_, grows''.pending _ (grows'.pending _ pending),
    fun hp => grows''.bits _ (bit (by rw [self]; exact hp)), OversetPosts.congr posts (screens'.trans screens)
      (by rw [estory, self]) (by rw [estory, self])⟩
  · simp only [stories'', stories']
    exact self
  · simp only [stories'', stories']
    exact others m hm
  · rw [fit'', fit', fit]
  · rw [cu'', service', service]

/-- A run that ends with the re-run mark clear records its result, and leaves the engine idle (R148 b). -/
theorem endRun_records (hrerun : c.stories[r.story].rerun = false) :
    Chip.Records why (r.finish why) (c.onFit fun e => { e with run := none }) (c.endRun why r) := by
  have shape : c.endRun why r = (c.onFit fun e => { e with run := none }).recordFit why (r.finish why) :=
    if_neg (ne_true_of_eq_false hrerun)
  rw [shape]
  exact recordFit_records ..

/-- What the end of a run whose re-run mark is clear leaves (R148 b). -/
structure Chip.Ends (why : FitStop) (n : StoryNo) (r : FitRun) (c d : Chip) : Prop where
  grows : Chip.Grows c d
  story : d.stories[n] =
    { c.stories[n] with fit := .current, result := some ((r.finish why).result why), fontsUsed := (r.finish why).fonts }
  others : ∀ m : StoryNo, m ≠ n → d.stories[m] = c.stories[m]
  fit : d.fit = { c.fit with run := none }
  service : d.cu.service = c.cu.service
  pending : .story n ∈ d.mirror.pending
  placed : c.stories[n].page.isSome = true → d.cu.attentionRaw &&& 0x80#8 ≠ 0#8
  posts : Chip.OversetPosts c n (r.finish why).overset d

theorem endRun_ends (hstory : r.story = n) (hrerun : c.stories[n].rerun = false) :
    Chip.Ends why n r c (c.endRun why r) := by
  subst hstory
  have idle : Chip.Grows c (c.onFit fun e => { e with run := none }) := .of_same rfl rfl rfl
  have records := endRun_records (why := why) hrerun
  have same := finish_story why r
  obtain ⟨grows, story, others, fit, service, pending, placed, posts⟩ := records
  rw [same] at pending
  simp only [same] at story others placed posts
  exact ⟨idle.trans grows, story, others, fit, service, pending, placed, posts⟩

/-! ## The end of a run and the next story taken (R136, R148) -/

theorem fitTake_paused (h : c.cu.service ≠ .running) : c.fitTake = c := takeFits_busy _ fun hs => h hs.1

/-- What a story that ends a run leaves once the engine has been served: what the end left, and no notice beside. -/
structure Chip.EndsThenTakes (why : FitStop) (n : StoryNo) (r : FitRun) (c d : Chip) : Prop where
  posts : Chip.OversetPosts c n (r.finish why).overset d
  placed : c.stories[n].page.isSome = true → d.cu.attentionRaw &&& 0x80#8 ≠ 0#8

theorem OversetPosts.shown {v : Nat} (h : Chip.OversetPosts c n v d) (hs : e.screens = d.screens) :
    Chip.OversetPosts c n v e := by
  unfold Chip.OversetPosts at h ⊢
  simp only [hs]
  exact h

/-- Once a run has ended the engine begins a run of the head of its queue. -/
theorem ends_starts (ends : Chip.Ends why n r c d) (hservice : d.cu.service = .running) (hq : c.fit.queue = m :: rest)
    (hm : m ≠ n) (hreadable : c.Readable m) : Chip.Starts m rest d d.fitTake := by
  obtain ⟨blocks, font⟩ := hreadable
  have story := ends.others m hm
  refine fitTake_starts hservice (by rw [ends.fit]) (by rw [ends.fit]; exact hq) ⟨by rw [story]; exact blocks, ?_⟩
  rw [story, ends.fit]
  exact font

theorem endRun_takes (ends : Chip.Ends why n r c d)
    (hq : c.fit.queue = [] ∨ ∃ m rest, c.fit.queue = m :: rest ∧ m ≠ n ∧ c.Readable m) :
    Chip.EndsThenTakes why n r c d.fitTake := by
  have queue : d.fit.queue = c.fit.queue := by rw [ends.fit]
  by_cases hservice : d.cu.service = .running
  · rcases hq with hq | ⟨m, rest, hq, hm, hreadable⟩
    · rw [fitTake_empty (queue.trans hq)]
      exact ⟨ends.posts, ends.placed⟩
    · have starts := ends_starts ends hservice hq hm hreadable
      exact ⟨OversetPosts.shown ends.posts starts.screens, fun hp => starts.grows.bits _ (ends.placed hp)⟩
  · rw [fitTake_paused hservice]
    exact ⟨ends.posts, ends.placed⟩

/-! ## The word served (R137) -/

theorem processWord_ends {w : Word} {stop : Option FitStop} (hp : c.fit.process w r = (q, stop))
    (h : stop = some why ∨ stop = none ∧ r.index + 1 = 128 * r.blocks.length ∧ why = .exhausted) :
    c.processWord r w = (c.endRun why q).fitTake := by
  unfold Chip.processWord
  rw [hp]
  rcases h with rfl | ⟨rfl, hlast, rfl⟩
  · rfl
  · exact if_pos (by rw [Config.blockWords]; omega)

theorem processWord_goesOn {w : Word} (hp : c.fit.process w r = (q, none)) (hmore : r.index + 1 < 128 * r.blocks.length) :
    c.processWord r w = c.onFit fun e => { e with run := some { q with index := r.index + 1 } } := by
  unfold Chip.processWord
  rw [hp]
  exact if_neg (by rw [Config.blockWords]; omega)

theorem fit_processWord (r : FitRun) (w : Word) (c : Chip) : Chip.FitDoes c (c.processWord r w) := by
  unfold Chip.processWord
  split
  · exact (fit_endRun ..).andThen (fit_fitTake _)
  · split
    · exact (fit_endRun ..).andThen (fit_fitTake _)
    · exact fit_onFit ..

theorem exec_fitWordRead (s : State) : exec .fitWordRead s = ownRead .fitEngine Chip.fitWord s := rfl

theorem blockWord_at {b : BlockNo} {word base a : Nat} (hbase : c.path.storyArea = some base)
    (ha : a = base + 128 * b.val + word) : c.path.blockWord b word = some a := by
  rw [PathChecker.blockWord, hbase, Option.map_some, Config.blockWords]
  congr 1
  omega

/-! ## A staled story taken at once (R133, R136) -/

/-- REFIT of a CURRENT story, the engine idle and its queue empty, begins a run of it (R135). -/
theorem staleStory_begins (hservice : c.cu.service = .running) (hidle : c.fit.run = none) (hq : c.fit.queue = [])
    (hstate : c.stories[n].state ≠ .free) (hfit : c.stories[n].fit = .current) (hreadable : c.Readable n) :
    c.RunBegins n [] (c.staleStory n) := by
  obtain ⟨blocks, font⟩ := hreadable
  have staled : (c.stale n).stories[n] = { c.stories[n] with fit := .stale } := by
    rw [stale_self, Story.staled, if_neg hstate, hfit]
  have fit : (c.stale n).fit = { c.fit with queue := [n] } := by
    unfold Chip.stale
    rw [if_neg hstate, hfit]
    simp only [mark_fields, Chip.joinFitQueue, onFit_fields, onStory_fields, hq, List.takeWhile_nil, List.dropWhile_nil,
      List.nil_append, ite_self]
  have service : (c.stale n).cu.service = .running := by
    rw [← hservice]
    unfold Chip.stale
    rw [if_neg hstate, hfit]
    simp only [mark_fields, Chip.joinFitQueue, onFit_fields, onStory_fields]
  have starts := fitTake_starts (rest := []) service (by rw [stale_run]; exact hidle) (by rw [fit])
    (show (c.stale n).Readable n from ⟨by rw [staled]; exact blocks, by rw [staled, fit]; exact font⟩)
  obtain ⟨run, story, others, pending, count⟩ := starts.begins
  rw [staled, fit] at run
  rw [staled] at story
  exact ⟨run, story, fun m hm => (others m hm).trans (stale_other n m c hm), pending, count⟩

/-- Story `n` alone stands in the queue: its run begins, or ends at once (R136, R145, R146). -/
theorem fitTake_ends {status : FitStatus} (hservice : c.cu.service = .running) (hidle : c.fit.run = none)
    (hq : c.fit.queue = [n])
    (h : c.fit.mask.getLsbD c.stories[n].style.font.val = false ∧ status = .noFont ∨
      c.fit.mask.getLsbD c.stories[n].style.font.val = true ∧ c.stories[n].blocks = [] ∧ status = .unterminated) :
    c.fitTake.fit = { c.fit with queue := [] } ∧
      c.fitTake.stories[n] = { c.stories[n] with
        fit := .current, rerun := false, result := some (.unmeasured status)
        fontsUsed := fontBit c.stories[n].style.font } ∧
      ∀ m : StoryNo, m ≠ n → c.fitTake.stories[m] = c.stories[m] := by
  obtain ⟨why, finish, result, starts⟩ := startRun_ends (rest := []) h
  have self := fitTaken_self n [] c
  obtain ⟨taken, _⟩ := fitTaken_fields n [] c
  have ends : Chip.Ends why n (FitRun.selected n c.stories[n]) (c.fitTaken n [])
      ((c.fitTaken n []).endRun why (FitRun.selected n c.stories[n])) := endRun_ends rfl (by rw [self])
  rw [fitTake_head hservice hidle hq, starts]
  obtain ⟨_, story, others, fit, _⟩ := ends
  rw [self, finish, result] at story
  rw [taken] at fit
  refine ⟨fit.trans ?_, story, fun m hm => (others m hm).trans (fitTaken_others hm)⟩
  rw [← hidle]

/-- What the word that ends a run leaves (R137, R146, R148 b). -/
theorem fitWord_ends {t : Chip} (ht : t = ((c.endRun why q).fitTake).granted .fitEngine) (hstory : q.story = n)
    (hrerun : c.stories[n].rerun = false) :
    (c.fit.queue = [] ∨ (∃ m rest, c.fit.queue = m :: rest ∧ m ≠ n ∧ c.Readable m) →
      Chip.OversetPosts c n (q.finish why).overset t ∧
        (c.stories[n].page.isSome = true → t.cu.attentionRaw &&& 0x80#8 ≠ 0#8)) ∧
    (c.fit.queue = [] → t.fit.run = none ∧
      t.stories[n] = { c.stories[n] with
        fit := .current, result := some ((q.finish why).result why), fontsUsed := (q.finish why).fonts } ∧
      (∀ m : StoryNo, m ≠ n → t.stories[m] = c.stories[m]) ∧ .story n ∈ t.mirror.pending) ∧
    ∀ (m : StoryNo) (rest : List StoryNo), c.fit.queue = m :: rest → m ≠ n → c.cu.service = .running → c.Readable m →
      t.stories[n] = { c.stories[n] with
        fit := .current, result := some ((q.finish why).result why), fontsUsed := (q.finish why).fonts } ∧
      t.fit.queue = rest ∧ t.stories[m] = { c.stories[m] with fit := .running, rerun := false } ∧
      ∃ k, t.fit.run = some k ∧ k.story = m ∧ k.index = 0 ∧ k.blocks = c.stories[m].blocks ∧
        k.hole = c.stories[m].hole ∧ k.font = c.stories[m].style.font := by
  have ends := endRun_ends (why := why) hstory hrerun
  obtain ⟨cu, mirror, _, _, screens, _, _, _, stories, _, _, _, fit, _⟩ :=
    granted_fields (c.endRun why q).fitTake .fitEngine
  generalize c.endRun why q = d at ends ht cu mirror screens stories fit
  rw [← ht] at cu mirror screens stories fit
  refine ⟨fun hq => ?_, fun hq => ?_, fun m rest hq hm hservice hreadable => ?_⟩
  · obtain ⟨posts, placed⟩ := endRun_takes ends hq
    rw [cu]
    exact ⟨OversetPosts.shown posts screens, placed⟩
  · have still : d.fitTake = d := fitTake_empty (by rw [ends.fit]; exact hq)
    rw [still] at mirror stories fit
    simp only [stories, fit, mirror]
    exact ⟨by rw [ends.fit], ends.story, ends.others, ends.pending⟩
  · have starts := ends_starts ends (ends.service.trans hservice) hq hm hreadable
    obtain ⟨run, story, others, _⟩ := starts.begins
    have same := ends.others m hm
    simp only [stories, fit, run, story, same, others n hm.symm]
    exact ⟨ends.story, trivial, trivial, _, rfl, rfl, rfl, rfl, rfl, rfl⟩

end

/-- Settles O53, from what the start and the end of a run leave. -/
theorem fitWordsAreReadAndProcessed : Obligations.FitWordsAreReadAndProcessed := by
  unfold Obligations.FitWordsAreReadAndProcessed
  refine ⟨fun c n rest hservice hidle hq => ⟨fun hreadable => (fitTake_starts hservice hidle hq hreadable).begins,
    fun status hends hrest => ?_⟩, fun s n hs hn hservice hidle hq hstate hfit hreadable => ?_,
    fun s p rest base a hg hp hbase ha hlt => ?_, fun s r q stop b base a hg hleft hrun hb hbase ha hlt hprocess => ?_⟩
  · subst hrest
    exact fitTake_ends hservice hidle hq hends
  · obtain ⟨t, hstep, hmemory, _, same, _⟩ :=
      command_ends hs ((refit_answers (c := s.chip.collect) hn).trans (if_neg hstate))
    obtain ⟨run, story, others, pending, count⟩ :=
      staleStory_begins (c := s.chip.collect) hservice hidle hq hstate hfit hreadable
    refine ⟨t, hstep, hmemory, ?_, ?_, fun m hm => ?_, ?_, ?_⟩
    · rw [same.fit]
      exact run
    · simp only [same.stories]
      exact story
    · simp only [same.stories]
      exact others m hm
    · rw [same.mirror]
      exact pending
    · rw [same.mirror]
      exact count
  · exact ⟨_, (exec_fitWordRead s).trans (ownRead_served hg (fitWord_abandoned _ p rest hp)
      (blockWord_at (word := p.word.val) hbase ha) hlt), rfl, rfl⟩
  · have served := (exec_fitWordRead s).trans (ownRead_served hg (fitWord_run _ r b hleft hrun hb)
      (blockWord_at (word := r.index % 128) hbase ha) hlt)
    have does := fit_processWord r (s.memory.read a) s.chip
    refine ⟨_, served, rfl, does.outside, fun hstop hmore => ?_, fun why hwhy hstory hrerun => ?_⟩
    · subst hstop
      exact congrArg (Chip.granted .fitEngine) (processWord_goesOn hprocess hmore)
    · exact fitWord_ends (congrArg (Chip.granted .fitEngine) (processWord_ends hprocess hwhy)) hstory hrerun

end Sys2Proof.Machine
end

section
/-! SUPPORT. The arithmetic of a run: the copy words, the fit loop, the lines and the status (R128, R138 to R148; O54). -/

namespace Sys2Proof.Machine

section
variable {c d : Chip} {e : FitEngine} {w : Word} {r q : FitRun} {why : FitStop} {a index : Nat} {code : Byte}

/-! ## The copy words (R128) -/

theorem copyWord_eq (w : Word) :
    copyWord w =
      if (w.extractLsb' 12 4).msb = false then .character (w.extractLsb' 0 8)
      else
        match ((w.extractLsb' 12 4).setWidth 3).toNat with
        | 0 => .endOfText
        | 1 => .font (w.extractLsb' 0 12).toNat
        | 2 => .size (w.extractLsb' 0 12).toNat
        | 3 => .leading (w.extractLsb' 0 12).toNat
        | 4 => .endParagraph
        | 5 => .measure (w.extractLsb' 0 12).toNat
        | 6 => .fixedSpace (w.extractLsb' 0 12).toNat
        | _ => .hyphen := by
  have top : w.msb = (w.extractLsb' 12 4).msb := by simp [BitVec.msb_eq_getLsbD_last]
  have low : w.extractLsb' 12 3 = (w.extractLsb' 12 4).setWidth 3 := by
    ext i hi
    simp
    omega
  have code : w.setWidth 8 = w.extractLsb' 0 8 := by
    ext i hi
    simp
  rw [← top, ← low, ← code]
  rfl

theorem copyWord_character (h : w.extractLsb' 15 1 = 0#1) : copyWord w = .character (w.extractLsb' 0 8) := by
  have top : (w.extractLsb' 12 4).msb = (w.extractLsb' 15 1).msb := by simp [BitVec.msb_eq_getLsbD_last]
  rw [copyWord_eq, top, h]
  rfl

/-- A command word, by the four bits that name it. -/
theorem copyWord_command (w : Word) :
    (w.extractLsb' 12 4 = 8#4 → copyWord w = .endOfText) ∧
    (w.extractLsb' 12 4 = 9#4 → copyWord w = .font (w.extractLsb' 0 12).toNat) ∧
    (w.extractLsb' 12 4 = 10#4 → copyWord w = .size (w.extractLsb' 0 12).toNat) ∧
    (w.extractLsb' 12 4 = 11#4 → copyWord w = .leading (w.extractLsb' 0 12).toNat) ∧
    (w.extractLsb' 12 4 = 12#4 → copyWord w = .endParagraph) ∧
    (w.extractLsb' 12 4 = 13#4 → copyWord w = .measure (w.extractLsb' 0 12).toNat) ∧
    (w.extractLsb' 12 4 = 14#4 → copyWord w = .fixedSpace (w.extractLsb' 0 12).toNat) ∧
    (w.extractLsb' 12 4 = 15#4 → copyWord w = .hyphen) := by
  refine ⟨fun h => ?_, fun h => ?_, fun h => ?_, fun h => ?_, fun h => ?_, fun h => ?_, fun h => ?_, fun h => ?_⟩ <;>
    rw [copyWord_eq, h] <;> rfl

/-! ## The fit loop (R141) -/

theorem breakOnce_break {b : Break} (h : r.break_ = some b) :
    r.breakOnce a index = { r.endLine with
      width := r.width - b.leftBehind, lineStart := b.start, content := decide (0 < r.width - b.leftBehind) } := by
  rw [FitRun.breakOnce, h]

theorem breakOnce_before (h : r.break_ = none) (hw : 0 < r.width - a) :
    r.breakOnce a index = { r.endLine with
      width := a, lineStart := index, forced := min 255 (r.forced + 1), content := decide (0 < a) } := by
  rw [FitRun.breakOnce, h]
  exact if_pos hw

theorem breakOnce_after (h : r.break_ = none) (hw : r.width - a = 0) :
    r.breakOnce a index = { r.endLine with
      width := 0, lineStart := index + 1, forced := min 255 (r.forced + 1), content := false } := by
  rw [FitRun.breakOnce, h]
  exact if_neg (by omega)

/-! ## The words processed (R140, R142 to R146) -/

theorem process_character (h : w.extractLsb' 15 1 = 0#1) :
    e.process w r = (e.character (w.extractLsb' 0 8) r, none) := by
  rw [FitEngine.process, copyWord_character h]

theorem character_plain (h : code ≠ 0x20#8) :
    e.character code r = FitRun.loop (e.advance r code) r.index fitPasses
      { r with width := r.width + e.advance r code, content := true } := by
  have plain : ¬code = 32 := h
  rw [FitEngine.character, if_neg plain]

theorem character_space :
    e.character 0x20#8 r = FitRun.loop (e.advance r 0x20#8) r.index fitPasses { r with
      width := r.width + e.advance r 0x20#8, content := true
      break_ := some { endWidth := r.width, leftBehind := r.width + e.advance r 0x20#8, start := r.index + 1 } } := rfl

theorem selectFont_outside {n : Nat} (h : 8 ≤ n) : e.selectFont n r = (r, some .noFont) := dif_neg (by omega)

theorem selectFont_inside {n : Nat} {f : Fin 8} (h : f.val = n) :
    (e.mask.getLsbD n = true → e.selectFont n r = ({ r with font := f, fonts := r.fonts ||| fontBit f }, none)) ∧
      (e.mask.getLsbD n = false → e.selectFont n r = ({ r with fonts := r.fonts ||| fontBit f }, some .noFont)) := by
  subst h
  rw [FitEngine.selectFont, dif_pos f.isLt]
  refine ⟨fun h => ?_, fun h => ?_⟩
  · exact if_pos ((fontBit_present e.mask f).mpr h)
  · exact if_neg (mt (fontBit_present e.mask f).mp (ne_true_of_eq_false h))

theorem advance_int (e : FitEngine) (r : FitRun) (code : Byte) :
    (e.advance r code : Int) = max 0 (((e.widths[r.font][code.toFin]).toNat : Int) + r.track) * r.size := by
  rw [FitEngine.advance, Int.natCast_mul, Int.toNat_of_nonneg (Int.le_max_left _ _)]

/-! ## Lines and results (R138, R139, R146, R147) -/

theorem lineDepth_eq (r : FitRun) : r.lineDepth = if r.leading = 0 then 8 * r.size else r.leading := by
  unfold FitRun.lineDepth
  by_cases h : r.leading = 0
  · rw [if_neg (by omega), if_pos h, Nat.mul_comm]
  · rw [if_pos (by omega), if_neg h]

theorem endLine_past (h : 0 < r.hole ∧ r.hole < r.endLine.depth) :
    r.endLine.overset = min 63 (r.overset + 1) ∧ r.endLine.cut = some (r.cut.getD r.lineStart) := by
  have past : decide (0 < r.hole ∧ r.hole < min 65535 (r.depth + r.lineDepth)) = true := decide_eq_true h
  simp only [FitRun.endLine, past, Bool.true_and, if_true]
  cases r.cut with
  | none => exact ⟨trivial, rfl⟩
  | some k => exact ⟨trivial, rfl⟩

theorem endLine_within (h : r.hole = 0 ∨ r.endLine.depth ≤ r.hole) :
    r.endLine.overset = r.overset ∧ r.endLine.cut = r.cut := by
  have past : decide (0 < r.hole ∧ r.hole < min 65535 (r.depth + r.lineDepth)) = false := by
    refine decide_eq_false fun hp => ?_
    rcases h with h | h
    · omega
    · exact absurd h (Nat.not_le.mpr hp.2)
  simp only [FitRun.endLine, past, Bool.false_and, Bool.false_eq_true, if_false]
  exact ⟨trivial, trivial⟩

theorem endLine_deep (r : FitRun) :
    r.endLine.deep = true ↔ r.deep = true ∨ 65535 < r.depth + r.lineDepth := by
  simp only [FitRun.endLine, Bool.or_eq_true, decide_eq_true_eq]

theorem finish_text (h : why = .endOfText ∨ why = .exhausted) :
    (r.content = true → r.finish why = r.endLine) ∧ (r.content = false → r.finish why = r) := by
  rcases h with rfl | rfl <;>
    exact ⟨fun hc => if_pos hc, fun hc => if_neg (ne_true_of_eq_false hc)⟩

theorem status_overset (h : 0 < r.overset) : r.status .endOfText = .overset := if_pos h

theorem status_fits (h : r.overset = 0) (hh : 0 < r.hole) :
    r.status .endOfText = .fits ∧ (r.result .endOfText).spaceLeft = some (r.hole - r.depth) := by
  have fits : r.status .endOfText = .fits := (if_neg (by omega)).trans (if_pos hh)
  exact ⟨fits, if_pos fits⟩

theorem status_unplaced (h : r.overset = 0) (hh : r.hole = 0) : r.status .endOfText = .unplaced :=
  (if_neg (by omega)).trans (if_neg (by omega))

/-! ## A run that ends under the re-run mark (R148 a) -/

theorem endRun_reruns (h : c.stories[r.story].rerun = true) :
    c.endRun why r = (c.onFit fun e => { e with run := none }).discardFit r.story := if_pos h

theorem discardFit_fields (n : StoryNo) (c : Chip) :
    (c.discardFit n).stories[n] = { c.stories[n] with fit := .stale, rerun := false } ∧
      (c.discardFit n).fit.run = c.fit.run ∧ (c.discardFit n).screens = c.screens ∧
      (c.discardFit n).cu.attentionRaw = c.cu.attentionRaw := by
  simp only [Chip.discardFit, Chip.joinFitQueue, mark_fields, onFit_fields, onStory_fields]
  exact ⟨update_self .., trivial, trivial, trivial⟩

theorem discardFit_queue (n : StoryNo) (c : Chip) : n ∈ (c.discardFit n).fit.queue := by
  unfold Chip.discardFit
  simp only [mark_fields]
  exact mem_joinFitQueue ..

theorem discardFit_pending (n : StoryNo) (c : Chip) :
    .story n ∈ (c.discardFit n).mirror.pending ∧ .fitCount ∈ (c.discardFit n).mirror.pending := by
  unfold Chip.discardFit
  exact ⟨(Chip.Grows.mark _ _).pending _ (mark_pends ..), mark_pends ..⟩

/-- The passes of the fit loop, and what they come to (R141). -/
theorem loop_rules (a index : Nat) (r : FitRun) :
    (∀ b, r.break_ = some b → r.breakOnce a index = { r.endLine with
      width := r.width - b.leftBehind, lineStart := b.start, content := decide (0 < r.width - b.leftBehind) }) ∧
    (r.break_ = none → 0 < r.width - a → r.breakOnce a index = { r.endLine with
      width := a, lineStart := index, forced := min 255 (r.forced + 1), content := decide (0 < a) }) ∧
    (r.break_ = none → r.width - a = 0 → r.breakOnce a index = { r.endLine with
      width := 0, lineStart := index + 1, forced := min 255 (r.forced + 1), content := false }) ∧
    (r.width ≤ r.measure8 → FitRun.loop a index fitPasses r = r) ∧
    (r.measure8 < r.width →
      FitRun.loop a index fitPasses r = FitRun.loop a index fitPasses (r.breakOnce a index)) ∧
    (FitRun.loop a index fitPasses r).width ≤ r.measure8 := by
  obtain ⟨passes, within⟩ := loop_passes a index r
  exact ⟨fun _ h => breakOnce_break h, breakOnce_before, breakOnce_after, loop_within _ _ _ r, passes, within⟩

/-- A character word (R140). -/
theorem process_code (h : w.extractLsb' 15 1 = 0#1) (hcode : code = w.extractLsb' 0 8) (ha : a = e.advance r code) :
    (code ≠ 0x20#8 → e.process w r =
      (FitRun.loop a r.index fitPasses { r with width := r.width + a, content := true }, none)) ∧
    (code = 0x20#8 → e.process w r = (FitRun.loop a r.index fitPasses { r with
      width := r.width + a, content := true
      break_ := some { endWidth := r.width, leftBehind := r.width + a, start := r.index + 1 } }, none)) := by
  subst ha
  rw [process_character h, ← hcode]
  refine ⟨fun hplain => by rw [character_plain hplain], fun hspace => ?_⟩
  subst hspace
  rw [character_space]

/-- The command words that set the style of a run (R143 to R145). -/
theorem process_command {n : Nat} (e : FitEngine) (r : FitRun) (w : Word) (hn : n = (w.extractLsb' 0 12).toNat) :
    (w.extractLsb' 12 4 = 8#4 → e.process w r = (r, some .endOfText)) ∧
    (w.extractLsb' 12 4 = 9#4 → e.process w r = e.selectFont n r) ∧
    (w.extractLsb' 12 4 = 10#4 → e.process w r = ({ r with size := max 10 (min 144 n) }, none)) ∧
    (w.extractLsb' 12 4 = 11#4 → e.process w r = ({ r with leading := n }, none)) ∧
    (w.extractLsb' 12 4 = 12#4 → e.process w r = ({ r.endLine with lineStart := r.index + 1 }, none)) ∧
    (w.extractLsb' 12 4 = 13#4 → e.process w r =
      (FitRun.loop 0 r.index fitPasses { r with measure8 := 128 * max 6 (min 300 n) }, none)) ∧
    (w.extractLsb' 12 4 = 14#4 → e.process w r =
      (FitRun.loop (min 255 n * r.size) r.index fitPasses
        { r with width := r.width + min 255 n * r.size, content := true }, none)) ∧
    (w.extractLsb' 12 4 = 15#4 → e.process w r = (e.hyphen r, none)) := by
  subst hn
  obtain ⟨text, font, size, leading, paragraph, measure, fixed, hyphen⟩ := copyWord_command w
  refine ⟨fun h => ?_, fun h => ?_, fun h => ?_, fun h => ?_, fun h => ?_, fun h => ?_, fun h => ?_, fun h => ?_⟩
  · rw [FitEngine.process, text h]
  · rw [FitEngine.process, font h]
  · rw [FitEngine.process, size h]
    rfl
  · rw [FitEngine.process, leading h]
  · rw [FitEngine.process, paragraph h]
  · rw [FitEngine.process, measure h, Nat.mul_comm 128]
    rfl
  · rw [FitEngine.process, fixed h]
    rfl
  · rw [FitEngine.process, hyphen h]

end

/-- Settles O54, from the rules of the loop, the words, the lines and the end of a run. -/
theorem fitArithmeticFollowsTheRules : Obligations.FitArithmeticFollowsTheRules := by
  unfold Obligations.FitArithmeticFollowsTheRules
  refine ⟨loop_rules, fun e r w n hn => ?words, fun r => ⟨rfl, fun why hwhy => finish_text hwhy⟩, advance_int, lineDepth_eq,
    fun r q _ _ hq => ?line, fun e r => ⟨fun h => if_pos h, fun h => if_neg (Nat.not_le.mpr h)⟩,
    fun r => ⟨rfl, rfl, status_overset, status_fits, status_unplaced⟩, fun c d why r hrerun hd => ?rerun⟩
  case words =>
    obtain ⟨text, font, size, leading, paragraph, measure, fixed, hyphen⟩ := process_command e r w hn
    refine ⟨process_within e w r, fun code a hchar hcode ha => process_code hchar hcode ha, text, fun h => ?_, size, leading,
      paragraph, measure, fixed, hyphen⟩
    rw [font h]
    exact ⟨selectFont_outside, fun f hf => selectFont_inside hf⟩
  case line =>
    subst hq
    exact ⟨rfl, rfl, endLine_deep r, endLine_past, endLine_within, rfl, rfl, rfl, rfl, rfl⟩
  case rerun =>
    rw [endRun_reruns hrerun] at hd
    subst hd
    obtain ⟨story, run, screens, raw⟩ := discardFit_fields r.story (c.onFit fun e => { e with run := none })
    obtain ⟨pending, count⟩ := discardFit_pending r.story (c.onFit fun e => { e with run := none })
    exact ⟨story, discardFit_queue .., run, screens, raw, pending, count⟩

end Sys2Proof.Machine
end

section
/-! SUPPORT. The page commands up to PLACE and UNPLACE: one page changed, a story's page changed and the story staled in its
new class (R133, R134, R153 to R158; O55). -/

namespace Sys2Proof.Machine

section
variable {c d e : Chip} {s : State} {n m : StoryNo} {p q : PageNo} {x : Page} {y : Story} {dk : DeskNo} {hole : Nat}
  {front back : List StoryNo}

/-! ## Arguments and callers (R153) -/

theorem exec_pages (s : State) :
    exec .pageOpen s = takeCommand 23 Chip.pageOpen s ∧ exec .setClose s = takeCommand 24 Chip.setClose s ∧
      exec .place s = takeCommand 25 Chip.place s ∧ exec .unplace s = takeCommand 26 Chip.unplace s ∧
      exec .pageClear s = takeCommand 27 Chip.pageClear s ∧ exec .release s = takeCommand 28 Chip.release s ∧
      exec .replate s = takeCommand 29 Chip.replate s := ⟨rfl, rfl, rfl, rfl, rfl, rfl, rfl⟩

theorem pageArg_of {w : Word} (h : w.toNat = p.number) : pageArg w = some p := by
  have hrange : 1 ≤ w.toNat ∧ w.toNat ≤ 96 := by
    have hp := p.isLt
    unfold PageNo.number at h
    omega
  rw [pageArg, dif_pos hrange]
  congr 1
  refine Fin.ext ?_
  show w.toNat - 1 = p.val
  unfold PageNo.number at h
  omega

/-- A caller that may change the pages of a desk is stopped by the page's state alone (R153). -/
theorem pageFault_caller (h : c.CallsForPages dk) (allowed : Bool) :
    c.pageFault allowed dk = if allowed then none else some .wrongState := by
  have admitted : c.callerFault { system := true, terminal := some .slot } = none := by
    rcases h with h | ⟨u, h⟩
    · exact callerFault_system h rfl
    · exact callsAs_admitted h rfl (Nat.le_refl _)
  have relation : (c.callerSystem || c.callerOnDesk dk .slot) = true := by
    rcases h with h | ⟨u, h⟩
    · rw [callerSystem_system h, Bool.true_or]
    · rw [callsAs_onDesk h (Nat.le_refl _), Bool.or_true]
  simp only [Chip.pageFault, admitted, relation, Bool.not_true, Bool.false_eq_true, if_false]
  cases allowed <;> rfl

/-! ## One page changed (R154, R155, R158) -/

theorem onPage_self (c : Chip) (p : PageNo) (f : Page → Page) : (c.onPage p f).pages[p] = f c.pages[p] :=
  update_self ..

theorem onPage_others (f : Page → Page) (h : q ≠ p) : (c.onPage p f).pages[q] = c.pages[q] :=
  update_ne _ _ (Ne.symm h)

/-- A mark in a command that awaits nothing yet is all that it awaits (R28 a). -/
theorem mark_waits (i : MirrorItem) (hc : c.cu.collecting = true) (hw : c.cu.waitSet = []) :
    (c.mark i).cu.waitSet.map (·.item) = [i] := by
  simp only [mark_fields, hc, hw, if_true]
  rfl

/-- A command that changes one page. -/
theorem pageChange_ends {k : Nat} {body : Chip → Reply} {f : Page → Page} (hs : s.Serves k) (hx : x = s.chip.pages[p])
    (hb : body s.chip.collect = .done ((s.chip.collect.onPage p f).mark (.page p)) []) :
    ∃ t, takeCommand k body s = .next t ∧ t.memory = s.memory ∧ t.chip.Ended .ok [] ∧ t.chip.pages[p] = f x ∧
      (∀ q : PageNo, q ≠ p → t.chip.pages[q] = s.chip.pages[q]) ∧ t.chip.cu.waitSet.map (·.item) = [.page p] := by
  subst hx
  obtain ⟨t, hstep, hmemory, ended, same, cu⟩ := command_ends hs hb
  refine ⟨t, hstep, hmemory, ended, ?_, fun q hq => ?_, ?_⟩
  · simp only [same.pages, mark_fields]
    exact onPage_self ..
  · simp only [same.pages, mark_fields]
    exact onPage_others _ hq
  · rw [cu]
    exact mark_waits (.page p) rfl rfl

theorem pageOpen_answers (hp : pageArg (c.cu.arg 1) = some p) (hd : finArg 16 (c.cu.arg 2) = some dk)
    (hcaller : c.CallsForPages dk) :
    c.pageOpen = if c.pages[p].state = .empty then
        .done ((c.onPage p fun x =>
          { x with state := .makeup, desk := dk, close := closeArg (c.cu.arg 3), late := false }).mark (.page p)) []
      else .refuse .wrongState := by
  rw [Chip.pageOpen, hp, hd]
  dsimp only
  rw [pageFault_caller hcaller]
  by_cases h : c.pages[p].state = .empty
  · simp only [h, decide_true, if_true]
  · simp only [h, decide_false, Bool.false_eq_true, if_false]

theorem setClose_answers (hp : pageArg (c.cu.arg 1) = some p) (hcaller : c.CallsForPages c.pages[p].desk)
    (hstate : c.pages[p].state = .makeup ∨ c.pages[p].state = .queued) :
    c.setClose =
      .done ((c.onPage p fun x => { x with close := closeArg (c.cu.arg 2), late := false }).mark (.page p)) [] := by
  have allowed : (decide (c.pages[p].state = .makeup) || decide (c.pages[p].state = .queued)) = true := by
    simp only [Bool.or_eq_true, decide_eq_true_eq]
    exact hstate
  rw [Chip.setClose, hp]
  dsimp only
  rw [pageFault_caller hcaller, allowed]
  rfl

theorem pageClear_answers (hp : pageArg (c.cu.arg 1) = some p) (hcaller : c.CallsForPages c.pages[p].desk)
    (hstate : c.pages[p].state = .makeup) :
    c.pageClear = if c.pages[p].placements = [] then .done ((c.onPage p fun _ => Page.empty).mark (.page p)) []
      else .refuse .wrongState := by
  rw [Chip.pageClear, hp]
  dsimp only
  rw [pageFault_caller hcaller, decide_eq_true hstate]
  rfl

/-! ## The story staled in its new class (R133, R134) -/

/-- Which stories are placed. -/
def Chip.onPaper (c : Chip) (n : StoryNo) : Bool := c.stories[n].page.isSome

theorem joinFitQueue_queue (n : StoryNo) (c : Chip) : (c.joinFitQueue n).fit.queue = tailOf c.onPaper n c.fit.queue := rfl

theorem mem_tailOf_self {urgent : StoryNo → Bool} {b : List StoryNo} : n ∈ tailOf urgent n b := by
  unfold tailOf
  split
  · exact List.mem_append_right _ List.mem_cons_self
  · exact List.mem_append_right _ (List.mem_singleton.mpr rfl)

theorem restale_stale (h : c.stories[n].fit = .stale) :
    c.restale n = (c.onFit fun e => { e with queue := e.queue.filter (· ≠ n) }).joinFitQueue n := if_pos h

theorem restale_other (h : c.stories[n].fit ≠ .stale) : c.restale n = c.stale n := if_neg h

theorem stale_current (hstate : c.stories[n].state ≠ .free) (h : c.stories[n].fit = .current) :
    c.stale n =
      (((c.onStory n fun x => { x with fit := .stale }).joinFitQueue n).mark (.story n)).mark .fitCount := by
  rw [Chip.stale, if_neg hstate, h]

theorem stale_running (hstate : c.stories[n].state ≠ .free) (h : c.stories[n].fit = .running) :
    c.stale n = c.onStory n fun x => { x with rerun := true } := by
  rw [Chip.stale, if_neg hstate, h]

/-- The engine takes no story, and a story is staled in its class: its record, its place in the queue, and FIT COUNT awaited
when the queue has grown (R133, R134). -/
structure Chip.Restaled (n : StoryNo) (c d : Chip) : Prop where
  story : d.stories[n] = c.stories[n].staled
  run : d.fit.run = c.fit.run
  stays : c.stories[n].fit = .running → d.fit.queue = c.fit.queue
  joins : c.stories[n].fit ≠ .running → d.fit.queue = tailOf c.onPaper n
    (if c.stories[n].fit = .stale then c.fit.queue.filter (· ≠ n) else c.fit.queue)
  counts : c.cu.collecting = true → c.stories[n].fit = .current → d.Awaits .fitCount
  quiet : c.stories[n].fit ≠ .current → d.cu = c.cu

theorem onPaper_fit (c : Chip) (n : StoryNo) (v : FitState) :
    (c.onStory n fun x => { x with fit := v }).onPaper = c.onPaper := by
  funext m
  unfold Chip.onPaper
  by_cases h : m = n
  · subst h
    rw [onStory_self]
  · rw [onStory_ne _ h]

theorem restale_restaled (hstate : c.stories[n].state ≠ .free) : Chip.Restaled n c (c.restale n) := by
  cases h : c.stories[n].fit with
  | stale =>
    have story : (c.restale n).stories[n] = c.stories[n].staled := by
      rw [restale_stale h, Story.staled, if_neg hstate, h]
      exact rfl
    refine ⟨story, by rw [restale_stale h]; rfl, fun hf => absurd (h.symm.trans hf) nofun, fun _ => ?_,
      fun _ hf => absurd (h.symm.trans hf) nofun, fun _ => by rw [restale_stale h]; rfl⟩
    rw [restale_stale h, if_pos h]
    rfl
  | current =>
    have hne : c.stories[n].fit ≠ .stale := by rw [h]; nofun
    rw [restale_other hne]
    refine ⟨stale_self n c, stale_run n c, fun hf => absurd (h.symm.trans hf) nofun, fun _ => ?_, fun hc _ => ?_,
      fun hf => absurd h hf⟩
    · rw [stale_current hstate h, if_neg hne]
      simp only [mark_fields, joinFitQueue_queue, onPaper_fit]
      rfl
    · have collecting : ((((c.onStory n fun x => { x with fit := .stale }).joinFitQueue n).mark
          (.story n))).cu.collecting = true := by
        simp only [mark_fields]
        exact hc
      rw [stale_current hstate h]
      exact (Chip.Collects.mark .fitCount _).joins collecting _ List.mem_cons_self
  | running =>
    have hne : c.stories[n].fit ≠ .stale := by rw [h]; nofun
    rw [restale_other hne]
    refine ⟨stale_self n c, stale_run n c, fun _ => ?_, fun hf => absurd h hf,
      fun _ hf => absurd (h.symm.trans hf) nofun, fun _ => ?_⟩ <;>
      rw [stale_running hstate h] <;> rfl

/-! ## A story's page changed (R156, R157) -/

/-- A page and one story changed, each marked, before the story is staled. -/
structure Chip.Repaged (p : PageNo) (n : StoryNo) (x : Page) (y : Story) (c d : Chip) : Prop where
  page : d.pages[p] = x
  pages : ∀ q : PageNo, q ≠ p → d.pages[q] = c.pages[q]
  story : d.stories[n] = y
  stories : ∀ m : StoryNo, m ≠ n → d.stories[m] = c.stories[m]
  fit : d.fit = c.fit
  collects : Chip.Collects [.page p, .story n] c d
  only : ∀ i, d.Awaits i → c.Awaits i ∨ i = .page p ∨ i = .story n

/-- The part with a page and a story changed, each marked. -/
def Chip.repage (p : PageNo) (n : StoryNo) (f : Page → Page) (g : Story → Story) (c : Chip) : Chip :=
  ((((c.onPage p f).mark (.page p)).onStory n g).mark (.story n))

theorem placeStory_eq (p : PageNo) (n : StoryNo) (hole : Nat) (c : Chip) :
    c.placeStory p n hole =
      ((c.repage p n (fun x => { x with placements := x.placements ++ [{ story := n, hole := hole }] })
        (fun x => { x with page := some p, hole := hole })).restale n).fitTake := rfl

theorem unplaceStory_eq (p : PageNo) (n : StoryNo) (c : Chip) :
    c.unplaceStory p n =
      ((c.repage p n (fun x => { x with placements := x.placements.filter (·.story ≠ n) })
        (fun x => { x with hole := 0, page := none })).restale n).fitTake := rfl

theorem mark_only (i : MirrorItem) {j : MirrorItem} (h : (c.mark i).Awaits j) : c.Awaits j ∨ j = i := by
  unfold Chip.Awaits at h ⊢
  simp only [mark_fields] at h
  split at h
  · exact (awaits_add ..).mp h
  · exact Or.inl h

theorem repage_repaged (p : PageNo) (n : StoryNo) (f : Page → Page) (g : Story → Story) (c : Chip) :
    Chip.Repaged p n (f c.pages[p]) (g c.stories[n]) c (c.repage p n f g) := by
  have page : Chip.Collects [] c (c.onPage p f) := .of_cu rfl
  have story := (page.trans (.mark (.page p) _)).thenSame
    (e := ((c.onPage p f).mark (.page p)).onStory n g) rfl
  refine ⟨?_, fun q hq => ?_, ?_, fun m hm => ?_, ?_, story.trans (.mark (.story n) _), fun i hi => ?_⟩
  · simp only [Chip.repage, mark_fields, onStory_fields]
    exact onPage_self ..
  · simp only [Chip.repage, mark_fields, onStory_fields]
    exact onPage_others _ hq
  · simp only [Chip.repage, mark_fields, onStory_self, onPage_fields]
  · simp only [Chip.repage, mark_fields, onStory_ne _ hm, onPage_fields]
  · simp only [Chip.repage, mark_fields, onStory_fields, onPage_fields]
  · rcases mark_only _ hi with hi | hi
    · rcases mark_only _ hi with hi | hi
      · exact Or.inl hi
      · exact Or.inr (Or.inl hi)
    · exact Or.inr (Or.inr hi)

/-- What PLACE and UNPLACE leave: the page, the story staled in its new class while the engine is RUNNING, and the items
awaited (R133, R134, R156, R157). -/
structure Chip.Remade (p : PageNo) (n : StoryNo) (x : Page) (y : Story) (c d : Chip) : Prop where
  page : d.pages[p] = x
  pages : ∀ q : PageNo, q ≠ p → d.pages[q] = c.pages[q]
  story : y.SameOutsideFit d.stories[n]
  stories : ∀ m : StoryNo, m ≠ n → c.stories[m].SameOutsideFit d.stories[m]
  busy : c.fit.run.isSome = true → d.stories[n] = y.staled ∧ (y.fit = .running → d.fit.queue = c.fit.queue) ∧
    (y.fit ≠ .running → n ∈ d.fit.queue ∧ ∀ front back,
      (if y.fit = .stale then c.fit.queue.filter (· ≠ n) else c.fit.queue) = front ++ back → n ∉ front ++ back →
      (∀ m ∈ front, c.stories[m].page.isSome = true) → (∀ m ∈ back, c.stories[m].page = none) →
      d.fit.queue = if y.page.isSome then front ++ n :: back else front ++ back ++ [n]) ∧
    (y.fit = .current ↔ d.Awaits .fitCount)
  awaitsPage : d.Awaits (.page p)
  awaitsStory : d.Awaits (.story n)

theorem repaged_restaled (h : Chip.Repaged p n x y c d) (hy : y.state ≠ .free) (hc : c.cu.collecting = true)
    (hw : ¬c.Awaits .fitCount) (hrun : c.fit.run.isSome = true) :
    (d.restale n).fitTake.stories[n] = y.staled ∧
    (y.fit = .running → (d.restale n).fitTake.fit.queue = c.fit.queue) ∧
    (y.fit ≠ .running → n ∈ (d.restale n).fitTake.fit.queue ∧ ∀ front back,
      (if y.fit = .stale then c.fit.queue.filter (· ≠ n) else c.fit.queue) = front ++ back → n ∉ front ++ back →
      (∀ m ∈ front, c.stories[m].page.isSome = true) → (∀ m ∈ back, c.stories[m].page = none) →
      (d.restale n).fitTake.fit.queue = if y.page.isSome then front ++ n :: back else front ++ back ++ [n]) ∧
    (y.fit = .current ↔ (d.restale n).fitTake.Awaits .fitCount) := by
  have hstate : d.stories[n].state ≠ .free := by rw [h.story]; exact hy
  have restaled := restale_restaled hstate
  have still : (d.restale n).fitTake = d.restale n := fitTake_busy _ (by rw [restaled.run, h.fit]; exact hrun)
  obtain ⟨story, run, stays, joins, counts, quiet⟩ := restaled
  rw [h.story] at story stays joins counts quiet
  rw [h.fit] at stays joins
  rw [still]
  refine ⟨story, stays, fun hfit => ⟨?_, fun front back hq hfresh hf hb => ?_⟩, fun hfit => ?_, fun hawaits => ?_⟩
  · rw [joins hfit]
    exact mem_tailOf_self
  · have others (m : StoryNo) (hm : m ∈ front ++ back) : d.onPaper m = c.stories[m].page.isSome := by
      have hmn : m ≠ n := fun e => hfresh (e ▸ hm)
      unfold Chip.onPaper
      rw [h.stories m hmn]
    have self : d.onPaper n = y.page.isSome := by unfold Chip.onPaper; rw [h.story]
    rw [joins hfit, hq, tailOf_class (fun m hm => (others m (List.mem_append_left _ hm)).trans (hf m hm))
      (fun m hm => (others m (List.mem_append_right _ hm)).trans (by rw [hb m hm]; rfl)), self]
  · exact counts (h.collects.collecting.trans hc) hfit
  · refine Classical.byContradiction fun hfit => ?_
    have cu := quiet hfit
    have before : d.Awaits .fitCount := by
      unfold Chip.Awaits at hawaits ⊢
      rw [← cu]
      exact hawaits
    rcases h.only _ before with hi | hi | hi
    · exact hw hi
    · cases hi
    · cases hi

theorem repaged_remade (h : Chip.Repaged p n x y c d) (hy : y.state ≠ .free) (hc : c.cu.collecting = true)
    (hw : ¬c.Awaits .fitCount) : Chip.Remade p n x y c (d.restale n).fitTake := by
  have does : Chip.FitDoes d (d.restale n).fitTake := (fit_restale n d).andThen (fit_fitTake _)
  have pages : (d.restale n).fitTake.pages = d.pages :=
    ((does_fitTake _).frame .pages (by decide)).trans ((does_restale n d).frame .pages (by decide))
  refine ⟨?_, fun q hq => ?_, ?_, fun m hm => ?_, repaged_restaled h hy hc hw, does.awaits _ ?_, does.awaits _ ?_⟩
  · simp only [pages]
    exact h.page
  · simp only [pages]
    exact h.pages q hq
  · have outside := does.outside n
    rw [h.story] at outside
    exact outside
  · have outside := does.outside m
    rw [h.stories m hm] at outside
    exact outside
  · exact h.collects.joins hc _ List.mem_cons_self
  · exact h.collects.joins hc _ (List.mem_cons_of_mem _ List.mem_cons_self)

/-- A command that changes a page and a story's place on it. -/
theorem remade_ends {k : Nat} {body : Chip → Reply} {words : List Word} (hs : s.Serves k)
    (hb : body s.chip.collect = .done d words) (h : Chip.Remade p n x y s.chip.collect d) :
    ∃ t, takeCommand k body s = .next t ∧ t.memory = s.memory ∧ t.chip.Ended .ok words ∧
      Chip.Remade p n x y s.chip t.chip := by
  obtain ⟨t, hstep, hmemory, ended, same, cu⟩ := command_ends hs hb
  have awaits (i : MirrorItem) : t.chip.Awaits i ↔ d.Awaits i := by
    unfold Chip.Awaits
    rw [cu]
    rfl
  obtain ⟨page, pages, story, stories, busy, awaitsPage, awaitsStory⟩ := h
  refine ⟨t, hstep, hmemory, ended, ?_, fun q hq => ?_, ?_, fun m hm => ?_, fun hrun => ?_, (awaits _).mpr awaitsPage,
    (awaits _).mpr awaitsStory⟩
  · simp only [same.pages]
    exact page
  · simp only [same.pages]
    exact pages q hq
  · simp only [same.stories]
    exact story
  · simp only [same.stories]
    exact stories m hm
  · simp only [same.stories, same.fit, awaits]
    exact busy hrun

/-! ## The answers of PLACE and UNPLACE (R156, R157) -/

theorem place_answers (hp : pageArg (c.cu.arg 1) = some p) (hn : finArg 1024 (c.cu.arg 2) = some n)
    (hh : rangeArg 16 32767 (c.cu.arg 3) = some hole) (hcaller : c.CallsForPages c.pages[p].desk)
    (hstate : c.pages[p].state = .makeup) (hfree : c.stories[n].state ≠ .free) (hset : c.stories[n].state ≠ .set) :
    c.place = if c.stories[n].page.isSome then .refuse .alreadyPlaced
      else if 16 ≤ c.pages[p].placements.length then .refuse .pageFull
      else .done (c.placeStory p n hole) [wordOf (c.pages[p].placements.length + 1)] := by
  have standing : ¬(c.stories[n].state = .free ∨ c.stories[n].state = .set) := fun h => h.elim hfree hset
  rw [Chip.place, hp, hn, hh]
  dsimp only
  rw [pageFault_caller hcaller, decide_eq_true hstate]
  exact if_neg standing

theorem unplace_answers (hp : pageArg (c.cu.arg 1) = some p) (hn : finArg 1024 (c.cu.arg 2) = some n)
    (hcaller : c.CallsForPages c.pages[p].desk) (hstate : c.pages[p].state = .makeup) :
    c.unplace = if c.pages[p].placements.any (·.story = n) then
        .done (c.unplaceStory p n) [wordOf ((c.pages[p].placements.filter (·.story ≠ n)).length)]
      else .refuse .wrongState := by
  rw [Chip.unplace, hp, hn]
  dsimp only
  rw [pageFault_caller hcaller, decide_eq_true hstate]
  rfl

theorem collect_awaits_nothing (i : MirrorItem) (c : Chip) : ¬c.collect.Awaits i := nofun

end

/-- Settles O55, from the changes of one page and the staling of a story in its new class. -/
theorem pagesAreMadeUp : Obligations.PagesAreMadeUp := by
  unfold Obligations.PagesAreMadeUp
  intro s p x hp hx
  obtain ⟨hopen, hclose, hplace, hunplace, hclear, _, _⟩ := exec_pages s
  have page := pageArg_of hp
  rw [hopen, hclose, hplace, hunplace, hclear]
  refine ⟨fun d hs hd hcaller => ?opened, fun hcaller => ⟨fun hs hstate => ?closed, fun hmakeup =>
    ⟨fun hs => ?cleared, fun n hole y hs hn hh hlo hhi hfree hset => ?placed, fun n y hs hn => ?unplaced⟩⟩⟩
  case opened =>
    have answers := pageOpen_answers (c := s.chip.collect) page (finArg_inside hd) hcaller
    refine ⟨fun hstate => takeCommand_refused hs (answers.trans (if_neg ?_)), fun hstate =>
      pageChange_ends hs hx (answers.trans (if_pos ?_))⟩
    · subst hx
      exact hstate
    · subst hx
      exact hstate
  case closed =>
    subst hx
    exact pageChange_ends hs rfl (setClose_answers (c := s.chip.collect) page hcaller hstate)
  case cleared =>
    subst hx
    have answers := pageClear_answers (c := s.chip.collect) page hcaller hmakeup
    exact ⟨fun hplaced => takeCommand_refused hs (answers.trans (if_neg hplaced)), fun hempty =>
      pageChange_ends hs rfl (answers.trans (if_pos hempty))⟩
  case placed =>
    subst hx
    subst hh
    have answers := place_answers (c := s.chip.collect) page (finArg_inside hn) (rangeArg_inside hlo hhi) hcaller hmakeup
      hfree hset
    have unplaced (hnone : s.chip.stories[n].page = none) : ¬s.chip.collect.stories[n].page.isSome = true :=
      fun hsome => absurd ((congrArg Option.isSome hnone).symm.trans hsome) nofun
    refine ⟨fun hplaced => takeCommand_refused hs (answers.trans (if_pos hplaced)), fun hnone hfull => ?_,
      fun hnone hroom hy => ?_⟩
    · exact takeCommand_refused hs (answers.trans ((if_neg (unplaced hnone)).trans (if_pos hfull)))
    · have placed := answers.trans ((if_neg (unplaced hnone)).trans (if_neg (Nat.not_le.mpr hroom)))
      have repaged := repage_repaged p n
        (fun x => { x with placements := x.placements ++ [{ story := n, hole := (s.chip.cu.arg 3).toNat }] })
        (fun x => { x with page := some p, hole := (s.chip.cu.arg 3).toNat }) s.chip.collect
      obtain ⟨t, hstep, hmemory, ended, remade⟩ :=
        remade_ends hs placed (repaged_remade repaged hfree rfl (collect_awaits_nothing _ _))
      subst hy
      obtain ⟨page, pages, story, stories, busy, awaitsPage, awaitsStory⟩ := remade
      exact ⟨t, hstep, hmemory, ended, page, pages, story, stories, busy, awaitsPage, awaitsStory⟩
  case unplaced =>
    subst hx
    have answers := unplace_answers (c := s.chip.collect) page (finArg_inside hn) hcaller hmakeup
    refine ⟨fun habsent => takeCommand_refused hs (answers.trans (if_neg ?_)), fun hthere hfree hy => ?_⟩
    · simp only [List.any_eq_true, decide_eq_true_eq, not_exists, not_and]
      exact habsent
    · have there : (s.chip.collect.pages[p].placements.any fun e => decide (e.story = n)) = true := by
        simp only [List.any_eq_true, decide_eq_true_eq]
        exact hthere
      have repaged := repage_repaged p n
        (fun x => { x with placements := x.placements.filter (·.story ≠ n) })
        (fun x => { x with hole := 0, page := none }) s.chip.collect
      obtain ⟨t, hstep, hmemory, ended, remade⟩ :=
        remade_ends hs (answers.trans (if_pos there)) (repaged_remade repaged hfree rfl (collect_awaits_nothing _ _))
      subst hy
      obtain ⟨page, pages, story, stories, busy, awaitsPage, awaitsStory⟩ := remade
      exact ⟨t, hstep, hmemory, ended, page, pages, story, stories, busy, awaitsPage, awaitsStory⟩

end Sys2Proof.Machine
end

section
/-! SUPPORT. RELEASE and REPLATE: the checks in order, the placed stories frozen and returned, and the page's place in the
output queue (R110, R160, R161, R163, R166; O56). -/

namespace Sys2Proof.Machine

section
variable {c d e : Chip} {s : State} {n m : StoryNo} {p q : PageNo} {x : Page} {w : TerminalNo} {y : DeskNo} {force : Bool}
  {l : List Placement}

/-! ## The checks of RELEASE (R160) -/

theorem find_first {α : Type} {f : α → Bool} {l before rest : List α} {a : α} (hl : l = before ++ a :: rest)
    (ha : f a = true) (hbefore : ∀ b ∈ before, f b = false) : l.find? f = some a := by
  subst hl
  rw [List.find?_append, List.find?_eq_none.mpr fun b hb => ne_true_of_eq_false (hbefore b hb), Option.none_or,
    List.find?_cons_of_pos ha]

theorem find_none {α : Type} {f : α → Bool} {l : List α} (h : ∀ a ∈ l, f a = false) : l.find? f = none :=
  List.find?_eq_none.mpr fun a ha => ne_true_of_eq_false (h a ha)

theorem releasedPages_count (c : Chip) :
    c.releasedPages = c.outputQueue.length + (if ∃ q : PageNo, c.pages[q].state = .setting then 1 else 0) := by
  unfold Chip.releasedPages
  have any : ((List.finRange 96).any fun q => decide (c.pages[q].state = .setting)) = true ↔
      ∃ q : PageNo, c.pages[q].state = .setting := by
    rw [List.any_eq_true]
    exact ⟨fun ⟨q, _, h⟩ => ⟨q, of_decide_eq_true h⟩, fun ⟨q, h⟩ => ⟨q, List.mem_finRange q, decide_eq_true h⟩⟩
  by_cases h : ∃ q : PageNo, c.pages[q].state = .setting
  · rw [if_pos (any.mpr h), if_pos h]
  · rw [if_neg (mt any.mp h), if_neg h]

/-- What stops a RELEASE, once the page has a placement and the queue has room (R160, checks 3 to 5). -/
theorem releaseFault_checks (hl : c.pages[p].placements = l) (hne : l ≠ []) (hroom : c.releasedPages < 16) :
    c.releaseFault p force =
      match l.find? fun e => decide (c.stories[e.story].state = .open_) with
      | some e => some (.storyOpen, [wordOf e.story.val])
      | none =>
        match l.find? fun e => decide (c.stories[e.story].fit ≠ .current) with
        | some e => some (.notFit, [wordOf e.story.val])
        | none =>
          match l.find? fun e => !c.stories[e.story].fitsFor force with
          | some e => some (.notFit, [wordOf e.story.val])
          | none => none := by
  unfold Chip.releaseFault
  rw [hl]
  exact (if_neg hne).trans (if_neg (Nat.not_le.mpr hroom))

theorem release_answers (hp : pageArg (c.cu.arg 1) = some p) (hforce : flagArg (c.cu.arg 2) = some force)
    (hcaller : c.CallsForPages c.pages[p].desk) (hstate : c.pages[p].state = .makeup) :
    c.release =
      match c.releaseFault p force with
      | some (r, words) => .refused r words
      | none => .done (c.releasePage p) [(c.releasePage p).pages[p].plates.setWidth 16,
          wordOf ((c.releasePage p).pages[p].edition.getD 0)] := by
  rw [Chip.release, hp, hforce]
  dsimp only
  rw [pageFault_caller hcaller, decide_eq_true hstate]
  rfl

theorem release_refused {r : ResultCode} {words : List Word} (hp : pageArg (c.cu.arg 1) = some p)
    (hforce : flagArg (c.cu.arg 2) = some force) (hcaller : c.CallsForPages c.pages[p].desk)
    (hstate : c.pages[p].state = .makeup) (h : c.releaseFault p force = some (r, words)) :
    c.release = .refused r words := by
  rw [release_answers hp hforce hcaller hstate, h]

/-! ## The placed stories frozen (R110 a, R161 a) -/

theorem freeze_story (n m : StoryNo) (c : Chip) :
    (c.freeze n).stories[m] = if n = m then { c.stories[m] with state := .set } else c.stories[m] := by
  by_cases hm : n = m
  · subst hm
    rw [if_pos rfl]
    unfold Chip.freeze
    dsimp only
    simp only [mark_fields, onStory_self]
    split
    · simp only [leaveBasket_stories]
    · rfl
  · rw [if_neg hm, (moves_freeze n c).others m (Ne.symm hm)]

theorem freeze_collects (n : StoryNo) (c : Chip) : Chip.Collects [.story n] c (c.freeze n) := by
  have left : Chip.Collects [] c (if c.stories[n].state = .basket then c.leaveBasket n else c) := by
    split
    · exact (leaveBasket_collects n c).mono nofun
    · exact .of_cu rfl
  have frozen := left.thenSame (e := Chip.onStory n (fun x => { x with state := .set }) _) rfl
  exact frozen.trans (.mark (.story n) _)

/-- Every placed story frozen. -/
def Chip.freezeAll (l : List Placement) (c : Chip) : Chip := l.foldl (fun c e => c.freeze e.story) c

theorem freezeAll_story (l : List Placement) (n : StoryNo) : ∀ c : Chip,
    (c.freezeAll l).stories[n] =
      if ∃ e ∈ l, e.story = n then { c.stories[n] with state := .set } else c.stories[n] := by
  induction l with
  | nil => exact fun c => by rw [if_neg (fun h => by obtain ⟨_, h, _⟩ := h; cases h)]; rfl
  | cons a l ih =>
    intro c
    refine (ih (c.freeze a.story)).trans ?_
    rw [freeze_story]
    simp only [List.mem_cons, exists_eq_or_imp]
    by_cases ha : a.story = n
    · simp only [ha, if_true, true_or]
      split <;> rfl
    · simp only [ha, if_false, false_or]

theorem freezeAll_collects (l : List Placement) (c : Chip) :
    Chip.Collects (l.flatMap fun e => [.story e.story]) c (c.freezeAll l) :=
  .fold (fun c e => c.freeze e.story) (fun e => [.story e.story]) (fun c e => freeze_collects e.story c) l c

theorem mem_placed_items : .story n ∈ l.flatMap (fun e : Placement => [MirrorItem.story e.story]) ↔ ∃ e ∈ l, e.story = n := by
  simp only [List.mem_flatMap, List.mem_singleton, MirrorItem.story.injEq, eq_comm]

theorem freezeAll_fields (l : List Placement) (c : Chip) :
    (c.freezeAll l).pages = c.pages ∧ (c.freezeAll l).keys = c.keys ∧ (c.freezeAll l).screens = c.screens :=
  have does := does_freezeAll l c
  ⟨does.frame .pages (by decide), does.frame .keys (by decide), does.frame .screens (by decide)⟩

/-! ## The page released (R161, R163) -/

/-- The part with the stories frozen and the page's entry written. -/
def Chip.releaseEntered (p : PageNo) (c : Chip) : Chip :=
  (c.freezeAll c.pages[p].placements).onPage p fun x => x.released (c.freezeAll c.pages[p].placements).clock

theorem releasePage_eq (p : PageNo) (c : Chip) :
    c.releasePage p = ((((c.releaseEntered p).queueTail p).mark (.page p)).mark .outputCount).post .released p.number none
      (.desk (c.releaseEntered p).pages[p].desk) := rfl

/-- The parts of the release that neither the page's entry nor the queue shows. -/
theorem releaseEntered_fields (p : PageNo) (c : Chip) :
    (c.releaseEntered p).keys = c.keys ∧ (c.releaseEntered p).screens = c.screens ∧
      (c.releaseEntered p).stories = (c.freezeAll c.pages[p].placements).stories ∧
      (c.releaseEntered p).cu = (c.freezeAll c.pages[p].placements).cu ∧
      (c.releaseEntered p).pages[p].desk = c.pages[p].desk := by
  obtain ⟨pages, keys, screens⟩ := freezeAll_fields c.pages[p].placements c
  refine ⟨keys, screens, rfl, rfl, ?_⟩
  unfold Chip.releaseEntered
  rw [onPage_self]
  simp only [pages]
  rfl

theorem released_class {v : Byte} (hv : v = if x.plates = 255 then 255 else x.plates + 1) :
    (1 < v.toNat) ↔ x.plates ≠ 0 := by
  subst hv
  by_cases h : x.plates = 255
  · rw [if_pos h, h]
    decide
  · have hlt := x.plates.isLt
    have hne : x.plates.toNat ≠ 255 := fun e => h (BitVec.eq_of_toNat_eq e)
    have zero : x.plates ≠ 0 ↔ x.plates.toNat ≠ 0 :=
      not_congr ⟨fun e => by rw [e]; rfl, fun e => BitVec.eq_of_toNat_eq e⟩
    have sum : (x.plates + 1).toNat = x.plates.toNat + 1 := by
      rw [BitVec.toNat_add]
      exact Nat.mod_eq_of_lt (by show x.plates.toNat + 1 < 256; omega)
    rw [if_neg h, sum, zero]
    omega

/-- What a notice for the terminals of a desk leaves of a screen (R61). -/
def Chip.toldDesk (c : Chip) (y : DeskNo) (k : Notice) (w : TerminalNo) : Screen :=
  match c.session w with
  | some z => if z.desk = y then c.screens[w].enter k else c.screens[w]
  | none => c.screens[w]

theorem post_desk (k : NoticeKind) (j : Nat) (v : Option Nat) (y : DeskNo) (c : Chip) (w : TerminalNo) :
    (c.post k j v (.desk y)).screens[w] = c.toldDesk y { kind := k, subject := j, second := v, count := 1 } w := by
  rw [post_screens, Chip.toldDesk]
  cases hz : c.session w with
  | none =>
    obtain ⟨_, none, _⟩ := receives_signedOff hz
    rw [none, if_neg Bool.false_ne_true]
  | some z =>
    obtain ⟨_, desk, _⟩ := receives_signedOn hz
    simp only [desk, decide_eq_true_eq]

theorem toldDesk_congr {k : Notice} (hkeys : d.keys = c.keys) (hscreens : d.screens = c.screens) :
    d.toldDesk y k w = c.toldDesk y k w := by
  unfold Chip.toldDesk Chip.session
  simp only [hkeys, hscreens]

/-- What RELEASE leaves (R161). -/
structure Chip.PageReleased (p : PageNo) (x : Page) (c d : Chip) : Prop where
  page : d.pages[p] = x.released c.clock
  pages : ∀ q : PageNo, q ≠ p → d.pages[q] = c.pages[q]
  queue : ∀ front back, c.outputQueue = front ++ back → p ∉ c.outputQueue →
    (∀ q ∈ front, 1 < c.pages[q].plates.toNat) → (∀ q ∈ back, c.pages[q].plates.toNat ≤ 1) →
    d.outputQueue = if x.plates = 0 then front ++ back ++ [p] else front ++ p :: back
  story : ∀ n : StoryNo, d.stories[n] =
    if ∃ e ∈ x.placements, e.story = n then { c.stories[n] with state := .set } else c.stories[n]
  screens : ∀ w : TerminalNo, d.screens[w] =
    c.toldDesk x.desk { kind := .released, subject := p.number, second := none, count := 1 } w

theorem releasePage_queue (p : PageNo) (c : Chip) {front back : List PageNo} (hq : c.outputQueue = front ++ back)
    (hfresh : p ∉ c.outputQueue) (hf : ∀ q ∈ front, 1 < c.pages[q].plates.toNat)
    (hb : ∀ q ∈ back, c.pages[q].plates.toNat ≤ 1) :
    (c.releasePage p).outputQueue = if c.pages[p].plates = 0 then front ++ back ++ [p] else front ++ p :: back := by
  have others (q : PageNo) (hin : q ∈ front ++ back) :
      (c.onPage p fun x => x.released c.clock).replateClass q = decide (1 < c.pages[q].plates.toNat) := by
    have hqp : p ≠ q := fun e => hfresh (e ▸ hq ▸ hin)
    unfold Chip.replateClass
    rw [onPage_pages, if_neg hqp]
  have self : (c.onPage p fun x => x.released c.clock).replateClass p = true ↔ c.pages[p].plates ≠ 0 := by
    unfold Chip.replateClass
    rw [onPage_self, decide_eq_true_eq]
    exact released_class rfl
  have queued := (releasePage_pages p c).2.1
  rw [queued, queueTail_queue (c := c.onPage p fun x => x.released c.clock) hq
    (fun q hin => (others q (List.mem_append_left _ hin)).trans (decide_eq_true (hf q hin)))
    (fun q hin => (others q (List.mem_append_right _ hin)).trans (decide_eq_false (Nat.not_lt.mpr (hb q hin))))]
  by_cases h : c.pages[p].plates = 0
  · rw [if_neg (fun hs => self.mp hs h), if_pos h]
  · rw [if_pos (self.mpr h), if_neg h]

theorem releasePage_rest (p : PageNo) (c : Chip) (hl : c.pages[p].placements = l) :
    (∀ n : StoryNo, (c.releasePage p).stories[n] =
      if ∃ e ∈ l, e.story = n then { c.stories[n] with state := .set } else c.stories[n]) ∧
    (∀ w : TerminalNo, (c.releasePage p).screens[w] =
      c.toldDesk c.pages[p].desk { kind := .released, subject := p.number, second := none, count := 1 } w) ∧
    Chip.Collects ((l.flatMap fun e => [.story e.story]) ++ [.page p] ++ [.outputCount]) c (c.releasePage p) := by
  subst hl
  have story (n : StoryNo) := freezeAll_story c.pages[p].placements n c
  have frozen := freezeAll_collects c.pages[p].placements c
  have entered := releaseEntered_fields p c
  rw [releasePage_eq]
  generalize c.freezeAll c.pages[p].placements = a at story frozen entered
  generalize c.releaseEntered p = d at entered
  obtain ⟨keys, screens, stories, cu, desk⟩ := entered
  have queued : Chip.Collects [] d (d.queueTail p) := .of_cu rfl
  have marked := (queued.trans (.mark (.page p) _)).trans (.mark .outputCount _)
  rw [desk]
  refine ⟨fun n => ?_, fun w => ?_, ?_⟩
  · simp only [post_fields, mark_fields]
    show d.stories[n] = _
    simp only [stories]
    exact story n
  · rw [post_desk]
    refine toldDesk_congr ?_ ?_
    · simp only [mark_fields]
      exact keys
    · simp only [mark_fields]
      exact screens
  · have all := (frozen.thenSame cu).trans (marked.thenSame
      (e := ((d.queueTail p).mark (.page p)).mark .outputCount |>.post .released p.number none (.desk c.pages[p].desk))
      (by simp only [post_fields]))
    rw [List.nil_append, ← List.append_assoc] at all
    exact all

theorem releasePage_released (p : PageNo) (c : Chip) : Chip.PageReleased p c.pages[p] c (c.releasePage p) := by
  obtain ⟨pages, _, _⟩ := releasePage_pages p c
  obtain ⟨story, screens, _⟩ := releasePage_rest p c rfl
  exact ⟨(pages p).trans (if_pos rfl), fun q hq => (pages q).trans (if_neg (Ne.symm hq)),
    fun _ _ hq => releasePage_queue p c hq, story, screens⟩

/-! ## The placed stories returned (R166 e) -/

/-- Every placed story returned to the head of its basket. -/
def Chip.returnPlaced (l : List Placement) (c : Chip) : Chip := l.foldl (fun c e => c.returnToHead e.story) c

theorem returnToHead_closed (h : c.stories[n].state ≠ .open_) :
    c.returnToHead n = (c.onStory n fun x => { x with state := .basket }).joinHead n := by
  rw [Chip.returnToHead, if_neg h]

theorem returnToHead_putBack (h : c.stories[n].state ≠ .open_) (m : StoryNo) :
    (c.returnToHead n).stories[m] = if n = m then { c.stories[m] with state := .basket } else c.stories[m] := by
  rw [returnToHead_closed h, joinHead_stories]
  by_cases hm : n = m
  · subst hm
    rw [if_pos rfl, onStory_self]
  · rw [if_neg hm, onStory_ne _ (Ne.symm hm)]

theorem putBack_desk (h : c.stories[n].state ≠ .open_) (y : DeskNo) (m : StoryNo) :
    m ∈ (c.returnToHead n).desks[y].basket ↔ m ∈ c.desks[y].basket ∨ m = n ∧ c.stories[n].desk = y := by
  have desk : (c.onStory n fun x => { x with state := .basket }).stories[n].desk = c.stories[n].desk := by rw [onStory_self]
  rw [returnToHead_closed h, joinHead_desk, desk]
  split
  · next hy => simp only [mem_headOf, hy, and_true, or_comm, onStory_fields]
  · next hy => simp only [hy, and_false, or_false, onStory_fields]

theorem putBack_collects (h : c.stories[n].state ≠ .open_) : Chip.Collects [.story n] c (c.returnToHead n) := by
  have put : Chip.Collects [] c (c.onStory n fun x => { x with state := .basket }) := .of_cu rfl
  rw [returnToHead_closed h]
  refine (put.trans (setBasket_collects _ n _ _)).mono fun i hi => ?_
  rw [List.mem_singleton.mp hi]
  exact List.mem_cons_self

/-- What the return of a page's stories leaves (R166 e). -/
structure Chip.PutBack (l : List Placement) (c d : Chip) : Prop where
  story : ∀ n : StoryNo, d.stories[n] =
    if ∃ e ∈ l, e.story = n then { c.stories[n] with state := .basket } else c.stories[n]
  basket : ∀ e ∈ l, e.story ∈ d.desks[c.stories[e.story].desk].basket
  keeps : ∀ (y : DeskNo) (m : StoryNo), m ∈ c.desks[y].basket → m ∈ d.desks[y].basket
  collects : Chip.Collects (l.flatMap fun e => [.story e.story]) c d

theorem returnPlaced_putBack (l : List Placement) : ∀ c : Chip, (∀ e ∈ l, c.stories[e.story].state ≠ .open_) →
    Chip.PutBack l c (c.returnPlaced l) := by
  induction l with
  | nil =>
    exact fun c _ => ⟨fun n => by rw [if_neg (fun h => by obtain ⟨_, h, _⟩ := h; cases h)]; rfl, nofun, fun _ _ h => h,
      .of_cu rfl⟩
  | cons a l ih =>
    intro c hclosed
    have ha := hclosed a List.mem_cons_self
    have first := returnToHead_putBack ha
    have desk (m : StoryNo) : (c.returnToHead a.story).stories[m].desk = c.stories[m].desk := by
      rw [first m]
      split <;> rfl
    obtain ⟨story, basket, keeps, collects⟩ := ih (c.returnToHead a.story) fun e he => by
      rw [first e.story]
      split
      · nofun
      · exact hclosed e (List.mem_cons_of_mem a he)
    refine ⟨fun n => (story n).trans ?_, fun e he => ?_,
      fun y m hm => keeps y m ((putBack_desk ha y m).mpr (Or.inl hm)), (putBack_collects ha).trans collects⟩
    · rw [first n]
      simp only [List.mem_cons, exists_eq_or_imp]
      by_cases hn : a.story = n
      · simp only [hn, if_true, true_or]
        split <;> rfl
      · simp only [hn, if_false, false_or]
    · rcases List.mem_cons.mp he with rfl | he
      · exact keeps _ _ ((putBack_desk ha _ _).mpr (Or.inr ⟨rfl, rfl⟩))
      · have := basket e he
        simp only [desk] at this
        exact this

/-! ## REPLATE (R166) -/

theorem replatePage_eq (p : PageNo) (c : Chip) :
    c.replatePage p =
      (((c.recallPage p).onPage p fun x => { x with state := .makeup }).returnPlaced
        ((c.recallPage p).onPage p fun x => { x with state := .makeup }).pages[p].placements).mark (.page p) := rfl

theorem replate_answers (hp : pageArg (c.cu.arg 1) = some p) (hcaller : c.CallsForPages c.pages[p].desk)
    (hstate : c.pages[p].state = .queued ∨ c.pages[p].state = .setting ∨ c.pages[p].state = .set) :
    c.replate = .done (c.replatePage p) [c.pages[p].plates.setWidth 16] := by
  have allowed : (decide (c.pages[p].state = .queued) || decide (c.pages[p].state = .setting) ||
      decide (c.pages[p].state = .set)) = true := by
    simp only [Bool.or_eq_true, decide_eq_true_eq, or_assoc]
    exact hstate
  rw [Chip.replate, hp]
  dsimp only
  rw [pageFault_caller hcaller, allowed]
  rfl

theorem recallPage_queued (h : c.pages[p].state = .queued) : c.recallPage p = (c.unqueue p).mark .outputCount := by
  rw [Chip.recallPage, h]

theorem recallPage_setting (h : c.pages[p].state = .setting) (hp : c.link.page = some p) :
    c.recallPage p = c.withdrawPage p := by
  rw [Chip.recallPage, h]
  exact if_pos hp

theorem recallPage_set (h : c.pages[p].state = .set) : c.recallPage p = c := by
  rw [Chip.recallPage, h]

/-- A link withdrawn from its page has the page to abandon, and no frame of it to build (R183). -/
theorem withdrawPage_link (p : PageNo) (c : Chip) :
    (c.withdrawPage p).link.page = none ∧ (c.withdrawPage p).link.abandoning = some p ∧
      (c.withdrawPage p).link.position = none := by
  unfold Chip.withdrawPage
  dsimp only
  split
  · rw [show (c.onLink fun k => { k with page := none, abandoning := some p, position := none }).buildAbandon = _ from rfl]
    unfold Chip.buildAbandon
    simp only [onLink_fields, sendFrame_link]
    exact ⟨trivial, trivial, trivial⟩
  · exact ⟨rfl, rfl, rfl⟩

theorem recallPage_fields (p : PageNo) (c : Chip) :
    (c.recallPage p).pages = c.pages ∧ (c.recallPage p).stories = c.stories ∧ (c.recallPage p).desks = c.desks ∧
      (c.recallPage p).screens = c.screens :=
  have does := does_recallPage p c
  ⟨does.frame .pages (by decide), does.frame .stories (by decide), does.frame .desks (by decide),
    does.frame .screens (by decide)⟩

theorem linkTo_collects (st : LinkState) (stage : Option LinkStage) (c : Chip) :
    Chip.Collects [] c (c.linkTo st stage) := by
  have moved : Chip.Collects [] c (c.onLink fun k => { k with state := st, stage := stage }) := .of_cu rfl
  unfold Chip.linkTo
  dsimp only
  split
  · exact moved
  · exact (moved.trans (.mark .linkState _)).mono nofun

theorem buildAbandon_collects (c : Chip) : Chip.Collects [] c c.buildAbandon := by
  unfold Chip.buildAbandon
  split
  · exact .of_cu rfl
  · next p _ =>
    have framed : Chip.Collects [] c ((c.onLink fun k => { k with tries := 0, holds := 0 }).onLink fun k =>
        { k with frame := some { kind := .abandon, payload := [wordOf p.number] } }) := .of_cu rfl
    exact framed.trans (linkTo_collects ..)

theorem withdrawPage_collects (p : PageNo) (c : Chip) : Chip.Collects [] c (c.withdrawPage p) := by
  have withdrawn : Chip.Collects [] c (c.onLink fun k => { k with page := none, abandoning := some p, position := none }) :=
    .of_cu rfl
  unfold Chip.withdrawPage
  dsimp only
  split
  · exact withdrawn.trans (buildAbandon_collects _)
  · exact withdrawn

theorem recallPage_collects (p : PageNo) (c : Chip) : Chip.Collects [] c (c.recallPage p) := by
  have unqueued : Chip.Collects [] c (c.unqueue p) := .of_cu rfl
  unfold Chip.recallPage
  split
  · exact (unqueued.trans (.mark .outputCount _)).mono nofun
  · split
    · exact withdrawPage_collects p c
    · exact .of_cu rfl
  · exact .of_cu rfl

/-- What REPLATE leaves of the stories, the screens and the items awaited (R166 d to f). -/
structure Chip.Replated (p : PageNo) (x : Page) (c d : Chip) : Prop where
  story : ∀ n : StoryNo, d.stories[n] =
    if ∃ e ∈ x.placements, e.story = n then { c.stories[n] with state := .basket } else c.stories[n]
  basket : ∀ e ∈ x.placements, e.story ∈ d.desks[c.stories[e.story].desk].basket
  screens : d.screens = c.screens
  collects : Chip.Collects ((x.placements.flatMap fun e => [.story e.story]) ++ [.page p]) (c.recallPage p) d

theorem replatePage_replated (h : ∀ e ∈ c.pages[p].placements, c.stories[e.story].state ≠ .open_) :
    Chip.Replated p c.pages[p] c (c.replatePage p) := by
  obtain ⟨pages, stories, desks, screens⟩ := recallPage_fields p c
  have made : Chip.Collects [] (c.recallPage p) ((c.recallPage p).onPage p fun x => { x with state := .makeup }) := .of_cu rfl
  have placements : ((c.recallPage p).onPage p fun x => { x with state := .makeup }).pages[p].placements =
      c.pages[p].placements := by
    rw [onPage_self]
    simp only [pages]
  rw [replatePage_eq, placements]
  generalize hd : ((c.recallPage p).onPage p fun x => { x with state := .makeup }) = d at made
  have dstories : d.stories = c.stories := by rw [← hd]; exact stories
  have dscreens : d.screens = c.screens := by rw [← hd]; exact screens
  obtain ⟨story, basket, _, collects⟩ := returnPlaced_putBack c.pages[p].placements d (by
    simp only [dstories]; exact h)
  have does : Chip.Does custodyParts d (d.returnPlaced c.pages[p].placements) := does_returnAll _ d
  simp only [dstories] at story basket
  refine ⟨fun n => ?_, fun e he => ?_, ?_, (made.trans collects).trans (.mark (.page p) _)⟩
  · simp only [mark_fields]
    exact story n
  · simp only [mark_fields]
    exact basket e he
  · simp only [mark_fields]
    exact (does.frame .screens (by decide)).trans dscreens

/-! ## The two commands at the port -/

/-- A RELEASE that passes the checks (R161). -/
theorem release_ends (hx : x = s.chip.pages[p]) (hs : s.Serves 28) (hp : pageArg (s.chip.cu.arg 1) = some p)
    (hforce : flagArg (s.chip.cu.arg 2) = some force) (hcaller : s.chip.CallsForPages x.desk) (hstate : x.state = .makeup)
    (h : s.chip.releaseFault p force = none) :
    ∃ t, takeCommand 28 Chip.release s = .next t ∧ t.memory = s.memory ∧
      t.chip.Ended .ok [t.chip.pages[p].plates.setWidth 16, BitVec.ofNat 16 s.chip.clock.current] ∧
      Chip.PageReleased p x s.chip t.chip ∧
      ∀ i ∈ (x.placements.flatMap fun e => [.story e.story]) ++ [.page p] ++ [.outputCount], t.chip.Awaits i := by
  subst hx
  have fault : s.chip.collect.releaseFault p force = none := h
  have answers := release_answers (c := s.chip.collect) hp hforce hcaller hstate
  rw [fault] at answers
  obtain ⟨t, hstep, hmemory, ended, same, cu⟩ := command_ends hs answers
  have released := releasePage_released p s.chip.collect
  obtain ⟨_, _, collects⟩ := releasePage_rest p s.chip.collect rfl
  obtain ⟨page, pages, queue, story, screens⟩ := released
  have edition : (s.chip.collect.releasePage p).pages[p].edition.getD 0 = s.chip.clock.current := by
    rw [page]
    rfl
  rw [edition] at ended
  refine ⟨t, hstep, hmemory, ?_, ⟨?_, fun q hq => ?_, fun front back => ?_, fun n => ?_, fun w => ?_⟩,
    fun i hi => awaits_endAction cu (collects.joins rfl i hi)⟩
  · simp only [same.pages]
    exact ended
  · simp only [same.pages]
    exact page
  · simp only [same.pages]
    exact pages q hq
  · simp only [same.outputQueue]
    exact queue front back
  · simp only [same.stories]
    exact story n
  · simp only [same.screens]
    exact screens w

/-- The checks of RELEASE in order, as the statement asks for them (R160). -/
theorem releaseFault_cases (p : PageNo) (force : Bool) (c : Chip) (hl : c.pages[p].placements = l) :
    (l = [] → c.releaseFault p force = some (.emptyPage, [])) ∧
    (l ≠ [] → 16 ≤ c.releasedPages → c.releaseFault p force = some (.queueFull, [])) ∧
    (l ≠ [] → c.releasedPages < 16 →
      (∀ before e rest, l = before ++ e :: rest → c.stories[e.story].state = .open_ →
        (∀ d ∈ before, c.stories[d.story].state ≠ .open_) →
        c.releaseFault p force = some (.storyOpen, [wordOf e.story.val])) ∧
      ((∀ e ∈ l, c.stories[e.story].state ≠ .open_) →
        (∀ before e rest, l = before ++ e :: rest → c.stories[e.story].fit ≠ .current →
          (∀ d ∈ before, c.stories[d.story].fit = .current) →
          c.releaseFault p force = some (.notFit, [wordOf e.story.val])) ∧
        ((∀ e ∈ l, c.stories[e.story].fit = .current) →
          (∀ before e rest, l = before ++ e :: rest → c.stories[e.story].fitsFor force = false →
            (∀ d ∈ before, c.stories[d.story].fitsFor force = true) →
            c.releaseFault p force = some (.notFit, [wordOf e.story.val])) ∧
          ((∀ e ∈ l, c.stories[e.story].fitsFor force = true) → c.releaseFault p force = none)))) := by
  refine ⟨fun hempty => ?_, fun hne hfull => ?_, fun hne hroom => ?_⟩
  · unfold Chip.releaseFault
    rw [hl]
    exact if_pos hempty
  · unfold Chip.releaseFault
    rw [hl]
    exact (if_neg hne).trans (if_pos hfull)
  have checks := releaseFault_checks (force := force) hl hne hroom
  refine ⟨fun before e rest hsplit he hbefore => ?_, fun hclosed => ⟨fun before e rest hsplit he hbefore => ?_,
    fun hcurrent => ⟨fun before e rest hsplit he hbefore => ?_, fun hfits => ?_⟩⟩⟩
  · rw [checks, find_first hsplit (decide_eq_true he) fun d hd => decide_eq_false (hbefore d hd)]
  · rw [checks, find_none fun d hd => decide_eq_false (hclosed d hd),
      find_first hsplit (decide_eq_true he) fun d hd => decide_eq_false (Classical.not_not.mpr (hbefore d hd))]
  · rw [checks, find_none fun d hd => decide_eq_false (hclosed d hd),
      find_none fun d hd => decide_eq_false (Classical.not_not.mpr (hcurrent d hd)),
      find_first hsplit (by rw [he]; rfl) fun d hd => by rw [hbefore d hd]; rfl]
  · rw [checks, find_none fun d hd => decide_eq_false (hclosed d hd),
      find_none fun d hd => decide_eq_false (Classical.not_not.mpr (hcurrent d hd)),
      find_none fun d hd => by rw [hfits d hd]; rfl]

/-- A REPLATE of a page on its way out (R166). -/
theorem replate_ends (hx : x = s.chip.pages[p]) (hs : s.Serves 29) (hp : pageArg (s.chip.cu.arg 1) = some p)
    (hcaller : s.chip.CallsForPages x.desk) (hstate : x.state = .queued ∨ x.state = .setting ∨ x.state = .set)
    (hset : ∀ e ∈ x.placements, s.chip.stories[e.story].state = .set) :
    ∃ t, takeCommand 29 Chip.replate s = .next t ∧ t.memory = s.memory ∧ t.chip.Ended .ok [x.plates.setWidth 16] ∧
      (s.chip.collect.replatePage p).SameBlocks t.chip ∧
      Chip.Replated p x s.chip.collect (s.chip.collect.replatePage p) ∧
      ∀ i, (s.chip.collect.replatePage p).Awaits i → t.chip.Awaits i := by
  subst hx
  obtain ⟨t, hstep, hmemory, ended, same, cu⟩ :=
    command_ends hs (replate_answers (c := s.chip.collect) hp hcaller hstate)
  have closed : ∀ e ∈ s.chip.collect.pages[p].placements, s.chip.collect.stories[e.story].state ≠ .open_ := fun e he ho =>
    absurd ((hset e he).symm.trans ho) nofun
  exact ⟨t, hstep, hmemory, ended, same, replatePage_replated closed, fun i => awaits_endAction cu⟩

end

/-- Settles O56, from the checks of RELEASE and what the two commands leave. -/
theorem pagesAreReleasedAndReplated : Obligations.PagesAreReleasedAndReplated := by
  unfold Obligations.PagesAreReleasedAndReplated
  intro s p x hp hx hcaller
  obtain ⟨_, _, _, _, _, hrelease, hreplate⟩ := exec_pages s
  have page := pageArg_of hp
  rw [hrelease, hreplate]
  refine ⟨fun force count hs hforce hmakeup hcount => ?released, fun hs hstate hset => ?replated⟩
  case released =>
    have flag := flagArg_of hforce
    have counted : s.chip.releasedPages = count := (releasedPages_count s.chip).trans hcount.symm
    have placements : s.chip.pages[p].placements = x.placements := by rw [hx]
    have refused {r : ResultCode} {words : List Word} (h : s.chip.releaseFault p force = some (r, words)) :
        takeCommand 28 Chip.release s = .next (s.refusedWith r words) := by
      subst hx
      exact takeCommand_refused hs (release_refused (c := s.chip.collect) page flag hcaller hmakeup h)
    obtain ⟨empty, full, room⟩ := releaseFault_cases p force s.chip placements
    rw [counted] at full room
    refine ⟨fun hempty => refused (empty hempty), fun hne hfull => refused (full hne hfull), fun hne hroom => ?_⟩
    obtain ⟨opened, closed⟩ := room hne hroom
    refine ⟨fun before e rest hsplit he hbefore => refused (opened before e rest hsplit he hbefore), fun hclosed => ?_⟩
    obtain ⟨stale, current⟩ := closed hclosed
    refine ⟨fun before e rest hsplit he hbefore => refused (stale before e rest hsplit he hbefore), fun hcurrent => ?_⟩
    obtain ⟨unfit, fits⟩ := current hcurrent
    refine ⟨fun before e rest hsplit he hbefore => refused (unfit before e rest hsplit he hbefore),
      fun front back hfits hq hfresh hf hb => ?_⟩
    obtain ⟨t, hstep, hmemory, ended, ⟨entry, pages, queue, story, screens⟩, awaits⟩ :=
      release_ends hx hs page flag hcaller hmakeup (fits hfits)
    refine ⟨t, hstep, hmemory, entry, pages, ended, queue front back hq hfresh hf hb, fun n =>
      ⟨fun hn => ⟨(story n).trans (if_pos hn), awaits _ ?_⟩, fun hn => (story n).trans (if_neg hn)⟩, screens,
      awaits _ (by simp), awaits _ (by simp)⟩
    exact List.mem_append_left _ (List.mem_append_left _ (mem_placed_items.mpr hn))
  case replated =>
    obtain ⟨t, hstep, hmemory, ended, same, ⟨story, basket, screens, collects⟩, awaits⟩ :=
      replate_ends hx hs page hcaller hstate hset
    obtain ⟨queue, link⟩ := replatePage_queue p s.chip.collect
    have recalled := recallPage_collects p s.chip.collect
    have joined := collects.joins (recalled.collecting.trans rfl)
    have entry (q : PageNo) := replatePage_pages p q s.chip.collect
    refine ⟨t, hstep, hmemory, ended, ?_, fun q hq => ?_, fun hqueued => ?_, fun hsetting hlink => ?_, fun hset => ?_,
      fun n => ⟨fun hn => ⟨?_, ?_, ?_⟩, fun hn => ?_⟩, ?_, awaits _ (joined _ (by simp))⟩
    · simp only [same.pages]
      subst hx
      exact (entry p).trans (if_pos rfl)
    · simp only [same.pages]
      exact (entry q).trans (if_neg (Ne.symm hq))
    · have step := recallPage_queued (c := s.chip.collect) (p := p) (by subst hx; exact hqueued)
      rw [same.outputQueue, same.link, queue, link]
      rw [step] at collects ⊢
      refine ⟨?_, ?_, awaits _ (collects.keeps _ ((Chip.Collects.mark .outputCount _).joins rfl _ List.mem_cons_self))⟩ <;>
        simp only [mark_fields] <;> rfl
    · have step := recallPage_setting (c := s.chip.collect) (p := p) (by subst hx; exact hsetting) hlink
      rw [same.outputQueue, same.link, queue, link, step]
      exact ⟨(withdrawPage_pages p s.chip.collect).2, withdrawPage_link p s.chip.collect⟩
    · have step := recallPage_set (c := s.chip.collect) (p := p) (by subst hx; exact hset)
      rw [same.outputQueue, same.link, queue, link, step]
      exact ⟨rfl, rfl⟩
    · simp only [same.stories]
      exact (story n).trans (if_pos hn)
    · obtain ⟨e, he, rfl⟩ := hn
      simp only [same.desks]
      exact basket e he
    · exact awaits _ (joined _ (List.mem_append_left _ (mem_placed_items.mpr hn)))
    · simp only [same.stories]
      exact (story n).trans (if_neg hn)
    · rw [same.screens]
      exact screens

end Sys2Proof.Machine
end

section
/-! SUPPORT. The frames of a page: the page taken, the words of a TEXT frame read, the frame sent (R163, R171 to R174; O57). -/

namespace Sys2Proof.Machine

section
variable {c d : Chip} {s : State} {p q : PageNo} {rest : List PageNo} {st : LinkState} {stage : Option LinkStage} {w : Word}
  {i j : Nat} {f : Frame} {b : BlockNo}

theorem exec_link (s : State) :
    exec .pageTake s = chipEvent Chip.pageTake s ∧ exec .textWordRead s = ownRead .linkEngine Chip.textWord s ∧
      exec .frameSent s = chipEvent Chip.frameSent s ∧ exec .accept s = chipEvent (Chip.answerWord 1) s ∧
      exec .hold s = chipEvent (Chip.answerWord 2) s ∧
      (∀ w, exec (.reject w) s = chipEvent (Chip.answerWord w) s) ∧ exec .linkPulse s = chipEvent Chip.linkPulse s :=
  ⟨rfl, rfl, rfl, rfl, rfl, fun _ => rfl, rfl⟩

/-! ## The state of the link (R170) -/

/-- A link that stays in its state marks nothing. -/
theorem linkTo_same (h : c.link.state = st) : c.linkTo st stage = c.onLink fun k => { k with state := st, stage := stage } :=
  if_pos h

/-- A link that changes its state marks it. -/
theorem linkTo_other (h : c.link.state ≠ st) :
    c.linkTo st stage = (c.onLink fun k => { k with state := st, stage := stage }).mark .linkState := if_neg h

theorem linkTo_marks (h : c.link.state ≠ st) : .linkState ∈ (c.linkTo st stage).mirror.pending := by
  rw [linkTo_other h]
  exact mark_pends ..

theorem linkTo_grows (st : LinkState) (stage : Option LinkStage) (c : Chip) : Chip.Grows c (c.linkTo st stage) := by
  have moved : Chip.Grows c (c.onLink fun k => { k with state := st, stage := stage }) := .of_same rfl rfl rfl
  unfold Chip.linkTo
  dsimp only
  split
  · exact moved
  · exact moved.trans (.mark _ _)

/-- A frame sent while the link is SENDING moves the link alone. -/
theorem sendFrame_sending {kind : FrameKind} {payload : List Word} (h : c.link.state = .sending) :
    c.sendFrame kind payload = c.onLink fun k => { k with
      frame := some { kind := kind, payload := payload }, state := .sending, stage := some .transmitting } :=
  linkTo_same h

/-! ## The page taken (R163, R174) -/

/-- The part with the head of the output queue SETTING. -/
def Chip.pageTaken (p : PageNo) (rest : List PageNo) (c : Chip) : Chip :=
  ((({ c with outputQueue := rest } : Chip).onPage p fun x => { x with state := .setting }).mark (.page p)).mark .outputCount

/-- The page in hand and its PAGE OPEN built (R171, R172). -/
theorem pageTake_sends (hq : c.outputQueue = p :: rest) (hready : c.link.state = .idle ∧ c.link.offMark = false) :
    c.pageTake = ((c.pageTaken p rest).onLink fun k => { k with
      page := some p, wordsSent := 0, tries := 0, holds := 0
      position := some (if (c.pageTaken p rest).pages[p].placements = [] then .pageClose else .storyOpen 0) }).sendFrame
        .pageOpen ((c.pageTaken p rest).pages[p].openPayload p) := by
  rw [Chip.pageTake, hq]
  exact if_pos hready

theorem pageTaken_self (p : PageNo) (rest : List PageNo) (c : Chip) :
    (c.pageTaken p rest).pages[p] = { c.pages[p] with state := .setting } := by
  simp only [Chip.pageTaken, mark_fields]
  exact onPage_self ..

theorem pageTaken_link (p : PageNo) (rest : List PageNo) (c : Chip) : (c.pageTaken p rest).link = c.link := by
  simp only [Chip.pageTaken, mark_fields, onPage_fields]

theorem pageTaken_pends (p : PageNo) (rest : List PageNo) (c : Chip) :
    .page p ∈ (c.pageTaken p rest).mirror.pending ∧ .outputCount ∈ (c.pageTaken p rest).mirror.pending :=
  ⟨(Chip.Grows.mark _ _).pending _ (mark_pends ..), mark_pends ..⟩

/-- What the page taken leaves of the link and of the mirror writer's list (R171, R174). -/
theorem pageTake_link (hq : c.outputQueue = p :: rest) (hready : c.link.state = .idle ∧ c.link.offMark = false) :
    c.pageTake.link = { c.link with
      state := .sending, stage := some .transmitting, page := some p, wordsSent := 0, tries := 0, holds := 0
      position := some (if c.pages[p].placements = [] then .pageClose else .storyOpen 0)
      frame := some { kind := .pageOpen, payload := c.pages[p].openPayload p } } ∧
    .page p ∈ c.pageTake.mirror.pending ∧ .outputCount ∈ c.pageTake.mirror.pending ∧
    .linkState ∈ c.pageTake.mirror.pending := by
  have link := pageTaken_link p rest c
  obtain ⟨pagePends, countPends⟩ := pageTaken_pends p rest c
  rw [pageTake_sends hq hready, pageTaken_self]
  generalize c.pageTaken p rest = d at link pagePends countPends
  generalize he : (d.onLink fun k => { k with
      page := some p, wordsSent := 0, tries := 0, holds := 0
      position := some (if c.pages[p].placements = [] then .pageClose else .storyOpen 0) }) = e
  have elink : e.link = { c.link with
      page := some p, wordsSent := 0, tries := 0, holds := 0
      position := some (if c.pages[p].placements = [] then .pageClose else .storyOpen 0) } := by rw [← he, ← link]; rfl
  have epending : e.mirror = d.mirror := by rw [← he]; rfl
  have framed : Chip.Grows e (e.onLink fun k => { k with
      frame := some { kind := .pageOpen, payload := c.pages[p].openPayload p } }) := .of_same rfl rfl rfl
  have grows : Chip.Grows e (e.sendFrame .pageOpen (c.pages[p].openPayload p)) := framed.trans (linkTo_grows ..)
  have estate : e.link.state ≠ .sending := by rw [elink]; exact fun h => absurd (hready.1.symm.trans h) nofun
  refine ⟨?_, grows.pending _ (by rw [epending]; exact pagePends), grows.pending _ (by rw [epending]; exact countPends),
    linkTo_marks estate⟩
  refine (sendFrame_link ..).trans ?_
  rw [elink]
  rfl

/-! ## A TEXT frame read (R172, R173 a) -/

theorem copyWord_endOfText (w : Word) : copyWord w = .endOfText ↔ w.extractLsb' 12 4 = 8#4 := by
  refine ⟨fun h => ?_, (copyWord_command w).1⟩
  have other : ∀ v : BitVec 4, v.msb ≠ false → (v.setWidth 3).toNat = 0 → v = 8#4 := by decide
  rw [copyWord_eq] at h
  split at h
  · cases h
  · next hcommand =>
    split at h
    · next hzero => exact other _ hcommand hzero
    all_goals cases h

/-- The part with a word read into its TEXT frame, and the position that follows. -/
def Chip.wordTaken (f : Frame) (next : FramePosition) (w : Word) (c : Chip) : Chip :=
  c.onLink fun k => { k with position := some next, frame := some { f with payload := f.payload ++ [w] } }

/-- The word is the last of its story's text (R172, R173 a). -/
def SettingLink.EndsText (k : SettingLink) (j : Nat) (w : Word) : Prop :=
  w.extractLsb' 12 4 = 8#4 ∨ j + 1 = 128 * k.blocks.length

theorem endsText_iff (k : SettingLink) (j : Nat) (w : Word) :
    (copyWord w = .endOfText ∨ j + 1 = k.blocks.length * Config.blockWords) ↔ k.EndsText j w := by
  unfold SettingLink.EndsText
  rw [copyWord_endOfText, Config.blockWords, Nat.mul_comm]

/-- The read a TEXT frame waits for, and what its word makes of the part (R173 a). -/
theorem textWord_reads (hstage : c.link.stage = some .reading) (hp : c.link.page = some p)
    (hpos : c.link.position = some (.text i j)) (hf : c.link.frame = some f) (hb : c.link.blocks[j / 128]? = some b) :
    ∃ q, c.textWord = some q ∧ q.address = c.path.blockWord b (j % 128) ∧ ∀ w,
      (c.link.EndsText j w →
        q.after w = (c.wordTaken f (positionAfter c.pages[p].placements.length i) w).transmit) ∧
      (¬c.link.EndsText j w →
        q.after w = if f.payload.length = 63 then (c.wordTaken f (.text i (j + 1)) w).transmit
          else c.wordTaken f (.text i (j + 1)) w) := by
  have hb' : c.link.blocks[j / Config.blockWords]? = some b := hb
  unfold Chip.textWord
  simp only [hstage, hp, hpos, hf, hb']
  refine ⟨_, rfl, rfl, fun w => ⟨fun hlast => ?_, fun hmore => ?_⟩⟩
  · have ends := (endsText_iff c.link j w).mpr hlast
    dsimp only
    rw [if_pos (Or.inl ends), if_pos ends]
    rfl
  · have goes := mt (endsText_iff c.link j w).mp hmore
    have length : (f.payload ++ [w]).length = f.payload.length + 1 := List.length_append
    dsimp only
    rw [if_neg goes, length]
    by_cases hfull : f.payload.length = 63
    · rw [if_pos hfull, if_pos (Or.inr (congrArg (· + 1) hfull))]
      rfl
    · rw [if_neg hfull, if_neg fun h => h.elim goes fun h => hfull (Nat.succ.inj h)]
      rfl

/-- A word taken while the link is SENDING, and the frame then sent. -/
theorem wordTaken_sent (h : c.link.state = .sending) (f : Frame) (next : FramePosition) (w : Word) :
    (c.wordTaken f next w).transmit = c.onLink fun k => { k with
      position := some next, frame := some { f with payload := f.payload ++ [w] }, state := .sending
      stage := some .transmitting } := linkTo_same h

/-- What the word of a TEXT frame leaves: the link alone is moved (R172, R173 a). -/
structure Chip.TextRead (p : PageNo) (i j : Nat) (f : Frame) (w : Word) (c d : Chip) : Prop where
  same : d = { c with link := d.link }
  frame : d.link.frame = some { f with payload := f.payload ++ [w] }
  last : c.link.EndsText j w → d.link.stage = some .transmitting ∧
    d.link.position = some (positionAfter c.pages[p].placements.length i)
  more : ¬c.link.EndsText j w → d.link.position = some (.text i (j + 1)) ∧
    d.link.stage = some (if f.payload.length = 63 then .transmitting else .reading)

theorem textRead_of (hstate : c.link.state = .sending) (hstage : c.link.stage = some .reading)
    (hlast : c.link.EndsText j w → d = (c.wordTaken f (positionAfter c.pages[p].placements.length i) w).transmit)
    (hmore : ¬c.link.EndsText j w → d = if f.payload.length = 63 then (c.wordTaken f (.text i (j + 1)) w).transmit
      else c.wordTaken f (.text i (j + 1)) w) : Chip.TextRead p i j f w c d := by
  by_cases hends : c.link.EndsText j w
  · have hd := hlast hends
    rw [wordTaken_sent hstate] at hd
    subst hd
    exact ⟨rfl, rfl, fun _ => ⟨rfl, rfl⟩, fun h => absurd hends h⟩
  · have hd := hmore hends
    by_cases hfull : f.payload.length = 63
    · rw [if_pos hfull, wordTaken_sent hstate] at hd
      subst hd
      exact ⟨rfl, rfl, fun h => absurd h hends, fun _ => ⟨rfl, by rw [if_pos hfull]; rfl⟩⟩
    · rw [if_neg hfull] at hd
      subst hd
      exact ⟨rfl, rfl, fun h => absurd h hends, fun _ => ⟨rfl, by rw [if_neg hfull]; exact hstage⟩⟩

theorem frameSent_sends (hstate : c.link.state = .sending) (hstage : c.link.stage = some .transmitting) :
    c.frameSent = { c with link := { c.link with stage := some .awaiting, answerWait := 0 } } :=
  if_pos ⟨hstate, hstage⟩

end

/-- Settles O57, from the page taken, the word read and the frame sent. -/
theorem framesOfAPageAreSent : Obligations.FramesOfAPageAreSent := by
  unfold Obligations.FramesOfAPageAreSent
  intro s
  obtain ⟨htake, hread, hsent, _⟩ := exec_link s
  rw [htake, hread, hsent]
  refine ⟨fun hr => ⟨fun hwait => chipEvent_unchanged (pageTake_idle ?idle), fun p rest hq hidle hoff => ?taken⟩,
    fun p i j f b base a w hg hstate hstage hp hpos hf hb hbase ha hlt hw => ?read, fun hr hstate hstage => ?sent⟩
  case idle =>
    rintro ⟨hne, hstate, hoff⟩
    rcases hwait with h | h | h
    · exact hne h
    · exact h hstate
    · exact absurd (h.symm.trans hoff) nofun
  case taken =>
    have ready : s.chip.link.state = .idle ∧ s.chip.link.offMark = false := ⟨hidle, hoff⟩
    obtain ⟨queue, _, pages⟩ := pageTake_takes hq ready
    obtain ⟨link, pagePends, countPends, linkPends⟩ := pageTake_link hq ready
    exact ⟨_, chipEvent_released hr, rfl, queue, (pages p).trans (if_pos rfl),
      fun q hne => (pages q).trans (if_neg (Ne.symm hne)), link, pagePends, countPends, linkPends⟩
  case read =>
    subst hw
    obtain ⟨q, hplan, haddress, hafter⟩ := textWord_reads hstage hp hpos hf hb
    obtain ⟨hlast, hmore⟩ := hafter (s.memory.read a)
    have read := textRead_of (p := p) hstate hstage hlast hmore
    have served := ownRead_served hg hplan (haddress.trans (blockWord_at hbase ha)) hlt
    generalize q.after (s.memory.read a) = d at read served
    obtain ⟨same, frame, last, more⟩ := read
    refine ⟨_, served, rfl, ?_, frame, last, more⟩
    rw [same]
    rfl
  case sent =>
    rw [chipEvent_released hr, frameSent_sends hstate hstage]

end Sys2Proof.Machine
end

section
/-! SUPPORT. An ACCEPT of the frame awaited: the next frame of the page, the page completed, the abandon ended (R165, R172,
R175, R178, R183, R184; O58). -/

namespace Sys2Proof.Machine

section
variable {c d : Chip} {s : State} {p q : PageNo} {w : Word} {i j : Nat} {f : Frame} {e : Placement}

theorem chipEvent_becomes {g : Chip → Chip} (hr : s.Released) (h : g s.chip = d) :
    chipEvent g s = .next (s.withChip d) := by rw [chipEvent_released hr, h]

/-! ## The answer awaited (R175) -/

theorem isAwaiting_iff (k : SettingLink) : k.isAwaiting = true ↔ k.state = .sending ∧ k.stage = some .awaiting := by
  simp only [SettingLink.isAwaiting, Bool.and_eq_true, decide_eq_true_eq]

theorem answerWord_discarded (h : ¬(c.link.state = .sending ∧ c.link.stage = some .awaiting)) : c.answerWord w = c :=
  if_neg (mt (isAwaiting_iff c.link).mp h)

theorem answerWord_accept (hstate : c.link.state = .sending) (hstage : c.link.stage = some .awaiting) :
    c.answerWord 1 = c.frameAccepted := by
  rw [Chip.answerWord, if_pos ((isAwaiting_iff _).mpr ⟨hstate, hstage⟩), if_pos rfl]

theorem answerWord_hold (hstate : c.link.state = .sending) (hstage : c.link.stage = some .awaiting) :
    c.answerWord 2 = c.frameHeld := by
  rw [Chip.answerWord, if_pos ((isAwaiting_iff _).mpr ⟨hstate, hstage⟩), if_neg (by decide), if_pos rfl]

theorem answerWord_reject (hstate : c.link.state = .sending) (hstage : c.link.stage = some .awaiting) (h1 : w ≠ 1)
    (h2 : w ≠ 2) : c.answerWord w = c.frameRejected := by
  rw [Chip.answerWord, if_pos ((isAwaiting_iff _).mpr ⟨hstate, hstage⟩), if_neg h1, if_neg h2]

theorem inFlight_free {k : SettingLink} (h : k.abandoning = none) : k.inFlightWithdrawn = false := by
  rw [SettingLink.inFlightWithdrawn, h]
  rfl

theorem inFlight_abandon {k : SettingLink} (hf : k.frame = some f) (h : f.kind = .abandon) : k.inFlightWithdrawn = false := by
  simp only [SettingLink.inFlightWithdrawn, hf, h, ne_eq, not_true_eq_false, decide_false, Bool.and_false]

theorem inFlight_withdrawn {k : SettingLink} (ha : k.abandoning = some p) (hf : k.frame = some f) (h : f.kind ≠ .abandon) :
    k.inFlightWithdrawn = true := by
  simp only [SettingLink.inFlightWithdrawn, ha, hf, ne_eq, h, not_false_eq_true, decide_true, Option.isSome_some,
    Bool.and_self]

/-- The frame accepted, held or refused was the last of a withdrawn page: its ABANDON follows (R183). -/
theorem buildAbandon_sends (hstate : c.link.state = .sending) (ha : c.link.abandoning = some p) :
    c.buildAbandon = { c with link := { c.link with
      stage := some .transmitting, tries := 0, holds := 0
      frame := some { kind := .abandon, payload := [BitVec.ofNat 16 p.number] } } } := by
  have built : c.buildAbandon =
      (c.onLink fun k => { k with tries := 0, holds := 0 }).sendFrame .abandon [wordOf p.number] := by
    rw [Chip.buildAbandon, ha]
  have sent := sendFrame_sending (c := c.onLink fun k => { k with tries := 0, holds := 0 }) (kind := .abandon)
    (payload := [wordOf p.number]) hstate
  rw [built, sent, ← hstate]
  rfl

/-! ## The next frame of the page (R172) -/

/-- A frame of the page follows: the link alone is moved, and its counts stand. -/
structure Chip.NextBuilt (c d : Chip) : Prop where
  same : d = { c with link := d.link }
  tries : d.link.tries = c.link.tries
  holds : d.link.holds = c.link.holds
  wordsSent : d.link.wordsSent = c.link.wordsSent
  state : d.link.state = .sending
  page : d.link.page = c.link.page

theorem buildNext_close (hp : c.link.page = some p) (hstate : c.link.state = .sending)
    (hpos : ∀ i, c.link.position = some (.storyOpen i) → c.pages[p].placements[i]? = none)
    (htext : ∀ i j, c.link.position ≠ some (.text i j)) :
    c.buildNext = c.onLink fun k => { k with
      position := some .pageClose, state := .sending, stage := some .transmitting
      frame := some { kind := .pageClose, payload := [wordOf p.number, wordOf c.link.wordsSent] } } := by
  have sent := sendFrame_sending (c := c.onLink fun k => { k with position := some .pageClose }) (kind := .pageClose)
    (payload := [wordOf p.number, wordOf c.link.wordsSent]) hstate
  unfold Chip.buildNext
  simp only [hp]
  split
  · next i hi =>
    rw [hpos i hi]
    exact sent
  · next i j hij => exact absurd hij (htext i j)
  · exact sent

theorem buildNext_story (hp : c.link.page = some p) (hstate : c.link.state = .sending)
    (hpos : c.link.position = some (.storyOpen i)) (he : c.pages[p].placements[i]? = some e) :
    c.buildNext = c.onLink fun k => { k with
      blocks := c.stories[e.story].blocks
      position := some (if c.stories[e.story].blocks = [] then positionAfter c.pages[p].placements.length i else .text i 0)
      state := .sending, stage := some .transmitting
      frame := some { kind := .storyOpen, payload := storyOpenPayload e c.stories[e.story].style } } := by
  unfold Chip.buildNext
  simp only [hp, hpos, he]
  exact sendFrame_sending (c := c.onLink fun k => { k with
    blocks := c.stories[e.story].blocks
    position := some (if c.stories[e.story].blocks = [] then positionAfter c.pages[p].placements.length i
      else .text i 0) }) hstate

theorem buildNext_text (hp : c.link.page = some p) (hstate : c.link.state = .sending)
    (hpos : c.link.position = some (.text i j)) :
    c.buildNext = c.onLink fun k => { k with
      frame := some { kind := .text, payload := [] }, state := .sending, stage := some .reading } := by
  unfold Chip.buildNext
  simp only [hp, hpos]
  exact linkTo_same (c := c.onLink fun k => { k with frame := some { kind := .text, payload := [] } }) hstate

theorem buildNext_built (hp : c.link.page = some p) (hstate : c.link.state = .sending) : Chip.NextBuilt c c.buildNext := by
  by_cases htext : ∃ i j, c.link.position = some (.text i j)
  · obtain ⟨i, j, hpos⟩ := htext
    rw [buildNext_text hp hstate hpos]
    exact ⟨rfl, rfl, rfl, rfl, rfl, rfl⟩
  have notText : ∀ i j, c.link.position ≠ some (.text i j) := fun i j h => htext ⟨i, j, h⟩
  by_cases hstory : ∃ i e, c.link.position = some (.storyOpen i) ∧ c.pages[p].placements[i]? = some e
  · obtain ⟨i, e, hpos, he⟩ := hstory
    rw [buildNext_story hp hstate hpos he]
    exact ⟨rfl, rfl, rfl, rfl, rfl, rfl⟩
  · have past : ∀ i, c.link.position = some (.storyOpen i) → c.pages[p].placements[i]? = none := fun i hi =>
      Option.eq_none_iff_forall_ne_some.mpr fun e he => hstory ⟨i, e, hi, he⟩
    rw [buildNext_close hp hstate past notText]
    exact ⟨rfl, rfl, rfl, rfl, rfl, rfl⟩

/-! ## The frame accepted (R175) -/

/-- The counts of an accepted frame cleared, the words of it counted. -/
def Chip.cleared (sent : Nat) (c : Chip) : Chip := c.onLink fun k => { k with tries := 0, holds := 0, wordsSent := sent }

theorem frameAccepted_next (hf : c.link.frame = some f) (ha : c.link.abandoning = none)
    (hkind : f.kind = .pageOpen ∨ f.kind = .storyOpen ∨ f.kind = .text) :
    c.frameAccepted =
      (c.cleared (c.link.wordsSent + (if f.kind = .text then f.payload.length else 0))).buildNext := by
  have free : (c.onLink fun k => { k with tries := 0, holds := 0 }).link.inFlightWithdrawn = false := inFlight_free ha
  have frame : (c.onLink fun k => { k with tries := 0, holds := 0 }).link.frame = some f := hf
  unfold Chip.frameAccepted
  dsimp only
  rw [if_neg (ne_true_of_eq_false free), frame]
  rcases hkind with h | h | h <;> simp only [h] <;> rfl

theorem frameAccepted_closes (hf : c.link.frame = some f) (ha : c.link.abandoning = none) (hkind : f.kind = .pageClose) :
    c.frameAccepted = (c.onLink fun k => { k with tries := 0, holds := 0 }).completeLink := by
  have free : (c.onLink fun k => { k with tries := 0, holds := 0 }).link.inFlightWithdrawn = false := inFlight_free ha
  have frame : (c.onLink fun k => { k with tries := 0, holds := 0 }).link.frame = some f := hf
  unfold Chip.frameAccepted
  dsimp only
  rw [if_neg (ne_true_of_eq_false free), frame]
  simp only [hkind]

theorem frameAccepted_abandoned (hf : c.link.frame = some f) (hkind : f.kind = .abandon) :
    c.frameAccepted = (c.onLink fun k => { k with tries := 0, holds := 0 }).endAbandon := by
  have free : (c.onLink fun k => { k with tries := 0, holds := 0 }).link.inFlightWithdrawn = false :=
    inFlight_abandon hf hkind
  have frame : (c.onLink fun k => { k with tries := 0, holds := 0 }).link.frame = some f := hf
  unfold Chip.frameAccepted
  dsimp only
  rw [if_neg (ne_true_of_eq_false free), frame]
  simp only [hkind]

theorem frameAccepted_withdrawn (hstate : c.link.state = .sending) (hf : c.link.frame = some f)
    (ha : c.link.abandoning = some p) (hkind : f.kind ≠ .abandon) :
    c.frameAccepted = { c with link := { c.link with
      stage := some .transmitting, tries := 0, holds := 0
      frame := some { kind := .abandon, payload := [BitVec.ofNat 16 p.number] } } } := by
  have withdrawn : (c.onLink fun k => { k with tries := 0, holds := 0 }).link.inFlightWithdrawn = true :=
    inFlight_withdrawn ha hf hkind
  exact (if_pos withdrawn).trans (buildAbandon_sends (c := c.onLink fun k => { k with tries := 0, holds := 0 }) hstate ha)

/-! ## The page completed (R165, R178) -/

/-- What the completion of the page in hand leaves (R165, R178). -/
structure Chip.Completed (p : PageNo) (c d : Chip) : Prop where
  page : d.pages[p] = { c.pages[p] with state := .set }
  pages : ∀ q : PageNo, q ≠ p → d.pages[q] = c.pages[q]
  queue : d.outputQueue = c.outputQueue
  raw : d.cu.attentionRaw = c.cu.attentionRaw ||| 0x10#8
  pends : .page p ∈ d.mirror.pending
  screens : ∀ w : TerminalNo, d.screens[w] =
    c.toldDesk c.pages[p].desk { kind := .pageSet, subject := p.number, second := none, count := 1 } w

theorem completePage_completed (h : c.pages[p].state = .setting) : Chip.Completed p c (c.completePage p) := by
  have shape : c.completePage p = (((c.onPage p fun x => { x with state := .set }).mark (.page p)).post .pageSet p.number
      none (.desk c.pages[p].desk)).raise .link := if_pos h
  have marked := mark_pends (.page p) (c.onPage p fun x => { x with state := .set })
  rw [shape]
  generalize he : (c.onPage p fun x => { x with state := .set }).mark (.page p) = d at marked
  have fields : d.pages = (c.onPage p fun x => { x with state := .set }).pages ∧ d.outputQueue = c.outputQueue ∧
      d.keys = c.keys ∧ d.screens = c.screens ∧ d.cu.attentionRaw = c.cu.attentionRaw := by
    rw [← he]
    simp only [mark_fields, onPage_fields]
    exact ⟨trivial, trivial, trivial, trivial, trivial⟩
  obtain ⟨pages, queue, keys, screens, raw⟩ := fields
  refine ⟨?_, fun q hq => ?_, ?_, ?_, ?_, fun w => ?_⟩
  · simp only [raise_fields, post_fields, pages]
    exact onPage_self ..
  · simp only [raise_fields, post_fields, pages]
    exact onPage_others _ hq
  · simp only [raise_fields, post_fields, queue]
  · simp only [raise_unit, post_fields, raw]
    rfl
  · exact (Chip.Grows.raise .link _).pending _ (by simp only [post_fields]; exact marked)
  · simp only [raise_fields]
    rw [post_desk]
    exact toldDesk_congr keys screens

theorem completeLink_inHand (hp : c.link.page = some p) :
    c.completeLink = ((c.completePage p).onLink fun k => { k with
      page := none, position := none, wordsSent := 0 }).linkTo .idle none := by
  unfold Chip.completeLink
  rw [hp]

theorem completeLink_completed (hp : c.link.page = some p) (hstate : c.link.state = .sending)
    (h : c.pages[p].state = .setting) : Chip.Completed p c c.completeLink ∧ .linkState ∈ c.completeLink.mirror.pending := by
  obtain ⟨page, pages, queue, raw, pends, screens⟩ := completePage_completed h
  have link := completePage_link p c
  rw [completeLink_inHand hp]
  generalize c.completePage p = d at page pages queue raw pends screens link
  have busy : (d.onLink fun k => { k with page := none, position := none, wordsSent := 0 }).link.state ≠ .idle := by
    show d.link.state ≠ .idle
    rw [link, hstate]
    nofun
  rw [linkTo_other busy]
  have rested : Chip.Grows d ((d.onLink fun k => { k with page := none, position := none, wordsSent := 0 }).onLink fun k =>
      { k with state := .idle, stage := none }) := .of_same rfl rfl rfl
  refine ⟨⟨?_, fun q hq => ?_, ?_, ?_, (rested.trans (.mark .linkState _)).pending _ pends, fun w => ?_⟩, mark_pends ..⟩
  · simp only [mark_fields, onLink_fields]
    exact page
  · simp only [mark_fields, onLink_fields]
    exact pages q hq
  · simp only [mark_fields, onLink_fields]
    exact queue
  · simp only [mark_fields, onLink_fields]
    exact raw
  · simp only [mark_fields, onLink_fields]
    exact screens w

/-! ## The abandon ended (R184 a) -/

theorem endAbandon_ended (hstate : c.link.state = .sending) :
    c.endAbandon.link = { c.link with
      state := if c.link.offMark then .off else .idle
      stage := none, abandoning := none, offMark := false } ∧
    c.endAbandon.pages = c.pages ∧ .linkState ∈ c.endAbandon.mirror.pending := by
  have rests : (c.onLink fun k => { k with abandoning := none, offMark := false }).link.state ≠
      (if c.link.offMark then .off else .idle) := by
    show c.link.state ≠ _
    rw [hstate]
    split <;> nofun
  refine ⟨?_, (does_endAbandon c).frame .pages (by decide), ?_⟩
  · unfold Chip.endAbandon
    exact linkTo_link ..
  · exact linkTo_marks rests

end

/-- Settles O58, from the answers of each frame. -/
theorem acceptsSendTheNextFrame : Obligations.AcceptsSendTheNextFrame := by
  unfold Obligations.AcceptsSendTheNextFrame
  intro s hr
  obtain ⟨_, _, _, haccept, _⟩ := exec_link s
  rw [haccept]
  refine ⟨fun hidle => chipEvent_unchanged (answerWord_discarded hidle), fun f hstate hstage hf => ?_⟩
  have accepted := answerWord_accept hstate hstage
  refine ⟨fun p hp ha hkind sent hsent => ?next, fun p hp ha hkind hsetting => ?closed, fun p hp ha =>
    ⟨fun hkind => ?ended, fun hkind => ?withdrawn⟩⟩
  case next =>
    have step := accepted.trans (frameAccepted_next hf ha hkind)
    rw [← hsent] at step
    have built := buildNext_built (c := s.chip.cleared sent) hp hstate
    obtain ⟨same, tries, holds, words, state, page⟩ := built
    refine ⟨_, chipEvent_becomes hr step, rfl, ?_, tries, holds, words,
      state, page.trans hp, fun i e hpos he => ?_, fun i j hpos => ?_, fun hpos => ?_⟩
    · exact same
    · have story := buildNext_story (c := s.chip.cleared sent) hp hstate hpos he
      dsimp only [State.withChip]
      rw [story]
      exact ⟨rfl, rfl, rfl, fun hne => congrArg Option.some (if_neg hne)⟩
    · have text := buildNext_text (c := s.chip.cleared sent) hp hstate hpos
      dsimp only [State.withChip]
      rw [text]
      exact ⟨rfl, hpos, rfl⟩
    · have close := buildNext_close (c := s.chip.cleared sent) hp hstate (fun i hi => absurd (hpos.symm.trans hi) nofun)
        (fun i j hij => absurd (hpos.symm.trans hij) nofun)
      dsimp only [State.withChip]
      rw [close]
      exact ⟨rfl, rfl⟩
  case closed =>
    have step := accepted.trans (frameAccepted_closes hf ha hkind)
    obtain ⟨⟨page, pages, queue, raw, pends, screens⟩, linkPends⟩ :=
      completeLink_completed (c := s.chip.onLink fun k => { k with tries := 0, holds := 0 }) hp hstate hsetting
    have link := completeLink_link (s.chip.onLink fun k => { k with tries := 0, holds := 0 })
    refine ⟨_, chipEvent_becomes hr step, rfl, page, pages, queue, ?_, ?_,
      ?_, ?_, ?_, raw, pends, linkPends, screens⟩ <;> exact congrArg _ link
  case ended =>
    have step := accepted.trans (frameAccepted_abandoned hf hkind)
    obtain ⟨link, pages, pends⟩ :=
      endAbandon_ended (c := s.chip.onLink fun k => { k with tries := 0, holds := 0 }) hstate
    exact ⟨_, chipEvent_becomes hr step, rfl, link, pages, pends⟩
  case withdrawn =>
    exact chipEvent_becomes hr (accepted.trans (frameAccepted_withdrawn hstate hf ha hkind))

end Sys2Proof.Machine
end

section
/-! SUPPORT. Holds, failures, timeouts and faults of a frame (R164, R176, R177, R179, R183, R184; O59). -/

namespace Sys2Proof.Machine

section
variable {c d : Chip} {s : State} {p q : PageNo} {w : TerminalNo} {v : Word} {f : Frame} {front back : List PageNo}

/-! ## The link in FAULT (R179) -/

/-- What a notice for every SLOT terminal leaves of a screen (R61). -/
def Chip.toldSlots (c : Chip) (k : Notice) (w : TerminalNo) : Screen :=
  match c.session w with
  | some z => if z.clearance = .slot then c.screens[w].enter k else c.screens[w]
  | none => c.screens[w]

theorem post_everySlot (k : NoticeKind) (j : Nat) (x : Option Nat) (c : Chip) (w : TerminalNo) :
    (c.post k j x .everySlot).screens[w] = c.toldSlots { kind := k, subject := j, second := x, count := 1 } w := by
  rw [post_screens, Chip.toldSlots]
  cases hz : c.session w with
  | none =>
    obtain ⟨_, _, _, every⟩ := receives_signedOff hz
    rw [every, if_neg Bool.false_ne_true]
  | some z =>
    obtain ⟨_, _, _, every⟩ := receives_signedOn hz
    simp only [every, decide_eq_true_eq]

theorem toldSlots_congr {k : Notice} (hkeys : d.keys = c.keys) (hscreens : d.screens = c.screens) :
    d.toldSlots k w = c.toldSlots k w := by
  unfold Chip.toldSlots Chip.session
  simp only [hkeys, hscreens]

/-- The part with LINK FAULT posted for a page, the cause raised and the link emptied into FAULT (R179). -/
def Chip.faultOf (p : PageNo) (c : Chip) : Chip :=
  (((c.post .linkFault p.number none .everySlot).raise .link).onLink fun k =>
    { k with page := none, abandoning := none, offMark := false, position := none, frame := none, tries := 0,
             holds := 0, answerWait := 0, wordsSent := 0 }).linkTo .fault none

theorem linkFault_inHand (hp : c.link.page = some p) : c.linkFault = (c.giveBack p).faultOf p := by
  unfold Chip.linkFault
  rw [hp]
  rfl

theorem linkFault_abandoning (hp : c.link.page = none) (ha : c.link.abandoning = some p) :
    c.linkFault = c.faultOf p := by
  unfold Chip.linkFault
  rw [hp, ha]
  rfl

/-- What the fault leaves besides the link's own fields. -/
structure Chip.FaultLeft (p : PageNo) (c d : Chip) : Prop where
  pages : d.pages = c.pages
  queue : d.outputQueue = c.outputQueue
  raw : d.cu.attentionRaw = c.cu.attentionRaw ||| 0x10#8
  screens : ∀ w : TerminalNo, d.screens[w] =
    c.toldSlots { kind := .linkFault, subject := p.number, second := none, count := 1 } w
  pending : ∀ i ∈ c.mirror.pending, i ∈ d.mirror.pending
  marked : .linkState ∈ d.mirror.pending

theorem faultOf_left (p : PageNo) (hstate : c.link.state ≠ .fault) : Chip.FaultLeft p c (c.faultOf p) := by
  have posted : Chip.Grows c ((c.post .linkFault p.number none .everySlot).raise .link) :=
    (Chip.Grows.post ..).trans (.raise ..)
  have screens (w : TerminalNo) := post_everySlot .linkFault p.number none c w
  have fields : ((c.post .linkFault p.number none .everySlot).raise .link).pages = c.pages ∧
      ((c.post .linkFault p.number none .everySlot).raise .link).outputQueue = c.outputQueue ∧
      ((c.post .linkFault p.number none .everySlot).raise .link).cu.attentionRaw = c.cu.attentionRaw ||| 0x10#8 ∧
      ((c.post .linkFault p.number none .everySlot).raise .link).screens =
        (c.post .linkFault p.number none .everySlot).screens ∧
      ((c.post .linkFault p.number none .everySlot).raise .link).link = c.link := by
    simp only [raise_fields, raise_unit, post_fields]
    exact ⟨trivial, trivial, rfl, trivial, trivial⟩
  unfold Chip.faultOf
  generalize (c.post .linkFault p.number none .everySlot).raise .link = d at posted fields
  obtain ⟨pages, queue, raw, told, link⟩ := fields
  have busy : (d.onLink fun k =>
      { k with page := none, abandoning := none, offMark := false, position := none, frame := none, tries := 0,
               holds := 0, answerWait := 0, wordsSent := 0 }).link.state ≠ .fault := by
    show d.link.state ≠ .fault
    rw [link]
    exact hstate
  have emptied : Chip.Grows d (d.onLink fun k =>
      { k with page := none, abandoning := none, offMark := false, position := none, frame := none, tries := 0,
               holds := 0, answerWait := 0, wordsSent := 0 }) := .of_same rfl rfl rfl
  have grows := emptied.trans (linkTo_grows .fault none _)
  refine ⟨?_, ?_, ?_, fun w => ?_, fun i hi => grows.pending i (posted.pending i hi), linkTo_marks busy⟩
  · rw [linkTo_other busy]
    simp only [mark_fields, onLink_fields, pages]
  · rw [linkTo_other busy]
    simp only [mark_fields, onLink_fields, queue]
  · rw [linkTo_other busy]
    simp only [mark_fields, onLink_fields, raw]
  · rw [linkTo_other busy]
    simp only [mark_fields, onLink_fields, told]
    exact screens w

/-! ## The page in hand given back (R164) -/

theorem giveBack_head (hq : c.outputQueue = front ++ back) (hf : ∀ q ∈ front, 1 < c.pages[q].plates.toNat)
    (hb : ∀ q ∈ back, c.pages[q].plates.toNat ≤ 1) :
    (c.giveBack p).outputQueue = if 1 < c.pages[p].plates.toNat then p :: (front ++ back) else front ++ p :: back := by
  have kept (q : PageNo) : (c.onPage p fun x => { x with state := .queued }).replateClass q =
      decide (1 < c.pages[q].plates.toNat) := by
    rw [replateClass_onState]
    rfl
  rw [giveBack_queue, queueHead_queue (c := c.onPage p fun x => { x with state := .queued }) hq
    (fun q hq => (kept q).trans (decide_eq_true (hf q hq)))
    (fun q hq => (kept q).trans (decide_eq_false (Nat.not_lt.mpr (hb q hq)))), kept]
  simp only [decide_eq_true_eq]

theorem giveBack_fields (p : PageNo) (c : Chip) :
    (c.giveBack p).keys = c.keys ∧ (c.giveBack p).screens = c.screens ∧
      (c.giveBack p).cu.attentionRaw = c.cu.attentionRaw := by
  simp only [Chip.giveBack, mark_fields]
  exact ⟨rfl, rfl, rfl⟩

theorem giveBack_pends (p : PageNo) (c : Chip) :
    .page p ∈ (c.giveBack p).mirror.pending ∧ .outputCount ∈ (c.giveBack p).mirror.pending := by
  unfold Chip.giveBack
  exact ⟨(Chip.Grows.mark _ _).pending _ (mark_pends ..), mark_pends ..⟩

theorem linkFault_givesBack (hp : c.link.page = some p) (hstate : c.link.state ≠ .fault) :
    c.LinkFaultGivesBack p c.linkFault := by
  have left := faultOf_left (c := c.giveBack p) p (by rw [giveBack_link]; exact hstate)
  rw [← linkFault_inHand hp] at left
  obtain ⟨pages, queue, raw, screens, pending, marked⟩ := left
  obtain ⟨keys, shown, before⟩ := giveBack_fields p c
  obtain ⟨pagePends, countPends⟩ := giveBack_pends p c
  refine ⟨?_, fun q hq => ?_, fun front back hq hf hb => queue.trans (giveBack_head hq hf hb),
    ⟨linkFault_link c, raw.trans (by rw [before]), fun w => (screens w).trans (toldSlots_congr keys shown), marked⟩,
    pending _ pagePends, pending _ countPends⟩
  · simp only [pages]
    exact (giveBack_pages p p c).trans (if_pos rfl)
  · simp only [pages]
    exact (giveBack_pages p q c).trans (if_neg (Ne.symm hq))

theorem linkFault_abandons (hp : c.link.page = none) (ha : c.link.abandoning = some p) (hstate : c.link.state ≠ .fault) :
    c.LinkFaultAbandons p c.linkFault := by
  have left := faultOf_left p hstate
  rw [← linkFault_abandoning hp ha] at left
  obtain ⟨pages, queue, raw, screens, _, marked⟩ := left
  exact ⟨⟨linkFault_link c, raw, screens, marked⟩, pages, queue⟩

/-- The fault is told by the part that the failure found. -/
theorem linkFaultGivesBack_holds (h : (c.onLink fun k => { k with holds := 0 }).LinkFaultGivesBack p d) :
    c.LinkFaultGivesBack p d := h

theorem linkFaultAbandons_holds (h : (c.onLink fun k => { k with holds := 0 }).LinkFaultAbandons p d) :
    c.LinkFaultAbandons p d := h

/-! ## Failures and holds (R176, R177) -/

theorem frameRejected_fails (h : c.link.inFlightWithdrawn = false) : c.frameRejected = c.frameFailed :=
  if_neg (ne_true_of_eq_false h)

theorem frameFailed_again (hstate : c.link.state = .sending) (h : c.link.tries < 2) :
    c.frameFailed = { c with link := { c.link with
      stage := some .transmitting, holds := 0, tries := c.link.tries + 1 } } := by
  have shape : c.frameFailed = ((c.onLink fun k => { k with holds := 0 }).onLink fun k =>
      { k with tries := k.tries + 1 }).transmit := if_pos h
  have sent := linkTo_same (stage := some .transmitting)
    (c := (c.onLink fun k => { k with holds := 0 }).onLink fun k => { k with tries := k.tries + 1 }) hstate
  rw [shape, Chip.transmit, sent, ← hstate]
  rfl

theorem frameFailed_faults (h : c.link.tries = 2) :
    c.frameFailed = (c.onLink fun k => { k with holds := 0 }).linkFault := by
  have third : ¬(c.onLink fun k => { k with holds := 0 }).link.tries < 2 := by
    show ¬c.link.tries < 2
    omega
  exact if_neg third

theorem frameHeld_holds (h : c.link.inFlightWithdrawn = false) : c.frameHeld = c.linkTo .holding none :=
  if_neg (ne_true_of_eq_false h)

theorem linkTo_pages (st : LinkState) (stage : Option LinkStage) (c : Chip) : (c.linkTo st stage).pages = c.pages :=
  (does_linkTo st stage c).frame .pages (by decide)

/-! ## The pulses at the link (R176, R177) -/

theorem exec_linkPulses (s : State) :
    exec .frameTimeout s = chipEvent (fun c => if c.link.timesOut then c.linkPulse else c) s ∧
      exec .holdWaitEnd s = chipEvent (fun c => if c.link.holdEnds then c.linkPulse else c) s ∧
      exec .holdLimitExceeded s = chipEvent (fun c => if c.link.holdTooLong then c.linkPulse else c) s := ⟨rfl, rfl, rfl⟩

/-- A row that is the link's pulse when it is due, and otherwise nothing (log 7). -/
theorem dueLinkPulse {due : SettingLink → Bool} (hr : s.Released) :
    (due s.chip.link = true → s.chip.linkPulse = d →
      chipEvent (fun c => if due c.link then c.linkPulse else c) s = .next (s.withChip d)) ∧
    (due s.chip.link = false → chipEvent (fun c => if due c.link then c.linkPulse else c) s = .next s) :=
  ⟨fun h hd => chipEvent_becomes hr ((if_pos h).trans hd),
    fun h => chipEvent_unchanged (if_neg (ne_true_of_eq_false h))⟩

theorem timesOut_eq {k : SettingLink} (hstate : k.state = .sending) (hstage : k.stage = some .awaiting) :
    k.timesOut = decide (2 ≤ k.answerWait + 1) := by
  rw [SettingLink.timesOut, (isAwaiting_iff k).mpr ⟨hstate, hstage⟩, Bool.true_and]

theorem notAwaiting {k : SettingLink} (h : k.state ≠ .sending) : k.isAwaiting = false ∧ k.timesOut = false := by
  have idle : k.isAwaiting = false := Bool.eq_false_iff.mpr fun hk => h ((isAwaiting_iff k).mp hk).1
  exact ⟨idle, by rw [SettingLink.timesOut, idle, Bool.false_and]⟩

theorem linkPulse_waits (hstate : c.link.state = .sending) (hstage : c.link.stage = some .awaiting)
    (h : c.link.answerWait = 0) :
    c.link.timesOut = false ∧ c.linkPulse = { c with link := { c.link with answerWait := 1 } } := by
  have early : c.link.timesOut = false := by rw [timesOut_eq hstate hstage, h]; rfl
  refine ⟨early, ?_⟩
  unfold Chip.linkPulse
  rw [if_neg (ne_true_of_eq_false early), if_pos ((isAwaiting_iff _).mpr ⟨hstate, hstage⟩)]
  show ({ c with link := { c.link with answerWait := c.link.answerWait + 1 } } : Chip) = _
  rw [h]

theorem linkPulse_timesOut (hstate : c.link.state = .sending) (hstage : c.link.stage = some .awaiting)
    (h : c.link.answerWait = 1) : c.link.timesOut = true ∧ c.linkPulse = c.frameRejected := by
  have late : c.link.timesOut = true := by rw [timesOut_eq hstate hstage, h]; rfl
  exact ⟨late, if_pos late⟩

theorem holdEnds_eq {k : SettingLink} (h : k.state = .holding) : k.holdEnds = decide (k.holds + 1 ≤ k.holdLimit) := by
  rw [SettingLink.holdEnds, decide_eq_true h, Bool.true_and]

theorem holdTooLong_eq {k : SettingLink} (h : k.state = .holding) : k.holdTooLong = decide (k.holdLimit < k.holds + 1) := by
  rw [SettingLink.holdTooLong, decide_eq_true h, Bool.true_and]

theorem linkPulse_holding (hstate : c.link.state = .holding) :
    c.linkPulse = if c.link.holdEnds then (c.onLink fun k => { k with holds := k.holds + 1 }).transmit
      else if c.link.holdTooLong then c.linkFault else c := by
  obtain ⟨awaiting, out⟩ := notAwaiting (k := c.link) (by rw [hstate]; nofun)
  unfold Chip.linkPulse
  rw [if_neg (ne_true_of_eq_false out), if_neg (ne_true_of_eq_false awaiting)]

/-- A hold that ends sends the frame again (R177 b). -/
theorem linkPulse_resends (hstate : c.link.state = .holding) (h : c.link.holds + 1 ≤ c.link.holdLimit) :
    c.linkPulse.link = { c.link with state := .sending, stage := some .transmitting, holds := c.link.holds + 1 } ∧
      .linkState ∈ c.linkPulse.mirror.pending := by
  have held : (c.onLink fun k => { k with holds := k.holds + 1 }).link.state ≠ .sending := by
    show c.link.state ≠ .sending
    rw [hstate]
    nofun
  rw [linkPulse_holding hstate, if_pos (by rw [holdEnds_eq hstate]; exact decide_eq_true h)]
  exact ⟨transmit_link _, linkTo_marks held⟩

theorem linkPulse_faults (hstate : c.link.state = .holding) (h : c.link.holdLimit < c.link.holds + 1) :
    c.linkPulse = c.linkFault := by
  rw [linkPulse_holding hstate,
    if_neg (by rw [holdEnds_eq hstate]; exact ne_true_of_eq_false (decide_eq_false (Nat.not_le.mpr h))),
    if_pos (by rw [holdTooLong_eq hstate]; exact decide_eq_true h)]

theorem linkPulse_resting (h : c.link.state ≠ .sending) (hh : c.link.state ≠ .holding) : c.linkPulse = c := by
  obtain ⟨awaiting, out⟩ := notAwaiting h
  have ends : c.link.holdEnds = false := by rw [SettingLink.holdEnds, decide_eq_false hh, Bool.false_and]
  have long : c.link.holdTooLong = false := by rw [SettingLink.holdTooLong, decide_eq_false hh, Bool.false_and]
  unfold Chip.linkPulse
  rw [if_neg (ne_true_of_eq_false out), if_neg (ne_true_of_eq_false awaiting), if_neg (ne_true_of_eq_false ends),
    if_neg (ne_true_of_eq_false long)]

/-! ## The answers and the pulse that fail a frame (R176) -/

/-- What fails the frame awaited: an answer that neither accepts nor holds, or the second pulse. -/
def State.Fails (s : State) (i : Instr) : Prop :=
  (∃ v : Word, v ≠ 1 ∧ v ≠ 2 ∧ i = .reject v) ∨ (s.chip.link.answerWait = 1 ∧ (i = .linkPulse ∨ i = .frameTimeout))

theorem fails_rejects {i : Instr} (hr : s.Released) (hstate : s.chip.link.state = .sending)
    (hstage : s.chip.link.stage = some .awaiting) (h : s.Fails i) (hd : s.chip.frameRejected = d) :
    exec i s = .next (s.withChip d) := by
  obtain ⟨_, _, _, _, _, hreject, hpulse⟩ := exec_link s
  obtain ⟨htimeout, _⟩ := exec_linkPulses s
  rcases h with ⟨v, h1, h2, rfl⟩ | ⟨hwait, rfl | rfl⟩
  · exact (hreject v).trans (chipEvent_becomes hr ((answerWord_reject hstate hstage h1 h2).trans hd))
  · exact hpulse.trans (chipEvent_becomes hr ((linkPulse_timesOut hstate hstage hwait).2.trans hd))
  · obtain ⟨late, pulse⟩ := linkPulse_timesOut hstate hstage hwait
    exact htimeout.trans ((dueLinkPulse (due := SettingLink.timesOut) hr).1 late (pulse.trans hd))

end

/-- Settles O59, from the failures and holds of each stage. -/
theorem failuresAndHoldsOfAFrame : Obligations.FailuresAndHoldsOfAFrame := by
  unfold Obligations.FailuresAndHoldsOfAFrame
  intro s again hr
  obtain ⟨_, _, _, _, hhold, hreject, hpulse⟩ := exec_link s
  obtain ⟨htimeout, hwaitEnd, hexceeded⟩ := exec_linkPulses s
  refine ⟨fun hstate hstage => ⟨fun hfirst => ?first, fun hkeeps => ?kept, fun p f next ha hf hkind hnext => ?withdrawn⟩,
    fun hstate => ⟨fun hlimit => ?resent, fun p hlimit => ?exceeded⟩, fun hrest => ?resting⟩
  case first =>
    obtain ⟨early, pulse⟩ := linkPulse_waits hstate hstage hfirst
    exact ⟨hpulse.trans (chipEvent_becomes hr pulse),
      htimeout.trans ((dueLinkPulse (d := s.chip) (due := SettingLink.timesOut) hr).2 early)⟩
  case kept =>
    have free : s.chip.link.inFlightWithdrawn = false := by
      rcases hkeeps with ha | ⟨f, hf, hkind⟩
      · exact inFlight_free ha
      · exact inFlight_abandon hf hkind
    have failed := frameRejected_fails free
    refine ⟨?_, fun hagain htries => ?_, fun p i htries hi => ?_⟩
    · have busy : s.chip.link.state ≠ .holding := by rw [hstate]; nofun
      exact ⟨_, hhold.trans (chipEvent_becomes hr ((answerWord_hold hstate hstage).trans (frameHeld_holds free))), rfl,
        linkTo_link .., linkTo_marks busy, linkTo_pages ..⟩
    · subst hagain
      have fails {i : Instr} (hi : s.Fails i) :=
        fails_rejects hr hstate hstage hi (failed.trans (frameFailed_again hstate htries))
      exact ⟨fun v h1 h2 => fails (Or.inl ⟨v, h1, h2, rfl⟩),
        fun hwait => ⟨fails (Or.inr ⟨hwait, Or.inl rfl⟩), fails (Or.inr ⟨hwait, Or.inr rfl⟩)⟩⟩
    · have busy : s.chip.link.state ≠ .fault := by rw [hstate]; nofun
      have fails := fails_rejects hr hstate hstage hi (failed.trans (frameFailed_faults htries))
      exact ⟨fun hp => ⟨_, fails, rfl, linkFaultGivesBack_holds (linkFault_givesBack hp busy)⟩,
        fun hp ha => ⟨_, fails, rfl, linkFaultAbandons_holds (linkFault_abandons hp ha busy)⟩⟩
  case withdrawn =>
    subst hnext
    have flight := inFlight_withdrawn ha hf hkind
    have built := buildAbandon_sends hstate ha
    have fails {i : Instr} (hi : s.Fails i) := fails_rejects hr hstate hstage hi ((if_pos flight).trans built)
    exact ⟨hhold.trans (chipEvent_becomes hr ((answerWord_hold hstate hstage).trans ((if_pos flight).trans built))),
      fun v h1 h2 => fails (Or.inl ⟨v, h1, h2, rfl⟩),
      fun hwait => ⟨fails (Or.inr ⟨hwait, Or.inl rfl⟩), fails (Or.inr ⟨hwait, Or.inr rfl⟩)⟩⟩
  case resent =>
    have due : s.chip.link.holdEnds = true := by rw [holdEnds_eq hstate]; exact decide_eq_true hlimit
    have within : s.chip.link.holdTooLong = false := by
      rw [holdTooLong_eq hstate]
      exact decide_eq_false (Nat.not_lt.mpr hlimit)
    obtain ⟨link, marked⟩ := linkPulse_resends hstate hlimit
    exact ⟨_, hwaitEnd.trans ((dueLinkPulse (due := SettingLink.holdEnds) hr).1 due rfl),
      hpulse.trans (chipEvent_becomes hr rfl), rfl, link, marked,
      hexceeded.trans ((dueLinkPulse (d := s.chip) (due := SettingLink.holdTooLong) hr).2 within)⟩
  case exceeded =>
    have due : s.chip.link.holdTooLong = true := by rw [holdTooLong_eq hstate]; exact decide_eq_true hlimit
    have busy : s.chip.link.state ≠ .fault := by rw [hstate]; nofun
    have faults := linkPulse_faults hstate hlimit
    have exceeds := hexceeded.trans ((dueLinkPulse (due := SettingLink.holdTooLong) hr).1 due faults)
    have pulses := hpulse.trans (chipEvent_becomes hr faults)
    exact ⟨fun hp => ⟨_, exceeds, pulses, rfl, linkFault_givesBack hp busy⟩,
      fun hp ha => ⟨_, exceeds, pulses, rfl, linkFault_abandons hp ha busy⟩⟩
  case resting =>
    have state : s.chip.link.state ≠ .sending ∧ s.chip.link.state ≠ .holding := by
      rcases hrest with h | h | h <;> rw [h] <;> exact ⟨nofun, nofun⟩
    obtain ⟨sending, holding⟩ := state
    have discarded (v : Word) : s.chip.answerWord v = s.chip := answerWord_discarded fun h => sending h.1
    exact ⟨hpulse.trans (chipEvent_unchanged (linkPulse_resting sending holding)),
      hhold.trans (chipEvent_unchanged (discarded 2)), fun v => (hreject v).trans (chipEvent_unchanged (discarded v))⟩

end Sys2Proof.Machine
end

section
/-! SUPPORT. The three link commands (R164, R180 to R183; O60). -/

namespace Sys2Proof.Machine

section
variable {c d : Chip} {s : State} {p q : PageNo} {st : LinkState}

theorem exec_linkCommands (s : State) :
    exec .linkOn s = takeCommand 30 Chip.linkOn s ∧ exec .linkOff s = takeCommand 31 Chip.linkOff s ∧
      exec .linkResume s = takeCommand 32 Chip.linkResume s := ⟨rfl, rfl, rfl⟩

/-! ## The answers (R180 to R182) -/

theorem linkOn_answers (h : c.cu.context = .system) :
    c.linkOn = if c.link.state = .off then .done (c.linkTo .idle none) [] else .refuse .wrongState := by
  rw [Chip.linkOn, callerFault_systemOnly_system h]

theorem linkResume_answers (h : c.cu.context = .system) :
    c.linkResume = if c.link.state = .fault then .done (c.linkTo .idle none) [] else .refuse .wrongState := by
  rw [Chip.linkResume, callerFault_systemOnly_system h]

theorem linkOff_marked (h : c.cu.context = .system) (hoff : c.link.offMark = true) : c.linkOff = .refuse .wrongState := by
  rw [Chip.linkOff, callerFault_systemOnly_system h]
  exact if_pos hoff

theorem linkOff_unmarked (h : c.cu.context = .system) (hoff : c.link.offMark = false) :
    (c.link.state = .off → c.linkOff = .refuse .wrongState) ∧
    (c.link.state = .idle ∨ c.link.state = .fault → c.linkOff = .done (c.linkTo .off none) []) ∧
    (c.link.state = .sending ∨ c.link.state = .holding → c.linkOff = .done c.turnLinkOff []) := by
  rw [Chip.linkOff, callerFault_systemOnly_system h]
  refine ⟨fun hs => ?_, fun hs => ?_, fun hs => ?_⟩
  · simp only [hoff, hs, Bool.false_eq_true, if_false]
  · rcases hs with hs | hs <;> simp only [hoff, hs, Bool.false_eq_true, if_false]
  · rcases hs with hs | hs <;> simp only [hoff, hs, Bool.false_eq_true, if_false]

theorem linkOff_refused (h : c.cu.context = .system) (hs : c.link.offMark = true ∨ c.link.state = .off) :
    c.linkOff = .refuse .wrongState := by
  cases hoff : c.link.offMark with
  | true => exact linkOff_marked h hoff
  | false =>
    have off := hs.resolve_left (ne_true_of_eq_false hoff)
    exact (linkOff_unmarked h hoff).1 off

/-- A command that brings the link to rest in another state. -/
theorem linkTo_ends {k : Nat} {body : Chip → Reply} (hs : s.Serves k)
    (hb : body s.chip.collect = .done (s.chip.collect.linkTo st none) []) (hstate : s.chip.link.state ≠ st) :
    ∃ t, takeCommand k body s = .next t ∧ t.memory = s.memory ∧ t.chip.Ended .ok [] ∧
      t.chip.link = { s.chip.link with state := st, stage := none } ∧
      t.chip.cu.waitSet.map (·.item) = [.linkState] := by
  obtain ⟨t, hstep, hmemory, ended, same, cu⟩ := command_ends hs hb
  refine ⟨t, hstep, hmemory, ended, ?_, ?_⟩
  · rw [same.link]
    exact linkTo_link ..
  · rw [cu, linkTo_other (c := s.chip.collect) hstate]
    exact mark_waits .linkState rfl rfl

/-! ## The page in hand withdrawn (R182, R183) -/

theorem turnLinkOff_idle (hp : c.link.page = none) : c.turnLinkOff = c.onLink fun k => { k with offMark := true } := by
  rw [Chip.turnLinkOff, hp]

theorem turnLinkOff_inHand (hp : c.link.page = some p) :
    c.turnLinkOff = ((c.giveBack p).withdrawPage p).onLink fun k => { k with offMark := true } := by
  rw [Chip.turnLinkOff, hp]

theorem withdrawPage_later (h : c.link.state ≠ .holding) (hstage : c.link.stage ≠ some .reading) :
    c.withdrawPage p = c.onLink fun k => { k with page := none, abandoning := some p, position := none } :=
  if_neg fun hs => hs.elim h hstage

theorem withdrawPage_now (h : c.link.state = .holding ∨ c.link.stage = some .reading) :
    c.withdrawPage p = ((c.onLink fun k => { k with page := none, abandoning := some p, position := none }).onLink fun k =>
      { k with tries := 0, holds := 0 }).sendFrame .abandon [wordOf p.number] := if_pos h

/-- A link with no page in hand that holds no frame and reads none stays SENDING; any other sends the ABANDON at once. -/
theorem withdrawPage_state (h : c.link.state = .sending ∨ c.link.state = .holding) :
    (c.withdrawPage p).link.state = .sending ∧
      (c.link.state = .holding ∨ c.link.stage = some .reading → (c.withdrawPage p).link.stage = some .transmitting ∧
        (c.withdrawPage p).link.frame = some { kind := .abandon, payload := [BitVec.ofNat 16 p.number] }) := by
  by_cases hnow : c.link.state = .holding ∨ c.link.stage = some .reading
  · rw [withdrawPage_now hnow, sendFrame_link]
    exact ⟨rfl, fun _ => ⟨rfl, rfl⟩⟩
  · obtain ⟨notHolding, notReading⟩ := not_or.mp hnow
    rw [withdrawPage_later notHolding notReading]
    exact ⟨h.resolve_right notHolding, fun hs => absurd hs hnow⟩

theorem giveBack_collects (p : PageNo) (c : Chip) : Chip.Collects [.page p, .outputCount] c (c.giveBack p) := by
  have queued : Chip.Collects [] c ((c.onPage p fun x => { x with state := .queued }).queueHead p) := .of_cu rfl
  exact (queued.trans (.mark (.page p) _)).trans (.mark .outputCount _)

theorem mem_giveBack (p : PageNo) (c : Chip) : p ∈ (c.giveBack p).outputQueue := by
  rw [giveBack_queue]
  unfold Chip.queueHead
  dsimp only
  split
  · exact List.mem_cons_self
  · exact List.mem_append_right _ List.mem_cons_self

/-- What LINK OFF leaves of a link with a page in hand (R164, R182, R183). -/
structure Chip.TurnedOff (p : PageNo) (c d : Chip) : Prop where
  page : d.pages[p] = { c.pages[p] with state := .queued }
  pages : ∀ q : PageNo, q ≠ p → d.pages[q] = c.pages[q]
  queue : p ∈ d.outputQueue
  state : d.link.state = .sending
  inHand : d.link.page = none
  abandoning : d.link.abandoning = some p
  offMark : d.link.offMark = true
  collects : Chip.Collects [.page p, .outputCount] c d
  sends : c.link.state = .holding ∨ c.link.stage = some .reading → d.link.stage = some .transmitting ∧
    d.link.frame = some { kind := .abandon, payload := [BitVec.ofNat 16 p.number] }

theorem turnLinkOff_turnedOff (hp : c.link.page = some p) (hstate : c.link.state = .sending ∨ c.link.state = .holding) :
    Chip.TurnedOff p c c.turnLinkOff := by
  have page (q : PageNo) := giveBack_pages p q c
  have queue := mem_giveBack p c
  have link := giveBack_link p c
  have given := giveBack_collects p c
  rw [turnLinkOff_inHand hp]
  generalize c.giveBack p = d at page queue link given
  obtain ⟨pages, outputQueue⟩ := withdrawPage_pages p d
  obtain ⟨inHand, abandoning, _⟩ := withdrawPage_link p d
  obtain ⟨state, sends⟩ := withdrawPage_state (c := d) (p := p) (by rw [link]; exact hstate)
  rw [link] at sends
  have withdrawn := (given.trans (withdrawPage_collects p d)).thenSame
    (e := (d.withdrawPage p).onLink fun k => { k with offMark := true }) rfl
  refine ⟨?_, fun q hq => ?_, ?_, state, inHand, abandoning, rfl, withdrawn, sends⟩
  · simp only [onLink_fields, pages]
    exact (page p).trans (if_pos rfl)
  · simp only [onLink_fields, pages]
    exact (page q).trans (if_neg (Ne.symm hq))
  · simp only [onLink_fields, outputQueue]
    exact queue

end

/-- Settles O60, from the answers and the withdrawal of the page in hand. -/
theorem linkCommandsChangeTheLink : Obligations.LinkCommandsChangeTheLink := by
  unfold Obligations.LinkCommandsChangeTheLink
  intro s hsystem
  obtain ⟨hon, hoff, hresume⟩ := exec_linkCommands s
  rw [hon, hoff, hresume]
  have caller : s.chip.collect.cu.context = .system := hsystem
  refine ⟨fun hs => ⟨fun hstate => ?onRefused, fun hstate => ?on⟩, fun hs => ⟨fun hstate => ?resumeRefused, fun hstate =>
    ?resume⟩, fun hs => ⟨fun hstate => ?offRefused, fun hmark hstate => ?rested, fun hmark hstate =>
    ⟨fun p hp => ?inHand, fun hp => ?idle⟩⟩⟩
  case onRefused => exact takeCommand_refused hs ((linkOn_answers caller).trans (if_neg hstate))
  case on => exact linkTo_ends hs ((linkOn_answers caller).trans (if_pos hstate)) (by rw [hstate]; nofun)
  case resumeRefused => exact takeCommand_refused hs ((linkResume_answers caller).trans (if_neg hstate))
  case resume => exact linkTo_ends hs ((linkResume_answers caller).trans (if_pos hstate)) (by rw [hstate]; nofun)
  case offRefused => exact takeCommand_refused hs (linkOff_refused caller hstate)
  case rested =>
    have other : s.chip.link.state ≠ .off := by rcases hstate with h | h <;> rw [h] <;> nofun
    exact linkTo_ends hs ((linkOff_unmarked caller hmark).2.1 hstate) other
  case inHand =>
    obtain ⟨t, hstep, hmemory, ended, same, cu⟩ := command_ends hs ((linkOff_unmarked caller hmark).2.2 hstate)
    obtain ⟨page, pages, queue, state, inHand, abandoning, offMark, collects, sends⟩ :=
      turnLinkOff_turnedOff (c := s.chip.collect) hp hstate
    refine ⟨t, hstep, hmemory, ended, ?_, fun q hq => ?_, ?_, ?_, ?_, ?_, ?_,
      awaits_endAction cu (collects.joins rfl _ List.mem_cons_self),
      awaits_endAction cu (collects.joins rfl _ (List.mem_cons_of_mem _ List.mem_cons_self)), ?_⟩
    · simp only [same.pages]
      exact page
    · simp only [same.pages]
      exact pages q hq
    · rw [same.outputQueue]
      exact queue
    · rw [same.link]
      exact state
    · rw [same.link]
      exact inHand
    · rw [same.link]
      exact abandoning
    · rw [same.link]
      exact offMark
    · rw [same.link]
      exact sends
  case idle =>
    obtain ⟨t, hstep, hmemory, ended, same, _⟩ := command_ends hs ((linkOff_unmarked caller hmark).2.2 hstate)
    have turned := turnLinkOff_idle (c := s.chip.collect) hp
    refine ⟨t, hstep, hmemory, ended, ?_, ?_⟩
    · rw [same.link, turned]
      rfl
    · rw [same.pages, turned]
      rfl

end Sys2Proof.Machine
end

section
/-! SUPPORT. Where an own access can stop, and where the areas' placement and the blocks' offsets keep it inside the
array (R1, R17, log 16; O2). -/

namespace Sys2Proof.Machine

section
variable {c d : Chip} {s : State} {p : PathChecker} {i : MirrorItem} {r : Requester} {o : Nat} {q : Prop}

/-! ## The lengths of the written items (sections 11.1 and 11.3) -/

/-- How many words an item has. -/
def MirrorItem.size : MirrorItem → Nat
  | .story _ => 8
  | .page _ => 40
  | .desk _ => 8
  | .refusal => 5
  | _ => 1

theorem refusalWords_length (r : Option RefusalRecord) : (refusalWords r).length = 4 := by
  cases r <;> rfl

theorem storyRecord_length (c : Chip) (n : StoryNo) : (c.storyRecord n).length = 8 := by
  have fit : (fitWords c.stories[n]).length = 5 := by
    unfold fitWords
    split <;> rfl
  unfold Chip.storyRecord
  rw [List.length_append, fit]
  rfl

theorem pageRecord_length (x : Page) : x.record.length = 40 := by
  have pair (k : Nat) : (placementWords x.placements k).length = 2 := by
    unfold placementWords
    split <;> rfl
  have pairs : ((List.range 16).map fun k => (placementWords x.placements k).length).sum = 32 :=
    congrArg List.sum (List.map_congr_left (g := fun _ => 2) fun k _ => pair k)
  exact List.length_append.trans (congrArg (8 + ·) (List.length_flatMap.trans pairs))

/-- An item's length does not depend on what the part holds. -/
theorem itemWords_length (c : Chip) (i : MirrorItem) : (c.itemWords i).length = i.size := by
  cases i with
  | story n => exact storyRecord_length c n
  | page p => exact pageRecord_length _
  | refusal => exact congrArg (· + 1) (refusalWords_length _)
  | _ => rfl

/-! ## The addresses of placed areas (R1) -/

/-- An access has an address, and where `q` holds the address lies inside the array. -/
def Lands (address : Option Nat) (q : Prop) : Prop := ∃ a, address = some a ∧ (q → a < Config.memoryWords)

theorem Lands.mono {address : Option Nat} {q' : Prop} (h : Lands address q) (hq : q' → q) : Lands address q' := by
  obtain ⟨a, ha, inside⟩ := h
  exact ⟨a, ha, inside ∘ hq⟩

/-- An area whose words all lie inside the array holds each of them. -/
theorem Lands.of_base {area : Option Nat} {base size : Nat} (ha : area = some base)
    (hb : base + size ≤ Config.memoryWords) (o : Nat) : Lands (area.map (· + o)) (o < size) :=
  ⟨base + o, by rw [ha]; rfl, fun h => by omega⟩

/-- R1: each placed area lies inside the array. -/
theorem AreasPlaced.inside (h : p.AreasPlaced) : ∃ control screen story directory,
    p.controlPage = some control ∧ p.screenArea = some screen ∧ p.storyArea = some story ∧
      p.directoryArea = some directory ∧ control + Config.controlPageWords ≤ Config.memoryWords ∧
      screen + Config.screenAreaWords ≤ Config.memoryWords ∧ story + Config.storyAreaWords ≤ Config.memoryWords ∧
      directory + Config.directoryAreaWords ≤ Config.memoryWords := by
  obtain ⟨control, screen, story, directory, hc, hs, ht, hd, inArray, valid⟩ := h
  simp only [basesValid, Bool.and_eq_true, decide_eq_true_eq] at valid
  obtain ⟨⟨⟨⟨⟨⟨⟨⟨⟨-, screenIn⟩, storyIn⟩, directoryIn⟩, -⟩, -⟩, -⟩, -⟩, -⟩, -⟩ := valid
  exact ⟨control, screen, story, directory, hc, hs, ht, hd, inArray, screenIn, storyIn, directoryIn⟩

theorem controlWord_lands (h : p.AreasPlaced) (o : Nat) : Lands (p.controlWord o) (o < 4096) := by
  obtain ⟨control, _, _, _, hc, _, _, _, inside, _, _, _⟩ := AreasPlaced.inside h
  exact .of_base hc inside o

theorem directoryWord_lands (h : p.AreasPlaced) (o : Nat) : Lands (p.directoryWord o) (o < 12160) := by
  obtain ⟨_, _, _, directory, _, _, _, hd, _, _, _, inside⟩ := AreasPlaced.inside h
  exact .of_base hd inside o

theorem windowWord_lands (h : p.AreasPlaced) (t : TerminalNo) (o : Nat) : Lands (p.windowWord t o) (o < 2048) := by
  obtain ⟨_, screen, _, _, _, hs, _, _, _, inside, _, _⟩ := AreasPlaced.inside h
  refine ⟨screen + t.val * Config.windowWords + o, by rw [PathChecker.windowWord, hs]; rfl, fun ho => ?_⟩
  simp only [Config.windowWords, Config.screenAreaWords] at *
  omega

theorem blockWord_lands (h : p.AreasPlaced) (b : BlockNo) (o : Nat) : Lands (p.blockWord b o) (o < 128) := by
  obtain ⟨_, _, story, _, _, _, ht, _, _, _, inside, _⟩ := AreasPlaced.inside h
  refine ⟨story + b.val * Config.blockWords + o, by rw [PathChecker.blockWord, ht]; rfl, fun ho => ?_⟩
  simp only [Config.blockWords, Config.storyAreaWords] at *
  omega

/-- Every word of an item has its place on the control page or in the directory. -/
theorem itemWord_lands (h : p.AreasPlaced) (i : MirrorItem) (k : Nat) : Lands (p.itemWord i k) (k < i.size) := by
  cases i with
  | story n =>
    refine (directoryWord_lands h (8 * n.val + k)).mono fun (hk : k < 8) => ?_
    omega
  | page p =>
    refine (directoryWord_lands h (8192 + 40 * p.val + k)).mono fun (hk : k < 40) => ?_
    omega
  | desk d =>
    refine (directoryWord_lands h (12032 + 8 * d.val + k)).mono fun (hk : k < 8) => ?_
    omega
  | _ =>
    refine (controlWord_lands h _).mono fun hk => ?_
    exact Nat.lt_of_lt_of_le (Nat.add_lt_add_left hk _) (by decide)

/-! ## Each own access lands (R17) -/

theorem cellWordRead_lands (h : c.path.AreasPlaced) {x : OwnRead} (hx : c.cellWordRead = some x) :
    Lands x.address c.OffsetsInRange := by
  unfold Chip.cellWordRead at hx
  split at hx
  · next k hp _ =>
    cases hx
    refine (controlWord_lands h _).mono fun range => ?_
    have := range.1 hp
    simp only [cellOffset]
    omega
  · cases hx

theorem resultWrite_lands (h : c.path.AreasPlaced) {x : OwnWrite} (hx : c.resultWrite = some x) :
    Lands x.address c.OffsetsInRange := by
  unfold Chip.resultWrite at hx
  split at hx
  · next k _ _ =>
    split at hx
    · next w hw =>
      cases hx
      refine (controlWord_lands h _).mono fun range => ?_
      obtain ⟨_, words, _⟩ := range
      have := (List.getElem?_eq_some_iff.mp hw).1
      simp only [cellOffset]
      omega
    · cases hx
      refine (controlWord_lands h _).mono fun _ => ?_
      simp only [cellOffset]
      omega
  · cases hx

theorem configRead_lands (h : c.path.AreasPlaced) {x : OwnRead} (hx : c.configRead = some x) :
    Lands x.address c.OffsetsInRange := by
  unfold Chip.configRead at hx
  split at hx
  · next hp =>
    cases hx
    refine (controlWord_lands h _).mono fun range => ?_
    obtain ⟨_, _, config, _⟩ := range
    have := config hp.1 hp.2
    simp only [configFirst]
    omega
  · cases hx

theorem mirrorWord_lands (h : c.path.AreasPlaced) {x : OwnWrite} (hx : c.mirrorWord = some x) :
    Lands x.address c.OffsetsInRange := by
  unfold Chip.mirrorWord at hx
  split at hx
  · cases hx
  · next w hw =>
    split at hx
    · cases hx
    · next words =>
      cases hx
      refine (itemWord_lands h _ _).mono fun range => ?_
      obtain ⟨_, _, _, mirror, _⟩ := range
      have sum := mirror w hw
      rw [itemWords_length, words, List.length_cons] at sum
      omega

theorem rowWord_lands {l : LineNo} (h : c.path.AreasPlaced) (hr : c.lines[l].phase = .reading) {x : OwnRead}
    (hx : c.rowWord l = some x) : Lands x.address c.OffsetsInRange := by
  unfold Chip.rowWord at hx
  split at hx
  · cases hx
  · split at hx
    · cases hx
    · next v _ row _ =>
      cases hx
      refine (windowWord_lands h _ _).mono fun range => ?_
      obtain ⟨_, _, _, _, lines, _⟩ := range
      have := lines l hr
      omega

theorem rowWordWrite_lands (h : c.path.AreasPlaced) {x : OwnWrite} (hx : c.rowWordWrite = some x) :
    Lands x.address c.OffsetsInRange := by
  unfold Chip.rowWordWrite at hx
  split at hx
  · next w hw =>
    split at hx
    · next words =>
      cases hx
      refine (windowWord_lands h _ _).mono fun range => ?_
      obtain ⟨_, _, _, _, _, notices⟩ := range
      have sum := notices w hw
      rw [words, List.length_cons] at sum
      omega
    · cases hx
  · cases hx

theorem keyWordWrite_lands (h : c.path.AreasPlaced) {x : OwnWrite} (hx : c.keyWordWrite = some x) :
    Lands x.address c.OffsetsInRange := by
  unfold Chip.keyWordWrite at hx
  split at hx
  · next t _ =>
    split at hx
    · cases hx
    · cases hx
      exact (windowWord_lands h _ _).mono fun _ => by omega
  · cases hx

theorem putWordWrite_lands (h : c.path.AreasPlaced) {x : OwnWrite} (hx : c.putWordWrite = some x) :
    Lands x.address c.OffsetsInRange := by
  unfold Chip.putWordWrite at hx
  split at hx
  · cases hx
    exact (windowWord_lands h _ _).mono fun _ => by omega
  · cases hx

theorem statusWordWrite_lands (h : c.path.AreasPlaced) {x : OwnWrite} (hx : c.statusWordWrite = some x) :
    Lands x.address c.OffsetsInRange := by
  unfold Chip.statusWordWrite at hx
  split at hx <;> cases hx <;> exact (windowWord_lands h _ _).mono fun _ => by omega

theorem fitWord_lands (h : c.path.AreasPlaced) {x : OwnRead} (hx : c.fitWord = some x) :
    Lands x.address c.OffsetsInRange := by
  unfold Chip.fitWord at hx
  split at hx
  · next b _ _ =>
    cases hx
    exact (blockWord_lands h _ _).mono fun _ => b.word.isLt
  · obtain ⟨run, _, hx⟩ := Option.bind_eq_some_iff.mp hx
    obtain ⟨b, _, rfl⟩ := Option.map_eq_some_iff.mp hx
    exact (blockWord_lands h _ _).mono fun _ => b.word.isLt

theorem textWord_lands (h : c.path.AreasPlaced) {x : OwnRead} (hx : c.textWord = some x) :
    Lands x.address c.OffsetsInRange := by
  unfold Chip.textWord at hx
  split at hx
  · split at hx
    · cases hx
    · cases hx
      exact (blockWord_lands h _ _).mono fun _ => Nat.mod_lt _ (by decide)
  · cases hx

/-! ## Where a row stops -/

/-- A row whose own requester is `r`, if it has one, is not refused; it faults only where `r` is granted, not for want
of an area once the areas are placed, and not at all while the offsets are in range as well. -/
structure State.StopsOnlyUnplaced (s : State) (r : Option Requester) (out : Host.Outcome State Fault Refusal) :
    Prop where
  refused : ∀ x, out ≠ .refused x
  granted : ∀ f, out = .fault f → ∃ x, r = some x ∧ s.Grants x
  placed : s.chip.path.AreasPlaced → out ≠ .fault .areaNotPlaced
  inside : s.chip.path.AreasPlaced → s.chip.OffsetsInRange → ∀ f, out ≠ .fault f

namespace State.StopsOnlyUnplaced

theorem next (s t : State) (r : Option Requester) : s.StopsOnlyUnplaced r (.next t) := ⟨nofun, nofun, nofun, nofun⟩

theorem unplaced (hg : s.Grants r) (h : ¬ s.chip.path.AreasPlaced) (f : Fault) :
    s.StopsOnlyUnplaced (some r) (.fault f) :=
  ⟨nofun, fun _ _ => ⟨r, rfl, hg⟩, fun hp => absurd hp h, fun hp => absurd hp h⟩

theorem outside (hg : s.Grants r) (h : s.chip.path.AreasPlaced → ¬ s.chip.OffsetsInRange) :
    s.StopsOnlyUnplaced (some r) (.fault .addressOutside) :=
  ⟨nofun, fun _ _ => ⟨r, rfl, hg⟩, nofun, fun hp range => absurd range (h hp)⟩

theorem ownRead {plan : Chip → Option OwnRead}
    (hl : s.Grants r → s.chip.path.AreasPlaced → ∀ x, plan s.chip = some x → Lands x.address s.chip.OffsetsInRange) :
    s.StopsOnlyUnplaced (some r) (ownRead r plan s) := by
  unfold Machine.ownRead
  split
  · exact next ..
  next released =>
  split
  · next granted =>
    have hg : s.Grants r := ⟨by simpa [State.Released] using released, granted⟩
    split
    · exact next ..
    next x hx =>
    split
    · next none =>
      refine unplaced hg (fun placed => ?_) _
      obtain ⟨a, some, _⟩ := hl hg placed x hx
      cases none.symm.trans some
    next a ha =>
    split
    · exact next ..
    next above =>
    refine outside hg fun placed range => ?_
    obtain ⟨b, hb, inside⟩ := hl hg placed x hx
    cases ha.symm.trans hb
    exact above (inside range)
  · exact next ..

theorem ownWrite {plan : Chip → Option OwnWrite}
    (hl : s.chip.path.AreasPlaced → ∀ x, plan s.chip = some x → Lands x.address s.chip.OffsetsInRange) :
    s.StopsOnlyUnplaced (some r) (ownWrite r plan s) := by
  unfold Machine.ownWrite
  split
  · exact next ..
  next released =>
  split
  · next granted =>
    have hg : s.Grants r := ⟨by simpa [State.Released] using released, granted⟩
    split
    · exact next ..
    next x hx =>
    split
    · next none =>
      refine unplaced hg (fun placed => ?_) _
      obtain ⟨a, some, _⟩ := hl placed x hx
      cases none.symm.trans some
    next a ha =>
    split
    · exact next ..
    next above =>
    refine outside hg fun placed range => ?_
    obtain ⟨b, hb, inside⟩ := hl placed x hx
    cases ha.symm.trans hb
    exact above (inside range)
  · exact next ..

end State.StopsOnlyUnplaced

/-- A line engine granted the port reads a row. -/
theorem Grants.line_reads {l : LineNo} (h : s.Grants (.line l)) : s.chip.lines[l].phase = .reading := by
  have waits := List.find?_some h.2
  simpa [Chip.requests] using waits

/-- What every row's meaning can stop at. -/
theorem exec_stops (i : Instr) (s : State) : s.StopsOnlyUnplaced (requesterOf i) (exec i s) := by
  cases i with
  | cellWordRead => exact .ownRead fun _ h _ => cellWordRead_lands h
  | cellResultWrite => exact .ownWrite fun h _ => resultWrite_lands h
  | startConfigRead => exact .ownRead fun _ h _ => configRead_lands h
  | mirrorWordWrite => exact .ownWrite fun h _ => mirrorWord_lands h
  | rowWordRead l => exact .ownRead fun hg h _ => rowWord_lands h (Grants.line_reads hg)
  | keyWordWrite => exact .ownWrite fun h _ => keyWordWrite_lands h
  | putWordWrite => exact .ownWrite fun h _ => putWordWrite_lands h
  | statusWordWrite => exact .ownWrite fun h _ => statusWordWrite_lands h
  | noticeRowWordWrite => exact .ownWrite fun h _ => rowWordWrite_lands h
  | fitWordRead => exact .ownRead fun _ h _ => fitWord_lands h
  | textWordRead => exact .ownRead fun _ h _ => textWord_lands h
  | _ => exact .next ..

end

end Sys2Proof.Machine
end

section
/-! SUPPORT. The blocks' offsets, and the operations of the blocks that leave them as they are (log 16; O2): an offset
moves only with an own access, a begun write, a sweep and the stages of a command. -/

namespace Sys2Proof.Machine

section
variable (c : Chip)

/-! ## What the offsets are -/

/-- What the range of the offsets is read from. -/
def Chip.offsets : CommandPhase × List Word × List Word × StartStage × List Word × Option WriteOut ×
    Vector LineEngine 8 × Option RowWrite :=
  (c.cu.phase, c.cu.wordsRead, c.cu.resultWords, c.cu.startStage, c.cu.configRead, c.mirror.writing, c.lines,
    c.noticeWriter.writing)

theorem offsetsInRange_congr {c d : Chip} (h : d.offsets = c.offsets) : d.OffsetsInRange ↔ c.OffsetsInRange := by
  simp only [Chip.offsets, Prod.mk.injEq] at h
  obtain ⟨phase, read, result, stage, config, mirror, lines, notice⟩ := h
  unfold Chip.OffsetsInRange
  simp only [phase, read, result, stage, config, mirror, lines, notice, itemWords_length]

/-- A change of none of the four parts that hold the offsets. -/
theorem Chip.Does.offsets {l : List Part} {c d : Chip} (h : Chip.Does l c d)
    (hl : ∀ p ∈ [Part.unit, .mirror, .lines, .noticeWriter], p ∉ l := by decide) : d.offsets = c.offsets := by
  have unit : d.cu = c.cu := h.frame .unit (hl .unit (by decide))
  have mirror : d.mirror = c.mirror := h.frame .mirror (hl .mirror (by decide))
  have lines : d.lines = c.lines := h.frame .lines (hl .lines (by decide))
  have notice : d.noticeWriter = c.noticeWriter := h.frame .noticeWriter (hl .noticeWriter (by decide))
  unfold Chip.offsets
  rw [unit, mirror, lines, notice]

/-- A change made once for each entry of a list. -/
theorem foldl_offsets {α : Type} (f : Chip → α → Chip) (h : ∀ d a, (f d a).offsets = d.offsets) (xs : List α) :
    ∀ d : Chip, (xs.foldl f d).offsets = d.offsets := by
  induction xs with
  | nil => exact fun _ => rfl
  | cons a xs ih => exact fun d => (ih (f d a)).trans (h d a)

/-! ## The updates of one field -/

@[simp] theorem onPath_offsets (f : PathChecker → PathChecker) : (c.onPath f).offsets = c.offsets := rfl
@[simp] theorem onTerminal_offsets (t : TerminalNo) (f : TerminalLink → TerminalLink) :
    (c.onTerminal t f).offsets = c.offsets := rfl
@[simp] theorem onScreen_offsets (t : TerminalNo) (f : Screen → Screen) : (c.onScreen t f).offsets = c.offsets := rfl
@[simp] theorem onKeys_offsets (t : TerminalNo) (f : KeyRing → KeyRing) : (c.onKeys t f).offsets = c.offsets := rfl
@[simp] theorem onStory_offsets (n : StoryNo) (f : Story → Story) : (c.onStory n f).offsets = c.offsets := rfl
@[simp] theorem onDesk_offsets (d : DeskNo) (f : Desk → Desk) : (c.onDesk d f).offsets = c.offsets := rfl
@[simp] theorem onCustody_offsets (f : Custody → Custody) : (c.onCustody f).offsets = c.offsets := rfl
@[simp] theorem onClock_offsets (f : NightClock → NightClock) : (c.onClock f).offsets = c.offsets := rfl
@[simp] theorem onFit_offsets (f : FitEngine → FitEngine) : (c.onFit f).offsets = c.offsets := rfl
@[simp] theorem onPage_offsets (p : PageNo) (f : Page → Page) : (c.onPage p f).offsets = c.offsets := rfl
@[simp] theorem onLink_offsets (f : SettingLink → SettingLink) : (c.onLink f).offsets = c.offsets := rfl
@[simp] theorem outputQueue_offsets (q : List PageNo) : ({ c with outputQueue := q } : Chip).offsets = c.offsets := rfl
@[simp] theorem setAttention_offsets (raw mask : Byte) :
    (c.onUnit (·.setAttention raw mask)).offsets = c.offsets := rfl
@[simp] theorem granted_offsets (r : Requester) : (c.granted r).offsets = c.offsets := rfl
@[simp] theorem pendKey_offsets (i : KeyItem) : (c.pendKey i).offsets = c.offsets := rfl
@[simp] theorem pendRow_offsets (t : TerminalNo) : (c.pendRow t).offsets = c.offsets := rfl
@[simp] theorem markRow_offsets (t : TerminalNo) (r : Fin 24) : (c.markRow t r).offsets = c.offsets := rfl
@[simp] theorem markAllRows_offsets (t : TerminalNo) : (c.markAllRows t).offsets = c.offsets := rfl
@[simp] theorem clearRow_offsets (t : TerminalNo) (r : Fin 24) : (c.clearRow t r).offsets = c.offsets := rfl
@[simp] theorem joinFitQueue_offsets (n : StoryNo) : (c.joinFitQueue n).offsets = c.offsets := rfl

@[simp] theorem mark_offsets (i : MirrorItem) : (c.mark i).offsets = c.offsets := by
  unfold Chip.offsets
  simp only [mark_fields]
  rfl

@[simp] theorem markAll_offsets (l : List MirrorItem) : (c.markAll l).offsets = c.offsets :=
  foldl_offsets _ (fun d i => mark_offsets d i) l c

/-- Either branch of a choice leaves the offsets. -/
@[simp] theorem ite_offsets {q : Prop} [Decidable q] (d e : Chip) :
    (if q then d else e).offsets = if q then d.offsets else e.offsets := apply_ite ..

/-! ## Attention and notices (R35, R36, R61 to R65) -/

@[simp] theorem raise_offsets (n : Cause) : (c.raise n).offsets = c.offsets := by simp [Chip.raise]

@[simp] theorem takeMask_offsets (v : Word) : (c.takeMask v).offsets = c.offsets := rfl

@[simp] theorem clearCauses_offsets (v : Word) : (c.clearCauses v).offsets = c.offsets := by simp [Chip.clearCauses]

@[simp] theorem enterNotice_offsets (n : Notice) (t : TerminalNo) : (c.enterNotice n t).offsets = c.offsets := by
  simp [Chip.enterNotice]

@[simp] theorem post_offsets (k : NoticeKind) (j : Nat) (v : Option Nat) (r : Recipients) :
    (c.post k j v r).offsets = c.offsets :=
  foldl_offsets _ (fun d t => enterNotice_offsets d _ t) _ c

@[simp] theorem acknowledge_offsets (t : TerminalNo) : (c.acknowledge t).offsets = c.offsets := by
  simp [Chip.acknowledge]

@[simp] theorem emptyQueue_offsets (t : TerminalNo) : (c.emptyQueue t).offsets = c.offsets := by
  simp [Chip.emptyQueue]

/-! ## The fit engine (chapter 8) -/

@[simp] theorem stale_offsets (n : StoryNo) : (c.stale n).offsets = c.offsets := by
  unfold Chip.stale
  split
  · rfl
  · split <;> simp

@[simp] theorem restale_offsets (n : StoryNo) : (c.restale n).offsets = c.offsets := by simp [Chip.restale]

@[simp] theorem staleFonts_offsets (fonts : Byte) : (c.staleFonts fonts).offsets = c.offsets :=
  foldl_offsets _ (fun d n => by simp) _ c

@[simp] theorem recordFit_offsets (why : FitStop) (r : FitRun) : (c.recordFit why r).offsets = c.offsets := by
  unfold Chip.recordFit
  dsimp only
  split <;> simp

@[simp] theorem discardFit_offsets (n : StoryNo) : (c.discardFit n).offsets = c.offsets := by simp [Chip.discardFit]

@[simp] theorem endRun_offsets (why : FitStop) (r : FitRun) : (c.endRun why r).offsets = c.offsets := by
  simp [Chip.endRun]

@[simp] theorem startRun_offsets (n : StoryNo) (rest : List StoryNo) : (c.startRun n rest).offsets = c.offsets := by
  unfold Chip.startRun
  dsimp only
  split <;> simp

theorem takeFits_offsets : ∀ (fuel : Nat) (c : Chip), (c.takeFits fuel).offsets = c.offsets
  | 0, _ => rfl
  | fuel + 1, c => by
    unfold Chip.takeFits
    split
    · split
      · rfl
      · exact (takeFits_offsets fuel _).trans (startRun_offsets ..)
    · rfl

@[simp] theorem fitTake_offsets : c.fitTake.offsets = c.offsets := takeFits_offsets _ c

@[simp] theorem staleStory_offsets (n : StoryNo) : (c.staleStory n).offsets = c.offsets := by simp [Chip.staleStory]

@[simp] theorem withdrawFit_offsets (n : StoryNo) : (c.withdrawFit n).offsets = c.offsets := by
  unfold Chip.withdrawFit
  split <;> simp

@[simp] theorem processWord_offsets (r : FitRun) (w : Word) : (c.processWord r w).offsets = c.offsets := by
  unfold Chip.processWord
  split <;> simp

@[simp] theorem takeWidth_offsets (f : Fin 8) (code : Fin 256) (v : Word) :
    (c.takeWidth f code v).offsets = c.offsets := by simp [Chip.takeWidth]

@[simp] theorem takeFontsPresent_offsets (v : Word) : (c.takeFontsPresent v).offsets = c.offsets := by
  simp [Chip.takeFontsPresent]

/-! ## Custody (chapter 6) -/

@[simp] theorem setBasket_offsets (n : StoryNo) (before : Option StoryNo) (q : List StoryNo) :
    (c.setBasket n before q).offsets = c.offsets := by
  cases before <;> simp [Chip.setBasket]

@[simp] theorem joinTail_offsets (n : StoryNo) : (c.joinTail n).offsets = c.offsets := setBasket_offsets ..
@[simp] theorem joinHead_offsets (n : StoryNo) : (c.joinHead n).offsets = c.offsets := setBasket_offsets ..
@[simp] theorem leaveBasket_offsets (n : StoryNo) : (c.leaveBasket n).offsets = c.offsets := setBasket_offsets ..

@[simp] theorem offsets_rearm (n : StoryNo) : (c.rearm n).offsets = c.offsets := rfl

@[simp] theorem rearmHeld_offsets (t : TerminalNo) : (c.rearmHeld t).offsets = c.offsets :=
  foldl_offsets _ (fun d n => offsets_rearm d n) _ c

@[simp] theorem enterOpen_offsets (n : StoryNo) (t : TerminalNo) : (c.enterOpen n t).offsets = c.offsets := by
  simp [Chip.enterOpen]

@[simp] theorem leaveOpen_offsets (n : StoryNo) : (c.leaveOpen n).offsets = c.offsets := by
  unfold Chip.leaveOpen
  cases c.stories[n].holder <;> simp

@[simp] theorem returnToHead_offsets (n : StoryNo) : (c.returnToHead n).offsets = c.offsets := by
  simp [Chip.returnToHead]

@[simp] theorem freeze_offsets (n : StoryNo) : (c.freeze n).offsets = c.offsets := by simp [Chip.freeze]

@[simp] theorem removeFrom_offsets (p : PageNo) (n : StoryNo) : (c.removeFrom p n).offsets = c.offsets := by
  simp [Chip.removeFrom]

@[simp] theorem removePlacement_offsets (n : StoryNo) : (c.removePlacement n).offsets = c.offsets := by
  unfold Chip.removePlacement
  split <;> simp

@[simp] theorem takeReport_offsets : c.takeReport.offsets = c.offsets := by
  unfold Chip.takeReport
  split <;> simp

@[simp] theorem takeDeskWord_offsets (k : Nat) (v : Word) : (c.takeDeskWord k v).offsets = c.offsets := rfl

@[simp] theorem createStory_offsets (n : StoryNo) (d : DeskNo) (urgent : Bool) :
    (c.createStory n d urgent).offsets = c.offsets := by
  unfold Chip.createStory
  dsimp only
  rw [staleStory_offsets, mark_offsets, onCustody_offsets]
  split <;> simp

@[simp] theorem sendStory_offsets (n : StoryNo) (d : DeskNo) (urgent : Bool) :
    (c.sendStory n d urgent).offsets = c.offsets := by simp [Chip.sendStory]

@[simp] theorem freeAll_offsets (l : List BlockNo) : (c.freeAll l).offsets = c.offsets := by simp [Chip.freeAll]

@[simp] theorem killStory_offsets (n : StoryNo) : (c.killStory n).offsets = c.offsets := by
  unfold Chip.killStory
  dsimp only
  rw [mark_offsets, onCustody_offsets, mark_offsets, onStory_offsets, freeAll_offsets, withdrawFit_offsets,
    removePlacement_offsets]
  split <;> simp

/-! ## The setting link and the page controller (chapters 9 and 10) -/

@[simp] theorem queueTail_offsets (p : PageNo) : (c.queueTail p).offsets = c.offsets := rfl
@[simp] theorem queueHead_offsets (p : PageNo) : (c.queueHead p).offsets = c.offsets := rfl
@[simp] theorem unqueue_offsets (p : PageNo) : (c.unqueue p).offsets = c.offsets := rfl

@[simp] theorem giveBack_offsets (p : PageNo) : (c.giveBack p).offsets = c.offsets := by simp [Chip.giveBack]

@[simp] theorem completePage_offsets (p : PageNo) : (c.completePage p).offsets = c.offsets := by
  simp [Chip.completePage]

@[simp] theorem linkTo_offsets (st : LinkState) (stage : Option LinkStage) : (c.linkTo st stage).offsets = c.offsets := by
  simp [Chip.linkTo]

@[simp] theorem transmit_offsets : c.transmit.offsets = c.offsets := linkTo_offsets ..

@[simp] theorem sendFrame_offsets (k : FrameKind) (l : List Word) : (c.sendFrame k l).offsets = c.offsets := by
  simp [Chip.sendFrame]

@[simp] theorem buildNext_offsets : c.buildNext.offsets = c.offsets := by
  unfold Chip.buildNext
  split
  · rfl
  · split
    · split <;> simp
    · simp
    · simp

@[simp] theorem frameSent_offsets : c.frameSent.offsets = c.offsets := by simp [Chip.frameSent]

@[simp] theorem pageTake_offsets : c.pageTake.offsets = c.offsets := by
  unfold Chip.pageTake
  split <;> simp

@[simp] theorem buildAbandon_offsets : c.buildAbandon.offsets = c.offsets := by
  unfold Chip.buildAbandon
  split <;> simp

@[simp] theorem withdrawPage_offsets (p : PageNo) : (c.withdrawPage p).offsets = c.offsets := by
  simp [Chip.withdrawPage]

@[simp] theorem endAbandon_offsets : c.endAbandon.offsets = c.offsets := by simp [Chip.endAbandon]

@[simp] theorem linkFault_offsets : c.linkFault.offsets = c.offsets := by
  unfold Chip.linkFault
  dsimp only
  rw [linkTo_offsets, onLink_offsets, raise_offsets]
  split <;> split <;> simp

@[simp] theorem frameFailed_offsets : c.frameFailed.offsets = c.offsets := by simp [Chip.frameFailed]

@[simp] theorem frameRejected_offsets : c.frameRejected.offsets = c.offsets := by simp [Chip.frameRejected]

@[simp] theorem completeLink_offsets : c.completeLink.offsets = c.offsets := by
  unfold Chip.completeLink
  cases c.link.page <;> simp

@[simp] theorem frameAccepted_offsets : c.frameAccepted.offsets = c.offsets := by
  unfold Chip.frameAccepted
  dsimp only
  split
  · simp
  · split
    · simp
    · split <;> simp

@[simp] theorem frameHeld_offsets : c.frameHeld.offsets = c.offsets := by simp [Chip.frameHeld]

@[simp] theorem answerWord_offsets (w : Word) : (c.answerWord w).offsets = c.offsets := by simp [Chip.answerWord]

@[simp] theorem linkPulse_offsets : c.linkPulse.offsets = c.offsets := by simp [Chip.linkPulse]

@[simp] theorem turnLinkOff_offsets : c.turnLinkOff.offsets = c.offsets := by
  unfold Chip.turnLinkOff
  cases c.link.page <;> simp

@[simp] theorem placeStory_offsets (p : PageNo) (n : StoryNo) (hole : Nat) :
    (c.placeStory p n hole).offsets = c.offsets := by simp [Chip.placeStory]

@[simp] theorem unplaceStory_offsets (p : PageNo) (n : StoryNo) : (c.unplaceStory p n).offsets = c.offsets := by
  simp [Chip.unplaceStory]

@[simp] theorem releasePage_offsets (p : PageNo) : (c.releasePage p).offsets = c.offsets := by
  have frozen := foldl_offsets (fun (d : Chip) (e : Placement) => d.freeze e.story) (fun d e => freeze_offsets d _)
  simp [Chip.releasePage, frozen]

@[simp] theorem recallPage_offsets (p : PageNo) : (c.recallPage p).offsets = c.offsets := by
  unfold Chip.recallPage
  split <;> simp

@[simp] theorem replatePage_offsets (p : PageNo) : (c.replatePage p).offsets = c.offsets := by
  have returned := foldl_offsets (fun (d : Chip) (e : Placement) => d.returnToHead e.story)
    (fun d e => returnToHead_offsets d _)
  simp [Chip.replatePage, returned]

/-! ## The night clock (chapter 7) -/

@[simp] theorem makeLate_offsets (p : PageNo) : (c.makeLate p).offsets = c.offsets := by simp [Chip.makeLate]

@[simp] theorem comparePages_offsets : c.comparePages.offsets = c.offsets :=
  foldl_offsets _ (fun d p => by simp) _ c

@[simp] theorem closeEdition_offsets (e : Nat) : (c.closeEdition e).offsets = c.offsets := by simp [Chip.closeEdition]

@[simp] theorem warnHolder_offsets (n : StoryNo) : (c.warnHolder n).offsets = c.offsets := by
  unfold Chip.warnHolder
  cases c.stories[n].holder <;> simp

@[simp] theorem recallStory_offsets (n : StoryNo) : (c.recallStory n).offsets = c.offsets := by
  unfold Chip.recallStory
  cases c.stories[n].holder <;> simp

@[simp] theorem expireLease_offsets (n : StoryNo) (w : Bool) : (c.expireLease n w).offsets = c.offsets := by
  simp [Chip.expireLease]

@[simp] theorem countLease_offsets (n : StoryNo) : (c.countLease n).offsets = c.offsets := by
  unfold Chip.countLease
  split <;> simp

@[simp] theorem countLeases_offsets : c.countLeases.offsets = c.offsets :=
  foldl_offsets _ (fun d n => countLease_offsets d n) _ c

@[simp] theorem runningPulse_offsets : c.runningPulse.offsets = c.offsets := by
  unfold Chip.runningPulse
  dsimp only
  rw [countLeases_offsets, comparePages_offsets]
  split <;> simp

@[simp] theorem clockPulse_offsets : c.clockPulse.offsets = c.offsets := by simp [Chip.clockPulse]

@[simp] theorem loadClock_offsets (v : Word) : (c.loadClock v).offsets = c.offsets := by simp [Chip.loadClock]

@[simp] theorem takeSchedule_offsets (l : List Word) : (c.takeSchedule l).offsets = c.offsets := by
  simp [Chip.takeSchedule]

/-! ## Key intake (chapter 5) -/

@[simp] theorem takeCode_offsets (t : TerminalNo) (b : Byte) : (c.takeCode t b).offsets = c.offsets := by
  simp [Chip.takeCode]

@[simp] theorem keysAnswer_offsets (t : TerminalNo) (codes : List Byte) : (c.keysAnswer t codes).offsets = c.offsets := by
  have taken := foldl_offsets (fun (d : Chip) b => d.takeCode t b) (fun d b => takeCode_offsets d t b)
  simp [Chip.keysAnswer, taken]

@[simp] theorem takeIndex_offsets (t : TerminalNo) (v : Word) : (c.takeIndex t v).offsets = c.offsets := by
  simp [Chip.takeIndex]

@[simp] theorem endKeyItem_offsets : c.endKeyItem.offsets = c.offsets := rfl

@[simp] theorem beginKeyItem_offsets : c.beginKeyItem.offsets = c.offsets := by
  unfold Chip.beginKeyItem
  split <;> rfl

@[simp] theorem endSession_offsets (t : TerminalNo) : (c.endSession t).offsets = c.offsets := by
  have returned := foldl_offsets (fun (d : Chip) (n : StoryNo) => d.returnToHead n) (fun d n => returnToHead_offsets d n)
  simp [Chip.endSession, returned]

/-! ## Terminals (R51, R52, R56) -/

@[simp] theorem setLink_offsets (t : TerminalNo) (k : TerminalLink) : (c.setLink t k).offsets = c.offsets := by
  simp [Chip.setLink]

@[simp] theorem countGood_offsets (t : TerminalNo) : (c.countGood t).offsets = c.offsets := by simp [Chip.countGood]

@[simp] theorem enterDown_offsets (t : TerminalNo) : (c.enterDown t).offsets = c.offsets := by
  unfold Chip.enterDown
  dsimp only
  split <;> simp

@[simp] theorem countMiss_offsets (t : TerminalNo) : (c.countMiss t).offsets = c.offsets := by simp [Chip.countMiss]

@[simp] theorem giveRowBack_offsets (v : Visit) : (c.giveRowBack v).offsets = c.offsets := by
  unfold Chip.giveRowBack
  split <;> simp

@[simp] theorem resetTerminal_offsets (t : TerminalNo) : (c.resetTerminal t).offsets = c.offsets := by
  simp [Chip.resetTerminal]

end

end Sys2Proof.Machine
end

section
/-! SUPPORT. The operations that move an offset keep it in range: the sweeps and row reads of the line engines, the
stages of a command, the mirror writer's and the notice writer's words (R24, R28, R30, R33, R45 to R49, R67; O2). -/

namespace Sys2Proof.Machine

section
variable {c d : Chip} {l : LineNo}

/-! ## One part changed -/

/-- The command unit's own offsets are in range. -/
def CommandUnit.InRange (u : CommandUnit) : Prop :=
  (u.phase = .reading → u.wordsRead.length < 7) ∧ u.resultWords.length ≤ 6 ∧
    (u.phase = .acting → u.startStage = .reading → u.configRead.length < 17)

/-- The offsets of the mirror writer, the line engines and the notice writer are in range. -/
def Chip.BlocksInRange (c : Chip) : Prop :=
  (∀ w, c.mirror.writing = some w → w.offset + w.words.length = w.item.size) ∧
    (∀ l : LineNo, c.lines[l].phase = .reading → c.lines[l].rowWords.length < 80) ∧
    ∀ w, c.noticeWriter.writing = some w → w.column + w.words.length = 80

theorem offsetsInRange_iff : c.OffsetsInRange ↔ c.cu.InRange ∧ c.BlocksInRange := by
  unfold Chip.OffsetsInRange CommandUnit.InRange Chip.BlocksInRange
  simp only [itemWords_length, and_assoc]

theorem inRange_of_offsets (h : c.OffsetsInRange) (he : d.offsets = c.offsets) : d.OffsetsInRange :=
  (offsetsInRange_congr he).mpr h

theorem onUnit_inRange (h : c.BlocksInRange) {f : CommandUnit → CommandUnit} (hf : (f c.cu).InRange) :
    (c.onUnit f).OffsetsInRange := offsetsInRange_iff.mpr ⟨hf, h⟩

theorem onMirror_inRange (h : c.OffsetsInRange) {f : MirrorWriter → MirrorWriter}
    (hf : ∀ w, (f c.mirror).writing = some w → w.offset + w.words.length = w.item.size) :
    (c.onMirror f).OffsetsInRange := by
  obtain ⟨unit, _, lines, notice⟩ := offsetsInRange_iff.mp h
  exact offsetsInRange_iff.mpr ⟨unit, hf, lines, notice⟩

theorem onNoticeWriter_inRange (h : c.OffsetsInRange) {f : NoticeWriter → NoticeWriter}
    (hf : ∀ w, (f c.noticeWriter).writing = some w → w.column + w.words.length = 80) :
    (c.onNoticeWriter f).OffsetsInRange := by
  obtain ⟨unit, mirror, lines, _⟩ := offsetsInRange_iff.mp h
  exact offsetsInRange_iff.mpr ⟨unit, mirror, lines, hf⟩

theorem onLine_blocksInRange (h : c.BlocksInRange) {f : LineEngine → LineEngine}
    (hf : (f c.lines[l]).phase = .reading → (f c.lines[l]).rowWords.length < 80) : (c.onLine l f).BlocksInRange := by
  obtain ⟨mirror, lines, notice⟩ := h
  refine ⟨mirror, ?_, notice⟩
  exact update_forall (fun e : LineEngine => e.phase = .reading → e.rowWords.length < 80) c.lines l f lines fun _ => hf

theorem onLine_inRange (h : c.OffsetsInRange) {f : LineEngine → LineEngine}
    (hf : (f c.lines[l]).phase = .reading → (f c.lines[l]).rowWords.length < 80) : (c.onLine l f).OffsetsInRange := by
  obtain ⟨unit, blocks⟩ := offsetsInRange_iff.mp h
  exact offsetsInRange_iff.mpr ⟨unit, onLine_blocksInRange blocks hf⟩

/-- An engine changed in neither its phase nor its row. -/
theorem onLine_sameRow_inRange (h : c.OffsetsInRange) {f : LineEngine → LineEngine}
    (hp : (f c.lines[l]).phase = c.lines[l].phase) (hw : (f c.lines[l]).rowWords = c.lines[l].rowWords) :
    (c.onLine l f).OffsetsInRange := by
  refine onLine_inRange h fun hr => ?_
  obtain ⟨_, _, _, _, lines, _⟩ := h
  rw [hw]
  exact lines l (hp ▸ hr)

/-- An engine that has read no row word, or reads none. -/
theorem onLine_noRow_inRange (h : c.OffsetsInRange) {f : LineEngine → LineEngine}
    (hf : (f c.lines[l]).rowWords = [] ∨ (f c.lines[l]).phase ≠ .reading) : (c.onLine l f).OffsetsInRange := by
  refine onLine_inRange h fun hr => ?_
  obtain empty | idle := hf
  · rw [empty]
    decide
  · exact absurd hr idle

/-! ## The line engines (chapter 3) -/

theorem sendPoll_inRange (h : c.OffsetsInRange) : (c.onLine l LineEngine.sendPoll).OffsetsInRange :=
  onLine_noRow_inRange h (Or.inl rfl)

theorem visitStep_inRange (h : c.OffsetsInRange) : (c.visitStep l).OffsetsInRange := by
  unfold Chip.visitStep
  split
  · exact h
  · split
    · exact onLine_noRow_inRange (inRange_of_offsets h (clearRow_offsets ..)) (Or.inl rfl)
    · exact sendPoll_inRange h

theorem beginVisit_inRange (h : c.OffsetsInRange) (a : Fin 8) (k : VisitKind) :
    (c.beginVisit l a k).OffsetsInRange := by
  unfold Chip.beginVisit
  cases k with
  | full => exact visitStep_inRange (onLine_sameRow_inRange h rfl rfl)
  | probe => exact sendPoll_inRange (onLine_sameRow_inRange h rfl rfl)

theorem idleLine_inRange (h : c.OffsetsInRange) :
    (c.onLine l fun e => { e with phase := .idle }).OffsetsInRange := onLine_noRow_inRange h (Or.inr nofun)

theorem sweep_inRange : ∀ (fuel : Nat) (rest : List (Fin 8)) {c : Chip}, c.OffsetsInRange →
    (c.sweep l fuel rest).OffsetsInRange
  | 0, _, _, h => h
  | fuel + 1, rest, c, h => by
    have counted : (c.onLine l fun e => { e with sweepCounter := e.sweepCounter + 1, position := 0 }).OffsetsInRange :=
      onLine_sameRow_inRange h rfl rfl
    unfold Chip.sweep
    split
    · exact beginVisit_inRange h ..
    · dsimp only
      split
      · exact sweep_inRange fuel _ counted
      · exact idleLine_inRange counted

theorem newSweep_inRange (h : c.OffsetsInRange) : (c.newSweep l).OffsetsInRange := by
  have placed : (c.onLine l fun e => { e with position := 0 }).OffsetsInRange := onLine_sameRow_inRange h rfl rfl
  unfold Chip.newSweep
  dsimp only
  split
  · exact sweep_inRange _ _ placed
  · exact idleLine_inRange placed

theorem nextAddress_inRange (h : c.OffsetsInRange) : (c.nextAddress l).OffsetsInRange := sweep_inRange _ _ h

theorem testLine_inRange (h : c.OffsetsInRange) : (c.testLine l).OffsetsInRange := by
  unfold Chip.testLine
  split
  · exact nextAddress_inRange h
  · exact onLine_noRow_inRange h (Or.inr nofun)

theorem afterQuiet_inRange (h : c.OffsetsInRange) : (c.afterQuiet l).OffsetsInRange := by
  unfold Chip.afterQuiet
  split
  · exact nextAddress_inRange h
  · exact testLine_inRange h
  · exact newSweep_inRange h

theorem missed_inRange (h : c.OffsetsInRange) : (c.missed l).OffsetsInRange := by
  unfold Chip.missed
  split
  · exact h
  · next v _ =>
    have counted : ((c.giveRowBack v).countMiss v.terminal).OffsetsInRange := inRange_of_offsets h (by simp)
    exact onLine_noRow_inRange counted (Or.inl rfl)

theorem endVisit_inRange (h : c.OffsetsInRange) : (c.endVisit l).OffsetsInRange :=
  nextAddress_inRange (onLine_noRow_inRange h (Or.inl rfl))

theorem goodAnswer_inRange (h : c.OffsetsInRange) (k : AnswerKind) (bytes : List Byte) (v : Visit) :
    (c.goodAnswer l k bytes v).OffsetsInRange := by
  have counted : (c.countGood v.terminal).OffsetsInRange := inRange_of_offsets h (countGood_offsets ..)
  unfold Chip.goodAnswer
  cases k with
  | keys => exact endVisit_inRange (inRange_of_offsets counted (keysAnswer_offsets ..))
  | quiet => exact endVisit_inRange counted
  | taken => exact visitStep_inRange (onLine_sameRow_inRange counted rfl rfl)
  | busy => exact onLine_noRow_inRange (inRange_of_offsets counted (giveRowBack_offsets ..)) (Or.inl rfl)

theorem lineByte_inRange (h : c.OffsetsInRange) (b : Byte) : (c.lineByte l b).OffsetsInRange := by
  unfold Chip.lineByte
  split
  · dsimp only
    split
    · exact missed_inRange h
    · exact onLine_sameRow_inRange h rfl rfl
    · unfold Chip.judge
      split
      · exact h
      · split
        · exact goodAnswer_inRange h ..
        · exact missed_inRange h
  · exact h

theorem windowExpiry_inRange (h : c.OffsetsInRange) : (c.windowExpiry l).OffsetsInRange := by
  unfold Chip.windowExpiry
  split
  · exact afterQuiet_inRange (missed_inRange h)
  · exact h

theorem quietExpiry_inRange (h : c.OffsetsInRange) : (c.quietExpiry l).OffsetsInRange := by
  unfold Chip.quietExpiry
  split
  · exact afterQuiet_inRange h
  · exact h

theorem messageSent_inRange (h : c.OffsetsInRange) : (c.messageSent l).OffsetsInRange := by
  unfold Chip.messageSent
  split
  · exact onLine_noRow_inRange h (Or.inr nofun)
  · exact h

/-- R47: the eightieth word ends the row; before it the words read stay below 80. -/
theorem rowWord_inRange (h : c.OffsetsInRange) {q : OwnRead} (hq : c.rowWord l = some q) (w : Word) :
    (q.after w).OffsetsInRange := by
  unfold Chip.rowWord at hq
  split at hq
  · cases hq
  · split at hq
    · cases hq
    · cases hq
      refine onLine_inRange h fun hr => ?_
      dsimp only at hr ⊢
      split at hr
      · cases hr
      · next short =>
        obtain ⟨_, _, _, _, lines, _⟩ := h
        have := lines l hr
        rw [if_neg short]
        rw [List.length_append, List.length_singleton] at short ⊢
        omega

theorem cut_inRange (h : c.OffsetsInRange) (next : AfterQuiet) : (c.cut l next).OffsetsInRange := by
  unfold Chip.cut
  cases c.lines[l].visit with
  | none => exact onLine_noRow_inRange h (Or.inl rfl)
  | some v => exact onLine_noRow_inRange (inRange_of_offsets h (giveRowBack_offsets ..)) (Or.inl rfl)

theorem turnOn_inRange (h : c.OffsetsInRange) (t : TerminalNo) : (c.turnOn t).OffsetsInRange := by
  have suspect : ((c.setLink t { state := .suspect, misses := 0 }).markAllRows t).OffsetsInRange :=
    inRange_of_offsets h (by simp)
  unfold Chip.turnOn
  dsimp only
  split
  · exact newSweep_inRange suspect
  · exact suspect

theorem silenced_inRange (h : c.OffsetsInRange) (t : TerminalNo) : (c.silenced t).OffsetsInRange := by
  have cutting : (c.cutFrom t).OffsetsInRange := by
    unfold Chip.cutFrom
    split
    · exact cut_inRange h _
    · exact h
  exact inRange_of_offsets cutting (setLink_offsets ..)

theorem turnOff_inRange (h : c.OffsetsInRange) (t : TerminalNo) : (c.turnOff t).OffsetsInRange := by
  have silenced := silenced_inRange h t
  rw [turnOff_eq]
  split
  · exact testLine_inRange silenced
  · split
    · exact onLine_sameRow_inRange silenced rfl rfl
    · exact silenced

theorem resetLine_inRange (h : c.OffsetsInRange) : (c.resetLine l).OffsetsInRange := by
  have cutting : (if c.lines[l].phase = .idle then c else c.cut l .newSweep).OffsetsInRange := by
    split
    · exact h
    · exact cut_inRange h _
  have placed := onLine_sameRow_inRange (l := l) (f := fun e => { e with position := 0 }) cutting rfl rfl
  have terminals := inRange_of_offsets placed (foldl_offsets Chip.resetTerminal resetTerminal_offsets
    ((List.finRange 8).map (terminalOf l)) _)
  unfold Chip.resetLine
  dsimp only
  split
  · exact newSweep_inRange terminals
  · exact terminals

/-! ## Taking, reading and reporting a command (R24, R28) -/

/-- A unit that reads neither a cell nor START's words. -/
theorem CommandUnit.inRange_of_phase {u : CommandUnit} (hp : u.phase ≠ .reading)
    (hs : u.phase = .acting → u.startStage ≠ .reading) (hw : u.resultWords.length ≤ 6) : u.InRange :=
  ⟨fun h => absurd h hp, hw, fun h k => absurd k (hs h)⟩

theorem report_inRange (u : CommandUnit) (r : ResultCode) {words : List Word} (hw : words.length ≤ 6) :
    (u.report r words).InRange := CommandUnit.inRange_of_phase nofun nofun hw

theorem endAction_inRange (u : CommandUnit) (r : ResultCode) {words : List Word} (hw : words.length ≤ 6) :
    (u.endAction r words).InRange := by
  refine CommandUnit.inRange_of_phase (fun h => ?_) (fun _ => nofun) hw
  simp only [CommandUnit.endAction] at h
  split at h <;> cases h

/-- R26: a dispatched command is refused, or handed on before its action. -/
theorem dispatch_inRange {u : CommandUnit} (h : u.resultWords.length ≤ 6) : u.dispatch.InRange := by
  unfold CommandUnit.dispatch
  split
  · exact report_inRange _ _ (Nat.zero_le _)
  · exact CommandUnit.inRange_of_phase nofun (fun _ => nofun) h

theorem takeCell_inRange (h : c.OffsetsInRange) : c.takeCell.OffsetsInRange := by
  obtain ⟨⟨_, result, _⟩, blocks⟩ := offsetsInRange_iff.mp h
  unfold Chip.takeCell
  split
  · split
    · exact h
    · next k _ =>
      have busy : (c.onCell k fun x => { x with state := .busy }).BlocksInRange := blocks
      refine onUnit_inRange busy ⟨fun _ => ?_, result, nofun⟩
      exact Nat.zero_lt_succ _
  · exact h

theorem cellWordRead_inRange (h : c.OffsetsInRange) {q : OwnRead} (hq : c.cellWordRead = some q) (w : Word) :
    (q.after w).OffsetsInRange := by
  obtain ⟨⟨_, result, config⟩, blocks⟩ := offsetsInRange_iff.mp h
  unfold Chip.cellWordRead at hq
  split at hq
  · cases hq
    refine onUnit_inRange blocks ?_
    dsimp only
    split
    · next more => exact ⟨fun _ => more, result, config⟩
    · exact dispatch_inRange result
  · cases hq

theorem resultWrite_inRange (h : c.OffsetsInRange) {w : OwnWrite} (hw : c.resultWrite = some w) :
    w.after.OffsetsInRange := by
  obtain ⟨⟨_, result, _⟩, blocks⟩ := offsetsInRange_iff.mp h
  unfold Chip.resultWrite at hw
  split at hw
  · next k _ _ =>
    split at hw
    · cases hw
      exact inRange_of_offsets h rfl
    · cases hw
      have done : (c.onCell k fun x => { x with state := .done }).BlocksInRange := blocks
      refine inRange_of_offsets (onUnit_inRange done ?_) (raise_offsets ..)
      exact CommandUnit.inRange_of_phase nofun nofun result
  · cases hw

/-! ## START (R30 to R32) -/

theorem beginStart_inRange (h : c.OffsetsInRange) : c.beginStart.OffsetsInRange := by
  obtain ⟨⟨read, result, _⟩, blocks⟩ := offsetsInRange_iff.mp h
  unfold Chip.beginStart
  split
  · refine onUnit_inRange blocks ⟨read, result, fun _ _ => ?_⟩
    exact Nat.zero_lt_succ _
  · exact h

theorem takeSettings_blocksInRange (h : c.BlocksInRange) (words : List Word) :
    (c.takeSettings words).BlocksInRange := by
  unfold Chip.takeSettings
  have set : ∀ (ls : List LineNo) {d : Chip}, d.BlocksInRange → (ls.foldl (fun d l => Chip.onLine l (fun e =>
      { e with speed := speedOf (words.getD (6 + l.val) 0)
               rowBudget := clamp 1 4 (words.getD 14 0).toNat
               answerWindow := clamp 8 64 (words.getD 15 0).toNat }) d) d).BlocksInRange := by
    intro ls
    induction ls with
    | nil => exact fun h => h
    | cons l ls ih => exact fun h => ih (onLine_blocksInRange h (h.2.1 l))
  exact set (List.finRange 8) h

theorem collect_offsets (c : Chip) : c.collect.offsets = c.offsets := rfl

theorem collected_offsets (c : Chip) : (c.onUnit fun u => { u with collecting := false }).offsets = c.offsets := rfl

/-- The words START read need not be in range: past the last of them it reads none. -/
theorem enterStarting_inRange (h : c.BlocksInRange) (hp : c.cu.phase ≠ .reading) (hw : c.cu.resultWords.length ≤ 6)
    (words : List Word) : (c.enterStarting words).OffsetsInRange := by
  have unit : (c.takeSettings words).cu = c.cu := (does_takeSettings words c).frame .unit (by decide)
  have clearing : (((c.takeSettings words).onPath
      (·.start (baseOf words 0) (baseOf words 2) (baseOf words 4))).onUnit fun u =>
        { u with service := .starting, startStage := .clearing }).OffsetsInRange := by
    have placed : ((c.takeSettings words).onPath
      (·.start (baseOf words 0) (baseOf words 2) (baseOf words 4))).BlocksInRange := takeSettings_blocksInRange h words
    refine onUnit_inRange placed ?_
    simp only [onPath_fields, unit]
    exact CommandUnit.inRange_of_phase hp (fun _ => nofun) hw
  unfold Chip.enterStarting
  dsimp only
  refine inRange_of_offsets ?_ (foldl_offsets _ pendRow_offsets _ _)
  refine inRange_of_offsets ?_ (foldl_offsets _ pendKey_offsets _ _)
  refine inRange_of_offsets ?_ (collected_offsets ..)
  refine inRange_of_offsets ?_ (markAll_offsets ..)
  exact inRange_of_offsets clearing (collect_offsets _)

theorem validateStart_inRange (h : c.BlocksInRange) (hp : c.cu.phase ≠ .reading) (hw : c.cu.resultWords.length ≤ 6)
    (words : List Word) : (c.validateStart words).OffsetsInRange := by
  unfold Chip.validateStart
  split
  · exact onUnit_inRange h (report_inRange _ _ (Nat.zero_le _))
  · split
    · exact enterStarting_inRange h hp hw words
    · exact onUnit_inRange h (report_inRange _ _ (Nat.zero_le _))

theorem configRead_inRange (h : c.OffsetsInRange) {q : OwnRead} (hq : c.configRead = some q) (w : Word) :
    (q.after w).OffsetsInRange := by
  obtain ⟨⟨read, result, _⟩, blocks⟩ := offsetsInRange_iff.mp h
  unfold Chip.configRead at hq
  split at hq
  · next acting =>
    cases hq
    have phase : c.cu.phase ≠ .reading := by
      rw [acting.1]
      exact nofun
    have taken : (c.onUnit fun u => { u with configRead := c.cu.configRead ++ [w] }).BlocksInRange := blocks
    dsimp only
    split
    · next more => exact onUnit_inRange blocks ⟨read, result, fun _ _ => more⟩
    · exact validateStart_inRange taken phase result _
  · cases hq

/-! ## The mirror writer and the notice writer (R33, R67) -/

theorem writeOutBegins_offsets (c : Chip) (i : MirrorItem) :
    (c.onUnit (·.writeOutBegins i)).offsets = c.offsets := rfl

theorem beginWriteOut_inRange (h : c.OffsetsInRange) : c.beginWriteOut.OffsetsInRange := by
  unfold Chip.beginWriteOut
  split
  · next i rest _ _ =>
    have copied : (c.onMirror fun _ => { pending := rest, writing := some {
        item := i, words := c.itemWords i, offset := 0,
        carriesRefusal := decide (i = .refusal) && c.path.refusalUncarried } }).OffsetsInRange := by
      refine onMirror_inRange h fun w hw => ?_
      cases hw
      exact (Nat.zero_add _).trans (itemWords_length c i)
    refine inRange_of_offsets copied ?_
    rw [writeOutBegins_offsets, ite_offsets, onPath_offsets, ite_self]
  · exact h

theorem enterRunning_inRange (h : c.BlocksInRange) : c.enterRunning.OffsetsInRange := by
  unfold Chip.enterRunning
  refine onUnit_inRange ?_ (endAction_inRange _ _ (Nat.zero_le _))
  unfold Chip.BlocksInRange
  simp only [mark_fields]
  exact h

theorem writeOutEnds_inRange (h : c.OffsetsInRange) (i : MirrorItem) : (c.writeOutEnds i).OffsetsInRange := by
  obtain ⟨⟨_, result, _⟩, blocks⟩ := offsetsInRange_iff.mp h
  unfold Chip.writeOutEnds
  dsimp only
  have left : (c.onUnit fun u =>
      { u with waitSet := c.cu.waitSet.filter fun e => !(e.item = i && e.begun) }).OffsetsInRange :=
    inRange_of_offsets h rfl
  split
  · split
    · refine onUnit_inRange (offsetsInRange_iff.mp left).2 ?_
      exact CommandUnit.inRange_of_phase nofun nofun result
    · split
      · exact enterRunning_inRange (offsetsInRange_iff.mp left).2
      · exact left
  · exact left

theorem mirrorWord_inRange (h : c.OffsetsInRange) {w : OwnWrite} (hw : c.mirrorWord = some w) :
    w.after.OffsetsInRange := by
  obtain ⟨_, mirror, _⟩ := offsetsInRange_iff.mp h
  unfold Chip.mirrorWord at hw
  split at hw
  · cases hw
  · next x hx =>
    split at hw
    · cases hw
    · next words =>
      cases hw
      dsimp only
      split
      · have ended : ((c.onMirror fun m => { m with writing := none }).writeOutEnds x.item).OffsetsInRange :=
          writeOutEnds_inRange (onMirror_inRange h fun y hy => by cases hy) _
        split
        · exact inRange_of_offsets ended (raise_offsets ..)
        · exact ended
      · refine onMirror_inRange h fun y hy => ?_
        cases hy
        have sum := mirror x hx
        rw [words, List.length_cons] at sum
        dsimp only
        omega

theorem beginRowWrite_inRange (h : c.OffsetsInRange) : c.beginRowWrite.OffsetsInRange := by
  unfold Chip.beginRowWrite
  split
  · refine onNoticeWriter_inRange h fun w hw => ?_
    cases hw
    exact (Nat.zero_add _).trans (noticeRow_length ..)
  · exact h

theorem rowWordWrite_inRange (h : c.OffsetsInRange) {w : OwnWrite} (hw : c.rowWordWrite = some w) :
    w.after.OffsetsInRange := by
  obtain ⟨_, _, _, notice⟩ := offsetsInRange_iff.mp h
  unfold Chip.rowWordWrite at hw
  split at hw
  · next x hx =>
    split at hw
    · next words =>
      cases hw
      dsimp only
      split
      · exact inRange_of_offsets (onNoticeWriter_inRange h fun y hy => by cases hy) (markRow_offsets ..)
      · refine onNoticeWriter_inRange h fun y hy => ?_
        cases hy
        have sum := notice x hx
        rw [words, List.length_cons] at sum
        dsimp only
        omega
    · cases hw
  · cases hw

end

end Sys2Proof.Machine
end

section
/-! SUPPORT. Every command, host write and release keeps the offsets in range, and no command stops but at an unplaced
area (log 16; O2). -/

namespace Sys2Proof.Machine

section
variable {c : Chip} {s t : State}

/-! ## The answers of the owning blocks (R26, R28) -/

/-- An answer that moves no offset, with result words that fit a cell. -/
def Reply.KeepsOffsets (c : Chip) : Reply → Prop
  | .done d words => d.offsets = c.offsets ∧ words.length ≤ 6
  | .refused _ words => words.length ≤ 6

/-- An answer that keeps the offsets in range, with result words that fit a cell. -/
def Reply.InRange : Reply → Prop
  | .done d words => d.OffsetsInRange ∧ words.length ≤ 6
  | .refused _ words => words.length ≤ 6

theorem Reply.KeepsOffsets.inRange {p : Reply} (h : c.OffsetsInRange) (hp : p.KeepsOffsets c) : p.InRange := by
  cases p with
  | done d words =>
    obtain ⟨same, fits⟩ := hp
    exact ⟨inRange_of_offsets h same, fits⟩
  | refused r words => exact hp

@[simp] theorem keepsOffsets_done (c d : Chip) (words : List Word) :
    (Reply.done d words).KeepsOffsets c ↔ d.offsets = c.offsets ∧ words.length ≤ 6 := Iff.rfl

@[simp] theorem keepsOffsets_refused (c : Chip) (r : ResultCode) (words : List Word) :
    (Reply.refused r words).KeepsOffsets c ↔ words.length ≤ 6 := Iff.rfl

@[simp] theorem keepsOffsets_refuse (c : Chip) (r : ResultCode) : (Reply.refuse r).KeepsOffsets c := Nat.zero_le _

theorem answer_inRange {body : Chip → Reply} (h : c.OffsetsInRange)
    (hb : ∀ {d : Chip}, d.OffsetsInRange → (body d).InRange) : (c.answer body).OffsetsInRange := by
  have kept : (body c.collect).InRange := hb (inRange_of_offsets h (collect_offsets c))
  unfold Chip.answer
  split
  · next d words answer =>
    rw [answer] at kept
    obtain ⟨range, fits⟩ := kept
    exact onUnit_inRange (offsetsInRange_iff.mp range).2 (endAction_inRange _ _ fits)
  · next r words answer =>
    rw [answer] at kept
    exact onUnit_inRange (offsetsInRange_iff.mp h).2 (report_inRange _ _ kept)

/-! ## The commands, each in every branch of its checks -/

section
variable (c)

theorem signOn_keepsOffsets : c.signOn.KeepsOffsets c := by
  unfold Chip.signOn
  repeat' split
  all_goals simp

theorem signOff_keepsOffsets : c.signOff.KeepsOffsets c := by
  unfold Chip.signOff
  repeat' split
  all_goals simp

theorem ackNotice_keepsOffsets : c.ackNotice.KeepsOffsets c := by
  unfold Chip.ackNotice
  repeat' split
  all_goals simp

theorem postNotice_keepsOffsets : c.postNotice.KeepsOffsets c := by
  unfold Chip.postNotice
  repeat' split
  all_goals simp

theorem create_keepsOffsets : c.create.KeepsOffsets c := by
  unfold Chip.create
  repeat' split
  all_goals simp

theorem attach_keepsOffsets : c.attach.KeepsOffsets c := by
  unfold Chip.attach
  repeat' split
  all_goals simp

theorem detach_keepsOffsets : c.detach.KeepsOffsets c := by
  unfold Chip.detach
  repeat' split
  all_goals simp

theorem submit_keepsOffsets : c.submit.KeepsOffsets c := by
  unfold Chip.submit
  repeat' split
  all_goals simp

theorem openStory_keepsOffsets : c.openStory.KeepsOffsets c := by
  unfold Chip.openStory
  repeat' split
  all_goals simp

theorem send_keepsOffsets : c.send.KeepsOffsets c := by
  unfold Chip.send
  dsimp only
  repeat' split
  all_goals simp

theorem returnStory_keepsOffsets : c.returnStory.KeepsOffsets c := by
  unfold Chip.returnStory
  repeat' split
  all_goals simp

theorem kill_keepsOffsets : c.kill.KeepsOffsets c := by
  unfold Chip.kill
  dsimp only
  repeat' split
  all_goals simp

theorem setStyle_keepsOffsets : c.setStyle.KeepsOffsets c := by
  unfold Chip.setStyle
  dsimp only
  repeat' split
  all_goals simp

theorem refit_keepsOffsets : c.refit.KeepsOffsets c := by
  unfold Chip.refit
  repeat' split
  all_goals simp

theorem clockRun_keepsOffsets : c.clockRun.KeepsOffsets c := by
  unfold Chip.clockRun
  repeat' split
  all_goals simp

theorem clockPause_keepsOffsets : c.clockPause.KeepsOffsets c := by
  unfold Chip.clockPause
  repeat' split
  all_goals simp

theorem setClock_keepsOffsets : c.setClock.KeepsOffsets c := by
  unfold Chip.setClock
  repeat' split
  all_goals simp

theorem setEditions_keepsOffsets : c.setEditions.KeepsOffsets c := by
  unfold Chip.setEditions
  repeat' split
  all_goals simp

theorem pageOpen_keepsOffsets : c.pageOpen.KeepsOffsets c := by
  unfold Chip.pageOpen
  repeat' split
  all_goals simp

theorem setClose_keepsOffsets : c.setClose.KeepsOffsets c := by
  unfold Chip.setClose
  repeat' split
  all_goals simp

theorem place_keepsOffsets : c.place.KeepsOffsets c := by
  unfold Chip.place
  repeat' split
  all_goals simp

theorem unplace_keepsOffsets : c.unplace.KeepsOffsets c := by
  unfold Chip.unplace
  repeat' split
  all_goals simp

theorem pageClear_keepsOffsets : c.pageClear.KeepsOffsets c := by
  unfold Chip.pageClear
  repeat' split
  all_goals simp

/-- A refused release names one story at most (R160). -/
theorem releaseFault_words {p : PageNo} {force : Bool} {r : ResultCode} {words : List Word}
    (h : c.releaseFault p force = some (r, words)) : words.length ≤ 1 := by
  unfold Chip.releaseFault at h
  dsimp only at h
  repeat' split at h
  all_goals cases h
  all_goals simp

theorem release_keepsOffsets : c.release.KeepsOffsets c := by
  unfold Chip.release
  split
  · split
    · simp
    · split
      · next fault =>
        have := releaseFault_words c fault
        simp only [keepsOffsets_refused]
        omega
      · simp
  · simp

theorem replate_keepsOffsets : c.replate.KeepsOffsets c := by
  unfold Chip.replate
  dsimp only
  repeat' split
  all_goals simp

theorem linkOn_keepsOffsets : c.linkOn.KeepsOffsets c := by
  unfold Chip.linkOn
  repeat' split
  all_goals simp

theorem linkOff_keepsOffsets : c.linkOff.KeepsOffsets c := by
  unfold Chip.linkOff
  repeat' split
  all_goals simp

theorem linkResume_keepsOffsets : c.linkResume.KeepsOffsets c := by
  unfold Chip.linkResume
  repeat' split
  all_goals simp

end

theorem terminalOn_inRange (h : c.OffsetsInRange) : c.terminalOn.InRange := by
  unfold Chip.terminalOn
  split
  · exact Nat.zero_le _
  · split
    · exact Nat.zero_le _
    · split
      · exact Nat.zero_le _
      · exact ⟨turnOn_inRange h _, Nat.zero_le _⟩

theorem terminalOff_inRange (h : c.OffsetsInRange) : c.terminalOff.InRange := by
  unfold Chip.terminalOff
  split
  · exact Nat.zero_le _
  · split
    · exact Nat.zero_le _
    · split
      · exact ⟨turnOff_inRange h _, Nat.zero_le _⟩
      · exact Nat.zero_le _

theorem lineReset_inRange (h : c.OffsetsInRange) : c.lineReset.InRange := by
  unfold Chip.lineReset
  split
  · exact Nat.zero_le _
  · split
    · exact Nat.zero_le _
    · exact ⟨resetLine_inRange h, Nat.zero_le _⟩

/-! ## Host writes (chapter 1) -/

/-- A decision that moves no offset. -/
def Decision.KeepsOffsets (c : Chip) : Decision → Prop
  | .accepted d => d.offsets = c.offsets
  | .refused _ => True

@[simp] theorem keepsOffsets_accepted (c d : Chip) : (Decision.accepted d).KeepsOffsets c ↔ d.offsets = c.offsets :=
  Iff.rfl

@[simp] theorem keepsOffsets_writeRefused (c : Chip) (r : RefusalReason) : (Decision.refused r).KeepsOffsets c := trivial

@[simp] theorem onCell_offsets (c : Chip) (k : CellNo) (f : Cell → Cell) : (c.onCell k f).offsets = c.offsets := rfl

theorem keepsOffsets_ite {q : Prop} [Decidable q] (c : Chip) (d e : Decision) :
    (if q then d else e).KeepsOffsets c ↔ if q then d.KeepsOffsets c else e.KeepsOffsets c := by
  split <;> rfl

theorem clearRefusals_offsets (c : Chip) : c.clearRefusals.offsets = c.offsets :=
  (mark_offsets ..).trans (onPath_offsets ..)

@[simp] theorem decidePartWritten_keepsOffsets (c : Chip) : c.decidePartWritten.KeepsOffsets c := by
  unfold Chip.decidePartWritten
  split <;> simp

@[simp] theorem decideCell_keepsOffsets (c : Chip) (o : Nat) (x : Context) (v : Word) :
    (c.decideCell o x v).KeepsOffsets c := by
  unfold Chip.decideCell
  dsimp only
  repeat' split
  all_goals simp

theorem decideControl_keepsOffsets (c : Chip) (o : Nat) (x : Context) (v : Word) :
    (c.decideControl o x v).KeepsOffsets c := by
  unfold Chip.decideControl
  by_cases context : o < 4
  · rw [dif_pos context]
    exact onPath_offsets ..
  · rw [dif_neg context]
    simp only [keepsOffsets_ite, decidePartWritten_keepsOffsets, decideCell_keepsOffsets, keepsOffsets_accepted,
      takeMask_offsets, clearCauses_offsets, clearRefusals_offsets, takeFontsPresent_offsets, takeDeskWord_offsets,
      takeWidth_offsets, ite_self]

theorem reportWrite_offsets (c : Chip) (b : BlockNo) : (c.reportWrite b).offsets = c.offsets := by
  unfold Chip.reportWrite
  split <;> simp

theorem decide_keepsOffsets (c : Chip) (h : HostAccess) : (c.decide h).KeepsOffsets c := by
  unfold Chip.decide
  split
  · exact decideControl_keepsOffsets ..
  · unfold Chip.decideWindow
    repeat' split
    all_goals simp
  · unfold Chip.decideStory
    split
    · trivial
    · exact reportWrite_offsets ..
  · trivial
  · rfl

theorem decideWrite_inRange (h : s.chip.OffsetsInRange) (a : HostAccess) : (s.decideWrite a).chip.OffsetsInRange := by
  have kept := decide_keepsOffsets s.chip a
  unfold State.decideWrite
  split
  · next d accepted =>
    rw [accepted] at kept
    exact inRange_of_offsets h ((onPath_offsets ..).trans kept)
  · exact inRange_of_offsets h ((mark_offsets ..).trans (onPath_offsets ..))

theorem decideWrites_inRange : ∀ (l : List HostAccess) {s : State}, s.chip.OffsetsInRange →
    (l.foldl (fun t a => t.decideWrite a) s).chip.OffsetsInRange
  | [], _, h => h
  | a :: l, _, h => decideWrites_inRange l (decideWrite_inRange h a)

/-! ## The steps -/

theorem resetChip_inRange : Chip.reset.OffsetsInRange :=
  ⟨by decide +kernel, by decide +kernel, by decide +kernel, nofun, by decide +kernel, nofun⟩

theorem chipEvent_inRange {f : Chip → Chip} (h : s.chip.OffsetsInRange)
    (hf : ∀ {c : Chip}, c.OffsetsInRange → (f c).OffsetsInRange) (ht : chipEvent f s = .next t) :
    t.chip.OffsetsInRange := by
  rw [chipEvent_next ht]
  change (if s.chip.resetAsserted then s.chip else f s.chip).OffsetsInRange
  split
  · exact h
  · exact hf h

/-- An event of the blocks that moves no offset. -/
theorem chipEvent_steady {f : Chip → Chip} (h : s.chip.OffsetsInRange) (hf : ∀ c : Chip, (f c).offsets = c.offsets)
    (ht : chipEvent f s = .next t) : t.chip.OffsetsInRange :=
  chipEvent_inRange h (fun h => inRange_of_offsets h (hf _)) ht

theorem takeCommand_inRange {n : Nat} {body : Chip → Reply} (h : s.chip.OffsetsInRange)
    (hb : ∀ {c : Chip}, c.OffsetsInRange → (body c).InRange) (ht : takeCommand n body s = .next t) :
    t.chip.OffsetsInRange := by
  refine chipEvent_inRange h (fun {c} hc => ?_) ht
  split
  · exact answer_inRange hc hb
  · exact hc

/-- A command that moves no offset. -/
theorem takeCommand_steady {n : Nat} {body : Chip → Reply} (h : s.chip.OffsetsInRange)
    (hb : ∀ c : Chip, (body c).KeepsOffsets c) (ht : takeCommand n body s = .next t) : t.chip.OffsetsInRange :=
  takeCommand_inRange h (fun {c} hc => (hb c).inRange hc) ht

/-- The pulses of the clock and of the link, each taken where it is due. -/
theorem duePulse_inRange {q : Chip → Prop} [DecidablePred q] {f : Chip → Chip} (h : s.chip.OffsetsInRange)
    (hf : ∀ c : Chip, (f c).offsets = c.offsets) (ht : chipEvent (fun c => if q c then f c else c) s = .next t) :
    t.chip.OffsetsInRange :=
  chipEvent_steady h (fun c => by rw [ite_offsets, hf, ite_self]) ht

theorem ownWrite_inRange {r : Requester} {plan : Chip → Option OwnWrite} (h : s.chip.OffsetsInRange)
    (hp : ∀ {w}, plan s.chip = some w → w.after.OffsetsInRange) (ht : ownWrite r plan s = .next t) :
    t.chip.OffsetsInRange := by
  obtain rfl | ⟨w, a, hw, _, _, _, rfl⟩ := ownWrite_next ht
  · exact h
  · exact inRange_of_offsets (hp hw) (granted_offsets ..)

theorem ownRead_inRange {r : Requester} {plan : Chip → Option OwnRead} (h : s.chip.OffsetsInRange)
    (hp : ∀ {q}, plan s.chip = some q → ∀ w, (q.after w).OffsetsInRange) (ht : ownRead r plan s = .next t) :
    t.chip.OffsetsInRange := by
  obtain rfl | ⟨q, a, hq, _, _, _, rfl⟩ := ownRead_next ht
  · exact h
  · exact inRange_of_offsets (hp hq _) (granted_offsets ..)

theorem hostWrite_inRange {p : Processor} {a : Address} {v : Word} (h : s.chip.OffsetsInRange)
    (ht : hostWrite p a v s = .next t) : t.chip.OffsetsInRange := by
  unfold hostWrite at ht
  injection ht with ht
  subst ht
  split
  · exact h
  · exact decideWrite_inRange h _

theorem resetRelease_inRange {straps : BitVec 4} (h : s.chip.OffsetsInRange)
    (ht : execResetRelease straps s = .next t) : t.chip.OffsetsInRange := by
  unfold execResetRelease at ht
  injection ht with ht
  subst ht
  split
  · exact decideWrites_inRange _ (inRange_of_offsets h rfl)
  · exact h

/-! ## The words of key intake, of the fit engine and of the link move no offset -/

theorem keyWordWrite_offsets {w : OwnWrite} (h : c.keyWordWrite = some w) : w.after.offsets = c.offsets :=
  (does_keyWordWrite c w h).offsets

theorem putWordWrite_offsets {w : OwnWrite} (h : c.putWordWrite = some w) : w.after.offsets = c.offsets := by
  unfold Chip.putWordWrite at h
  split at h
  · cases h
    simp
  · cases h

theorem statusWordWrite_offsets {w : OwnWrite} (h : c.statusWordWrite = some w) : w.after.offsets = c.offsets :=
  (does_statusWordWrite c w h).offsets

theorem fitWord_offsets {q : OwnRead} (h : c.fitWord = some q) (w : Word) : (q.after w).offsets = c.offsets := by
  unfold Chip.fitWord at h
  split at h
  · cases h
    rfl
  · simp only [Option.bind_eq_some_iff, Option.map_eq_some_iff] at h
    obtain ⟨r, _, p, _, rfl⟩ := h
    exact processWord_offsets ..

theorem textWord_offsets {q : OwnRead} (h : c.textWord = some q) (w : Word) : (q.after w).offsets = c.offsets := by
  unfold Chip.textWord at h
  split at h
  · split at h
    · cases h
    · cases h
      simp
  · cases h

/-! ## Every row -/

/-- No row takes an offset out of range. -/
theorem exec_inRange (i : Instr) (h : s.chip.OffsetsInRange) (ht : exec i s = .next t) : t.chip.OffsetsInRange := by
  cases i with
  | reset =>
    cases ht
    exact resetChip_inRange
  | resetRelease straps => exact resetRelease_inRange h ht
  | hostWrite p a v => exact hostWrite_inRange h ht
  | storyWrite p a v => exact hostWrite_inRange h ht
  | screenRowWrite p a v => exact hostWrite_inRange h ht
  | takeWordWrite p a v => exact hostWrite_inRange h ht
  | contextWordWrite p a v => exact hostWrite_inRange h ht
  | attentionMaskWrite p a v => exact hostWrite_inRange h ht
  | attentionClearWrite p a v => exact hostWrite_inRange h ht
  | refusalCountClear p a v => exact hostWrite_inRange h ht
  | goWordWrite p a v => exact hostWrite_inRange h ht
  | fontsPresentWrite p a v => exact hostWrite_inRange h ht
  | deskTableWrite p a v => exact hostWrite_inRange h ht
  | widthTableWrite p a v => exact hostWrite_inRange h ht
  | cellTake => exact chipEvent_inRange h takeCell_inRange ht
  | cellWordRead => exact ownRead_inRange h (cellWordRead_inRange h) ht
  | cellResultWrite => exact ownWrite_inRange h (resultWrite_inRange h) ht
  | start => exact chipEvent_inRange h beginStart_inRange ht
  | startConfigRead => exact ownRead_inRange h (configRead_inRange h) ht
  | terminalOn => exact takeCommand_inRange h terminalOn_inRange ht
  | terminalOff => exact takeCommand_inRange h terminalOff_inRange ht
  | lineReset => exact takeCommand_inRange h lineReset_inRange ht
  | signOn => exact takeCommand_steady h signOn_keepsOffsets ht
  | signOff => exact takeCommand_steady h signOff_keepsOffsets ht
  | ackNotice => exact takeCommand_steady h ackNotice_keepsOffsets ht
  | postNotice => exact takeCommand_steady h postNotice_keepsOffsets ht
  | create => exact takeCommand_steady h create_keepsOffsets ht
  | attach => exact takeCommand_steady h attach_keepsOffsets ht
  | detach => exact takeCommand_steady h detach_keepsOffsets ht
  | submit => exact takeCommand_steady h submit_keepsOffsets ht
  | openStory => exact takeCommand_steady h openStory_keepsOffsets ht
  | send => exact takeCommand_steady h send_keepsOffsets ht
  | returnStory => exact takeCommand_steady h returnStory_keepsOffsets ht
  | kill => exact takeCommand_steady h kill_keepsOffsets ht
  | setStyle => exact takeCommand_steady h setStyle_keepsOffsets ht
  | refit => exact takeCommand_steady h refit_keepsOffsets ht
  | clockRun => exact takeCommand_steady h clockRun_keepsOffsets ht
  | clockPause => exact takeCommand_steady h clockPause_keepsOffsets ht
  | setClock => exact takeCommand_steady h setClock_keepsOffsets ht
  | setEditions => exact takeCommand_steady h setEditions_keepsOffsets ht
  | pageOpen => exact takeCommand_steady h pageOpen_keepsOffsets ht
  | setClose => exact takeCommand_steady h setClose_keepsOffsets ht
  | place => exact takeCommand_steady h place_keepsOffsets ht
  | unplace => exact takeCommand_steady h unplace_keepsOffsets ht
  | pageClear => exact takeCommand_steady h pageClear_keepsOffsets ht
  | release => exact takeCommand_steady h release_keepsOffsets ht
  | replate => exact takeCommand_steady h replate_keepsOffsets ht
  | linkOn => exact takeCommand_steady h linkOn_keepsOffsets ht
  | linkOff => exact takeCommand_steady h linkOff_keepsOffsets ht
  | linkResume => exact takeCommand_steady h linkResume_keepsOffsets ht
  | mirrorWriteOutBegin => exact chipEvent_inRange h beginWriteOut_inRange ht
  | mirrorWordWrite => exact ownWrite_inRange h (mirrorWord_inRange h) ht
  | rowWordRead l => exact ownRead_inRange h (rowWord_inRange h) ht
  | messageSent l => exact chipEvent_inRange h messageSent_inRange ht
  | takenAnswer l b => exact chipEvent_inRange h (fun h => lineByte_inRange h b) ht
  | busyAnswer l b => exact chipEvent_inRange h (fun h => lineByte_inRange h b) ht
  | keysAnswer l b => exact chipEvent_inRange h (fun h => lineByte_inRange h b) ht
  | quietAnswer l b => exact chipEvent_inRange h (fun h => lineByte_inRange h b) ht
  | answerBadKindOrCount l b => exact chipEvent_inRange h (fun h => lineByte_inRange h b) ht
  | lineByteReceived l b => exact chipEvent_inRange h (fun h => lineByte_inRange h b) ht
  | answerWindowExpiry l => exact chipEvent_inRange h windowExpiry_inRange ht
  | quietWindowExpiry l => exact chipEvent_inRange h quietExpiry_inRange ht
  | keyIntakeWriteBegin => exact chipEvent_steady h beginKeyItem_offsets ht
  | keyWordWrite => exact ownWrite_inRange h (fun hw => inRange_of_offsets h (keyWordWrite_offsets hw)) ht
  | putWordWrite => exact ownWrite_inRange h (fun hw => inRange_of_offsets h (putWordWrite_offsets hw)) ht
  | statusWordWrite => exact ownWrite_inRange h (fun hw => inRange_of_offsets h (statusWordWrite_offsets hw)) ht
  | noticeRowWriteBegin => exact chipEvent_inRange h beginRowWrite_inRange ht
  | noticeRowWordWrite => exact ownWrite_inRange h (rowWordWrite_inRange h) ht
  | writeReport => exact chipEvent_steady h takeReport_offsets ht
  | pulse => exact chipEvent_steady h clockPulse_offsets ht
  | editionClose => exact duePulse_inRange (q := fun c => c.closeDue = true) h clockPulse_offsets ht
  | pageLate => exact duePulse_inRange (q := fun c => c.lateDue = true) h clockPulse_offsets ht
  | leaseFirstExpiry => exact duePulse_inRange (q := fun c => c.expiryDue false = true) h clockPulse_offsets ht
  | leaseSecondExpiry => exact duePulse_inRange (q := fun c => c.expiryDue true = true) h clockPulse_offsets ht
  | fitWordRead => exact ownRead_inRange h (fun hq w => inRange_of_offsets h (fitWord_offsets hq w)) ht
  | pageTake => exact chipEvent_steady h pageTake_offsets ht
  | textWordRead => exact ownRead_inRange h (fun hq w => inRange_of_offsets h (textWord_offsets hq w)) ht
  | frameSent => exact chipEvent_steady h frameSent_offsets ht
  | linkPulse => exact chipEvent_steady h linkPulse_offsets ht
  | frameTimeout => exact duePulse_inRange (q := fun c => c.link.timesOut = true) h linkPulse_offsets ht
  | holdWaitEnd => exact duePulse_inRange (q := fun c => c.link.holdEnds = true) h linkPulse_offsets ht
  | holdLimitExceeded => exact duePulse_inRange (q := fun c => c.link.holdTooLong = true) h linkPulse_offsets ht
  | accept => exact chipEvent_steady h (fun c => answerWord_offsets c 1) ht
  | hold => exact chipEvent_steady h (fun c => answerWord_offsets c 2) ht
  | reject w => exact chipEvent_steady h (fun c => answerWord_offsets c w) ht

theorem step_inRange (h : s.chip.OffsetsInRange) (ht : step s = .next t) : t.chip.OffsetsInRange := by
  unfold step at ht
  split at ht
  · cases ht
    exact h
  · next i rest _ => exact exec_inRange (s := { s with pending := rest }) i h ht

end

/-- Settles O2: each own access lands in a placed area at an offset in range, and every row keeps the range. -/
theorem commandsStopOnlyAtUnplacedAreas : Obligations.CommandsStopOnlyAtUnplacedAreas := by
  unfold Obligations.CommandsStopOnlyAtUnplacedAreas
  exact ⟨fun i s => (exec_stops i s).refused, fun i s => (exec_stops i s).granted,
    fun i s => (exec_stops i s).placed, fun i s f placed range => (exec_stops i s).inside placed range f,
    fun _ _ => step_inRange, resetChip_inRange⟩

end Sys2Proof.Machine
end
